-- ==== Sys2Proof/Word.lean ====
section
/-! DEFINITION. The bit-vector types HUFFCORE's registers, buses and arrays are made of (00_scope.md rules R8, R9).
No value of HUFFCORE is signed. -/

namespace Sys2Proof

/-- One byte of a buffer. -/
abbrev Byte := BitVec 8

/-- One 32-bit register or bus word (R8: host address and data width). -/
abbrev Word := BitVec 32

/-- A symbol: one byte value of the closed alphabet of 256 (R8, R17). -/
abbrev Symbol := BitVec 8

/-- An index into the node arena, as the LEFT and RIGHT fields hold it (R47). -/
abbrev NodeIx := BitVec 9

/-- The NIL child index 0x1FF (R8). -/
abbrev NodeIx.nil : NodeIx := 0x1FF#9

end Sys2Proof
end

