-- ==== Sys2Proof/Config.lean ====
section
/-! DEFINITION. What an implementation of HUFFCORE fixes (the two buffer sizes) and the values the spec leaves free.
Each free value is an opaque constant, so that a claim holds whatever it is. -/

namespace Sys2Proof

/-- The implementation parameters of 00_scope.md rule R7. -/
structure Params where
  /-- IN_BUF_SIZE, the bytes of the input buffer -/
  inBufSize : Nat
  /-- OUT_BUF_SIZE, the bytes of the output buffer -/
  outBufSize : Nat
  deriving DecidableEq, Repr

/-- The constraint R7 puts on one buffer size: a multiple of 4 from 1024 to 2^24. -/
abbrev Params.sizeOk (n : Nat) : Bool :=
  n % 4 == 0 && decide (1024 ≤ n) && decide (n ≤ 16777216)

/-- The constraints of R7 on both sizes. -/
abbrev Params.wf (p : Params) : Bool :=
  Params.sizeOk p.inBufSize && Params.sizeOk p.outBufSize

/-- The default of R7: 65536 bytes each. -/
abbrev Params.default : Params := { inBufSize := 65536, outBufSize := 65536 }

/-- The two buffers, as names (20_memory.md rule R61). -/
inductive Buffer where
  | input
  | output
  deriving DecidableEq, Repr

namespace Config

/-- FREE VALUE. `draw32()` of 40_host_bus.md rule R115: what the n-th volatile read taken while busy returns
(70_reset_and_hazards.md rule R286). Nothing is known of it. Log entry 5. -/
opaque draw32 : Nat → BitVec 32

/-- FREE VALUE. `draw2()` of 40_host_bus.md rule R115: STATUS bits 5:4 in the n-th read taken while busy. Log entry 5. -/
opaque draw2 : Nat → BitVec 2

/-- FREE VALUE. What the byte of a buffer at an offset reads as while nothing has written it since the reset that drew
the seed: "unspecified (any value)" (70_reset_and_hazards.md rule R280). Log entry 6. -/
opaque bufferByte : (seed : Nat) → Buffer → (offset : Nat) → BitVec 8

end Config

end Sys2Proof
end

