-- ==== Sys2Proof/Syntax.lean ====
section
/-! DEFINITION. The instructions of HUFFCORE: one constructor per row of spec/opcode_table.json. A row of format CMD is a
command word written to CMD (30_encoding.md rules R80 to R82). A row of format HOSTTXN is one Host bus transaction
(30_encoding.md rule R99, 40_host_bus.md rule R110). -/

namespace Sys2Proof

/-- The two formats of the opcode table: a 32-bit command word, or a Host transaction's 37-bit descriptor with its write
data beside it. -/
inductive Format where
  | command
  | transaction
  deriving DecidableEq, Repr

/-- One constructor per row of spec/opcode_table.json, in the table's order. -/
inductive Instr where
  /-- CMD word 0x00000000 (R136) -/
  | nop
  /-- CMD word 0x00000001 (R137) -/
  | clear
  /-- CMD word 0x00000010 (R150) -/
  | analyze
  /-- CMD word 0x00000011 (R154) -/
  | build
  /-- CMD word 0x00000020 (R181) -/
  | derive
  /-- CMD word 0x00000030 (R200) -/
  | pack
  /-- CMD word 0x00000031 (R203) -/
  | unpack
  /-- CMD word 0x00000040 (R224) -/
  | sertree
  /-- CMD word 0x00000041 (R227) -/
  | parsetree
  /-- CMD word 0x00000050 (R232) -/
  | compress
  /-- CMD word 0x00000051 (R237) -/
  | decompress
  /-- any CMD word that R81 does not list (R82, R138) -/
  | illegal (word : Word)
  /-- HREAD(addr) (R115) -/
  | hread (addr : Word)
  /-- HWRITE(addr, wdata, strb) (R114) -/
  | hwrite (addr : Word) (wdata : Word) (strb : BitVec 4)
  deriving DecidableEq, Repr

/-- The format of an instruction's row in the opcode table. -/
def Instr.format : Instr → Format
  | .nop => .command
  | .clear => .command
  | .analyze => .command
  | .build => .command
  | .derive => .command
  | .pack => .command
  | .unpack => .command
  | .sertree => .command
  | .parsetree => .command
  | .compress => .command
  | .decompress => .command
  | .illegal _ => .command
  | .hread _ => .transaction
  | .hwrite _ _ _ => .transaction

end Sys2Proof
end

