-- ==== Sys2Proof/WellFormed.lean ====
section
/-! DEFINITION. Which instructions and parameters are well formed. The only constraint a term of `Instr` does not carry in
its types is that an illegal command word is not one of the words 30_encoding.md rule R81 lists. -/

namespace Sys2Proof

/-- The eleven command words of the opcode map, "the ones below, and only these" (R81). -/
def commandWords : List Word :=
  [0x00000000#32, 0x00000001#32, 0x00000010#32, 0x00000011#32, 0x00000020#32, 0x00000030#32, 0x00000031#32,
   0x00000040#32, 0x00000041#32, 0x00000050#32, 0x00000051#32]

/-- An `illegal` word is one that R81 does not list (R82). Every other term is well formed by its types. -/
def Instr.wf : Instr → Bool
  | .illegal w => !commandWords.contains w
  | .nop => true
  | .clear => true
  | .analyze => true
  | .build => true
  | .derive => true
  | .pack => true
  | .unpack => true
  | .sertree => true
  | .parsetree => true
  | .compress => true
  | .decompress => true
  | .hread _ => true
  | .hwrite _ _ _ => true

end Sys2Proof
end

