-- ==== Sys2Proof/Decode.lean ====
section
/-! DEFINITION. The decoder and the encoder of both formats (30_encoding.md rules R80 to R82 and R99). -/

namespace Sys2Proof

/-! ## Decoding words -/

/-- The opcode map of R81: a command word and its command. The mask is 0xFFFFFFFF, so a word is matched whole. -/
def opcodeMap : List (Word × Instr) :=
  [(0x00000000#32, .nop), (0x00000001#32, .clear),
   (0x00000010#32, .analyze), (0x00000011#32, .build),
   (0x00000020#32, .derive),
   (0x00000030#32, .pack), (0x00000031#32, .unpack),
   (0x00000040#32, .sertree), (0x00000041#32, .parsetree),
   (0x00000050#32, .compress), (0x00000051#32, .decompress)]

/-- The command a word written to CMD names: R81's, or ILLEGAL for every other word (R82). -/
def decodeCommand (w : Word) : Instr :=
  match opcodeMap.lookup w with
  | some i => i
  | none => .illegal w

/-- The transaction a 37-bit descriptor and its write data name: bit 36 = WR, bits 35:32 = STRB (ignored for an HREAD),
bits 31:0 = ADDR (R99). -/
def decodeRequest (desc : BitVec 37) (wdata : Word) : Instr :=
  if desc.getLsbD 36 then .hwrite (desc.extractLsb' 0 32) wdata (desc.extractLsb' 32 4)
  else .hread (desc.extractLsb' 0 32)

/-! ## Decoding bytes -/

/-- Why the byte decoder refuses. -/
inductive DecodeError where
  /-- fewer than the 4 bytes of a command word -/
  | commandTooShort
  /-- fewer than the 9 bytes of a descriptor (5) and its write data (4) -/
  | transactionTooShort
  /-- bits 39:37 of the descriptor's 5 bytes are not 0: R99's descriptor has 37 bits -/
  | descriptorTooWide
  deriving DecidableEq, Repr

/-- Four bytes as a word, the first in bits 7:0: the lane order of 20_memory.md rule R64. -/
def wordOfBytes (b0 b1 b2 b3 : Byte) : Word := b3 ++ b2 ++ b1 ++ b0

/-- Byte `i` of a word under the lane order of R64. -/
def laneOf (w : Word) (i : Nat) : Byte := w.extractLsb' (8 * i) 8

/-- The instruction that stands at the front of a list of bytes, and the bytes after it. A command word is 4 bytes. A
transaction is its descriptor in 5 bytes and its write data in 4, each least significant byte first (log entry 11). -/
def decode (f : Format) (bytes : List Byte) : Except DecodeError (Instr × List Byte) :=
  match f with
  | .command =>
    match bytes with
    | b0 :: b1 :: b2 :: b3 :: rest => .ok (decodeCommand (wordOfBytes b0 b1 b2 b3), rest)
    | _ => .error .commandTooShort
  | .transaction =>
    match bytes with
    | a0 :: a1 :: a2 :: a3 :: a4 :: d0 :: d1 :: d2 :: d3 :: rest =>
      if a4.extractLsb' 5 3 = 0#3 then
        .ok (decodeRequest (a4.extractLsb' 0 5 ++ wordOfBytes a0 a1 a2 a3) (wordOfBytes d0 d1 d2 d3), rest)
      else .error .descriptorTooWide
    | _ => .error .transactionTooShort

/-! ## Encoding -/

/-- The bytes of a word, in the lane order of R64. -/
def bytesOfWord (w : Word) : List Byte := [laneOf w 0, laneOf w 1, laneOf w 2, laneOf w 3]

/-- The 37-bit descriptor `{WR, STRB, ADDR}` of R99. -/
def descriptor (wr : BitVec 1) (strb : BitVec 4) (addr : Word) : BitVec 37 := wr ++ strb ++ addr

/-- The bytes of a transaction: its descriptor in 5 bytes, then its write data in 4. -/
def bytesOfTransaction (desc : BitVec 37) (wdata : Word) : List Byte :=
  bytesOfWord (desc.extractLsb' 0 32) ++ [0#3 ++ desc.extractLsb' 32 5] ++ bytesOfWord wdata

/-- The bytes of an instruction, from the tables of R81 and R99. An HREAD has STRB = 0 and no write data (0). -/
def encode : Instr → List Byte
  | .nop => bytesOfWord 0x00000000#32
  | .clear => bytesOfWord 0x00000001#32
  | .analyze => bytesOfWord 0x00000010#32
  | .build => bytesOfWord 0x00000011#32
  | .derive => bytesOfWord 0x00000020#32
  | .pack => bytesOfWord 0x00000030#32
  | .unpack => bytesOfWord 0x00000031#32
  | .sertree => bytesOfWord 0x00000040#32
  | .parsetree => bytesOfWord 0x00000041#32
  | .compress => bytesOfWord 0x00000050#32
  | .decompress => bytesOfWord 0x00000051#32
  | .illegal w => bytesOfWord w
  | .hread addr => bytesOfTransaction (descriptor 0#1 0#4 addr) 0#32
  | .hwrite addr wdata strb => bytesOfTransaction (descriptor 1#1 strb addr) wdata

/-! ## The opcode table's numbering -/

/-- The format of a row of the opcode table whose bits are `nbits` in whole bytes: 32 for CMD, 40 for HOSTTXN. -/
def formatOfBits (nbits : Nat) : Format := if nbits ≤ 32 then .command else .transaction

/-- The bytes of an instruction whose table bits are `w`, the bits above `nbits` being 0: 4 for a command word, 9 for a
transaction with its write data. -/
def tableBytes (nbits w : Nat) : List Byte :=
  (List.range (match formatOfBits nbits with | .command => 4 | .transaction => 9)).map
    fun i => BitVec.ofNat 8 ((w % 2 ^ nbits) / 2 ^ (8 * i))

/-- The instruction the decoder reads from an instruction whose bits are `w`, numbered as the opcode table numbers them. -/
def decodeTableWord (nbits w : Nat) : Option Instr :=
  match decode (formatOfBits nbits) (tableBytes nbits w) with
  | .ok (i, _) => some i
  | .error _ => none

end Sys2Proof
end

