-- ==== Sys2Proof/Machine/State.lean ====
section
/-! DEFINITION. The state of HUFFCORE (10_state.md rule R20) as plain data, the reasons a step can stop, and the state
after reset (70_reset_and_hazards.md rule R280). INVENTORY.md lists every field with its rule. -/

namespace Sys2Proof.Machine

/-! ## Arrays -/

/-- One entry of the node arena (R47). -/
structure Node where
  /-- 1 = leaf, 0 = internal -/
  leaf : Bool
  /-- 1 = the single-symbol placeholder leaf -/
  ph : Bool
  /-- the symbol of a leaf, 0 for an internal node -/
  sym : Symbol
  /-- the leaf's count, or the sum of the children's weights; 0 in a parsed tree -/
  weight : BitVec 40
  /-- arena index of the left child (bit 0), NIL for a leaf -/
  left : NodeIx
  /-- arena index of the right child (bit 1), NIL for a leaf -/
  right : NodeIx
  deriving DecidableEq, Repr, Inhabited

/-- The node arena: 511 entries, indices 0 to 510 (R47). -/
abbrev Arena := Vector Node 511

/-- One entry of the code table (R48): LEN = 0 means the symbol has no code. -/
structure Code where
  len : BitVec 8
  val : BitVec 255
  deriving DecidableEq, Repr, Inhabited

/-- The code table: one entry per symbol (R48). -/
abbrev CodeTable := Vector Code 256

/-- The frequency table: one 32-bit count per symbol (R46). -/
abbrev FreqTable := Vector Word 256

/-! ## Buffers -/

/-- The bytes of one buffer that have been written since the last reset, as (offset, byte) pairs at strictly rising
offsets. An unlisted offset holds no value here; the machine reads it as the free value `Config.bufferByte` (R280,
log entry 6). -/
abbrev Memory := List Host.Cell

/-- The canonical form of a buffer: offsets strictly rising. -/
def Memory.wf : Memory → Bool
  | [] => true
  | c :: m => m.all (fun d => decide (c.1 < d.1)) && Memory.wf m

/-! ## Hidden Core state -/

/-- The sequencer `seq` (R45). Every EXEC phase is one step here (R132), so EXEC carries the command word the Core keeps
for the whole command (R130); its opcode is bits 7:0. -/
inductive Seq where
  | idle
  | exec (word : Word)
  deriving DecidableEq, Repr

/-- One entry of the walk stack STK (R50): what the using rule pushes. -/
inductive StkEntry where
  /-- DERIVE: a node, its code length and prefix (R181) -/
  | code (node : NodeIx) (len : BitVec 8) (pre : BitVec 255)
  /-- SERTREE: a node (R221) -/
  | node (node : NodeIx)
  /-- PARSETREE: an open child slot, parent index and side (R225) -/
  | slot (par : NodeIx) (side : Bool)
  deriving DecidableEq, Repr, Inhabited

/-- The hidden registers and arrays whose contents between commands are unspecified (R49, R50, R51). -/
structure Hidden where
  /-- HEAP, 256 arena indices (R49) -/
  heap : Vector NodeIx 256
  /-- HSIZE, 0 to 256 (R49) -/
  hsize : Fin 257
  /-- STK, 512 entries (R50) -/
  stk : Vector StkEntry 512
  /-- ACC, the packer's partial byte (R51) -/
  acc : Byte
  /-- NACC, its fill count 0 to 7 (R51) -/
  nacc : Fin 8
  deriving DecidableEq, Repr, Inhabited

/-- The hidden state at reset: zeros, the model's choice where R280 says "unspecified" (log entry 7). -/
def Hidden.zero : Hidden :=
  { heap := Vector.replicate 256 0#9, hsize := 0, stk := Vector.replicate 512 (.node 0#9), acc := 0#8, nacc := 0 }

/-! ## The Host's side -/

/-- What the world outside the Core does next (R18, R280; log entry 2). -/
inductive Input where
  /-- the Host issues a transaction: its descriptor (R99) and the write data beside it -/
  | request (desc : BitVec 37) (wdata : Word)
  /-- the Core takes its completion step now, before the Host's next transaction (R132) -/
  | coreTurn
  /-- reset is asserted and released: one atomic environment step (R280) -/
  | resetPulse
  deriving DecidableEq, Repr

/-- What the bus answered to the Host's last transaction (R110). -/
inductive Response where
  /-- no transaction since reset -/
  | noneYet
  /-- an HREAD's (rdata, resp); `ok = false` is ERR -/
  | read (rdata : Word) (ok : Bool)
  /-- an HWRITE's resp -/
  | write (ok : Bool)
  deriving DecidableEq, Repr

/-! ## State -/

/-- The whole state of HUFFCORE (R20), with the model's own fields last. -/
structure State where
  /-- IN_BUF_SIZE and OUT_BUF_SIZE (R7): a parameter that no step changes (log entry 1) -/
  params : Params
  /-- STATUS.BUSY (R27) -/
  busy : Bool
  /-- STATUS.DONE -/
  done : Bool
  /-- STATUS.ERR -/
  err : Bool
  /-- STATUS.HAZ -/
  haz : Bool
  /-- STATUS.TREE_VALID -/
  treeValid : Bool
  /-- STATUS.CODES_VALID -/
  codesValid : Bool
  /-- STATUS.LAST_OP -/
  lastOp : BitVec 8
  /-- ERROR.CLASS (R28) -/
  errClass : BitVec 4
  /-- ERROR.DETAIL (R28) -/
  errDetail : BitVec 8
  /-- ERR_POS (R43) -/
  errPos : Word
  /-- IRQ_EN.DONE_IE (R29) -/
  doneIe : Bool
  /-- IN_LEN (R30) -/
  inLen : Word
  /-- IN_OFF (R31) -/
  inOff : Word
  /-- ORIG_LEN (R32) -/
  origLen : Word
  /-- OUT_LEN, 25 significant bits (R33) -/
  outLen : BitVec 25
  /-- IN_POS (R34) -/
  inPos : Word
  /-- NODE_COUNT, 10 significant bits (R35) -/
  nodeCount : BitVec 10
  /-- ROOT, 9 significant bits (R36) -/
  root : NodeIx
  /-- LEAF_COUNT, 9 significant bits (R37) -/
  leafCount : BitVec 9
  /-- DESC_BITS, 12 significant bits (R38) -/
  descBits : BitVec 12
  /-- PAYLOAD_BITS, both halves (R39) -/
  payloadBits : BitVec 64
  /-- MAX_CODE_LEN, 8 significant bits (R40) -/
  maxCodeLen : BitVec 8
  /-- NODE_SEL, 9 stored bits (R41) -/
  nodeSel : BitVec 9
  /-- CODE_SEL, 8 stored bits (R42) -/
  codeSel : BitVec 8
  /-- FREQ (R46) -/
  freq : FreqTable
  /-- NODE (R47) -/
  nodes : Arena
  /-- CODE (R48) -/
  codes : CodeTable
  /-- IN_BUF (R61) -/
  inBuf : Memory
  /-- OUT_BUF (R61) -/
  outBuf : Memory
  /-- the sequencer (R45) -/
  seq : Seq
  /-- HEAP, HSIZE, STK, ACC, NACC (R49 to R51) -/
  hidden : Hidden
  /-- the model's own: what happens next outside the Core, first first (log entry 2) -/
  inputs : List Input
  /-- the model's own: the bus response to the last transaction (log entry 4) -/
  resp : Response
  /-- the model's own: the counter every free value is drawn with (log entry 5) -/
  fresh : Nat
  /-- the model's own: the draw that fixed the buffers' unwritten bytes (log entry 6) -/
  bufSeed : Nat
  deriving DecidableEq, Repr

/-! ## Why a step can stop -/

/-- The reasons a step stops with a fault. HUFFCORE itself has no trap (60_exceptions.md rule R256); the one reason here
is a state that 10_state.md rule R53 rules out. -/
inductive Fault where
  /-- Raised by DERIVE, UNPACK, SERTREE, COMPRESS and DECOMPRESS when TREE_VALID = 1 but the walk from ROOT leaves the
  arena or has not ended after 511 nodes, so that NODE holds no tree of R53. Safe: no rule gives such a walk a meaning,
  and no run from reset meets one (log entry 12). -/
  | notATree
  deriving DecidableEq, Repr

/-- The reasons a step refuses. -/
inductive Refusal where
  /-- Raised only by an arm of `exec` whose instruction has no meaning yet; no arm uses it. Safe. -/
  | notModelled (mnemonic : String)
  deriving DecidableEq, Repr

/-! ## Reset -/

/-- The state after reset for given buffer sizes (R280): registers at the `reset value` column of R22, FREQ zero, `seq`
IDLE, both buffers with nothing written. NODE, CODE and the hidden state, which R280 leaves unspecified, are zeros (log
entries 7 and 9). Nothing is pending outside the Core, and no transaction has been answered. -/
def State.resetFor (p : Params) : State :=
  { params := p
    busy := false
    done := false
    err := false
    haz := false
    treeValid := false
    codesValid := false
    lastOp := 0#8
    errClass := 0#4
    errDetail := 0#8
    errPos := 0#32
    doneIe := false
    inLen := 0#32
    inOff := 0#32
    origLen := 0#32
    outLen := 0#25
    inPos := 0#32
    nodeCount := 0#10
    root := 0#9
    leafCount := 0#9
    descBits := 0#12
    payloadBits := 0#64
    maxCodeLen := 0#8
    nodeSel := 0#9
    codeSel := 0#8
    freq := Vector.replicate 256 0#32
    nodes := Vector.replicate 511 { leaf := false, ph := false, sym := 0#8, weight := 0#40, left := 0#9, right := 0#9 }
    codes := Vector.replicate 256 { len := 0#8, val := 0#255 }
    inBuf := []
    outBuf := []
    seq := .idle
    hidden := Hidden.zero
    inputs := []
    resp := .noneYet
    fresh := 1
    bufSeed := 0 }

/-- The state after reset, with the default buffer sizes of R7. -/
def State.reset : State := State.resetFor Params.default

/-- A machine for chosen buffer sizes, given only for sizes that meet the constraints of R7, "constraints the model must
check". -/
def State.resetChecked (p : Params) : Option State :=
  if p.wf then some (State.resetFor p) else none

end Sys2Proof.Machine

namespace Sys2Proof

/-- FREE VALUE. The hidden state a completed command leaves behind: "unspecified and no rule reads them"
(42_tree_builder.md rule R157, 10_state.md rules R50 and R51). Log entry 8. -/
opaque Config.freeHidden : Nat → Machine.Hidden

/-- FREE VALUE. What the arena entries at indices ≥ NODE_COUNT hold after a command: "unspecified values that no read can
observe" (10_state.md rule R47), "any value" at any time (93_implementation_defined.md, Part 2). Log entry 24. -/
opaque Config.freeArena : Nat → Machine.Arena

end Sys2Proof
end

