-- ==== Sys2Proof/Machine/Ops.lean ====
section
/-! DEFINITION. The named operations every meaning is written over: bytes of the buffers, entries of the arrays, starting
a command, raising an error, completing a command, the reset step, and which agent moves next. -/

namespace Sys2Proof.Machine

/-! ## Bytes of a buffer -/

/-- The byte last written at an offset since reset, if any. -/
def Memory.read : Memory → Nat → Option Byte
  | [], _ => none
  | c :: m, o => if c.1 = o then some c.2 else Memory.read m o

/-- Write one byte, keeping the offsets strictly rising. -/
def Memory.write : Memory → Nat → Byte → Memory
  | [], o, b => [(o, b)]
  | c :: m, o, b =>
    if o < c.1 then (o, b) :: c :: m
    else if o = c.1 then (o, b) :: m
    else c :: Memory.write m o b

/-- `MemRead(IN_BUF, o, 1)` (00_scope.md rule R11). A byte nothing has written since reset is free (R280, log entry 6). -/
def State.inByte (s : State) (o : Nat) : Byte :=
  match Memory.read s.inBuf o with
  | some b => b
  | none => Config.bufferByte s.bufSeed .input o

/-- `MemRead(OUT_BUF, o, 1)` (R11), as the Host sees it. The Core never reads OUT_BUF (20_memory.md rule R61). -/
def State.outByte (s : State) (o : Nat) : Byte :=
  match Memory.read s.outBuf o with
  | some b => b
  | none => Config.bufferByte s.bufSeed .output o

/-- Write consecutive bytes of a buffer from an offset upward. -/
def Memory.writeAll : Memory → Nat → List Byte → Memory
  | m, _, [] => m
  | m, o, b :: bs => Memory.writeAll (Memory.write m o b) (o + 1) bs

/-! ## Entries of the arrays -/

/-- The entry of a 256-entry array for a symbol. -/
def symGet {α : Type} (t : Vector α 256) (s : Symbol) : α := t[s.toNat]'s.isLt

/-- A 256-entry array with a symbol's entry replaced. -/
def symSet {α : Type} (t : Vector α 256) (s : Symbol) (x : α) : Vector α 256 := t.set s.toNat x s.isLt

/-- The 256 symbols in ascending order. -/
def allSymbols : List Symbol := (List.range 256).map (BitVec.ofNat 8)

/-- `NODE[i]`. The arena has indices 0 to 510, so NIL names no entry (R47). -/
def nodeAt (a : Arena) (i : NodeIx) : Option Node := a[i.toNat]?

/-- `NODE[i] <- n` for an index below 511. -/
def setNode (a : Arena) (i : Nat) (n : Node) : Arena := a.setIfInBounds i n

/-- `NODE[i].LEFT <- c` (R225). -/
def setLeft (a : Arena) (i : NodeIx) (c : NodeIx) : Arena :=
  match nodeAt a i with
  | some n => setNode a i.toNat { n with left := c }
  | none => a

/-- `NODE[i].RIGHT <- c` (R225). -/
def setRight (a : Arena) (i : NodeIx) (c : NodeIx) : Arena :=
  match nodeAt a i with
  | some n => setNode a i.toNat { n with right := c }
  | none => a

/-- The arena whose entries below `count` are `a`'s and whose other entries are `free`'s: what R47 leaves of an arena
with NODE_COUNT = `count` (log entry 24). -/
def freeFrom (count : Nat) (a free : Arena) : Arena :=
  ⟨(a.toList.take count ++ free.toList.drop count).toArray, by simp; omega⟩

/-- A leaf entry (R154, R225). -/
def leafNode (ph : Bool) (sym : Symbol) (weight : BitVec 40) : Node :=
  { leaf := true, ph := ph, sym := sym, weight := weight, left := NodeIx.nil, right := NodeIx.nil }

/-- An internal entry (R154, R225). -/
def internalNode (weight : BitVec 40) (left right : NodeIx) : Node :=
  { leaf := false, ph := false, sym := 0#8, weight := weight, left := left, right := right }

/-! ## Command start -/

/-- `start_command(w)` with the bookkeeping of R131 (41_control.md rules R130, R131). This is also the return from an
error: it clears DONE, ERR, ERROR and ERR_POS (60_exceptions.md rule R257). -/
def State.startCommand (s : State) (w : Word) : State :=
  { s with
    busy := true
    done := false
    err := false
    lastOp := w.extractLsb' 0 8
    errClass := 0#4
    errDetail := 0#8
    errPos := 0#32
    seq := .exec w }

/-! ## Errors: taking an exception -/

/-- The causes a command can raise, one per row of 60_exceptions.md rule R251. -/
inductive Cause where
  | magicShort
  | magicMismatch
  | headerShort
  | descExhausted
  | descTooManyNodes
  | descDupSymbol
  | descRootLeaf
  | payloadExhausted
  | outOverflow
  | illegalCommand
  | badArg
  | emptyTable
  | noTree
  | noCodes
  | uncodedSymbol
  deriving DecidableEq, Repr

/-- ERROR.CLASS of a cause (R250, R251). -/
def Cause.errClass : Cause → BitVec 4
  | .magicShort => 1#4
  | .magicMismatch => 1#4
  | .headerShort => 2#4
  | .descExhausted => 2#4
  | .descTooManyNodes => 2#4
  | .descDupSymbol => 2#4
  | .descRootLeaf => 2#4
  | .payloadExhausted => 2#4
  | .outOverflow => 3#4
  | .illegalCommand => 4#4
  | .badArg => 4#4
  | .emptyTable => 4#4
  | .noTree => 4#4
  | .noCodes => 4#4
  | .uncodedSymbol => 4#4

/-- ERROR.DETAIL of a cause (R251). -/
def Cause.errDetail : Cause → BitVec 8
  | .magicShort => 0x01#8
  | .magicMismatch => 0x02#8
  | .headerShort => 0x01#8
  | .descExhausted => 0x02#8
  | .descTooManyNodes => 0x03#8
  | .descDupSymbol => 0x04#8
  | .descRootLeaf => 0x05#8
  | .payloadExhausted => 0x06#8
  | .outOverflow => 0x01#8
  | .illegalCommand => 0x01#8
  | .badArg => 0x02#8
  | .emptyTable => 0x03#8
  | .noTree => 0x04#8
  | .noCodes => 0x05#8
  | .uncodedSymbol => 0x06#8

/-- What a command's pseudocode did to the state, up to its end (41_control.md rule R132). -/
inductive Run where
  /-- the next line goes on from here; at the last line, `finish()` -/
  | ok (s : State)
  /-- `raise E(DETAIL, pos)`, with the writes made before the raising line (R135, R256) -/
  | raise (c : Cause) (pos : Nat) (s : State)
  /-- a walk over an arena that holds no tree (log entry 12) -/
  | notATree
  deriving DecidableEq, Repr

/-- Run the next lines, unless the command has ended: "no later pseudocode line of that command runs" (R132). -/
def Run.andThen (r : Run) (k : State → Run) : Run :=
  match r with
  | .ok s => k s
  | .raise c pos s => .raise c pos s
  | .notATree => .notATree

/-- The completion step's own writes (R133), the same for success (`none`) and for a raised error: BUSY, DONE, ERR, ERROR,
ERR_POS and `seq`. The hidden arrays are left unspecified (R157, R50, R51; log entry 8), and so are the arena entries at
indices ≥ NODE_COUNT (R47; log entry 24). -/
def State.complete (s : State) (cause : Option Cause) (pos : Nat) : State :=
  { s with
    busy := false
    done := true
    err := cause.isSome
    errClass := match cause with | some c => c.errClass | none => 0#4
    errDetail := match cause with | some c => c.errDetail | none => 0#8
    errPos := BitVec.ofNat 32 pos
    seq := .idle
    nodes := freeFrom s.nodeCount.toNat s.nodes (Config.freeArena s.fresh)
    hidden := Config.freeHidden s.fresh
    fresh := s.fresh + 1 }

/-- The one way a command ends (R132, R133, R252, R256): `finish()` and `raise` both take the completion step. -/
def Run.complete (r : Run) : Host.Outcome State Fault Refusal :=
  match r with
  | .ok s => .next (s.complete none 0)
  | .raise c pos s => .next (s.complete (some c) pos)
  | .notATree => .fault .notATree

/-! ## Shared register writes -/

/-- Zero the tree registers, as CLEAR, a failed build or parse and the empty COMPRESS do (R137, R154, R225, R232). -/
def State.clearTreeRegs (s : State) : State :=
  { s with nodeCount := 0#10, root := 0#9, leafCount := 0#9, descBits := 0#12 }

/-- `TREE_VALID <- 0; CODES_VALID <- 0` (R53). -/
def State.invalidate (s : State) : State :=
  { s with treeValid := false, codesValid := false }

/-- `OUT_LEN <- n` (R33). -/
def State.setOutLen (s : State) (n : Nat) : State := { s with outLen := BitVec.ofNat 25 n }

/-- `IN_POS <- n` (R34). -/
def State.setInPos (s : State) (n : Nat) : State := { s with inPos := BitVec.ofNat 32 n }

/-- `PAYLOAD_BITS <- b`, both halves (R39). -/
def State.setPayloadBits (s : State) (b : Nat) : State := { s with payloadBits := BitVec.ofNat 64 b }

/-! ## Reset -/

/-- The reset step (R280, R282): the state after reset, whatever ran before. The parameters stay, what the Host does next
stays, and both buffers become unspecified: nothing is listed, under a seed no earlier byte was drawn with (log entry
13). -/
def State.resetStep (s : State) : State :=
  { State.resetFor s.params with inputs := s.inputs, fresh := s.fresh + 1, bufSeed := s.fresh }

/-! ## Who moves next -/

/-- The next atomic step of the machine (00_scope.md rule R18). -/
inductive Move where
  /-- the Core is idle and nothing comes from outside (60_exceptions.md rule R270) -/
  | rest
  /-- the Core completes the command it started with this word (R132) -/
  | command (word : Word)
  /-- the Host issues this transaction (R110) -/
  | request (desc : BitVec 37) (wdata : Word)
  /-- reset (R280) -/
  | reset
  deriving DecidableEq, Repr

/-- What the Core does when it is its turn: complete the running command, or nothing when idle. -/
def State.coreMove (s : State) : Move :=
  match s.seq with
  | .idle => .rest
  | .exec w => .command w

/-- The next move: the first pending input, or the Core's when none is pending (log entry 2). -/
def State.nextMove (s : State) : Move :=
  match s.inputs with
  | [] => s.coreMove
  | .request d w :: _ => .request d w
  | .coreTurn :: _ => s.coreMove
  | .resetPulse :: _ => .reset

/-- The state with the input that this step takes removed. -/
def State.takeInput (s : State) : State := { s with inputs := s.inputs.tail }

/-- The instruction the next step runs, if it runs one: the command whose completion is due, or the pending Host
transaction. This is HUFFCORE's fetch and decode; it has no program counter (R45). -/
def State.nextInstr (s : State) : Option Instr :=
  match s.nextMove with
  | .rest => none
  | .command w => some (decodeCommand w)
  | .request d w => some (decodeRequest d w)
  | .reset => none

/-- Place a command word where the next step takes it: a Core that has just started it (R130, R131) and whose turn it is. -/
def State.placeCommand (s : State) (w : Word) : State :=
  { s.startCommand w with
    inputs := match s.inputs with
      | [] => []
      | i :: is => .coreTurn :: i :: is }

/-- Place a transaction where the next step takes it: first among what the Host does. -/
def State.placeRequest (s : State) (desc : BitVec 37) (wdata : Word) : State :=
  { s with inputs := .request desc wdata :: s.inputs }

end Sys2Proof.Machine
end

