-- ==== Sys2Proof/Machine/Operands.lean ====
section
/-! DEFINITION. Operand forms: bit counts and bit strings, the input window, the Host address decode, and the lanes of a
word. -/

namespace Sys2Proof.Machine

/-! ## Bit counts and bit strings -/

/-- `ceil8(b)`, the bytes needed to hold `b` bits (00_scope.md rule R11). -/
def ceil8 (b : Nat) : Nat := (b + 7) / 8

/-- The low `n` bits of a value, most significant first: the bit string of length `n` it holds (00_scope.md rule R10). -/
def bitsMsb {w : Nat} (v : BitVec w) : Nat → List Bool
  | 0 => []
  | n + 1 => v.getLsbD n :: bitsMsb v n

/-! ## The input window -/

/-- `n = IN_LEN − IN_OFF` (00_scope.md rule R13). -/
def State.windowLen (s : State) : Nat := s.inLen.toNat - s.inOff.toNat

/-- The window `W = IN_BUF[IN_OFF .. IN_LEN)` (R13). -/
def State.window (s : State) : List Byte :=
  (List.range s.windowLen).map fun j => s.inByte (s.inOff.toNat + j)

/-- The condition of `check_window` (41_control.md rule R134): the window lies inside IN_BUF. -/
def State.windowOk (s : State) : Bool :=
  decide (s.inLen.toNat ≤ s.params.inBufSize) && decide (s.inOff.toNat ≤ s.inLen.toNat)

/-- `check_window()` (R134). -/
def State.checkWindow (s : State) : Run :=
  if s.windowOk then .ok s else .raise .badArg 0 s

/-- `inbit(p)`, the bit at absolute bit position `p` of IN_BUF, most significant bit of each byte first (00_scope.md
rule R14, 20_memory.md rule R66). -/
def State.inBit (s : State) (p : Nat) : Bool := (s.inByte (p / 8)).getLsbD (7 - p % 8)

/-- Bit `p` can be read: `p div 8 < IN_LEN` (R14, 44_bit_packer.md rule R198). -/
def State.bitAvailable (s : State) (p : Nat) : Bool := decide (p / 8 < s.inLen.toNat)

/-! ## Host address decode -/

/-- The registers of 10_state.md rule R22 (FREQ, an array, apart). -/
inductive Reg where
  | id
  | version
  | capIn
  | capOut
  | cmd
  | status
  | error
  | irqEn
  | inLen
  | inOff
  | origLen
  | outLen
  | inPos
  | nodeCount
  | root
  | leafCount
  | descBits
  | payloadBitsLo
  | payloadBitsHi
  | maxCodeLen
  | nodeSel
  | nodeInfo
  | nodeLink
  | nodeWlo
  | nodeWhi
  | codeSel
  | codeLen
  | codeW (j : Fin 8)
  | errPos
  deriving DecidableEq, Repr

/-- The byte offset of a register (R22). -/
def Reg.offset : Reg → Nat
  | .id => 0x000
  | .version => 0x004
  | .capIn => 0x008
  | .capOut => 0x00C
  | .cmd => 0x010
  | .status => 0x014
  | .error => 0x018
  | .irqEn => 0x01C
  | .inLen => 0x020
  | .inOff => 0x024
  | .origLen => 0x028
  | .outLen => 0x02C
  | .inPos => 0x030
  | .nodeCount => 0x034
  | .root => 0x038
  | .leafCount => 0x03C
  | .descBits => 0x040
  | .payloadBitsLo => 0x044
  | .payloadBitsHi => 0x048
  | .maxCodeLen => 0x04C
  | .nodeSel => 0x050
  | .nodeInfo => 0x054
  | .nodeLink => 0x058
  | .nodeWlo => 0x05C
  | .nodeWhi => 0x060
  | .codeSel => 0x064
  | .codeLen => 0x068
  | .codeW j => 0x06C + 4 * j.val
  | .errPos => 0x08C

/-- Every register, in the order of R22. -/
def allRegs : List Reg :=
  [.id, .version, .capIn, .capOut, .cmd, .status, .error, .irqEn, .inLen, .inOff, .origLen, .outLen, .inPos, .nodeCount,
   .root, .leafCount, .descBits, .payloadBitsLo, .payloadBitsHi, .maxCodeLen, .nodeSel, .nodeInfo, .nodeLink, .nodeWlo,
   .nodeWhi, .codeSel, .codeLen, .codeW 0, .codeW 1, .codeW 2, .codeW 3, .codeW 4, .codeW 5, .codeW 6, .codeW 7, .errPos]

/-- The register at a byte offset, if there is one. -/
def regAt (a : Nat) : Option Reg := allRegs.find? fun r => r.offset == a

/-- The classes of a Host address (40_host_bus.md rule R111). -/
inductive Target where
  | misaligned
  | reg (r : Reg)
  | freq (s : Symbol)
  | inBuf (o : Nat)
  | outBuf (o : Nat)
  | unmapped
  deriving DecidableEq, Repr

/-- The first address of the FREQ window (20_memory.md rule R62). -/
def freqBase : Nat := 0x400

/-- The first address of the IN_BUF window (R62). -/
def inBufBase : Nat := 0x01000000

/-- The first address of the OUT_BUF window (R62). -/
def outBufBase : Nat := 0x02000000

/-- Address decode, in the order of R111. -/
def decodeAddr (p : Params) (addr : Word) : Target :=
  let a := addr.toNat
  if a % 4 ≠ 0 then .misaligned
  else
    match regAt a with
    | some r => .reg r
    | none =>
      if freqBase ≤ a ∧ a ≤ 0x7FC then .freq (BitVec.ofNat 8 ((a - freqBase) / 4))
      else if inBufBase ≤ a ∧ a < inBufBase + p.inBufSize then .inBuf (a - inBufBase)
      else if outBufBase ≤ a ∧ a < outBufBase + p.outBufSize then .outBuf (a - outBufBase)
      else .unmapped

/-- Registers whose write is protected: the `P` rows of R22 (40_host_bus.md rule R114). -/
def Reg.isProtected : Reg → Bool
  | .cmd => true
  | .inLen => true
  | .inOff => true
  | .origLen => true
  | .nodeSel => true
  | .codeSel => true
  | _ => false

/-- `protected(c)` (R114, 70_reset_and_hazards.md rule R285). -/
def Target.isProtected : Target → Bool
  | .reg r => r.isProtected
  | .freq _ => true
  | .inBuf _ => true
  | .outBuf _ => true
  | .misaligned => false
  | .unmapped => false

/-- Registers whose read is volatile: the `V` rows of R22 (40_host_bus.md rule R115). -/
def Reg.isVolatile : Reg → Bool
  | .origLen => true
  | .outLen => true
  | .inPos => true
  | .nodeCount => true
  | .root => true
  | .leafCount => true
  | .descBits => true
  | .payloadBitsLo => true
  | .payloadBitsHi => true
  | .maxCodeLen => true
  | .nodeInfo => true
  | .nodeLink => true
  | .nodeWlo => true
  | .nodeWhi => true
  | .codeLen => true
  | .codeW _ => true
  | _ => false

/-- `volatile(c)` (R115): IN_BUF is not, because the Core never writes it. -/
def Target.isVolatile : Target → Bool
  | .reg r => r.isVolatile
  | .freq _ => true
  | .outBuf _ => true
  | .inBuf _ => false
  | .misaligned => false
  | .unmapped => false

/-! ## Lanes of a word -/

/-- Replace, in a stored word, the lanes whose strobes are set (20_memory.md rule R64, 40_host_bus.md rule R114). -/
def mergeLanes (old new : Word) (strb : BitVec 4) : Word :=
  let lane (i : Nat) : Byte := if strb.getLsbD i then laneOf new i else laneOf old i
  wordOfBytes (lane 0) (lane 1) (lane 2) (lane 3)

/-- Write, at a buffer offset, the bytes of a word whose strobes are set (R64, R114). -/
def writeLanes (m : Memory) (o : Nat) (wdata : Word) (strb : BitVec 4) : Memory :=
  let put (m : Memory) (i : Nat) : Memory := if strb.getLsbD i then Memory.write m (o + i) (laneOf wdata i) else m
  put (put (put (put m 0) 1) 2) 3

/-- The word of IN_BUF at an offset (R64). -/
def State.inWord (s : State) (o : Nat) : Word :=
  wordOfBytes (s.inByte o) (s.inByte (o + 1)) (s.inByte (o + 2)) (s.inByte (o + 3))

/-- The word of OUT_BUF at an offset (R64). -/
def State.outWord (s : State) (o : Nat) : Word :=
  wordOfBytes (s.outByte o) (s.outByte (o + 1)) (s.outByte (o + 2)) (s.outByte (o + 3))

end Sys2Proof.Machine
end

