-- ==== Sys2Proof/Machine/Flags.lean ====
section
/-! DEFINITION. The words the status, error and window registers read as, and the interrupt line. -/

namespace Sys2Proof.Machine

/-- STATUS with given bits 5:4 (10_state.md rule R27): reserved bits read 0. -/
def State.statusWith (s : State) (valid : BitVec 2) : Word :=
  0#16 ++ s.lastOp ++ 0#2 ++ valid ++ BitVec.ofBool s.haz ++ BitVec.ofBool s.err ++ BitVec.ofBool s.done ++
    BitVec.ofBool s.busy

/-- STATUS (R27): bit 4 = TREE_VALID, bit 5 = CODES_VALID. -/
def State.status (s : State) : Word :=
  s.statusWith (BitVec.ofBool s.codesValid ++ BitVec.ofBool s.treeValid)

/-- ERROR (10_state.md rule R28): CLASS = bits 3:0, DETAIL = bits 15:8. -/
def State.error (s : State) : Word := 0#16 ++ s.errDetail ++ 0#4 ++ s.errClass

/-- IRQ_EN (10_state.md rule R29). -/
def State.irqEn (s : State) : Word := 0#31 ++ BitVec.ofBool s.doneIe

/-- The interrupt output `irq = STATUS.DONE & IRQ_EN.DONE_IE` (60_exceptions.md rule R260). -/
def State.irq (s : State) : Bool := s.done && s.doneIe

/-- The entry the node window shows: NODE[NODE_SEL] if NODE_SEL < NODE_COUNT (10_state.md rule R41). -/
def State.windowNode (s : State) : Option Node :=
  if s.nodeSel.toNat < s.nodeCount.toNat then nodeAt s.nodes s.nodeSel else none

/-- NODE_INFO of an entry (R41). -/
def Node.info (n : Node) : Word := 0#16 ++ n.sym ++ 0#6 ++ BitVec.ofBool n.ph ++ BitVec.ofBool n.leaf

/-- NODE_LINK of an entry (R41). -/
def Node.link (n : Node) : Word := 0#7 ++ n.right ++ 0#7 ++ n.left

/-- The code the code window shows: CODE[CODE_SEL] if CODES_VALID = 1 (10_state.md rule R42). -/
def State.windowCode (s : State) : Option Code :=
  if s.codesValid then some (symGet s.codes s.codeSel) else none

/-- The value a register reads as while its value is defined (10_state.md rules R23 to R43). -/
def State.readReg (s : State) : Reg → Word
  | .id => 0x48554646#32
  | .version => 0x00000007#32
  | .capIn => BitVec.ofNat 32 s.params.inBufSize
  | .capOut => BitVec.ofNat 32 s.params.outBufSize
  | .cmd => 0#32
  | .status => s.status
  | .error => s.error
  | .irqEn => s.irqEn
  | .inLen => s.inLen
  | .inOff => s.inOff
  | .origLen => s.origLen
  | .outLen => s.outLen.setWidth 32
  | .inPos => s.inPos
  | .nodeCount => s.nodeCount.setWidth 32
  | .root => s.root.setWidth 32
  | .leafCount => s.leafCount.setWidth 32
  | .descBits => s.descBits.setWidth 32
  | .payloadBitsLo => s.payloadBits.extractLsb' 0 32
  | .payloadBitsHi => s.payloadBits.extractLsb' 32 32
  | .maxCodeLen => s.maxCodeLen.setWidth 32
  | .nodeSel => s.nodeSel.setWidth 32
  | .nodeInfo => match s.windowNode with | some n => n.info | none => 0#32
  | .nodeLink => match s.windowNode with | some n => n.link | none => 0#32
  | .nodeWlo => match s.windowNode with | some n => n.weight.extractLsb' 0 32 | none => 0#32
  | .nodeWhi => match s.windowNode with | some n => (n.weight.extractLsb' 32 8).setWidth 32 | none => 0#32
  | .codeSel => s.codeSel.setWidth 32
  | .codeLen => match s.windowCode with | some c => c.len.setWidth 32 | none => 0#32
  | .codeW j => match s.windowCode with | some c => c.val.extractLsb' (32 * j.val) 32 | none => 0#32
  | .errPos => s.errPos

end Sys2Proof.Machine
end

