-- ==== Sys2Proof/Machine/Bus.lean ====
section
/-! DEFINITION. The two Host bus transactions: HREAD and HWRITE (40_host_bus.md rules R110 to R116). -/

namespace Sys2Proof.Machine

/-- Answer an HREAD. A read changes no state of HUFFCORE (20_memory.md rule R70); only the model's own response port. -/
def State.answerRead (s : State) (rdata : Word) (ok : Bool) : State := { s with resp := .read rdata ok }

/-- Answer an HWRITE. -/
def State.answerWrite (s : State) (ok : Bool) : State := { s with resp := .write ok }

/-- Use up one draw of the model's counter (R115 corner case (a): "a fresh unconstrained value on every such read"). -/
def State.tick (s : State) : State := { s with fresh := s.fresh + 1 }

/-- What a mapped target reads as while its value is defined (R115). -/
def State.readTarget (s : State) : Target → Word
  | .reg r => s.readReg r
  | .freq sym => symGet s.freq sym
  | .inBuf o => s.inWord o
  | .outBuf o => s.outWord o
  | .misaligned => 0#32
  | .unmapped => 0#32

/-- HREAD, the load (R115): an error response off the map, a draw for a volatile target while busy, STATUS with bits 5:4
drawn while busy, and otherwise the stored value. -/
def State.busRead (s : State) (addr : Word) : State :=
  match decodeAddr s.params addr with
  | .misaligned => s.answerRead 0#32 false
  | .unmapped => s.answerRead 0#32 false
  | c =>
    if s.busy && c.isVolatile then s.tick.answerRead (Config.draw32 s.fresh) true
    else if s.busy && c == .reg .status then s.tick.answerRead (s.statusWith (Config.draw2 s.fresh)) true
    else s.answerRead (s.readTarget c) true

/-- What an accepted full-word write to a register does (R114). A read-only register takes no effect. -/
def State.writeReg (s : State) (wdata : Word) : Reg → State
  | .cmd => s.startCommand wdata
  | .status =>
    { s with
      done := if wdata.getLsbD 1 then false else s.done
      haz := if wdata.getLsbD 3 then false else s.haz }
  | .irqEn => { s with doneIe := wdata.getLsbD 0 }
  | .inLen => { s with inLen := wdata }
  | .inOff => { s with inOff := wdata }
  | .origLen => { s with origLen := wdata }
  | .nodeSel => { s with nodeSel := wdata.extractLsb' 0 9 }
  | .codeSel => { s with codeSel := wdata.extractLsb' 0 8 }
  | _ => s

/-- What an accepted write to a target does (R114). -/
def State.writeTarget (s : State) (wdata : Word) (strb : BitVec 4) : Target → State
  | .reg r => s.writeReg wdata r
  | .freq sym => { s with freq := symSet s.freq sym (mergeLanes (symGet s.freq sym) wdata strb) }
  | .inBuf o => { s with inBuf := writeLanes s.inBuf o wdata strb }
  | .outBuf o => { s with outBuf := writeLanes s.outBuf o wdata strb }
  | .misaligned => s
  | .unmapped => s

/-- A register write needs all four strobes (R113). -/
def Target.strobesBad (c : Target) (strb : BitVec 4) : Bool :=
  match c with
  | .reg _ => strb != 0b1111#4
  | _ => false

/-- HWRITE, the store (R114): an error response off the map (R112) or for a register with partial strobes (R113), a
dropped write with HAZ set for a protected target while busy (R285), and otherwise the write. -/
def State.busWrite (s : State) (addr wdata : Word) (strb : BitVec 4) : State :=
  match decodeAddr s.params addr with
  | .misaligned => s.answerWrite false
  | .unmapped => s.answerWrite false
  | c =>
    if c.strobesBad strb then s.answerWrite false
    else if s.busy && c.isProtected then State.answerWrite { s with haz := true } true
    else (s.writeTarget wdata strb c).answerWrite true

/-- HREAD (R115). -/
def execHread (addr : Word) (s : State) : Host.Outcome State Fault Refusal := .next (s.busRead addr)

/-- HWRITE (R114). -/
def execHwrite (addr wdata : Word) (strb : BitVec 4) (s : State) : Host.Outcome State Fault Refusal :=
  .next (s.busWrite addr wdata strb)

end Sys2Proof.Machine
end

