-- ==== Sys2Proof/Machine/Derive.lean ====
section
/-! DEFINITION. The code table deriver: DERIVE (43_code_deriver.md). -/

namespace Sys2Proof.Machine

/-- The walk of `derive_codes` (R181): the stack, last pushed first, holds (node, length, prefix). It ends with the code
table, or with `none` if the walk leaves the arena or pops more than `fuel` nodes (log entry 12). -/
def walkCodes (a : Arena) : (fuel : Nat) → List (NodeIx × Nat × Nat) → CodeTable → Option CodeTable
  | _, [], t => some t
  | 0, _ :: _, _ => none
  | fuel + 1, (i, len, pre) :: rest, t =>
    match nodeAt a i with
    | none => none
    | some n =>
      if n.leaf then
        walkCodes a fuel rest
          (if n.ph then t else symSet t n.sym { len := BitVec.ofNat 8 len, val := BitVec.ofNat 255 pre })
      else
        walkCodes a fuel ((n.left, len + 1, 2 * pre) :: (n.right, len + 1, 2 * pre + 1) :: rest) t

/-- A tree of R53 has at most 511 nodes, each popped once. -/
def walkFuel : Nat := 511

/-- `max over s of CODE[s].LEN` (R182). -/
def longestCode (t : CodeTable) : Nat := t.toList.foldl (fun m c => max m c.len.toNat) 0

/-- `Σ over s of FREQ[s] · CODE[s].LEN` (R182). -/
def payloadLength (f : FreqTable) (t : CodeTable) : Nat :=
  (List.zipWith (fun n c => n.toNat * c.len.toNat) f.toList t.toList).sum

/-- `derive_codes()` (R181, R182). -/
def State.deriveCodes (s : State) : Run :=
  match walkCodes s.nodes walkFuel [(s.root, 0, 0)] (Vector.replicate 256 { len := 0#8, val := 0#255 }) with
  | none => .notATree
  | some t =>
    .ok { s with
      codes := t
      maxCodeLen := BitVec.ofNat 8 (longestCode t)
      payloadBits := BitVec.ofNat 64 (payloadLength s.freq t)
      codesValid := true }

/-- DERIVE (R181). -/
def execDerive (s : State) : Host.Outcome State Fault Refusal :=
  (if s.treeValid then s.deriveCodes else Run.raise .noTree 0 s).complete

end Sys2Proof.Machine
end

