-- ==== Sys2Proof/Machine/Pack.lean ====
section
/-! DEFINITION. The bit packer and unpacker: the bit accumulator, PACK and UNPACK (44_bit_packer.md). -/

namespace Sys2Proof.Machine

/-! ## The bit writer -/

/-- The packer at work: OUT_BUF, the cursor `op` (R195), ACC and NACC (R199). -/
structure Writer where
  buf : Memory
  op : Nat
  acc : Byte
  nacc : Nat
  deriving DecidableEq, Repr

/-- A writer at a cursor, after `acc_reset()` (R199). -/
def Writer.start (buf : Memory) (op : Nat) : Writer := { buf := buf, op := op, acc := 0#8, nacc := 0 }

/-- `put_bit(b)` (R199). -/
def Writer.putBit (w : Writer) (b : Bool) : Writer :=
  let acc := w.acc ||| ((BitVec.ofBool b).setWidth 8 <<< (7 - w.nacc))
  if w.nacc + 1 = 8 then { buf := Memory.write w.buf w.op acc, op := w.op + 1, acc := 0#8, nacc := 0 }
  else { w with acc := acc, nacc := w.nacc + 1 }

/-- `put_bit` for each bit of a string in turn. -/
def Writer.putBits (w : Writer) (bs : List Bool) : Writer := bs.foldl Writer.putBit w

/-- `flush()` (R199): write a partial byte, zero-padded. -/
def Writer.flush (w : Writer) : Writer :=
  if w.nacc > 0 then { buf := Memory.write w.buf w.op w.acc, op := w.op + 1, acc := 0#8, nacc := 0 } else w

/-- The bit string of a code: bit LEN−1 of VAL first (R199, 30_encoding.md rule R93). -/
def Code.bits (c : Code) : List Bool := bitsMsb c.val c.len.toNat

/-- `put_code(s)` (R199). -/
def Writer.putCode (t : CodeTable) (w : Writer) (s : Symbol) : Writer := w.putBits (symGet t s).bits

/-- `put_code(W[j])` for each byte of a list in turn (R200 phase EMIT, R232). -/
def Writer.putCodes (t : CodeTable) (w : Writer) (ws : List Byte) : Writer := ws.foldl (Writer.putCode t) w

/-! ## PACK -/

/-- Phase PREPASS (R200): the total bit count of a list of bytes from position `j` on, or the position of the first byte
that has no code. -/
def packBits (t : CodeTable) : List Byte → (j : Nat) → (bits : Nat) → Except Nat Nat
  | [], _, bits => .ok bits
  | b :: bs, j, bits =>
    if (symGet t b).len = 0#8 then .error j else packBits t bs (j + 1) (bits + (symGet t b).len.toNat)

/-- Phases CAPACITY, EMIT and FLUSH (R200) for a window of `bits` bits. -/
def State.emitPayload (s : State) (bits : Nat) : Run :=
  if ceil8 bits > s.params.outBufSize then .raise .outOverflow 0 s
  else
    let w := ((Writer.start s.outBuf 0).putCodes s.codes s.window).flush
    .ok ((({ s with outBuf := w.buf }.setOutLen w.op).setPayloadBits bits).setInPos s.inLen.toNat)

/-- PACK after its window check (R200). -/
def State.packWindow (s : State) : Run :=
  if s.codesValid then
    match packBits s.codes s.window 0 0 with
    | .error j => .raise .uncodedSymbol (s.inOff.toNat + j) s
    | .ok bits => s.emitPayload bits
  else .raise .noCodes 0 s

/-- PACK (R200). -/
def execPack (s : State) : Host.Outcome State Fault Refusal :=
  ((s.setOutLen 0).checkWindow.andThen State.packWindow).complete

/-! ## UNPACK -/

/-- How one symbol's walk ends. -/
inductive Walk where
  /-- at a leaf with this symbol, the next bit being at position `p` -/
  | leaf (sym : Symbol) (p : Nat)
  /-- out of bits -/
  | exhausted
  /-- outside the arena (log entry 12) -/
  | notATree
  deriving DecidableEq, Repr

/-- Phase WALK (R203) from node `i` and bit position `p`. `fuel` is the bits left, `8 · IN_LEN − p`, so it is 0 exactly
when `p div 8 ≥ IN_LEN`. -/
def walkSymbol (s : State) : (fuel : Nat) → (i : NodeIx) → (p : Nat) → Walk
  | fuel, i, p =>
    match nodeAt s.nodes i with
    | none => .notATree
    | some n =>
      if n.leaf then .leaf n.sym p
      else
        match fuel with
        | 0 => .exhausted
        | fuel + 1 => walkSymbol s fuel (if s.inBit p then n.right else n.left) (p + 1)

/-- How `unpack_symbols` ends, with OUT_BUF as it left it. -/
inductive Unpacked where
  /-- all symbols written, the next bit being at position `p` -/
  | done (buf : Memory) (p : Nat)
  /-- out of bits; the complete symbols are written -/
  | exhausted (buf : Memory)
  /-- outside the arena (log entry 12) -/
  | notATree
  deriving DecidableEq, Repr

/-- `unpack_symbols(N)` (R203): `count` symbols to OUT_BUF offsets `j`, `j + 1`, … from bit position `p`. -/
def unpackSymbols (s : State) : (count : Nat) → (j : Nat) → (p : Nat) → Memory → Unpacked
  | 0, _, p, buf => .done buf p
  | count + 1, j, p, buf =>
    match walkSymbol s (8 * s.inLen.toNat - p) s.root p with
    | .leaf sym p' => unpackSymbols s count (j + 1) p' (Memory.write buf j sym)
    | .exhausted => .exhausted buf
    | .notATree => .notATree

/-- `unpack_symbols(N)` from bit position `p`, then OUT_LEN and IN_POS (R203, 45_container.md rule R237). -/
def State.unpackFrom (s : State) (count p : Nat) : Run :=
  match unpackSymbols s count 0 p s.outBuf with
  | .done buf p' => .ok (({ s with outBuf := buf }.setOutLen count).setInPos (ceil8 p'))
  | .exhausted buf => .raise .payloadExhausted s.inLen.toNat { s with outBuf := buf }
  | .notATree => .notATree

/-- UNPACK after its window check (R203). -/
def State.unpackWindow (s : State) : Run :=
  if s.origLen = 0#32 then .ok (s.setInPos s.inOff.toNat)
  else if s.treeValid then
    if s.origLen.toNat > s.params.outBufSize then .raise .outOverflow 0 s
    else s.unpackFrom s.origLen.toNat (8 * s.inOff.toNat)
  else .raise .noTree 0 s

/-- UNPACK (R203). -/
def execUnpack (s : State) : Host.Outcome State Fault Refusal :=
  ((s.setOutLen 0).checkWindow.andThen State.unpackWindow).complete

end Sys2Proof.Machine
end

