-- ==== Sys2Proof/Machine/Tree.lean ====
section
/-! DEFINITION. The frequency analyser and the tree builder: ANALYZE and BUILD, with the priority queue and the tree-node
state machine (42_tree_builder.md). -/

namespace Sys2Proof.Machine

/-! ## ANALYZE -/

/-- `FREQ[s] <- FREQ[s] + 1` for each byte of a list in turn (R150). -/
def countBytes (f : FreqTable) (ws : List Byte) : FreqTable :=
  ws.foldl (fun f b => symSet f b (symGet f b + 1#32)) f

/-- `analyze()` (R150): zero the table, then count the window. -/
def State.analyze (s : State) : State :=
  { s with freq := countBytes (Vector.replicate 256 0#32) s.window }

/-- ANALYZE (R150). -/
def execAnalyze (s : State) : Host.Outcome State Fault Refusal :=
  (s.checkWindow.andThen fun s => .ok (s.analyze.setInPos s.inLen.toNat)).complete

/-! ## The priority queue -/

/-- `NODE[i].WEIGHT`. -/
def weightAt (a : Arena) (i : NodeIx) : BitVec 40 :=
  match nodeAt a i with
  | some n => n.weight
  | none => 0#40

/-- `less(i, j)`: the order of the keys (WEIGHT, arena index) (R152). -/
def keyLess (a : Arena) (i j : NodeIx) : Bool :=
  (weightAt a i).ult (weightAt a j) || (weightAt a i == weightAt a j && i.ult j)

/-- The 256 entries of HEAP. -/
abbrev HeapArray := Vector NodeIx 256

/-- `HEAP[c]`. -/
def heapAt (h : HeapArray) (c : Nat) : NodeIx := h.getD c 0#9

/-- `swap(HEAP[c], HEAP[p])`. -/
def heapSwap (h : HeapArray) (c p : Nat) : HeapArray :=
  (h.setIfInBounds c (heapAt h p)).setIfInBounds p (heapAt h c)

/-- The sift-up loop of `heap_insert` (R153). `c` halves at each turn, so `fuel = c` turns are enough. -/
def siftUp (a : Arena) : (fuel : Nat) → HeapArray → (c : Nat) → HeapArray
  | 0, h, _ => h
  | fuel + 1, h, c =>
    if c = 0 then h
    else
      let p := (c - 1) / 2
      if keyLess a (heapAt h c) (heapAt h p) then siftUp a fuel (heapSwap h c p) p else h

/-- The index of the least key among `c` and its children below `hsize` (R153). -/
def bestChild (a : Arena) (h : HeapArray) (hsize c : Nat) : Nat :=
  let l := 2 * c + 1
  let r := 2 * c + 2
  let best := if l < hsize ∧ keyLess a (heapAt h l) (heapAt h c) then l else c
  if r < hsize ∧ keyLess a (heapAt h r) (heapAt h best) then r else best

/-- The sift-down loop of `heap_extract_min` (R153). `c` grows at each turn, so `fuel = hsize` turns are enough. -/
def siftDown (a : Arena) (hsize : Nat) : (fuel : Nat) → HeapArray → (c : Nat) → HeapArray
  | 0, h, _ => h
  | fuel + 1, h, c =>
    let best := bestChild a h hsize c
    if best = c then h else siftDown a hsize fuel (heapSwap h c best) best

/-- HEAP with HSIZE (R49). -/
structure Heap where
  arr : HeapArray
  size : Nat
  deriving DecidableEq, Repr

/-- `heap_insert(i)` (R153). -/
def heapInsert (a : Arena) (h : Heap) (i : NodeIx) : Heap :=
  { arr := siftUp a h.size (h.arr.setIfInBounds h.size i) h.size, size := h.size + 1 }

/-- `heap_extract_min()` (R153), for HSIZE ≥ 1: the index it returns and the heap it leaves. -/
def heapExtractMin (a : Arena) (h : Heap) : NodeIx × Heap :=
  let n := h.size - 1
  let arr := if n > 0 then siftDown a n n (h.arr.setIfInBounds 0 (heapAt h.arr n)) 0 else h.arr
  (heapAt h.arr 0, { arr := arr, size := n })

/-! ## BUILD -/

/-- Phase SCAN (R154): a leaf for each present symbol of a list, from arena index `k` upward, and the next free index. -/
def scanLeaves (f : FreqTable) : List Symbol → Arena → (k : Nat) → Arena × Nat
  | [], a, k => (a, k)
  | s :: ss, a, k =>
    if symGet f s ≠ 0#32 then
      scanLeaves f ss (setNode a k (leafNode false s ((symGet f s).setWidth 40))) (k + 1)
    else scanLeaves f ss a k

/-- `single_symbol_tree()` (R158): the placeholder leaf NODE[1] and the root NODE[2]; the real leaf is NODE[0]. -/
def singleSymbolTree (a : Arena) : Arena :=
  match nodeAt a 0#9 with
  | none => a
  | some n =>
    setNode
      (setNode a 1 (leafNode true (if n.sym = 0x00#8 then 0x01#8 else 0x00#8) 0#40))
      2 (internalNode n.weight 0#9 1#9)

/-- The builder's working state in the merge loop: the arena, the queue and the next free index `m`. -/
structure Builder where
  nodes : Arena
  heap : Heap
  m : Nat
  deriving DecidableEq, Repr

/-- Phase LOAD (R154): insert indices `i`, `i + 1`, …, `count` of them. -/
def loadHeap (a : Arena) : (count : Nat) → (i : Nat) → Heap → Heap
  | 0, _, h => h
  | count + 1, i, h => loadHeap a count (i + 1) (heapInsert a h (BitVec.ofNat 9 i))

/-- One turn of the merge loop (R154, R159): POP_A, POP_B, MERGE and PUSH. The first node extracted is the LEFT child. -/
def mergeStep (b : Builder) : Builder :=
  let (x, h1) := heapExtractMin b.nodes b.heap
  let (y, h2) := heapExtractMin b.nodes h1
  let nodes := setNode b.nodes b.m (internalNode (weightAt b.nodes x + weightAt b.nodes y) x y)
  { nodes := nodes, heap := heapInsert nodes h2 (BitVec.ofNat 9 b.m), m := b.m + 1 }

/-- The merge loop `while HSIZE > 1` (R154). Each turn lowers HSIZE by one, so `fuel = k` turns are enough. -/
def mergeLoop : (fuel : Nat) → Builder → Builder
  | 0, b => b
  | fuel + 1, b => if b.heap.size > 1 then mergeLoop fuel (mergeStep b) else b

/-- The arena, and the index after the root, that a scan of `k` leaves is built into (R154). The merge loop starts from
the stale HEAP array and HSIZE = 0. -/
def growTree (stale : HeapArray) (a : Arena) (k : Nat) : Arena × Nat :=
  if k = 1 then (singleSymbolTree a, 3)
  else
    let b := mergeLoop k { nodes := a, heap := loadHeap a k 0 { arr := stale, size := 0 }, m := k }
    (b.nodes, b.m)

/-- `build_tree()` (R154, R158): EMPTY_TABLE if no symbol is present, else the tree and its registers. It writes
NODE[0 .. m); the entries at indices ≥ m = NODE_COUNT are unspecified (R47), and the completion step frees them (log
entry 24). -/
def State.buildTree (s : State) : Run :=
  let scan := scanLeaves s.freq allSymbols s.nodes 0
  let k := scan.2
  if k = 0 then .raise .emptyTable 0 s.clearTreeRegs
  else
    let grown := growTree s.hidden.heap scan.1 k
    let leaves := if k = 1 then 2 else k
    .ok { s with
      nodes := grown.1
      nodeCount := BitVec.ofNat 10 grown.2
      root := BitVec.ofNat 9 (grown.2 - 1)
      leafCount := BitVec.ofNat 9 leaves
      descBits := BitVec.ofNat 12 (10 * leaves - 1)
      treeValid := true }

/-- BUILD (R154). -/
def execBuild (s : State) : Host.Outcome State Fault Refusal := s.invalidate.buildTree.complete

end Sys2Proof.Machine
end

