-- ==== Sys2Proof/Machine/Container.lean ====
section
/-! DEFINITION. The container codec and the two engines: SERTREE, PARSETREE, COMPRESS and DECOMPRESS (45_container.md). -/

namespace Sys2Proof.Machine

/-! ## The descriptor writer -/

/-- `write_desc()` (R221): the stack, last pushed first, holds nodes. It ends with the writer, or with `none` if the walk
leaves the arena or pops more than `fuel` nodes (log entry 12). -/
def writeDesc (a : Arena) : (fuel : Nat) → List NodeIx → Writer → Option Writer
  | _, [], w => some w
  | 0, _ :: _, _ => none
  | fuel + 1, i :: rest, w =>
    match nodeAt a i with
    | none => none
    | some n =>
      if n.leaf then writeDesc a fuel rest ((w.putBit true).putBits (bitsMsb n.sym 8))
      else writeDesc a fuel (n.left :: n.right :: rest) (w.putBit false)

/-- The descriptor of the current tree through a fresh accumulator from cursor `op`, flushed (R224, R232). -/
def State.descWriter (s : State) (buf : Memory) (op : Nat) : Option Writer :=
  (writeDesc s.nodes walkFuel [s.root] (Writer.start buf op)).map Writer.flush

/-- SERTREE after OUT_LEN and its tree check (R224). -/
def State.serializeTree (s : State) : Run :=
  match s.descWriter s.outBuf 0 with
  | none => .notATree
  | some w => .ok ({ s with outBuf := w.buf }.setOutLen w.op)

/-- SERTREE (R224). -/
def execSertree (s : State) : Host.Outcome State Fault Refusal :=
  (if s.treeValid then (s.setOutLen 0).serializeTree else Run.raise .noTree 0 (s.setOutLen 0)).complete

/-! ## The descriptor reader -/

/-- The parser at work (R225): the arena, the next free index `m`, the leaves so far `l`, the symbols seen, and the bit
position `p`. -/
structure Parser where
  nodes : Arena
  m : Nat
  l : Nat
  seen : List Symbol
  p : Nat
  deriving DecidableEq, Repr

/-- How `parse_tree` ends. -/
inductive Parsed where
  | done (r : Parser)
  /-- `parse_fail(detail, pos)`; the arena entries written before stay behind, hidden by NODE_COUNT = 0, until the
  completion step frees them (R47, log entry 24) -/
  | fail (c : Cause) (pos : Nat) (nodes : Arena)
  deriving DecidableEq, Repr

/-- `for b in 0 .. 7: s <- 2·s + getbit()` (R225): `count` bits from position `p` into `acc`, or `none` when a bit lies
at or beyond IN_LEN. -/
def readBits (s : State) : (count : Nat) → (p : Nat) → (acc : Nat) → Option Nat
  | 0, _, acc => some acc
  | count + 1, p, acc =>
    if s.bitAvailable p then readBits s count (p + 1) (2 * acc + (s.inBit p).toNat) else none

/-- Link a new node into the open slot it fills (R225): `par = NIL` for the root. -/
def linkChild (a : Arena) (par : NodeIx) (side : Bool) (i : NodeIx) : Arena :=
  if par = NodeIx.nil then a else if side then setRight a par i else setLeft a par i

/-- The loop of `parse_tree` (R225) over the open slots, last pushed first. `room` is the arena entries left, `511 − m`,
so it is 0 exactly when `m = 511` and the node limit fails. -/
def parseLoop (s : State) : (room : Nat) → List (NodeIx × Bool) → Parser → Parsed
  | _, [], r => .done r
  | 0, _ :: _, r => .fail .descTooManyNodes (r.p / 8) r.nodes
  | room + 1, (par, side) :: rest, r =>
    if s.bitAvailable r.p then
      let i := BitVec.ofNat 9 r.m
      let linked := linkChild r.nodes par side i
      if s.inBit r.p then
        if r.m = 0 then .fail .descRootLeaf (r.p / 8) linked
        else
          match readBits s 8 (r.p + 1) 0 with
          | none => .fail .descExhausted s.inLen.toNat linked
          | some v =>
            let sym := BitVec.ofNat 8 v
            if r.seen.contains sym then .fail .descDupSymbol ((r.p + 8) / 8) linked
            else
              parseLoop s room rest
                { nodes := setNode linked r.m (leafNode false sym 0#40)
                  m := r.m + 1
                  l := r.l + 1
                  seen := sym :: r.seen
                  p := r.p + 9 }
      else
        parseLoop s room ((i, false) :: (i, true) :: rest)
          { nodes := setNode linked r.m (internalNode 0#40 NodeIx.nil NodeIx.nil)
            m := r.m + 1
            l := r.l
            seen := r.seen
            p := r.p + 1 }
    else .fail .descExhausted s.inLen.toNat r.nodes

/-- `parse_tree(p0)` (R225), going on with the bit position after the descriptor. -/
def State.parseTree (s : State) (p0 : Nat) (k : State → (p : Nat) → Run) : Run :=
  match parseLoop s 511 [(NodeIx.nil, false)] { nodes := s.nodes, m := 0, l := 0, seen := [], p := p0 } with
  | .fail c pos nodes => .raise c pos { s.invalidate.clearTreeRegs with nodes := nodes }
  | .done r =>
    k { s.invalidate with
        nodes := r.nodes
        nodeCount := BitVec.ofNat 10 r.m
        root := 0#9
        leafCount := BitVec.ofNat 9 r.l
        descBits := BitVec.ofNat 12 (r.p - p0)
        treeValid := true } r.p

/-- PARSETREE (R227). -/
def execParsetree (s : State) : Host.Outcome State Fault Refusal :=
  (s.checkWindow.andThen fun s =>
    s.parseTree (8 * s.inOff.toNat) fun s p => .ok (s.setInPos (ceil8 p))).complete

/-! ## COMPRESS -/

/-- The magic marker, ASCII "HUFF" (30_encoding.md rule R84). -/
def magic : List Byte := [0x48#8, 0x55#8, 0x46#8, 0x46#8]

/-- A length as 4 bytes, most significant first (30_encoding.md rule R85). -/
def be32 (n : Word) : List Byte := [n.extractLsb' 24 8, n.extractLsb' 16 8, n.extractLsb' 8 8, n.extractLsb' 0 8]

/-- `write_header(n)` (R220): OUT_BUF with the 8 header bytes; the cursor is then 8. -/
def writeHeader (m : Memory) (n : Word) : Memory := Memory.writeAll m 0 (magic ++ be32 n)

/-- The n = 0 branch of COMPRESS (R232): the 8-byte empty container. -/
def State.compressEmpty (s : State) : State :=
  (({ s.clearTreeRegs with
      payloadBits := 0#64
      maxCodeLen := 0#8
      outBuf := writeHeader s.outBuf 0#32 }).setOutLen 8).setInPos s.inLen.toNat

/-- COMPRESS from its capacity check on (R232): header, descriptor and payload. -/
def State.emitContainer (s : State) : Run :=
  if 8 + ceil8 s.descBits.toNat + ceil8 s.payloadBits.toNat > s.params.outBufSize then .raise .outOverflow 0 s
  else
    match s.descWriter (writeHeader s.outBuf (BitVec.ofNat 32 s.windowLen)) 8 with
    | none => .notATree
    | some d =>
      let w := ((Writer.start d.buf d.op).putCodes s.codes s.window).flush
      .ok (({ s with outBuf := w.buf }.setOutLen w.op).setInPos s.inLen.toNat)

/-- COMPRESS after its window check (R232). DESIGN CHOICE: 30_encoding.md rule R85 says that n ≥ 2^24 never occurs here,
while R7 and R134 admit a window of exactly 2^24 bytes; the model compresses it and stores n = 2^24 (log entry 25). -/
def State.compressWindow (s : State) : Run :=
  let t := { s.invalidate with origLen := BitVec.ofNat 32 s.windowLen }.analyze
  if s.windowLen = 0 then .ok t.compressEmpty
  else (t.buildTree.andThen State.deriveCodes).andThen State.emitContainer

/-- COMPRESS (R232). -/
def execCompress (s : State) : Host.Outcome State Fault Refusal :=
  ((s.setOutLen 0).checkWindow.andThen State.compressWindow).complete

/-! ## DECOMPRESS -/

/-- `read_be32(o + 4)`, four single-byte reads assembled big-endian (R236). -/
def State.lengthField (s : State) (o : Nat) : Word :=
  s.inByte (o + 4) ++ s.inByte (o + 5) ++ s.inByte (o + 6) ++ s.inByte (o + 7)

/-- The first four bytes at an offset are the magic marker (R235). -/
def State.magicAt (s : State) (o : Nat) : Bool :=
  [s.inByte o, s.inByte (o + 1), s.inByte (o + 2), s.inByte (o + 3)] == magic

/-- DECOMPRESS once ORIG_LEN holds the container's length (R237). -/
def State.decodeContainer (s : State) : Run :=
  let o := s.inOff.toNat
  if s.origLen = 0#32 then .ok (s.setInPos (o + 8))
  else if s.origLen.toNat > s.params.outBufSize then .raise .outOverflow 0 s
  else s.parseTree (8 * (o + 8)) fun s p => s.unpackFrom s.origLen.toNat (8 * ceil8 p)

/-- DECOMPRESS after its window check (R237): magic, header length, then the container. -/
def State.decompressWindow (s : State) : Run :=
  let o := s.inOff.toNat
  let m := s.windowLen
  if m < 4 then .raise .magicShort o s
  else if s.magicAt o then
    if m < 8 then .raise .headerShort s.inLen.toNat s
    else { s with origLen := s.lengthField o }.decodeContainer
  else .raise .magicMismatch o s

/-- DECOMPRESS (R237). -/
def execDecompress (s : State) : Host.Outcome State Fault Refusal :=
  ((s.setOutLen 0).checkWindow.andThen State.decompressWindow).complete

end Sys2Proof.Machine
end

