-- ==== Sys2Proof/Machine/Control.lean ====
section
/-! DEFINITION. The control commands NOP and CLEAR, and every command word outside the opcode map (41_control.md). A
command's meaning here is the Core's completion step for it (rules R132, R133). -/

namespace Sys2Proof.Machine

/-- NOP: `finish()` (R136). -/
def execNop (s : State) : Host.Outcome State Fault Refusal := (Run.ok s).complete

/-- CLEAR's writes (R137): FREQ, the validity flags, the tree and payload registers, OUT_LEN, IN_POS and ORIG_LEN.
DESIGN CHOICE: 10_state.md rule R21 lets only the Host, COMPRESS and DECOMPRESS change ORIG_LEN, R137's pseudocode has
CLEAR zero it, and the model follows R137, as the vector of 95_test_vectors.md L2.1 row 2 does (log entry 23). -/
def State.clearAll (s : State) : State :=
  { s.clearTreeRegs.invalidate with
    freq := Vector.replicate 256 0#32
    payloadBits := 0#64
    maxCodeLen := 0#8
    outLen := 0#25
    inPos := 0#32
    origLen := 0#32 }

/-- CLEAR (R137). -/
def execClear (s : State) : Host.Outcome State Fault Refusal := (Run.ok s.clearAll).complete

/-- An illegal command word: `raise CommandError(ILLEGAL_COMMAND, 0)` (R138). The word itself is already in LAST_OP. -/
def execIllegal (_word : Word) (s : State) : Host.Outcome State Fault Refusal :=
  (Run.raise .illegalCommand 0 s).complete

end Sys2Proof.Machine
end

