-- ==== Sys2Proof/Machine/Dispatch.lean ====
section
/-! DEFINITION. One arm per constructor of `Instr`. For a CMD row the meaning is the Core's completion step for the
command (41_control.md rules R132, R133); for a HOSTTXN row it is the Host's transaction (40_host_bus.md). -/

namespace Sys2Proof.Machine

def exec (i : Instr) (s : State) : Host.Outcome State Fault Refusal :=
  match i with
  | .nop => Sys2Proof.Machine.execNop s
  | .clear => Sys2Proof.Machine.execClear s
  | .analyze => Sys2Proof.Machine.execAnalyze s
  | .build => Sys2Proof.Machine.execBuild s
  | .derive => Sys2Proof.Machine.execDerive s
  | .pack => Sys2Proof.Machine.execPack s
  | .unpack => Sys2Proof.Machine.execUnpack s
  | .sertree => Sys2Proof.Machine.execSertree s
  | .parsetree => Sys2Proof.Machine.execParsetree s
  | .compress => Sys2Proof.Machine.execCompress s
  | .decompress => Sys2Proof.Machine.execDecompress s
  | .illegal word => Sys2Proof.Machine.execIllegal word s
  | .hread addr => Sys2Proof.Machine.execHread addr s
  | .hwrite addr wdata strb => Sys2Proof.Machine.execHwrite addr wdata strb s

end Sys2Proof.Machine
end

