-- ==== Sys2Proof/Machine/Step.lean ====
section
/-! DEFINITION. One step of the machine: one atomic step of the Host, of the Core or of the reset input (00_scope.md rule
R18, 20_memory.md rule R72). -/

namespace Sys2Proof.Machine

/-- One step: take the next move, and run the instruction it names. An idle Core with nothing pending does nothing
(60_exceptions.md rule R270). -/
def step (s : State) : Host.Outcome State Fault Refusal :=
  match s.nextMove with
  | .rest => .next s.takeInput
  | .command w => exec (decodeCommand w) s.takeInput
  | .request d w => exec (decodeRequest d w) s.takeInput
  | .reset => .next s.takeInput.resetStep

/-- `s` with one instruction placed where the next step takes it, given its bits as the opcode table numbers them: for a
CMD row, a Core that has just started the word; for a HOSTTXN row, the Host's next transaction (log entry 3). -/
def State.withFetchWord (s : State) (nbits w : Nat) : State :=
  match formatOfBits nbits with
  | .command => s.placeCommand (BitVec.ofNat 32 (w % 2 ^ nbits))
  | .transaction => s.placeRequest (BitVec.ofNat 37 (w % 2 ^ nbits)) (BitVec.ofNat 32 ((w % 2 ^ nbits) / 2 ^ 40))

end Sys2Proof.Machine
end

