-- ==== Sys2Proof/Safety.lean ====
section
/-! DEFINITION. The words claims about HUFFCORE are stated in: bit strings packed into bytes, code trees as mathematical
trees and how an arena holds one, what a completed command changes, and the invariants of 10_state.md. Nothing here is
part of the machine. -/

namespace Sys2Proof.Machine

/-! ## Bit strings -/

/-- `val(s)`, the integer a bit string is held as (00_scope.md rule R10). -/
def bitsVal (bs : List Bool) : Nat := bs.foldl (fun v b => 2 * v + b.toNat) 0

/-- Byte `j` of `pack(s)`: bits `8j` to `8j + 7` of the string, zeros beyond its end, most significant first
(00_scope.md rule R15). -/
def packByte (bs : List Bool) (j : Nat) : Byte :=
  BitVec.ofNat 8 ((List.range 8).map fun i => (bs.getD (8 * j + i) false).toNat * 2 ^ (7 - i)).sum

/-- `pack(s)` (R15): `ceil8(len(s))` bytes. -/
def packBytes (bs : List Bool) : List Byte := (List.range (ceil8 bs.length)).map (packByte bs)

/-- The bits of IN_BUF from bit position `p` on begin with this bit string, all of them below IN_LEN (R14). -/
def State.bitsAt (s : State) (p : Nat) (bs : List Bool) : Prop :=
  p + bs.length ≤ 8 * s.inLen.toNat ∧ ∀ q, (h : q < bs.length) → s.inBit (p + q) = bs[q]

/-- IN_BUF holds these bytes from offset `o` on. -/
def State.inBytesAt (s : State) (o : Nat) (bs : List Byte) : Prop :=
  ∀ j, (h : j < bs.length) → s.inByte (o + j) = bs[j]

/-- `t`'s OUT_BUF is `s`'s with these bytes written from offset 0: they are there, and every other byte is as before. -/
def State.outBytesWritten (s t : State) (bs : List Byte) : Prop :=
  (∀ j, (h : j < bs.length) → t.outByte j = bs[j]) ∧ ∀ j, bs.length ≤ j → t.outByte j = s.outByte j

/-! ## Code trees -/

/-- A strict binary tree with symbols at its leaves (10_state.md rule R52); `ph` marks the placeholder leaf. -/
inductive CodeTree where
  | leaf (sym : Symbol) (ph : Bool)
  | node (l r : CodeTree)
  deriving DecidableEq, Repr

/-- The symbols of the leaves, left to right. -/
def CodeTree.symbols : CodeTree → List Symbol
  | .leaf sym _ => [sym]
  | .node l r => l.symbols ++ r.symbols

/-- The number of nodes. -/
def CodeTree.size : CodeTree → Nat
  | .leaf _ _ => 1
  | .node l r => l.size + r.size + 1

/-- `desc(node)` (30_encoding.md rule R86). -/
def CodeTree.desc : CodeTree → List Bool
  | .leaf sym _ => true :: bitsMsb sym 8
  | .node l r => false :: (l.desc ++ r.desc)

/-- Every leaf with its edge bits from the root, 0 to the left and 1 to the right (43_code_deriver.md rule R180). -/
def CodeTree.leafPaths : CodeTree → List (Symbol × Bool × List Bool)
  | .leaf sym ph => [(sym, ph, [])]
  | .node l r =>
    l.leafPaths.map (fun x => (x.1, x.2.1, false :: x.2.2)) ++ r.leafPaths.map (fun x => (x.1, x.2.1, true :: x.2.2))

/-- The symbol and edge bits of every leaf: what a decoding walk can reach (44_bit_packer.md rule R205). -/
def CodeTree.paths (t : CodeTree) : List (Symbol × List Bool) := t.leafPaths.map fun x => (x.1, x.2.2)

/-- The codes of the real leaves (43_code_deriver.md rules R180, R181): the placeholder has none. -/
def CodeTree.codes (t : CodeTree) : List (Symbol × List Bool) :=
  (t.leafPaths.filter fun x => !x.2.1).map fun x => (x.1, x.2.2)

/-- The tree with its placeholder turned into an ordinary leaf, as a parsed tree has it (45_container.md rule R223). -/
def CodeTree.eraseMarks : CodeTree → CodeTree
  | .leaf sym _ => .leaf sym false
  | .node l r => .node l.eraseMarks r.eraseMarks

/-- The tree is internal at its root. -/
def CodeTree.isNode : CodeTree → Bool
  | .leaf _ _ => false
  | .node _ _ => true

/-- The arena holds this tree at this index: the entries' LEAF, PH, SYM, LEFT and RIGHT say so (R47). -/
def CodeTree.heldAt (a : Arena) : CodeTree → NodeIx → Prop
  | .leaf sym ph, i => ∃ n, nodeAt a i = some n ∧ n.leaf = true ∧ n.sym = sym ∧ n.ph = ph
  | .node l r, i => ∃ n, nodeAt a i = some n ∧ n.leaf = false ∧ l.heldAt a n.left ∧ r.heldAt a n.right

/-- The arena indices of a tree's nodes in pre-order, read from the arena. -/
def CodeTree.indices (a : Arena) : CodeTree → NodeIx → List NodeIx
  | .leaf _ _, i => [i]
  | .node l r, i =>
    match nodeAt a i with
    | some n => i :: (l.indices a n.left ++ r.indices a n.right)
    | none => [i]

/-- The arena entries 0 to NODE_COUNT − 1 form this tree, rooted at ROOT, with the properties of 10_state.md rule R53:
every entry reachable exactly once, ROOT internal, no two leaves with one SYM, and the counts of R35 to R38. -/
def State.holdsTree (s : State) (t : CodeTree) : Prop :=
  t.heldAt s.nodes s.root ∧
  (t.indices s.nodes s.root).Perm ((List.range s.nodeCount.toNat).map (BitVec.ofNat 9)) ∧
  t.isNode = true ∧
  t.symbols.Nodup ∧
  s.leafCount.toNat = t.symbols.length ∧
  s.nodeCount.toNat = 2 * s.leafCount.toNat - 1 ∧
  s.descBits.toNat = 10 * s.leafCount.toNat - 1

/-- CODE holds exactly the codes of this tree (R48, R53, R181): each real leaf's edge bits as LEN and VAL, and LEN = 0,
VAL = 0 for every other symbol. -/
def CodeTree.codeTable (t : CodeTree) (c : CodeTable) : Prop :=
  (∀ x ∈ t.codes, (symGet c x.1).len.toNat = x.2.length ∧ (symGet c x.1).val.toNat = bitsVal x.2) ∧
  ∀ sym, (∀ x ∈ t.codes, x.1 ≠ sym) → symGet c sym = { len := 0#8, val := 0#255 }

/-- The symbols with FREQ[s] > 0, in ascending order (42_tree_builder.md rule R151). -/
def presentSymbols (f : FreqTable) : List Symbol := allSymbols.filter fun x => symGet f x ≠ 0#32

/-- The payload bit string of a list of bytes under a code table (30_encoding.md rule R90). -/
def payloadOf (c : CodeTable) (ws : List Byte) : List Bool := ws.flatMap fun b => (symGet c b).bits

/-- The container's bytes (30_encoding.md rule R83): magic, length, descriptor, payload. -/
def containerOf (t : CodeTree) (c : CodeTable) (ws : List Byte) : List Byte :=
  [0x48#8, 0x55#8, 0x46#8, 0x46#8] ++ be32 (BitVec.ofNat 32 ws.length) ++ packBytes t.desc ++ packBytes (payloadOf c ws)

/-! ## Descriptors that break off -/

/-- The bits of one node in a descriptor (30_encoding.md rule R86): `none` is an internal node, its tag 0 alone, and
`some x` a leaf, its tag 1 and the symbol. -/
def itemBits : Option Symbol → List Bool
  | none => [false]
  | some x => true :: bitsMsb x 8

/-- The open child slots once these nodes have filled slots in pre-order (45_container.md rule R225), from `n` open ones;
0 when the nodes run on after the last slot is filled. -/
def openSlots : Nat → List (Option Symbol) → Nat
  | n, [] => n
  | 0, _ :: _ => 0
  | n + 1, none :: items => openSlots (n + 2) items
  | n + 1, some _ :: items => openSlots n items

/-- Nodes that a descriptor parser accepts one by one and after which a slot is still open: at most 511 of them (the node
limit of 45_container.md rule R226), the first no leaf, no symbol twice. -/
def descPrefix (items : List (Option Symbol)) : Prop :=
  0 < openSlots 1 items ∧ (items.filterMap id).Nodup ∧ items.length ≤ 511

/-- `i` is a command that parses a descriptor from bit `p`, and `base` is the state it parses in: PARSETREE at the
window's start (45_container.md rule R227), or DECOMPRESS behind a header of a length `n` that OUT_BUF can hold, once
ORIG_LEN and OUT_LEN are written (R237). -/
def State.parsesAt (s : State) (i : Instr) (base : State) (p : Nat) : Prop :=
  (i = .parsetree ∧ base = s ∧ p = 8 * s.inOff.toNat) ∨
  (i = .decompress ∧ p = 8 * (s.inOff.toNat + 8) ∧ 8 ≤ s.windowLen ∧
    ∃ n : Word, n ≠ 0#32 ∧ n.toNat ≤ s.params.outBufSize ∧
      s.inBytesAt s.inOff.toNat ([0x48#8, 0x55#8, 0x46#8, 0x46#8] ++ be32 n) ∧
      base = { s with origLen := n, outLen := 0#25 })

/-- `s` as `parse_fail` leaves it (45_container.md rule R225): no tree, its registers 0, and the arena as far as it was
written. -/
def State.withTreeCleared (s : State) (nodes : Arena) : State :=
  { s with
    nodes := nodes, treeValid := false, codesValid := false, nodeCount := 0#10, root := 0#9, leafCount := 0#9,
    descBits := 0#12 }

/-! ## The priority queue -/

/-- The queued indices. -/
def Heap.live (h : Heap) : List NodeIx := (List.range h.size).map (heapAt h.arr)

/-- HEAP[0 .. HSIZE) is a binary min-heap under `less` (42_tree_builder.md rule R153). -/
def Heap.ordered (a : Arena) (h : Heap) : Prop :=
  ∀ c, 0 < c → c < h.size → keyLess a (heapAt h.arr c) (heapAt h.arr ((c - 1) / 2)) = false

/-! ## What a completed command changes -/

/-- `t` is `s` after the completion step with this result (41_control.md rule R133) and nothing else: the hidden arrays
and the model's own counter apart, every field of `t` that the step does not write is `s`'s, the arena in its entries below
NODE_COUNT. The other entries are unspecified (10_state.md rule R47, log entry 24), and nothing is said of them. -/
def State.finished (s : State) (cause : Option Cause) (pos : Nat) (t : State) : Prop :=
  (∀ i : NodeIx, i.toNat < s.nodeCount.toNat → nodeAt t.nodes i = nodeAt s.nodes i) ∧
  t = { s with
    busy := false
    done := true
    err := cause.isSome
    errClass := match cause with | some c => c.errClass | none => 0#4
    errDetail := match cause with | some c => c.errDetail | none => 0#8
    errPos := BitVec.ofNat 32 pos
    seq := .idle
    nodes := t.nodes
    hidden := t.hidden
    fresh := t.fresh }

/-- The ERROR words of 60_exceptions.md rule R251. -/
def errorWords : List Word :=
  [0x00000101#32, 0x00000201#32, 0x00000102#32, 0x00000202#32, 0x00000302#32, 0x00000402#32, 0x00000502#32,
   0x00000602#32, 0x00000103#32, 0x00000104#32, 0x00000204#32, 0x00000304#32, 0x00000404#32, 0x00000504#32,
   0x00000604#32]

/-! ## Invariants -/

/-- Both buffers are in canonical form. -/
def State.buffersCanonical (s : State) : Prop := Memory.wf s.inBuf = true ∧ Memory.wf s.outBuf = true

/-- The life cycle's bookkeeping: BUSY = 1 exactly when `seq ≠ IDLE` (10_state.md rule R45), and while busy DONE = 0,
ERR = 0, ERROR = 0, ERR_POS = 0 and LAST_OP is the running command's opcode (70_reset_and_hazards.md rule R287); ERR = 1
exactly when ERROR.CLASS ≠ 0 (R27); ERROR is 0 or a word of R251. -/
def State.lifecycleOk (s : State) : Prop :=
  (s.busy = true ↔ s.seq ≠ .idle) ∧
  (∀ w, s.seq = .exec w →
    s.done = false ∧ s.err = false ∧ s.error = 0#32 ∧ s.errPos = 0#32 ∧ s.lastOp = w.extractLsb' 0 8) ∧
  (s.err = true ↔ s.errClass ≠ 0#4) ∧
  (s.error = 0#32 ∨ s.error ∈ errorWords)

/-- CODES_VALID = 1 only with TREE_VALID = 1, and with TREE_VALID = 0 the tree registers are 0 (R36, R53). -/
def State.treeRegsOk (s : State) : Prop :=
  (s.codesValid = true → s.treeValid = true) ∧
  (s.treeValid = false → s.nodeCount = 0#10 ∧ s.root = 0#9 ∧ s.leafCount = 0#9 ∧ s.descBits = 0#12)

/-- The validity flags tell the truth (10_state.md rule R53): TREE_VALID = 1 means the arena holds a tree, and
CODES_VALID = 1 that CODE holds that tree's codes. -/
def State.flagsTrue (s : State) : Prop :=
  (s.treeValid = true → ∃ t, s.holdsTree t) ∧
  (s.codesValid = true → ∃ t, s.holdsTree t ∧ t.codeTable s.codes)

/-- The values 70_reset_and_hazards.md rule R280 states: the constants, every other register 0, FREQ zero, `seq` IDLE, irq
low. -/
def State.hasResetValues (s : State) : Prop :=
  s.seq = .idle ∧ s.irq = false ∧ (∀ sym, symGet s.freq sym = 0#32) ∧
  s.readReg .id = 0x48554646#32 ∧ s.readReg .version = 0x00000007#32 ∧
  s.readReg .capIn = BitVec.ofNat 32 s.params.inBufSize ∧ s.readReg .capOut = BitVec.ofNat 32 s.params.outBufSize ∧
  ∀ r : Reg, r ≠ .id → r ≠ .version → r ≠ .capIn → r ≠ .capOut → s.readReg r = 0#32

/-- The window lies inside IN_BUF (41_control.md rule R134). -/
def State.windowFits (s : State) : Prop := s.inLen.toNat ≤ s.params.inBufSize ∧ s.inOff.toNat ≤ s.inLen.toNat

/-- A safe step: it answers a next state. HUFFCORE has no trap, so a fault can only be the model's `notATree`. -/
def safeStep (s : State) : Prop := ∃ t, step s = .next t

end Sys2Proof.Machine
end

