-- ==== Sys2Proof/Certificates/Slice0/Obligations.lean ====
section
/-! DEFINITION. The statements for the provers, in the order of OBLIGATIONS.json. A statement about a command's result names
every field the command changes; `State.finished` (Safety.lean) says that nothing else changes. -/

open Sys2Proof Sys2Proof.Machine

/-! ## Encodings -/

/-- R80, R81, R82, R99: decoding what the encoder writes gives the instruction back, with every operand at every value.
That a command is 4 bytes and a transaction 5 and 4, least significant first, is the model's choice (log entry 11). -/
def Obligations.DecodeOfEncodeIsTheInstruction : Prop :=
  ∀ (i : Instr) (rest : List Byte), i.wf = true → decode i.format (encode i ++ rest) = .ok (i, rest)

/-- R82: a command word decodes to ILLEGAL exactly when R81 does not list it, and every decoded word encodes to itself, so
that no two words share a meaning. The encoder's byte order is the model's choice (log entry 11). -/
def Obligations.IllegalExactlyTheUnlistedWords : Prop :=
  ∀ w : Word,
    ((∃ v, decodeCommand w = .illegal v) ↔ w ∉ commandWords) ∧ encode (decodeCommand w) = bytesOfWord w

/-- R81, R82, R99: words written out from the spec's tables decode to the instructions they stand for. The bits are the
spec's; that they come as bytes, a command in 4 and a transaction in 5 of descriptor and 4 of write data, least
significant first, is the model's choice (log entry 11), since R99 leaves the physical form open. -/
def Obligations.WrittenOutWordsDecode : Prop :=
  decode .command [0x10#8, 0x00#8, 0x00#8, 0x00#8] = .ok (.analyze, []) ∧
  decode .command [0x11#8, 0x00#8, 0x00#8, 0x00#8] = .ok (.build, []) ∧
  decode .command [0x31#8, 0x00#8, 0x00#8, 0x00#8] = .ok (.unpack, []) ∧
  decode .command [0x51#8, 0x00#8, 0x00#8, 0x00#8] = .ok (.decompress, []) ∧
  decode .command [0x10#8, 0x01#8, 0x00#8, 0x00#8] = .ok (.illegal 0x00000110#32, []) ∧
  decode .transaction [0x04#8, 0x00#8, 0x00#8, 0x01#8, 0x11#8, 0x5A#8, 0x00#8, 0x00#8, 0x00#8]
    = .ok (.hwrite 0x01000004#32 0x0000005A#32 0b0001#4, [])

/-! ## The step -/

/-- R18, R132, R270: a Core whose turn it is completes the command its word decodes to; the Host's next transaction runs
as its descriptor decodes; `nextInstr` names the instruction a step runs; an idle Core with nothing coming from outside
stays as it is. A step takes the first entry of the model's `inputs`, which orders the moves (log entry 2). -/
def Obligations.StepRunsTheNextInstruction : Prop :=
  (∀ (s : State) (w : Word), s.seq = .exec w → (s.inputs = [] ∨ ∃ rest, s.inputs = .coreTurn :: rest) →
    step s = exec (decodeCommand w) { s with inputs := s.inputs.tail }) ∧
  (∀ (s : State) (desc : BitVec 37) (wdata : Word) (rest : List Input), s.inputs = .request desc wdata :: rest →
    step s = exec (decodeRequest desc wdata) { s with inputs := rest }) ∧
  (∀ (s : State) (i : Instr), s.nextInstr = some i → step s = exec i { s with inputs := s.inputs.tail }) ∧
  ∀ s : State, s.seq = .idle → s.inputs = [] → step s = .next s

/-- R280, R282: the reset step gives every register its reset value, zeroes FREQ and returns to IDLE with irq low, also
from a busy state; `State.reset` is such a state with the default sizes of R7. That reset comes as an entry of `inputs` is
the model's choice (log entry 2). -/
def Obligations.ResetStepGivesResetValues : Prop :=
  (∀ (s : State) (rest : List Input), s.inputs = .resetPulse :: rest →
    ∃ t, step s = .next t ∧ t.params = s.params ∧ t.inputs = rest ∧ t.hasResetValues) ∧
  State.reset.params = { inBufSize := 65536, outBufSize := 65536 } ∧ State.reset.hasResetValues

/-- R290: two NOP writes without a wait race the first completion, and both orders are runs of the machine: STATUS ends
as 0x00000002, or as 0x0000000A with the second write dropped and HAZ set. That the order comes from the list `inputs` is
the model's choice (log entry 2). -/
def Obligations.BackToBackCommandsRace : Prop :=
  let w : Input := .request (descriptor 1#1 0b1111#4 0x00000010#32) 0x00000000#32
  (∃ t, Sys2Proof.core.run 4 { State.reset with inputs := [w, .coreTurn, w] } = .next t ∧ t.status = 0x00000002#32) ∧
  (∃ t, Sys2Proof.core.run 3 { State.reset with inputs := [w, w] } = .next t ∧ t.status = 0x0000000A#32)

/-! ## The host bus -/

/-- R62, R111, R22: the host address map, and the offset of every register. -/
def Obligations.AddressMap : Prop :=
  (∀ (p : Params) (addr : Word), p.wf = true →
    (addr.toNat % 4 ≠ 0 → decodeAddr p addr = .misaligned) ∧
    (addr.toNat % 4 = 0 →
      (∀ r : Reg, addr.toNat = r.offset → decodeAddr p addr = .reg r) ∧
      (0x90 ≤ addr.toNat → addr.toNat ≤ 0x3FF → decodeAddr p addr = .unmapped) ∧
      (0x400 ≤ addr.toNat → addr.toNat ≤ 0x7FF →
        ∃ s : Symbol, decodeAddr p addr = .freq s ∧ addr.toNat = 0x400 + 4 * s.toNat) ∧
      (0x800 ≤ addr.toNat → addr.toNat ≤ 0x00FFFFFF → decodeAddr p addr = .unmapped) ∧
      (0x01000000 ≤ addr.toNat → addr.toNat ≤ 0x01FFFFFF →
        decodeAddr p addr =
          if addr.toNat < 0x01000000 + p.inBufSize then .inBuf (addr.toNat - 0x01000000) else .unmapped) ∧
      (0x02000000 ≤ addr.toNat → addr.toNat ≤ 0x02FFFFFF →
        decodeAddr p addr =
          if addr.toNat < 0x02000000 + p.outBufSize then .outBuf (addr.toNat - 0x02000000) else .unmapped) ∧
      (0x03000000 ≤ addr.toNat → decodeAddr p addr = .unmapped)) ∧
    (addr.toNat ≤ 0x8F → addr.toNat % 4 = 0 → ∃ r : Reg, addr.toNat = r.offset)) ∧
  Reg.offset .id = 0x000 ∧ Reg.offset .version = 0x004 ∧ Reg.offset .capIn = 0x008 ∧ Reg.offset .capOut = 0x00C ∧
  Reg.offset .cmd = 0x010 ∧ Reg.offset .status = 0x014 ∧ Reg.offset .error = 0x018 ∧ Reg.offset .irqEn = 0x01C ∧
  Reg.offset .inLen = 0x020 ∧ Reg.offset .inOff = 0x024 ∧ Reg.offset .origLen = 0x028 ∧ Reg.offset .outLen = 0x02C ∧
  Reg.offset .inPos = 0x030 ∧ Reg.offset .nodeCount = 0x034 ∧ Reg.offset .root = 0x038 ∧
  Reg.offset .leafCount = 0x03C ∧ Reg.offset .descBits = 0x040 ∧ Reg.offset .payloadBitsLo = 0x044 ∧
  Reg.offset .payloadBitsHi = 0x048 ∧ Reg.offset .maxCodeLen = 0x04C ∧ Reg.offset .nodeSel = 0x050 ∧
  Reg.offset .nodeInfo = 0x054 ∧ Reg.offset .nodeLink = 0x058 ∧ Reg.offset .nodeWlo = 0x05C ∧
  Reg.offset .nodeWhi = 0x060 ∧ Reg.offset .codeSel = 0x064 ∧ Reg.offset .codeLen = 0x068 ∧
  (∀ j : Fin 8, Reg.offset (.codeW j) = 0x06C + 4 * j.val) ∧ Reg.offset .errPos = 0x08C

/-- R112, R113: a misaligned or unmapped transaction, and a register write with partial strobes, answer ERR (an HREAD
with rdata = 0) and change nothing but the response. An HREAD's strobes make no difference to what it decodes to. -/
def Obligations.BusErrorChangesNothing : Prop :=
  ∀ (s : State) (addr wdata : Word) (strb : BitVec 4),
    (decodeAddr s.params addr = .misaligned ∨ decodeAddr s.params addr = .unmapped →
      exec (.hread addr) s = .next { s with resp := .read 0#32 false } ∧
      exec (.hwrite addr wdata strb) s = .next { s with resp := .write false }) ∧
    (∀ r : Reg, decodeAddr s.params addr = .reg r → strb ≠ 0b1111#4 →
      exec (.hwrite addr wdata strb) s = .next { s with resp := .write false }) ∧
    decodeRequest (descriptor 0#1 strb addr) wdata = .hread addr

/-- R115, R23 to R43, R64: an HREAD while idle answers the register's word, the count, or the four bytes of a buffer word
in little-endian lanes, and changes nothing but the response. -/
def Obligations.IdleReadReturnsStoredValue : Prop :=
  ∀ (s : State) (addr : Word), s.busy = false →
    (∀ r : Reg, decodeAddr s.params addr = .reg r →
      exec (.hread addr) s = .next { s with resp := .read (s.readReg r) true }) ∧
    (∀ sym, decodeAddr s.params addr = .freq sym →
      exec (.hread addr) s = .next { s with resp := .read (symGet s.freq sym) true }) ∧
    (∀ o, decodeAddr s.params addr = .inBuf o →
      exec (.hread addr) s = .next { s with
        resp := .read (s.inByte (o + 3) ++ s.inByte (o + 2) ++ s.inByte (o + 1) ++ s.inByte o) true }) ∧
    (∀ o, decodeAddr s.params addr = .outBuf o →
      exec (.hread addr) s = .next { s with
        resp := .read (s.outByte (o + 3) ++ s.outByte (o + 2) ++ s.outByte (o + 1) ++ s.outByte o) true })

/-- R22 to R43: what every register but the two windows reads as, in every state: the constants, 0 for
CMD, the stored value zero-extended, and the fields of STATUS, ERROR, IRQ_EN and PAYLOAD_BITS at the bits the spec gives
them. -/
def Obligations.RegisterReadValues : Prop :=
  ∀ s : State,
    s.readReg .id = 0x48554646#32 ∧ s.readReg .version = 0x00000007#32 ∧
    s.readReg .capIn = BitVec.ofNat 32 s.params.inBufSize ∧ s.readReg .capOut = BitVec.ofNat 32 s.params.outBufSize ∧
    s.readReg .cmd = 0x00000000#32 ∧
    (s.readReg .status).getLsbD 0 = s.busy ∧ (s.readReg .status).getLsbD 1 = s.done ∧
    (s.readReg .status).getLsbD 2 = s.err ∧ (s.readReg .status).getLsbD 3 = s.haz ∧
    (s.readReg .status).getLsbD 4 = s.treeValid ∧ (s.readReg .status).getLsbD 5 = s.codesValid ∧
    (s.readReg .status).extractLsb' 6 2 = 0#2 ∧ (s.readReg .status).extractLsb' 8 8 = s.lastOp ∧
    (s.readReg .status).extractLsb' 16 16 = 0#16 ∧
    (s.readReg .error).extractLsb' 0 4 = s.errClass ∧ (s.readReg .error).extractLsb' 4 4 = 0#4 ∧
    (s.readReg .error).extractLsb' 8 8 = s.errDetail ∧ (s.readReg .error).extractLsb' 16 16 = 0#16 ∧
    (s.readReg .irqEn).getLsbD 0 = s.doneIe ∧ (s.readReg .irqEn).extractLsb' 1 31 = 0#31 ∧
    s.readReg .inLen = s.inLen ∧ s.readReg .inOff = s.inOff ∧ s.readReg .origLen = s.origLen ∧
    s.readReg .outLen = s.outLen.setWidth 32 ∧ s.readReg .inPos = s.inPos ∧
    s.readReg .nodeCount = s.nodeCount.setWidth 32 ∧ s.readReg .root = s.root.setWidth 32 ∧
    s.readReg .leafCount = s.leafCount.setWidth 32 ∧ s.readReg .descBits = s.descBits.setWidth 32 ∧
    s.readReg .payloadBitsHi ++ s.readReg .payloadBitsLo = s.payloadBits ∧
    s.readReg .maxCodeLen = s.maxCodeLen.setWidth 32 ∧ s.readReg .nodeSel = s.nodeSel.setWidth 32 ∧
    s.readReg .codeSel = s.codeSel.setWidth 32 ∧ s.readReg .errPos = s.errPos

/-- R41, R42: the node window shows NODE[NODE_SEL] while NODE_SEL < NODE_COUNT and 0 otherwise; the code window shows
CODE[CODE_SEL] while CODES_VALID = 1 and 0 otherwise. -/
def Obligations.WindowRegisters : Prop :=
  ∀ s : State,
    (∀ n, s.nodeSel.toNat < s.nodeCount.toNat → nodeAt s.nodes s.nodeSel = some n →
      (s.readReg .nodeInfo).getLsbD 0 = n.leaf ∧ (s.readReg .nodeInfo).getLsbD 1 = n.ph ∧
      (s.readReg .nodeInfo).extractLsb' 2 6 = 0#6 ∧ (s.readReg .nodeInfo).extractLsb' 8 8 = n.sym ∧
      (s.readReg .nodeInfo).extractLsb' 16 16 = 0#16 ∧
      (s.readReg .nodeLink).extractLsb' 0 9 = n.left ∧ (s.readReg .nodeLink).extractLsb' 9 7 = 0#7 ∧
      (s.readReg .nodeLink).extractLsb' 16 9 = n.right ∧ (s.readReg .nodeLink).extractLsb' 25 7 = 0#7 ∧
      (s.readReg .nodeWhi).extractLsb' 0 8 ++ s.readReg .nodeWlo = n.weight ∧
      (s.readReg .nodeWhi).extractLsb' 8 24 = 0#24) ∧
    (s.nodeCount.toNat ≤ s.nodeSel.toNat →
      s.readReg .nodeInfo = 0#32 ∧ s.readReg .nodeLink = 0#32 ∧ s.readReg .nodeWlo = 0#32 ∧
      s.readReg .nodeWhi = 0#32) ∧
    (s.codesValid = true →
      s.readReg .codeLen = (symGet s.codes s.codeSel).len.setWidth 32 ∧
      ∀ j : Fin 8, s.readReg (.codeW j) = ((symGet s.codes s.codeSel).val.setWidth 256).extractLsb' (32 * j.val) 32) ∧
    (s.codesValid = false → s.readReg .codeLen = 0#32 ∧ ∀ j : Fin 8, s.readReg (.codeW j) = 0#32)

/-- R286, R287, R115: reads while busy. A volatile target answers some 32-bit value, which this statement does not fix;
a stable one its stored value; STATUS its bits 31:6 and 3:0. Nothing changes but the response and, where a value is drawn,
the model's counter. -/
def Obligations.ReadsWhileBusy : Prop :=
  ∀ (s : State) (addr : Word), s.busy = true →
    ((∃ r : Reg, decodeAddr s.params addr = .reg r ∧
        (r = .origLen ∨ r = .outLen ∨ r = .inPos ∨ r = .nodeCount ∨ r = .root ∨ r = .leafCount ∨ r = .descBits ∨
          r = .payloadBitsLo ∨ r = .payloadBitsHi ∨ r = .maxCodeLen ∨ r = .nodeInfo ∨ r = .nodeLink ∨ r = .nodeWlo ∨
          r = .nodeWhi ∨ r = .codeLen ∨ ∃ j, r = .codeW j)) ∨
      (∃ sym, decodeAddr s.params addr = .freq sym) ∨ (∃ o, decodeAddr s.params addr = .outBuf o) →
      ∃ d, exec (.hread addr) s = .next { s with resp := .read d true, fresh := s.fresh + 1 }) ∧
    (∀ r : Reg, decodeAddr s.params addr = .reg r →
      r = .id ∨ r = .version ∨ r = .capIn ∨ r = .capOut ∨ r = .cmd ∨ r = .error ∨ r = .irqEn ∨ r = .inLen ∨
        r = .inOff ∨ r = .nodeSel ∨ r = .codeSel ∨ r = .errPos →
      exec (.hread addr) s = .next { s with resp := .read (s.readReg r) true }) ∧
    (∀ o, decodeAddr s.params addr = .inBuf o →
      exec (.hread addr) s = .next { s with
        resp := .read (s.inByte (o + 3) ++ s.inByte (o + 2) ++ s.inByte (o + 1) ++ s.inByte o) true }) ∧
    (decodeAddr s.params addr = .reg .status →
      ∃ d, exec (.hread addr) s = .next { s with resp := .read d true, fresh := s.fresh + 1 } ∧
        d.extractLsb' 0 4 = s.status.extractLsb' 0 4 ∧ d.extractLsb' 6 26 = s.status.extractLsb' 6 26)

/-- R285: while busy, a write to a protected target is dropped: it sets HAZ, answers OK and changes nothing else. -/
def Obligations.ProtectedWriteIsDropped : Prop :=
  ∀ (s : State) (addr wdata : Word) (strb : BitVec 4), s.busy = true →
    ((strb = 0b1111#4 ∧ ∃ r : Reg, decodeAddr s.params addr = .reg r ∧
        (r = .cmd ∨ r = .inLen ∨ r = .inOff ∨ r = .origLen ∨ r = .nodeSel ∨ r = .codeSel)) ∨
      (∃ sym, decodeAddr s.params addr = .freq sym) ∨ (∃ o, decodeAddr s.params addr = .inBuf o) ∨
      (∃ o, decodeAddr s.params addr = .outBuf o)) →
    exec (.hwrite addr wdata strb) s = .next { s with haz := true, resp := .write true }

/-- R114, R26, R27, R29 to R32, R41, R42, R130, R131: full-word register writes. STATUS and IRQ_EN accept a write busy or
not: STATUS clears DONE and HAZ where a 1 is written and ignores every other bit, IRQ_EN stores bit 0. A read-only
register takes no effect. While idle, IN_LEN, IN_OFF and ORIG_LEN store the word, NODE_SEL its low 9 bits, CODE_SEL its
low 8, and CMD starts the command in the same step. -/
def Obligations.RegisterWrites : Prop :=
  ∀ (s : State) (addr wdata : Word) (r : Reg), decodeAddr s.params addr = .reg r →
    (r = .status → exec (.hwrite addr wdata 0b1111#4) s = .next { s with
      done := s.done && !wdata.getLsbD 1, haz := s.haz && !wdata.getLsbD 3, resp := .write true }) ∧
    (r = .irqEn → exec (.hwrite addr wdata 0b1111#4) s = .next { s with
      doneIe := wdata.getLsbD 0, resp := .write true }) ∧
    (r ≠ .cmd → r ≠ .status → r ≠ .irqEn → r ≠ .inLen → r ≠ .inOff → r ≠ .origLen → r ≠ .nodeSel → r ≠ .codeSel →
      exec (.hwrite addr wdata 0b1111#4) s = .next { s with resp := .write true }) ∧
    (s.busy = false →
      (r = .inLen → exec (.hwrite addr wdata 0b1111#4) s = .next { s with inLen := wdata, resp := .write true }) ∧
      (r = .inOff → exec (.hwrite addr wdata 0b1111#4) s = .next { s with inOff := wdata, resp := .write true }) ∧
      (r = .origLen → exec (.hwrite addr wdata 0b1111#4) s = .next { s with origLen := wdata, resp := .write true }) ∧
      (r = .nodeSel → exec (.hwrite addr wdata 0b1111#4) s = .next { s with
        nodeSel := wdata.setWidth 9, resp := .write true }) ∧
      (r = .codeSel → exec (.hwrite addr wdata 0b1111#4) s = .next { s with
        codeSel := wdata.setWidth 8, resp := .write true }) ∧
      (r = .cmd → exec (.hwrite addr wdata 0b1111#4) s = .next { s with
        busy := true, done := false, err := false, lastOp := wdata.setWidth 8, errClass := 0#4, errDetail := 0#8,
        errPos := 0#32, seq := .exec wdata, resp := .write true }))

/-- R114, R64, R46: while idle, a write to FREQ[s] replaces exactly the byte lanes whose strobes are set, of that entry
alone. -/
def Obligations.FreqWriteReplacesStrobedLanes : Prop :=
  ∀ (s : State) (addr wdata : Word) (strb : BitVec 4) (sym : Symbol), s.busy = false →
    decodeAddr s.params addr = .freq sym →
    ∃ t, exec (.hwrite addr wdata strb) s = .next t ∧ t = { s with freq := t.freq, resp := .write true } ∧
      (∀ x, x ≠ sym → symGet t.freq x = symGet s.freq x) ∧
      ∀ i, i < 4 → (symGet t.freq sym).extractLsb' (8 * i) 8 =
        if strb.getLsbD i = true then wdata.extractLsb' (8 * i) 8 else (symGet s.freq sym).extractLsb' (8 * i) 8

/-- R114, R64: while idle, a write to IN_BUF or OUT_BUF at offset o stores lane i of the data at byte o + i exactly where
strobe i is set; every other byte of that buffer, the other buffer and every register stay. -/
def Obligations.BufferWriteStoresStrobedLanes : Prop :=
  ∀ (s : State) (addr wdata : Word) (strb : BitVec 4) (o : Nat), s.busy = false →
    (decodeAddr s.params addr = .inBuf o →
      ∃ t, exec (.hwrite addr wdata strb) s = .next t ∧ t = { s with inBuf := t.inBuf, resp := .write true } ∧
        (∀ i, i < 4 → t.inByte (o + i) = if strb.getLsbD i = true then wdata.extractLsb' (8 * i) 8 else s.inByte (o + i)) ∧
        ∀ a, a < o ∨ o + 4 ≤ a → t.inByte a = s.inByte a) ∧
    (decodeAddr s.params addr = .outBuf o →
      ∃ t, exec (.hwrite addr wdata strb) s = .next t ∧ t = { s with outBuf := t.outBuf, resp := .write true } ∧
        (∀ i, i < 4 →
          t.outByte (o + i) = if strb.getLsbD i = true then wdata.extractLsb' (8 * i) 8 else s.outByte (o + i)) ∧
        ∀ a, a < o ∨ o + 4 ≤ a → t.outByte a = s.outByte a)

/-- R72, R64, R114, R29 to R32, R41, R42: while idle, a Host read of a location returns what the last write left there. A
full-word write of FREQ, IN_BUF, OUT_BUF, IN_LEN, IN_OFF or ORIG_LEN reads back whole; NODE_SEL, CODE_SEL and IRQ_EN read
back their stored bits; a write with any strobes reads back in its own lanes, and the other lanes as before. -/
def Obligations.ReadReturnsTheLastWrite : Prop :=
  ∀ (s : State) (addr wdata : Word), s.busy = false →
    let readsBack (strb : BitVec 4) (d : Word) : Prop :=
      ∃ t u, exec (.hwrite addr wdata strb) s = .next t ∧ exec (.hread addr) t = .next u ∧ u.resp = .read d true
    ((∃ o, decodeAddr s.params addr = .inBuf o) ∨ (∃ o, decodeAddr s.params addr = .outBuf o) ∨
        (∃ sym, decodeAddr s.params addr = .freq sym) →
      readsBack 0b1111#4 wdata ∧
      ∀ strb : BitVec 4, ∃ v before d, exec (.hread addr) s = .next v ∧ v.resp = .read before true ∧
        readsBack strb d ∧
        ∀ i, i < 4 → d.extractLsb' (8 * i) 8 =
          if strb.getLsbD i = true then wdata.extractLsb' (8 * i) 8 else before.extractLsb' (8 * i) 8) ∧
    ∀ r : Reg, decodeAddr s.params addr = .reg r →
      (r = .inLen ∨ r = .inOff ∨ r = .origLen → readsBack 0b1111#4 wdata) ∧
      (r = .nodeSel → readsBack 0b1111#4 ((wdata.setWidth 9).setWidth 32)) ∧
      (r = .codeSel → readsBack 0b1111#4 ((wdata.setWidth 8).setWidth 32)) ∧
      (r = .irqEn → readsBack 0b1111#4 ((wdata.setWidth 1).setWidth 32))

/-- R75: while a command runs, no Host transaction changes anything the command reads. -/
def Obligations.BusyTransactionsKeepOperands : Prop :=
  ∀ (s t : State) (i : Instr), i.format = .transaction → s.busy = true → exec i s = .next t →
    t.inLen = s.inLen ∧ t.inOff = s.inOff ∧ t.origLen = s.origLen ∧ t.freq = s.freq ∧ t.nodes = s.nodes ∧
    t.root = s.root ∧ t.nodeCount = s.nodeCount ∧ t.descBits = s.descBits ∧ t.codes = s.codes ∧
    t.treeValid = s.treeValid ∧ t.codesValid = s.codesValid ∧ t.inBuf = s.inBuf ∧ t.outBuf = s.outBuf ∧
    t.bufSeed = s.bufSeed ∧ t.params = s.params ∧ t.seq = s.seq

/-- R260, R27: irq = DONE & DONE_IE; so it is low after a start, follows DONE_IE at completion, and falls when the Host
writes 1 to STATUS bit 1. -/
def Obligations.InterruptLine : Prop :=
  ∀ (s : State) (addr wdata : Word),
    s.irq = ((s.readReg .status).getLsbD 1 && (s.readReg .irqEn).getLsbD 0) ∧
    (decodeAddr s.params addr = .reg .cmd → s.busy = false →
      ∃ t, exec (.hwrite addr wdata 0b1111#4) s = .next t ∧ t.irq = false) ∧
    (decodeAddr s.params addr = .reg .status → wdata.getLsbD 1 = true →
      ∃ t, exec (.hwrite addr wdata 0b1111#4) s = .next t ∧ t.irq = false) ∧
    (∃ t, exec .nop s = .next t ∧ t.irq = s.doneIe)

/-! ## Completion, errors and the control commands -/

/-- R133, R258: a completion step, of whatever command, clears BUSY, sets DONE, sets ERR exactly on an error, returns
`seq` to IDLE, and leaves HAZ, LAST_OP, IRQ_EN, IN_LEN, IN_OFF, NODE_SEL, CODE_SEL, IN_BUF (its written bytes and the
seed of its unwritten ones, log entry 6) and the parameters alone. R21: ORIG_LEN only COMPRESS, DECOMPRESS and, by R137's
pseudocode (log entry 23), CLEAR change. -/
def Obligations.CompletionStepFrame : Prop :=
  ∀ (s t : State) (i : Instr), i.format = .command → exec i s = .next t →
    t.busy = false ∧ t.done = true ∧ (t.err = true ↔ t.errClass ≠ 0#4) ∧ t.seq = .idle ∧
    t.haz = s.haz ∧ t.lastOp = s.lastOp ∧ t.doneIe = s.doneIe ∧ t.inLen = s.inLen ∧ t.inOff = s.inOff ∧
    t.nodeSel = s.nodeSel ∧ t.codeSel = s.codeSel ∧ t.inBuf = s.inBuf ∧ t.bufSeed = s.bufSeed ∧ t.params = s.params ∧
    (i ≠ .compress → i ≠ .decompress → i ≠ .clear → t.origLen = s.origLen)

/-- R251: the ERROR word of each cause, as the completion step leaves it. -/
def Obligations.ErrorWordOfEachCause : Prop :=
  ∀ (s : State) (pos : Nat) (c : Cause),
    (s.complete (some c) pos).error =
      match c with
      | .magicShort => 0x00000101#32
      | .magicMismatch => 0x00000201#32
      | .headerShort => 0x00000102#32
      | .descExhausted => 0x00000202#32
      | .descTooManyNodes => 0x00000302#32
      | .descDupSymbol => 0x00000402#32
      | .descRootLeaf => 0x00000502#32
      | .payloadExhausted => 0x00000602#32
      | .outOverflow => 0x00000103#32
      | .illegalCommand => 0x00000104#32
      | .badArg => 0x00000204#32
      | .emptyTable => 0x00000304#32
      | .noTree => 0x00000404#32
      | .noCodes => 0x00000504#32
      | .uncodedSymbol => 0x00000604#32

/-- R258, R33, R34: an output-writing command that ends in an error leaves OUT_LEN = 0, and no failed command writes
IN_POS. -/
def Obligations.FailedCommandHasNoOutput : Prop :=
  ∀ (s t : State) (i : Instr), i.format = .command → exec i s = .next t → t.err = true →
    t.inPos = s.inPos ∧
    (i = .pack ∨ i = .unpack ∨ i = .sertree ∨ i = .compress ∨ i = .decompress → t.outLen = 0#25)

/-- R136, R137, R138: NOP, CLEAR and an illegal word, whole: the words they are, what each writes, and nothing else. With
its start before it (R131), an illegal word also leaves its low byte in LAST_OP. That CLEAR zeroes ORIG_LEN, as R137's
pseudocode says and R21 does not, is the model's choice between the two (log entry 23). -/
def Obligations.ControlCommandsComplete : Prop :=
  ∀ s : State,
    decodeCommand 0x00000000#32 = .nop ∧ (∃ t, exec .nop s = .next t ∧ s.finished none 0 t) ∧
    decodeCommand 0x00000001#32 = .clear ∧
    (∃ t, exec .clear s = .next t ∧
      State.finished { s with
        freq := Vector.replicate 256 0#32, treeValid := false, codesValid := false, nodeCount := 0#10, root := 0#9,
        leafCount := 0#9, descBits := 0#12, payloadBits := 0#64, maxCodeLen := 0#8, outLen := 0#25, inPos := 0#32,
        origLen := 0#32 } none 0 t) ∧
    ∀ w : Word,
      (w ∉ commandWords → decodeCommand w = .illegal w) ∧
      (∃ t, exec (.illegal w) s = .next t ∧ s.finished (some .illegalCommand) 0 t) ∧
      ∃ t, exec (.illegal w) (s.startCommand w) = .next t ∧
        State.finished { s with lastOp := w.setWidth 8 } (some .illegalCommand) 0 t

/-- R134, R135: with the window outside IN_BUF, each command that reads it raises BAD_ARG at position 0 before anything
but OUT_LEN of an output-writing command is written; with the window inside IN_BUF, no command reports BAD_ARG. -/
def Obligations.BadWindowIsRefusedFirst : Prop :=
  ∀ s : State,
    (¬ s.windowFits →
      (∀ i : Instr, i = .analyze ∨ i = .parsetree → ∃ t, exec i s = .next t ∧ s.finished (some .badArg) 0 t) ∧
      ∀ i : Instr, i = .pack ∨ i = .unpack ∨ i = .compress ∨ i = .decompress →
        ∃ t, exec i s = .next t ∧ State.finished { s with outLen := 0#25 } (some .badArg) 0 t) ∧
    (s.windowFits → ∀ (i : Instr) (t : State), i.format = .command → exec i s = .next t → t.error ≠ 0x00000204#32)

/-! ## The analyser and the builder -/

/-- R150: ANALYZE leaves FREQ[s] = the number of window bytes equal to s, IN_POS = IN_LEN, and nothing else changed; with
the window outside IN_BUF it raises BAD_ARG and writes nothing. -/
def Obligations.AnalyzeCountsTheWindow : Prop :=
  decodeCommand 0x00000010#32 = .analyze ∧
  ∀ s : State,
    (s.windowFits →
      ∃ t, exec .analyze s = .next t ∧ State.finished { s with freq := t.freq, inPos := s.inLen } none 0 t ∧
        ∀ sym, (symGet t.freq sym).toNat = s.window.count sym) ∧
    (¬ s.windowFits → ∃ t, exec .analyze s = .next t ∧ s.finished (some .badArg) 0 t)

/-- R154: BUILD on a table of zeros raises EMPTY_TABLE with the tree and both flags cleared, and nothing else changed. -/
def Obligations.BuildOfEmptyTableFails : Prop :=
  ∀ s : State, (∀ sym, symGet s.freq sym = 0#32) →
    ∃ t, exec .build s = .next t ∧
      State.finished { s with
        treeValid := false, codesValid := false, nodeCount := 0#10, root := 0#9, leafCount := 0#9, descBits := 0#12 }
        (some .emptyTable) 0 t

/-- R158, R154: with one present symbol BUILD makes the real leaf, the placeholder with another symbol, and their root, and
changes nothing else. Of the arena entries at indices ≥ 3 nothing is said: R47 leaves them unspecified. -/
def Obligations.BuildOfOneSymbol : Prop :=
  ∀ (s : State) (x : Symbol), symGet s.freq x ≠ 0#32 → (∀ y, y ≠ x → symGet s.freq y = 0#32) →
    ∃ t, exec .build s = .next t ∧
      State.finished { s with
        treeValid := true, codesValid := false, nodes := t.nodes, nodeCount := 3#10, root := 2#9, leafCount := 2#9,
        descBits := 19#12 } none 0 t ∧
      nodeAt t.nodes 0#9 = some { leaf := true, ph := false, sym := x, weight := (symGet s.freq x).setWidth 40,
                                  left := 0x1FF#9, right := 0x1FF#9 } ∧
      nodeAt t.nodes 1#9 = some { leaf := true, ph := true, sym := if x = 0x00#8 then 0x01#8 else 0x00#8,
                                  weight := 0#40, left := 0x1FF#9, right := 0x1FF#9 } ∧
      nodeAt t.nodes 2#9 = some { leaf := false, ph := false, sym := 0x00#8, weight := (symGet s.freq x).setWidth 40,
                                  left := 0#9, right := 1#9 }

/-- R154, R155, R159, R152, R160: with k ≥ 2 present symbols BUILD succeeds: leaves 0 to k − 1 in ascending symbol order
with their counts, internal nodes k to 2k − 2 each with children below it and their weights summed, the root last and as
heavy as the whole table, the whole a strict binary tree of R53, and nothing else changed. Every merge joins the two least
nodes then queued, the lesser key as LEFT: LEFT is less than RIGHT, and RIGHT less than every lower index that no merge up
to this one has taken. -/
def Obligations.BuildMakesATree : Prop :=
  ∀ s : State, 2 ≤ (presentSymbols s.freq).length →
    ∃ t, exec .build s = .next t ∧
      (let k := (presentSymbols s.freq).length
       State.finished { s with
         treeValid := true, codesValid := false, nodes := t.nodes, nodeCount := BitVec.ofNat 10 (2 * k - 1),
         root := BitVec.ofNat 9 (2 * k - 2), leafCount := BitVec.ofNat 9 k, descBits := BitVec.ofNat 12 (10 * k - 1) }
         none 0 t ∧
       (∀ j, (h : j < k) → nodeAt t.nodes (BitVec.ofNat 9 j) =
         some { leaf := true, ph := false, sym := (presentSymbols s.freq)[j],
                weight := (symGet s.freq (presentSymbols s.freq)[j]).setWidth 40,
                left := 0x1FF#9, right := 0x1FF#9 }) ∧
       (∀ j, k ≤ j → j < 2 * k - 1 → ∃ n, nodeAt t.nodes (BitVec.ofNat 9 j) = some n ∧
         n.leaf = false ∧ n.ph = false ∧ n.sym = 0x00#8 ∧ n.left.toNat < j ∧ n.right.toNat < j ∧
         n.weight.toNat = (weightAt t.nodes n.left).toNat + (weightAt t.nodes n.right).toNat ∧
         keyLess t.nodes n.left n.right = true ∧
         ∀ i : NodeIx, i.toNat < j → i ≠ n.left → i ≠ n.right →
           (∀ j' n', k ≤ j' → j' < j → nodeAt t.nodes (BitVec.ofNat 9 j') = some n' → i ≠ n'.left ∧ i ≠ n'.right) →
           keyLess t.nodes n.right i = true) ∧
       (weightAt t.nodes t.root).toNat = (allSymbols.map fun x => (symGet s.freq x).toNat).sum ∧
       ∃ T, t.holdsTree T)

/-- R153, R152: `heap_insert` keeps the heap order and adds exactly its index to the queue. -/
def Obligations.HeapInsertKeepsOrder : Prop :=
  ∀ (a : Arena) (h : Heap) (i : NodeIx), h.ordered a → h.size < 256 →
    (heapInsert a h i).ordered a ∧ (heapInsert a h i).live.Perm (i :: h.live)

/-- R156, R153: `heap_extract_min` returns a queued index no other queued index is less than, removes exactly it, and
keeps the heap order. -/
def Obligations.HeapExtractReturnsTheLeast : Prop :=
  ∀ (a : Arena) (h : Heap), h.ordered a → 1 ≤ h.size → h.size ≤ 256 →
    (∀ j ∈ h.live, keyLess a j (heapExtractMin a h).1 = false) ∧
    ((heapExtractMin a h).1 :: (heapExtractMin a h).2.live).Perm h.live ∧
    (heapExtractMin a h).2.ordered a

/-! ## The deriver -/

/-- R181, R203: without a valid tree, DERIVE and an UNPACK of at least one symbol raise NO_TREE at position 0, having
written nothing but OUT_LEN = 0 of UNPACK. -/
def Obligations.NoTreeIsRefused : Prop :=
  ∀ s : State, s.treeValid = false →
    (∃ t, exec .derive s = .next t ∧ s.finished (some .noTree) 0 t) ∧
    (s.windowFits → s.origLen ≠ 0#32 →
      ∃ t, exec .unpack s = .next t ∧ State.finished { s with outLen := 0#25 } (some .noTree) 0 t)

/-- R181, R180: over the tree the arena holds, DERIVE writes each real leaf's edge bits as its code, LEN = 0 and VAL = 0
for every other symbol, its two bit-length outputs and CODES_VALID, and nothing else. -/
def Obligations.DeriveWritesTheLeafPaths : Prop :=
  ∀ (s : State) (T : CodeTree), s.treeValid = true → s.holdsTree T →
    ∃ t, exec .derive s = .next t ∧
      State.finished { s with
        codes := t.codes, maxCodeLen := t.maxCodeLen, payloadBits := t.payloadBits, codesValid := true } none 0 t ∧
      T.codeTable t.codes

/-- R182, R39: after a successful DERIVE, PAYLOAD_BITS is the sum of FREQ[s] · LEN over all symbols, below 2^48, and
MAX_CODE_LEN is the largest LEN. -/
def Obligations.DeriveBitLengthOutputs : Prop :=
  ∀ s t : State, exec .derive s = .next t → t.err = false →
    t.payloadBits.toNat = (allSymbols.map fun x => (symGet s.freq x).toNat * (symGet t.codes x).len.toNat).sum ∧
    t.payloadBits.toNat < 2 ^ 48 ∧
    (∀ x, (symGet t.codes x).len.toNat ≤ t.maxCodeLen.toNat) ∧
    ∃ x, (symGet t.codes x).len = t.maxCodeLen

/-- R187: in a code table that holds a tree's codes, so in the one DERIVE writes on a valid tree, no symbol's code is a
prefix of another symbol's. -/
def Obligations.DerivedCodesArePrefixFree : Prop :=
  ∀ (s : State) (T : CodeTree), s.holdsTree T →
    (∀ c : CodeTable, T.codeTable c →
      ∀ x y : Symbol, x ≠ y → (symGet c x).len ≠ 0#8 → (symGet c y).len ≠ 0#8 →
        ¬ (symGet c x).bits <+: (symGet c y).bits) ∧
    (s.treeValid = true → ∃ t, exec .derive s = .next t ∧
      ∀ x y : Symbol, x ≠ y → (symGet t.codes x).len ≠ 0#8 → (symGet t.codes y).len ≠ 0#8 →
        ¬ (symGet t.codes x).bits <+: (symGet t.codes y).bits)

/-! ## The packer and the unpacker -/

/-- R199: from a fresh accumulator at cursor o, `put_bit` for each bit of a string and `flush()` write `pack` of the
string at OUT_BUF[o ..), leave the cursor after it, and touch no other byte. -/
def Obligations.BitWriterWritesPack : Prop :=
  ∀ (m : Memory) (o : Nat) (bs : List Bool),
    (((Writer.start m o).putBits bs).flush).op = o + ceil8 bs.length ∧
    (∀ j, j < ceil8 bs.length →
      Memory.read (((Writer.start m o).putBits bs).flush).buf (o + j) = some (packByte bs j)) ∧
    ∀ a, a < o ∨ o + ceil8 bs.length ≤ a →
      Memory.read (((Writer.start m o).putBits bs).flush).buf a = Memory.read m a

/-- R200, R201, R90: PACK on a window of coded bytes whose payload fits writes `pack` of the concatenated codes to
OUT_BUF from offset 0, OUT_LEN, PAYLOAD_BITS and IN_POS, and nothing else. -/
def Obligations.PackWritesThePayload : Prop :=
  ∀ s : State, s.windowFits → s.codesValid = true → (∀ b ∈ s.window, (symGet s.codes b).len ≠ 0#8) →
    ceil8 (payloadOf s.codes s.window).length ≤ s.params.outBufSize →
    ∃ t, exec .pack s = .next t ∧
      State.finished { s with
        outBuf := t.outBuf, outLen := BitVec.ofNat 25 (ceil8 (payloadOf s.codes s.window).length),
        payloadBits := BitVec.ofNat 64 (payloadOf s.codes s.window).length, inPos := s.inLen } none 0 t ∧
      s.outBytesWritten t (packBytes (payloadOf s.codes s.window))

/-- R200, R196: PACK's own errors in their order: NO_CODES; UNCODED_SYMBOL at the first window byte with no code, whatever
the size; OUT_OVERFLOW for a payload that does not fit. Nothing but OUT_LEN = 0 is written. -/
def Obligations.PackErrors : Prop :=
  ∀ s : State, s.windowFits →
    (s.codesValid = false →
      ∃ t, exec .pack s = .next t ∧ State.finished { s with outLen := 0#25 } (some .noCodes) 0 t) ∧
    (s.codesValid = true → ∀ j b, s.window[j]? = some b → (symGet s.codes b).len = 0#8 →
      (∀ i c, i < j → s.window[i]? = some c → (symGet s.codes c).len ≠ 0#8) →
      ∃ t, exec .pack s = .next t ∧
        State.finished { s with outLen := 0#25 } (some .uncodedSymbol) (s.inOff.toNat + j) t) ∧
    (s.codesValid = true → (∀ b ∈ s.window, (symGet s.codes b).len ≠ 0#8) →
      s.params.outBufSize < ceil8 (payloadOf s.codes s.window).length →
      ∃ t, exec .pack s = .next t ∧ State.finished { s with outLen := 0#25 } (some .outOverflow) 0 t)

/-- R203, R205, R206: when the window's bits begin with the edge bits of ORIG_LEN leaves of the tree, the placeholder
among them, UNPACK writes those leaves' symbols to OUT_BUF from offset 0, OUT_LEN and IN_POS, and nothing else. -/
def Obligations.UnpackWritesTheSymbols : Prop :=
  ∀ (s : State) (T : CodeTree) (xs : List (Symbol × List Bool)), s.windowFits → s.treeValid = true →
    T.heldAt s.nodes s.root → (∀ x ∈ xs, x ∈ T.paths) → xs ≠ [] → s.origLen.toNat = xs.length →
    xs.length ≤ s.params.outBufSize → s.bitsAt (8 * s.inOff.toNat) (xs.flatMap Prod.snd) →
    ∃ t, exec .unpack s = .next t ∧
      State.finished { s with
        outBuf := t.outBuf, outLen := BitVec.ofNat 25 xs.length,
        inPos := BitVec.ofNat 32 (s.inOff.toNat + ceil8 (xs.flatMap Prod.snd).length) } none 0 t ∧
      s.outBytesWritten t (xs.map Prod.fst)

/-- R203, R196, R253: UNPACK of no symbols succeeds without a tree; more symbols than OUT_BUF holds raise OUT_OVERFLOW
with nothing but OUT_LEN = 0 written. -/
def Obligations.UnpackEmptyAndOverflow : Prop :=
  ∀ s : State, s.windowFits →
    (s.origLen = 0#32 →
      ∃ t, exec .unpack s = .next t ∧ State.finished { s with outLen := 0#25, inPos := s.inOff } none 0 t) ∧
    (s.origLen ≠ 0#32 → s.treeValid = true → s.params.outBufSize < s.origLen.toNat →
      ∃ t, exec .unpack s = .next t ∧ State.finished { s with outLen := 0#25 } (some .outOverflow) 0 t)

/-- R203, R204, R258: when the window's bits are the edge bits of j < ORIG_LEN leaves and then end inside a further
leaf's, UNPACK raises PAYLOAD_EXHAUSTED at IN_LEN with exactly the j symbols written and OUT_LEN = 0. -/
def Obligations.UnpackRunsOutOfBits : Prop :=
  ∀ (s : State) (T : CodeTree) (xs : List (Symbol × List Bool)) (last : Symbol × List Bool) (rest : List Bool),
    s.windowFits → s.treeValid = true → T.heldAt s.nodes s.root → (∀ x ∈ xs, x ∈ T.paths) →
    last ∈ T.paths → rest <+: last.2 → rest ≠ last.2 → xs.length < s.origLen.toNat →
    s.origLen.toNat ≤ s.params.outBufSize → s.bitsAt (8 * s.inOff.toNat) (xs.flatMap Prod.snd ++ rest) →
    8 * s.inOff.toNat + (xs.flatMap Prod.snd ++ rest).length = 8 * s.inLen.toNat →
    ∃ t, exec .unpack s = .next t ∧
      State.finished { s with outLen := 0#25, outBuf := t.outBuf } (some .payloadExhausted) s.inLen.toNat t ∧
      s.outBytesWritten t (xs.map Prod.fst)

/-- R207: the bytes PACK wrote for a window, placed in IN_BUF of a machine that holds the tree the codes were derived from,
UNPACK to that window. That the window's length fits OUT_BUF is this statement's own hypothesis, since R203 refuses a
longer one (log entry 17). -/
def Obligations.UnpackInvertsPack : Prop :=
  ∀ (s t u : State) (T : CodeTree) (o : Nat), s.windowFits → s.codesValid = true → s.holdsTree T →
    T.codeTable s.codes → exec .pack s = .next t → t.err = false → s.window ≠ [] →
    u.nodes = s.nodes → u.root = s.root → u.treeValid = true → u.windowFits → u.inOff.toNat = o →
    u.inLen.toNat = o + ceil8 (payloadOf s.codes s.window).length → u.origLen.toNat = s.window.length →
    s.window.length ≤ u.params.outBufSize →
    (∀ j, j < ceil8 (payloadOf s.codes s.window).length → u.inByte (o + j) = t.outByte j) →
    ∃ v, exec .unpack u = .next v ∧
      State.finished { u with
        outBuf := v.outBuf, outLen := BitVec.ofNat 25 s.window.length, inPos := u.inLen } none 0 v ∧
      u.outBytesWritten v s.window

/-! ## The container codec -/

/-- R224, R221, R86: SERTREE writes `pack` of the tree's descriptor, 10 · LEAF_COUNT − 1 bits, to OUT_BUF from offset 0,
and OUT_LEN, and nothing else; without a valid tree it raises NO_TREE with nothing but OUT_LEN = 0 written. -/
def Obligations.SertreeWritesTheDescriptor : Prop :=
  decodeCommand 0x00000040#32 = .sertree ∧
  ∀ s : State,
    (∀ T : CodeTree, s.treeValid = true → s.holdsTree T →
      ∃ t, exec .sertree s = .next t ∧
        State.finished { s with outBuf := t.outBuf, outLen := BitVec.ofNat 25 (ceil8 s.descBits.toNat) } none 0 t ∧
        T.desc.length = s.descBits.toNat ∧ s.outBytesWritten t (packBytes T.desc)) ∧
    (s.treeValid = false →
      ∃ t, exec .sertree s = .next t ∧ State.finished { s with outLen := 0#25 } (some .noTree) 0 t)

/-- R227, R225, R223, R229: on a window whose bits begin with the descriptor of a tree with at least two leaves and no
repeated symbol, PARSETREE builds that tree, its nodes numbered 0, 1, 2, … in pre-order from ROOT = 0, weights and
placeholder marks 0, its registers and IN_POS, and changes nothing else. -/
def Obligations.ParsetreeReadsTheDescriptor : Prop :=
  ∀ (s : State) (T : CodeTree), s.windowFits → T.isNode = true → T.symbols.Nodup →
    s.bitsAt (8 * s.inOff.toNat) T.desc →
    ∃ t, exec .parsetree s = .next t ∧
      State.finished { s with
        nodes := t.nodes, nodeCount := BitVec.ofNat 10 T.size, root := 0#9,
        leafCount := BitVec.ofNat 9 T.symbols.length, descBits := BitVec.ofNat 12 T.desc.length, treeValid := true,
        codesValid := false, inPos := BitVec.ofNat 32 (s.inOff.toNat + ceil8 T.desc.length) } none 0 t ∧
      t.holdsTree T.eraseMarks ∧
      T.eraseMarks.indices t.nodes t.root = (List.range T.size).map (BitVec.ofNat 9) ∧
      ∀ (i : NodeIx) (n : Node), i.toNat < T.size → nodeAt t.nodes i = some n → n.weight = 0#40 ∧ n.ph = false

/-- R228, R229: whatever descriptor PARSETREE, or a DECOMPRESS of at least one symbol, accepts, the arena then holds a tree
of R53 with ROOT = 0, depth at most 255 and DESC_BITS = 10 · LEAF_COUNT − 1; every entry has WEIGHT = 0 and PH = 0, and
the children of an internal node have higher indices, the LEFT child the next one. -/
def Obligations.AcceptedDescriptorIsATree : Prop :=
  ∀ (s t : State) (i : Instr), (i = .parsetree ∨ i = .decompress ∧ t.origLen ≠ 0#32) → exec i s = .next t →
    t.err = false →
    t.root = 0#9 ∧ t.treeValid = true ∧ t.codesValid = false ∧
    t.descBits.toNat = 10 * t.leafCount.toNat - 1 ∧
    (∃ T, t.holdsTree T ∧ ∀ x ∈ T.paths, x.2.length ≤ 255) ∧
    ∀ (j : NodeIx) (n : Node), j.toNat < t.nodeCount.toNat → nodeAt t.nodes j = some n →
      n.weight = 0#40 ∧ n.ph = false ∧
      (n.leaf = false → n.left.toNat = j.toNat + 1 ∧ j.toNat < n.right.toNat)

/-- R226, R225, R237: the four descriptor checks, of PARSETREE and of DECOMPRESS, after any nodes already parsed: the
window ends before the next tag or inside a leaf's symbol; the first tag is 1; a leaf repeats an earlier leaf's symbol; a
slot is open after 511 nodes. Each clears the tree and reports its own position, and DECOMPRESS also keeps ORIG_LEN = N. -/
def Obligations.DescriptorChecks : Prop :=
  ∀ (s base : State) (i : Instr) (p0 : Nat) (items : List (Option Symbol)), s.windowFits → s.parsesAt i base p0 →
    descPrefix items → s.bitsAt p0 (items.flatMap itemBits) →
    let p := p0 + (items.flatMap itemBits).length
    let fails (c : Cause) (pos : Nat) : Prop :=
      ∃ t, exec i s = .next t ∧ State.finished (base.withTreeCleared t.nodes) (some c) pos t
    (items.length < 511 → ∀ rest : List Bool, rest = [] ∨ items ≠ [] ∧ rest.head? = some true ∧ rest.length < 9 →
      s.bitsAt p rest → p + rest.length = 8 * s.inLen.toNat → fails .descExhausted s.inLen.toNat) ∧
    (items = [] → s.bitsAt p [true] → fails .descRootLeaf (p / 8)) ∧
    (items.length < 511 → ∀ x : Symbol, some x ∈ items → s.bitsAt p (itemBits (some x)) →
      fails .descDupSymbol ((p + 8) / 8)) ∧
    (items.length = 511 → fails .descTooManyNodes (p / 8))

/-- R232, R91: COMPRESS of an empty window writes the 8-byte empty container, zeroes FREQ and the tree and payload
registers, clears both flags, and changes nothing else. -/
def Obligations.CompressOfEmptyWindow : Prop :=
  ∀ s : State, s.windowFits → s.inOff = s.inLen →
    ∃ t, exec .compress s = .next t ∧
      State.finished { s with
        freq := Vector.replicate 256 0#32, treeValid := false, codesValid := false, origLen := 0#32, nodeCount := 0#10,
        root := 0#9, leafCount := 0#9, descBits := 0#12, payloadBits := 0#64, maxCodeLen := 0#8, outBuf := t.outBuf,
        outLen := 8#25, inPos := s.inLen } none 0 t ∧
      s.outBytesWritten t [0x48#8, 0x55#8, 0x46#8, 0x46#8, 0x00#8, 0x00#8, 0x00#8, 0x00#8]

/-- R232, R233, R83, R92, R182: COMPRESS of n ≥ 1 bytes always completes with the window's counts, the tree and its
registers exactly as BUILD leaves them for those counts, that tree's codes, and MAX_CODE_LEN the largest LEN. If the
container fits OUT_BUF it is written from offset 0, byte for byte as R83 lays it out; if not, OUT_OVERFLOW leaves OUT_BUF
and IN_POS alone and keeps the tree and codes. That a window of exactly 2^24 bytes is among these is the model's choice
(log entry 25). -/
def Obligations.CompressWritesTheContainer : Prop :=
  ∀ s : State, s.windowFits → s.window ≠ [] →
    ∃ t T, exec .compress s = .next t ∧ t.holdsTree T ∧ T.codeTable t.codes ∧
      (∀ sym, (symGet t.freq sym).toNat = s.window.count sym) ∧
      (∃ b, exec .build { s with freq := t.freq } = .next b ∧ b.err = false ∧
        (∀ i : NodeIx, i.toNat < t.nodeCount.toNat → nodeAt t.nodes i = nodeAt b.nodes i) ∧
        t.nodeCount = b.nodeCount ∧ t.root = b.root ∧ t.leafCount = b.leafCount ∧ t.descBits = b.descBits) ∧
      (∀ x, (symGet t.codes x).len.toNat ≤ t.maxCodeLen.toNat) ∧ (∃ x, (symGet t.codes x).len = t.maxCodeLen) ∧
      t.payloadBits.toNat = (payloadOf t.codes s.window).length ∧
      (let built : State := { s with
         freq := t.freq, nodes := t.nodes, nodeCount := t.nodeCount, root := t.root, leafCount := t.leafCount,
         descBits := t.descBits, codes := t.codes, maxCodeLen := t.maxCodeLen, payloadBits := t.payloadBits,
         treeValid := true, codesValid := true, origLen := BitVec.ofNat 32 s.window.length }
       if (containerOf T t.codes s.window).length ≤ s.params.outBufSize then
         State.finished { built with
           outBuf := t.outBuf, outLen := BitVec.ofNat 25 (containerOf T t.codes s.window).length, inPos := s.inLen }
           none 0 t ∧
         s.outBytesWritten t (containerOf T t.codes s.window)
       else State.finished { built with outLen := 0#25 } (some .outOverflow) 0 t)

/-- R237, R235, R236, R255: DECOMPRESS's checks before the tree, in their order: MAGIC_SHORT, MAGIC_MISMATCH,
HEADER_SHORT, a length of 0, which succeeds without a tree, and a length above OUT_BUF_SIZE. -/
def Obligations.DecompressHeader : Prop :=
  ∀ s : State, s.windowFits →
    (s.windowLen < 4 → ∃ t, exec .decompress s = .next t ∧
      State.finished { s with outLen := 0#25 } (some .magicShort) s.inOff.toNat t) ∧
    (4 ≤ s.windowLen → ¬ s.inBytesAt s.inOff.toNat [0x48#8, 0x55#8, 0x46#8, 0x46#8] →
      ∃ t, exec .decompress s = .next t ∧
        State.finished { s with outLen := 0#25 } (some .magicMismatch) s.inOff.toNat t) ∧
    (4 ≤ s.windowLen → s.windowLen < 8 → s.inBytesAt s.inOff.toNat [0x48#8, 0x55#8, 0x46#8, 0x46#8] →
      ∃ t, exec .decompress s = .next t ∧
        State.finished { s with outLen := 0#25 } (some .headerShort) s.inLen.toNat t) ∧
    (∀ n : Word, 8 ≤ s.windowLen →
      s.inBytesAt s.inOff.toNat ([0x48#8, 0x55#8, 0x46#8, 0x46#8] ++ be32 n) →
      (n = 0#32 → ∃ t, exec .decompress s = .next t ∧
        State.finished { s with
          outLen := 0#25, origLen := 0#32, inPos := BitVec.ofNat 32 (s.inOff.toNat + 8) } none 0 t) ∧
      (s.params.outBufSize < n.toNat → n ≠ 0#32 → ∃ t, exec .decompress s = .next t ∧
        State.finished { s with outLen := 0#25, origLen := n } (some .outOverflow) 0 t))

/-- R237, R83, R204: DECOMPRESS of a container of n ≥ 1 symbols (header, the descriptor of a tree, then from the next byte
the edge bits of n of its leaves) rebuilds the tree and writes the n symbols, ORIG_LEN, OUT_LEN and IN_POS, and nothing
else. If the window ends inside a leaf's edge bits after j < n leaves, PAYLOAD_EXHAUSTED at IN_LEN leaves ORIG_LEN = n,
the rebuilt tree valid, the j symbols in OUT_BUF and OUT_LEN = 0. -/
def Obligations.DecompressReadsTheContainer : Prop :=
  ∀ (s : State) (T : CodeTree) (n : Word) (xs : List (Symbol × List Bool)), s.windowFits → T.isNode = true →
    T.symbols.Nodup → (∀ x ∈ xs, x ∈ T.paths) → n ≠ 0#32 → n.toNat ≤ s.params.outBufSize →
    s.inBytesAt s.inOff.toNat ([0x48#8, 0x55#8, 0x46#8, 0x46#8] ++ be32 n) →
    s.bitsAt (8 * (s.inOff.toNat + 8)) T.desc →
    let o := s.inOff.toNat + 8 + ceil8 T.desc.length
    let parsed (t : State) : State := { s with
      origLen := n, nodes := t.nodes, nodeCount := BitVec.ofNat 10 T.size, root := 0#9,
      leafCount := BitVec.ofNat 9 T.symbols.length, descBits := BitVec.ofNat 12 T.desc.length, treeValid := true,
      codesValid := false, outBuf := t.outBuf }
    (xs.length = n.toNat → s.bitsAt (8 * o) (xs.flatMap Prod.snd) →
      ∃ t, exec .decompress s = .next t ∧
        State.finished { parsed t with
          outLen := BitVec.ofNat 25 n.toNat
          inPos := BitVec.ofNat 32 (o + ceil8 (xs.flatMap Prod.snd).length) } none 0 t ∧
        t.holdsTree T.eraseMarks ∧ s.outBytesWritten t (xs.map Prod.fst)) ∧
    (∀ (last : Symbol × List Bool) (rest : List Bool), xs.length < n.toNat → last ∈ T.paths → rest <+: last.2 →
      rest ≠ last.2 → s.bitsAt (8 * o) (xs.flatMap Prod.snd ++ rest) →
      8 * o + (xs.flatMap Prod.snd ++ rest).length = 8 * s.inLen.toNat →
      ∃ t, exec .decompress s = .next t ∧
        State.finished { parsed t with outLen := 0#25 } (some .payloadExhausted) s.inLen.toNat t ∧
        t.holdsTree T.eraseMarks ∧ s.outBytesWritten t (xs.map Prod.fst))

/-- R239: the container COMPRESS wrote for a window, placed anywhere in IN_BUF, DECOMPRESSes to that window. The rule is
stated for outputs that fit OUT_BUF; that the window's length fits too is this statement's own hypothesis, since R237
refuses a longer length (log entry 17). -/
def Obligations.DecompressInvertsCompress : Prop :=
  ∀ s t u : State, s.windowFits → exec .compress s = .next t → t.err = false → s.params.wf = true →
    u.windowFits → s.window.length ≤ u.params.outBufSize → u.inLen.toNat = u.inOff.toNat + t.outLen.toNat →
    (∀ j, j < t.outLen.toNat → u.inByte (u.inOff.toNat + j) = t.outByte j) →
    ∃ v, exec .decompress u = .next v ∧ v.err = false ∧ v.outLen.toNat = s.window.length ∧ v.inPos = u.inLen ∧
      u.outBytesWritten v s.window

/-- R240, R241: DECOMPRESS of a container of n ≥ 1 bytes, k bytes of it left after at least one is cut off its end, always
fails and reports no output: MAGIC_SHORT below 4 bytes, HEADER_SHORT below 8, DESC_EXHAUSTED while the cut is in the
descriptor, PAYLOAD_EXHAUSTED after it. That the window's length fits OUT_BUF is this statement's own hypothesis, since
R237 refuses a longer one (log entry 17). -/
def Obligations.TruncationIsDetected : Prop :=
  ∀ s t u : State, s.windowFits → exec .compress s = .next t → t.err = false → s.params.wf = true → s.window ≠ [] →
    u.windowFits → s.window.length ≤ u.params.outBufSize → u.inLen.toNat < u.inOff.toNat + t.outLen.toNat →
    (∀ j, u.inOff.toNat + j < u.inLen.toNat → u.inByte (u.inOff.toNat + j) = t.outByte j) →
    ∃ v, exec .decompress u = .next v ∧ v.err = true ∧ v.outLen = 0#25 ∧
      (let k := u.inLen.toNat - u.inOff.toNat
       v.error =
         if k < 4 then 0x00000101#32
         else if k < 8 then 0x00000102#32
         else if k < 8 + ceil8 t.descBits.toNat then 0x00000202#32
         else 0x00000602#32)

/-! ## Whole-machine rules -/

/-- Every step keeps both buffers in canonical form. The form is the model's choice (log entry 6). -/
def Obligations.StepKeepsBuffersCanonical : Prop :=
  ∀ s t : State, s.buffersCanonical → step s = .next t → t.buffersCanonical

/-- R45, R27, R287, R250, R251: every step keeps the life cycle's bookkeeping. -/
def Obligations.StepKeepsLifecycle : Prop :=
  ∀ s t : State, s.lifecycleOk → step s = .next t → t.lifecycleOk

/-- R36, R53: every step keeps CODES_VALID below TREE_VALID and the tree registers 0 without a tree. -/
def Obligations.StepKeepsTreeRegisters : Prop :=
  ∀ s t : State, s.treeRegsOk → step s = .next t → t.treeRegsOk

/-- R53: every step keeps the validity flags true: TREE_VALID = 1 only over a strict binary tree with every property of
R53, CODES_VALID = 1 only over that tree's codes. -/
def Obligations.StepKeepsFlagsTrue : Prop :=
  ∀ s t : State, s.flagsTrue → step s = .next t → t.flagsTrue

/-- R39, R33: every step keeps PAYLOAD_BITS below 2^48 and, with legal buffer sizes and true flags, OUT_LEN within
OUT_BUF. -/
def Obligations.StepKeepsOutputBounds : Prop :=
  ∀ s t : State, s.params.wf = true → s.flagsTrue → s.payloadBits.toNat < 2 ^ 48 →
    s.outLen.toNat ≤ s.params.outBufSize → step s = .next t →
    t.payloadBits.toNat < 2 ^ 48 ∧ t.outLen.toNat ≤ t.params.outBufSize

/-- R280, R7: the state after reset meets every invariant above, for every legal pair of buffer sizes, and `State.reset` is
that state for the default sizes. The buffers' canonical form is the model's choice (log entry 6). -/
def Obligations.ResetMeetsTheInvariants : Prop :=
  State.reset = State.resetFor Params.default ∧ Params.default.wf = true ∧
  ∀ p : Params, p.wf = true →
    (State.resetFor p).buffersCanonical ∧ (State.resetFor p).lifecycleOk ∧ (State.resetFor p).treeRegsOk ∧
    (State.resetFor p).flagsTrue ∧ (State.resetFor p).params = p ∧
    (State.resetFor p).payloadBits.toNat < 2 ^ 48 ∧ (State.resetFor p).outLen.toNat ≤ (State.resetFor p).params.outBufSize

/-- R293, R257: while the validity flags are true no step stops: every transaction is answered and every started command
completes. -/
def Obligations.NoStepFaults : Prop :=
  ∀ s : State, s.flagsTrue → safeStep s

/-- R157, R156, R50, R51, R47: what the spec leaves unspecified is never read. No command's result depends on the hidden
arrays it finds; and while the validity flags are true, none depends on the arena entries at indices ≥ NODE_COUNT, and no
register shows them. -/
def Obligations.UnspecifiedStateIsNeverRead : Prop :=
  (∀ (i : Instr) (s : State) (h : Hidden), i.format = .command → exec i { s with hidden := h } = exec i s) ∧
  ∀ (s : State) (a : Arena),
    (∀ x : NodeIx, x.toNat < s.nodeCount.toNat → nodeAt a x = nodeAt s.nodes x) →
    (s.flagsTrue → ∀ i : Instr, i.format = .command → exec i { s with nodes := a } = exec i s) ∧
    ∀ r : Reg, State.readReg { s with nodes := a } r = s.readReg r

/-- R61, R130: only an accepted Host write to the IN_BUF window, or reset, changes IN_BUF, its written bytes or the seed of
its unwritten ones (log entry 6); and only a CMD write on an idle machine starts a command. -/
def Obligations.OnlyTheHostLoadsAndStarts : Prop :=
  ∀ s t : State, step s = .next t →
    (t.inBuf ≠ s.inBuf ∨ t.bufSeed ≠ s.bufSeed →
      s.nextMove = .reset ∨
      s.busy = false ∧ ∃ addr wdata strb o,
        s.nextInstr = some (.hwrite addr wdata strb) ∧ decodeAddr s.params addr = .inBuf o) ∧
    (s.busy = false → t.busy = true →
      ∃ addr wdata, s.nextInstr = some (.hwrite addr wdata 0b1111#4) ∧ decodeAddr s.params addr = .reg .cmd)
end

