-- ==== Sys2Proof/Laws/Memory.lean ====
section
/-! SUPPORT. The laws of the buffers: a read after a write, and that every memory operation keeps the canonical form. -/

namespace Sys2Proof.Machine

/-! ## Reading after writing -/

@[simp] theorem Memory.read_nil (o : Nat) : Memory.read [] o = none := rfl

theorem Memory.read_write (m : Memory) (o a : Nat) (b : Byte) (h : Memory.wf m = true) :
    Memory.read (Memory.write m o b) a = if a = o then some b else Memory.read m a := by
  induction m with
  | nil => simp [Memory.write, Memory.read, eq_comm]
  | cons c m ih =>
    simp only [Memory.wf, Bool.and_eq_true, List.all_eq_true, decide_eq_true_eq] at h
    unfold Memory.write
    split
    · simp [Memory.read, eq_comm]
    · split
      · rename_i h1
        subst h1
        by_cases ha : a = c.1 <;> simp [Memory.read, ha, eq_comm]
      · rename_i h1 h2
        by_cases ha : a = o
        · subst ha
          simp [Memory.read, Ne.symm h2, ih h.2]
        · simp [Memory.read, ha, ih h.2]

/-- Holds of every list, canonical or not. -/
theorem Memory.read_write_same (m : Memory) (o : Nat) (b : Byte) : Memory.read (Memory.write m o b) o = some b := by
  induction m with
  | nil => simp [Memory.write, Memory.read]
  | cons c m ih =>
    unfold Memory.write
    split
    · simp [Memory.read]
    · split
      · simp [Memory.read]
      · rename_i h1 h2
        simp [Memory.read, Ne.symm h2, ih]

/-- Holds of every list, canonical or not. -/
theorem Memory.read_write_of_ne (m : Memory) {o a : Nat} (b : Byte) (h : a ≠ o) :
    Memory.read (Memory.write m o b) a = Memory.read m a := by
  induction m with
  | nil => simp [Memory.write, Memory.read, Ne.symm h]
  | cons c m ih =>
    unfold Memory.write
    split
    · simp [Memory.read, Ne.symm h]
    · split
      · rename_i h1 h2
        simp [Memory.read, ← h2, Ne.symm h]
      · simp [Memory.read, ih]

/-! ## The canonical form -/

theorem Memory.mem_write (m : Memory) (o : Nat) (b : Byte) (d : Host.Cell) (h : d ∈ Memory.write m o b) :
    d = (o, b) ∨ d ∈ m := by
  induction m with
  | nil => simpa [Memory.write] using h
  | cons c m ih =>
    unfold Memory.write at h
    split at h
    · simpa using h
    · split at h
      · rcases List.mem_cons.1 h with h | h
        · exact .inl h
        · exact .inr (List.mem_cons_of_mem _ h)
      · rcases List.mem_cons.1 h with h | h
        · exact .inr (by simp [h])
        · rcases ih h with h | h
          · exact .inl h
          · exact .inr (List.mem_cons_of_mem _ h)

theorem Memory.wf_write (m : Memory) (o : Nat) (b : Byte) (h : Memory.wf m = true) :
    Memory.wf (Memory.write m o b) = true := by
  induction m with
  | nil => rfl
  | cons c m ih =>
    have hc := h
    simp only [Memory.wf, Bool.and_eq_true, List.all_eq_true, decide_eq_true_eq] at hc
    unfold Memory.write
    split
    · rename_i h1
      simp only [Memory.wf, Bool.and_eq_true, List.all_eq_true, decide_eq_true_eq, List.mem_cons, forall_eq_or_imp]
      exact ⟨⟨h1, fun d hd => lt_trans h1 (hc.1 d hd)⟩, hc⟩
    · split
      · rename_i h1 h2
        simp only [Memory.wf, Bool.and_eq_true, List.all_eq_true, decide_eq_true_eq]
        exact ⟨fun d hd => by simpa [h2] using hc.1 d hd, hc.2⟩
      · rename_i h1 h2
        simp only [Memory.wf, Bool.and_eq_true, List.all_eq_true, decide_eq_true_eq]
        refine ⟨fun d hd => ?_, ih hc.2⟩
        rcases Memory.mem_write m o b d hd with h3 | h3
        · simp only [h3]
          omega
        · exact hc.1 d h3

theorem Memory.wf_writeAll (m : Memory) (o : Nat) (bs : List Byte) (h : Memory.wf m = true) :
    Memory.wf (Memory.writeAll m o bs) = true := by
  induction bs generalizing m o with
  | nil => exact h
  | cons b bs ih => exact ih _ _ (Memory.wf_write m o b h)

theorem Memory.read_writeAll (m : Memory) (o : Nat) (bs : List Byte) (a : Nat) :
    Memory.read (Memory.writeAll m o bs) a =
      if h : o ≤ a ∧ a - o < bs.length then some (bs[a - o]'h.2) else Memory.read m a := by
  induction bs generalizing m o with
  | nil => simp [Memory.writeAll]
  | cons b bs ih =>
    rw [Memory.writeAll, ih]
    by_cases h1 : o + 1 ≤ a ∧ a - (o + 1) < bs.length
    · have h2 : o ≤ a ∧ a - o < (b :: bs).length := ⟨by omega, by simp; omega⟩
      have h3 : a - o = a - (o + 1) + 1 := by omega
      simp [h1, h2, h3]
    · by_cases h2 : a = o
      · subst h2
        simp [Memory.read_write_same]
      · rw [dif_neg h1, dif_neg (by simp; omega)]
        exact Memory.read_write_of_ne m b h2

theorem wf_writeLanes (m : Memory) (o : Nat) (wdata : Word) (strb : BitVec 4) (h : Memory.wf m = true) :
    Memory.wf (writeLanes m o wdata strb) = true := by
  simp only [writeLanes]
  repeat' first | exact h | split | apply Memory.wf_write

theorem wf_writeHeader (m : Memory) (n : Word) (h : Memory.wf m = true) : Memory.wf (writeHeader m n) = true :=
  Memory.wf_writeAll _ _ _ h

theorem Writer.wf_putBit (w : Writer) (b : Bool) (h : Memory.wf w.buf = true) : Memory.wf (w.putBit b).buf = true := by
  simp only [Writer.putBit]
  split
  · exact Memory.wf_write _ _ _ h
  · exact h

theorem Writer.wf_putBits (w : Writer) (bs : List Bool) (h : Memory.wf w.buf = true) :
    Memory.wf (w.putBits bs).buf = true := by
  induction bs generalizing w with
  | nil => exact h
  | cons b bs ih => exact ih _ (Writer.wf_putBit w b h)

theorem Writer.wf_putCodes (t : CodeTable) (w : Writer) (ws : List Byte) (h : Memory.wf w.buf = true) :
    Memory.wf (w.putCodes t ws).buf = true := by
  induction ws generalizing w with
  | nil => exact h
  | cons b ws ih => exact ih _ (Writer.wf_putBits _ _ h)

theorem Writer.wf_flush (w : Writer) (h : Memory.wf w.buf = true) : Memory.wf w.flush.buf = true := by
  simp only [Writer.flush]
  split
  · exact Memory.wf_write _ _ _ h
  · exact h

theorem wf_writeDesc (a : Arena) (fuel : Nat) (stk : List NodeIx) (w v : Writer) (h : Memory.wf w.buf = true)
    (hv : writeDesc a fuel stk w = some v) : Memory.wf v.buf = true := by
  induction fuel generalizing stk w with
  | zero =>
    cases stk with
    | nil =>
      simp only [writeDesc, Option.some.injEq] at hv
      exact hv ▸ h
    | cons i rest => simp [writeDesc] at hv
  | succ fuel ih =>
    cases stk with
    | nil =>
      simp only [writeDesc, Option.some.injEq] at hv
      exact hv ▸ h
    | cons i rest =>
      simp only [writeDesc] at hv
      split at hv
      · simp at hv
      · split at hv
        · exact ih _ _ (Writer.wf_putBits _ _ (Writer.wf_putBit _ _ h)) hv
        · exact ih _ _ (Writer.wf_putBit _ _ h) hv

/-- The buffer `unpackSymbols` leaves, however it ends, is canonical. -/
def Unpacked.bufWf : Unpacked → Prop
  | .done buf _ => Memory.wf buf = true
  | .exhausted buf => Memory.wf buf = true
  | .notATree => True

theorem wf_unpackSymbols (s : State) (count j p : Nat) (buf : Memory) (h : Memory.wf buf = true) :
    (unpackSymbols s count j p buf).bufWf := by
  induction count generalizing j p buf with
  | zero => exact h
  | succ count ih =>
    simp only [unpackSymbols]
    split
    · exact ih _ _ _ (Memory.wf_write _ _ _ h)
    · exact h
    · trivial

theorem wf_resetFor (p : Params) :
    Memory.wf (State.resetFor p).inBuf = true ∧ Memory.wf (State.resetFor p).outBuf = true := ⟨rfl, rfl⟩

/-! ## Bytes of the buffers -/

theorem State.inByte_write (s : State) (o a : Nat) (b : Byte) :
    State.inByte { s with inBuf := Memory.write s.inBuf o b } a = if a = o then b else s.inByte a := by
  by_cases h : a = o
  · subst h
    simp [State.inByte, Memory.read_write_same]
  · simp [State.inByte, Memory.read_write_of_ne _ _ h, h]

theorem State.outByte_write (s : State) (o a : Nat) (b : Byte) :
    State.outByte { s with outBuf := Memory.write s.outBuf o b } a = if a = o then b else s.outByte a := by
  by_cases h : a = o
  · subst h
    simp [State.outByte, Memory.read_write_same]
  · simp [State.outByte, Memory.read_write_of_ne _ _ h, h]

end Sys2Proof.Machine
end

