-- ==== Sys2Proof/Laws/State.lean ====
section
/-! SUPPORT. What each named update of State does to each field, one lemma per field per update, so that no proof unfolds a
record update; and what the updates leave of the values computed from several fields. -/

namespace Sys2Proof.Machine

/-! ## `startCommand`: R131: command start -/

@[simp] theorem State.startCommand_params (s : State) (w : Word) : (s.startCommand w).params = s.params := rfl
@[simp] theorem State.startCommand_busy (s : State) (w : Word) : (s.startCommand w).busy = true := rfl
@[simp] theorem State.startCommand_done (s : State) (w : Word) : (s.startCommand w).done = false := rfl
@[simp] theorem State.startCommand_err (s : State) (w : Word) : (s.startCommand w).err = false := rfl
@[simp] theorem State.startCommand_haz (s : State) (w : Word) : (s.startCommand w).haz = s.haz := rfl
@[simp] theorem State.startCommand_treeValid (s : State) (w : Word) : (s.startCommand w).treeValid = s.treeValid := rfl
@[simp] theorem State.startCommand_codesValid (s : State) (w : Word) :
    (s.startCommand w).codesValid = s.codesValid := rfl
@[simp] theorem State.startCommand_lastOp (s : State) (w : Word) : (s.startCommand w).lastOp = w.extractLsb' 0 8 := rfl
@[simp] theorem State.startCommand_errClass (s : State) (w : Word) : (s.startCommand w).errClass = 0#4 := rfl
@[simp] theorem State.startCommand_errDetail (s : State) (w : Word) : (s.startCommand w).errDetail = 0#8 := rfl
@[simp] theorem State.startCommand_errPos (s : State) (w : Word) : (s.startCommand w).errPos = 0#32 := rfl
@[simp] theorem State.startCommand_doneIe (s : State) (w : Word) : (s.startCommand w).doneIe = s.doneIe := rfl
@[simp] theorem State.startCommand_inLen (s : State) (w : Word) : (s.startCommand w).inLen = s.inLen := rfl
@[simp] theorem State.startCommand_inOff (s : State) (w : Word) : (s.startCommand w).inOff = s.inOff := rfl
@[simp] theorem State.startCommand_origLen (s : State) (w : Word) : (s.startCommand w).origLen = s.origLen := rfl
@[simp] theorem State.startCommand_outLen (s : State) (w : Word) : (s.startCommand w).outLen = s.outLen := rfl
@[simp] theorem State.startCommand_inPos (s : State) (w : Word) : (s.startCommand w).inPos = s.inPos := rfl
@[simp] theorem State.startCommand_nodeCount (s : State) (w : Word) : (s.startCommand w).nodeCount = s.nodeCount := rfl
@[simp] theorem State.startCommand_root (s : State) (w : Word) : (s.startCommand w).root = s.root := rfl
@[simp] theorem State.startCommand_leafCount (s : State) (w : Word) : (s.startCommand w).leafCount = s.leafCount := rfl
@[simp] theorem State.startCommand_descBits (s : State) (w : Word) : (s.startCommand w).descBits = s.descBits := rfl
@[simp] theorem State.startCommand_payloadBits (s : State) (w : Word) :
    (s.startCommand w).payloadBits = s.payloadBits := rfl
@[simp] theorem State.startCommand_maxCodeLen (s : State) (w : Word) :
    (s.startCommand w).maxCodeLen = s.maxCodeLen := rfl
@[simp] theorem State.startCommand_nodeSel (s : State) (w : Word) : (s.startCommand w).nodeSel = s.nodeSel := rfl
@[simp] theorem State.startCommand_codeSel (s : State) (w : Word) : (s.startCommand w).codeSel = s.codeSel := rfl
@[simp] theorem State.startCommand_freq (s : State) (w : Word) : (s.startCommand w).freq = s.freq := rfl
@[simp] theorem State.startCommand_nodes (s : State) (w : Word) : (s.startCommand w).nodes = s.nodes := rfl
@[simp] theorem State.startCommand_codes (s : State) (w : Word) : (s.startCommand w).codes = s.codes := rfl
@[simp] theorem State.startCommand_inBuf (s : State) (w : Word) : (s.startCommand w).inBuf = s.inBuf := rfl
@[simp] theorem State.startCommand_outBuf (s : State) (w : Word) : (s.startCommand w).outBuf = s.outBuf := rfl
@[simp] theorem State.startCommand_seq (s : State) (w : Word) : (s.startCommand w).seq = .exec w := rfl
@[simp] theorem State.startCommand_hidden (s : State) (w : Word) : (s.startCommand w).hidden = s.hidden := rfl
@[simp] theorem State.startCommand_inputs (s : State) (w : Word) : (s.startCommand w).inputs = s.inputs := rfl
@[simp] theorem State.startCommand_resp (s : State) (w : Word) : (s.startCommand w).resp = s.resp := rfl
@[simp] theorem State.startCommand_fresh (s : State) (w : Word) : (s.startCommand w).fresh = s.fresh := rfl
@[simp] theorem State.startCommand_bufSeed (s : State) (w : Word) : (s.startCommand w).bufSeed = s.bufSeed := rfl

/-! ## `complete`: R133: the completion step -/

@[simp] theorem State.complete_params (s : State) (c : Option Cause) (p : Nat) :
    (s.complete c p).params = s.params := rfl
@[simp] theorem State.complete_busy (s : State) (c : Option Cause) (p : Nat) : (s.complete c p).busy = false := rfl
@[simp] theorem State.complete_done (s : State) (c : Option Cause) (p : Nat) : (s.complete c p).done = true := rfl
@[simp] theorem State.complete_err (s : State) (c : Option Cause) (p : Nat) : (s.complete c p).err = c.isSome := rfl
@[simp] theorem State.complete_haz (s : State) (c : Option Cause) (p : Nat) : (s.complete c p).haz = s.haz := rfl
@[simp] theorem State.complete_treeValid (s : State) (c : Option Cause) (p : Nat) :
    (s.complete c p).treeValid = s.treeValid := rfl
@[simp] theorem State.complete_codesValid (s : State) (c : Option Cause) (p : Nat) :
    (s.complete c p).codesValid = s.codesValid := rfl
@[simp] theorem State.complete_lastOp (s : State) (c : Option Cause) (p : Nat) :
    (s.complete c p).lastOp = s.lastOp := rfl
@[simp] theorem State.complete_errClass (s : State) (c : Option Cause) (p : Nat) :
    (s.complete c p).errClass = (match c with | some c => c.errClass | none => 0#4) := rfl
@[simp] theorem State.complete_errDetail (s : State) (c : Option Cause) (p : Nat) :
    (s.complete c p).errDetail = (match c with | some c => c.errDetail | none => 0#8) := rfl
@[simp] theorem State.complete_errPos (s : State) (c : Option Cause) (p : Nat) :
    (s.complete c p).errPos = BitVec.ofNat 32 p := rfl
@[simp] theorem State.complete_doneIe (s : State) (c : Option Cause) (p : Nat) :
    (s.complete c p).doneIe = s.doneIe := rfl
@[simp] theorem State.complete_inLen (s : State) (c : Option Cause) (p : Nat) : (s.complete c p).inLen = s.inLen := rfl
@[simp] theorem State.complete_inOff (s : State) (c : Option Cause) (p : Nat) : (s.complete c p).inOff = s.inOff := rfl
@[simp] theorem State.complete_origLen (s : State) (c : Option Cause) (p : Nat) :
    (s.complete c p).origLen = s.origLen := rfl
@[simp] theorem State.complete_outLen (s : State) (c : Option Cause) (p : Nat) :
    (s.complete c p).outLen = s.outLen := rfl
@[simp] theorem State.complete_inPos (s : State) (c : Option Cause) (p : Nat) : (s.complete c p).inPos = s.inPos := rfl
@[simp] theorem State.complete_nodeCount (s : State) (c : Option Cause) (p : Nat) :
    (s.complete c p).nodeCount = s.nodeCount := rfl
@[simp] theorem State.complete_root (s : State) (c : Option Cause) (p : Nat) : (s.complete c p).root = s.root := rfl
@[simp] theorem State.complete_leafCount (s : State) (c : Option Cause) (p : Nat) :
    (s.complete c p).leafCount = s.leafCount := rfl
@[simp] theorem State.complete_descBits (s : State) (c : Option Cause) (p : Nat) :
    (s.complete c p).descBits = s.descBits := rfl
@[simp] theorem State.complete_payloadBits (s : State) (c : Option Cause) (p : Nat) :
    (s.complete c p).payloadBits = s.payloadBits := rfl
@[simp] theorem State.complete_maxCodeLen (s : State) (c : Option Cause) (p : Nat) :
    (s.complete c p).maxCodeLen = s.maxCodeLen := rfl
@[simp] theorem State.complete_nodeSel (s : State) (c : Option Cause) (p : Nat) :
    (s.complete c p).nodeSel = s.nodeSel := rfl
@[simp] theorem State.complete_codeSel (s : State) (c : Option Cause) (p : Nat) :
    (s.complete c p).codeSel = s.codeSel := rfl
@[simp] theorem State.complete_freq (s : State) (c : Option Cause) (p : Nat) : (s.complete c p).freq = s.freq := rfl
@[simp] theorem State.complete_nodes (s : State) (c : Option Cause) (p : Nat) :
    (s.complete c p).nodes = freeFrom s.nodeCount.toNat s.nodes (Config.freeArena s.fresh) := rfl
@[simp] theorem State.complete_codes (s : State) (c : Option Cause) (p : Nat) : (s.complete c p).codes = s.codes := rfl
@[simp] theorem State.complete_inBuf (s : State) (c : Option Cause) (p : Nat) : (s.complete c p).inBuf = s.inBuf := rfl
@[simp] theorem State.complete_outBuf (s : State) (c : Option Cause) (p : Nat) :
    (s.complete c p).outBuf = s.outBuf := rfl
@[simp] theorem State.complete_seq (s : State) (c : Option Cause) (p : Nat) : (s.complete c p).seq = .idle := rfl
@[simp] theorem State.complete_hidden (s : State) (c : Option Cause) (p : Nat) :
    (s.complete c p).hidden = Config.freeHidden s.fresh := rfl
@[simp] theorem State.complete_inputs (s : State) (c : Option Cause) (p : Nat) :
    (s.complete c p).inputs = s.inputs := rfl
@[simp] theorem State.complete_resp (s : State) (c : Option Cause) (p : Nat) : (s.complete c p).resp = s.resp := rfl
@[simp] theorem State.complete_fresh (s : State) (c : Option Cause) (p : Nat) :
    (s.complete c p).fresh = s.fresh + 1 := rfl
@[simp] theorem State.complete_bufSeed (s : State) (c : Option Cause) (p : Nat) :
    (s.complete c p).bufSeed = s.bufSeed := rfl

/-! ## `clearTreeRegs`: the tree registers zeroed -/

@[simp] theorem State.clearTreeRegs_params (s : State) : (s.clearTreeRegs).params = s.params := rfl
@[simp] theorem State.clearTreeRegs_busy (s : State) : (s.clearTreeRegs).busy = s.busy := rfl
@[simp] theorem State.clearTreeRegs_done (s : State) : (s.clearTreeRegs).done = s.done := rfl
@[simp] theorem State.clearTreeRegs_err (s : State) : (s.clearTreeRegs).err = s.err := rfl
@[simp] theorem State.clearTreeRegs_haz (s : State) : (s.clearTreeRegs).haz = s.haz := rfl
@[simp] theorem State.clearTreeRegs_treeValid (s : State) : (s.clearTreeRegs).treeValid = s.treeValid := rfl
@[simp] theorem State.clearTreeRegs_codesValid (s : State) : (s.clearTreeRegs).codesValid = s.codesValid := rfl
@[simp] theorem State.clearTreeRegs_lastOp (s : State) : (s.clearTreeRegs).lastOp = s.lastOp := rfl
@[simp] theorem State.clearTreeRegs_errClass (s : State) : (s.clearTreeRegs).errClass = s.errClass := rfl
@[simp] theorem State.clearTreeRegs_errDetail (s : State) : (s.clearTreeRegs).errDetail = s.errDetail := rfl
@[simp] theorem State.clearTreeRegs_errPos (s : State) : (s.clearTreeRegs).errPos = s.errPos := rfl
@[simp] theorem State.clearTreeRegs_doneIe (s : State) : (s.clearTreeRegs).doneIe = s.doneIe := rfl
@[simp] theorem State.clearTreeRegs_inLen (s : State) : (s.clearTreeRegs).inLen = s.inLen := rfl
@[simp] theorem State.clearTreeRegs_inOff (s : State) : (s.clearTreeRegs).inOff = s.inOff := rfl
@[simp] theorem State.clearTreeRegs_origLen (s : State) : (s.clearTreeRegs).origLen = s.origLen := rfl
@[simp] theorem State.clearTreeRegs_outLen (s : State) : (s.clearTreeRegs).outLen = s.outLen := rfl
@[simp] theorem State.clearTreeRegs_inPos (s : State) : (s.clearTreeRegs).inPos = s.inPos := rfl
@[simp] theorem State.clearTreeRegs_nodeCount (s : State) : (s.clearTreeRegs).nodeCount = 0#10 := rfl
@[simp] theorem State.clearTreeRegs_root (s : State) : (s.clearTreeRegs).root = 0#9 := rfl
@[simp] theorem State.clearTreeRegs_leafCount (s : State) : (s.clearTreeRegs).leafCount = 0#9 := rfl
@[simp] theorem State.clearTreeRegs_descBits (s : State) : (s.clearTreeRegs).descBits = 0#12 := rfl
@[simp] theorem State.clearTreeRegs_payloadBits (s : State) : (s.clearTreeRegs).payloadBits = s.payloadBits := rfl
@[simp] theorem State.clearTreeRegs_maxCodeLen (s : State) : (s.clearTreeRegs).maxCodeLen = s.maxCodeLen := rfl
@[simp] theorem State.clearTreeRegs_nodeSel (s : State) : (s.clearTreeRegs).nodeSel = s.nodeSel := rfl
@[simp] theorem State.clearTreeRegs_codeSel (s : State) : (s.clearTreeRegs).codeSel = s.codeSel := rfl
@[simp] theorem State.clearTreeRegs_freq (s : State) : (s.clearTreeRegs).freq = s.freq := rfl
@[simp] theorem State.clearTreeRegs_nodes (s : State) : (s.clearTreeRegs).nodes = s.nodes := rfl
@[simp] theorem State.clearTreeRegs_codes (s : State) : (s.clearTreeRegs).codes = s.codes := rfl
@[simp] theorem State.clearTreeRegs_inBuf (s : State) : (s.clearTreeRegs).inBuf = s.inBuf := rfl
@[simp] theorem State.clearTreeRegs_outBuf (s : State) : (s.clearTreeRegs).outBuf = s.outBuf := rfl
@[simp] theorem State.clearTreeRegs_seq (s : State) : (s.clearTreeRegs).seq = s.seq := rfl
@[simp] theorem State.clearTreeRegs_hidden (s : State) : (s.clearTreeRegs).hidden = s.hidden := rfl
@[simp] theorem State.clearTreeRegs_inputs (s : State) : (s.clearTreeRegs).inputs = s.inputs := rfl
@[simp] theorem State.clearTreeRegs_resp (s : State) : (s.clearTreeRegs).resp = s.resp := rfl
@[simp] theorem State.clearTreeRegs_fresh (s : State) : (s.clearTreeRegs).fresh = s.fresh := rfl
@[simp] theorem State.clearTreeRegs_bufSeed (s : State) : (s.clearTreeRegs).bufSeed = s.bufSeed := rfl

/-! ## `invalidate`: both validity flags cleared -/

@[simp] theorem State.invalidate_params (s : State) : (s.invalidate).params = s.params := rfl
@[simp] theorem State.invalidate_busy (s : State) : (s.invalidate).busy = s.busy := rfl
@[simp] theorem State.invalidate_done (s : State) : (s.invalidate).done = s.done := rfl
@[simp] theorem State.invalidate_err (s : State) : (s.invalidate).err = s.err := rfl
@[simp] theorem State.invalidate_haz (s : State) : (s.invalidate).haz = s.haz := rfl
@[simp] theorem State.invalidate_treeValid (s : State) : (s.invalidate).treeValid = false := rfl
@[simp] theorem State.invalidate_codesValid (s : State) : (s.invalidate).codesValid = false := rfl
@[simp] theorem State.invalidate_lastOp (s : State) : (s.invalidate).lastOp = s.lastOp := rfl
@[simp] theorem State.invalidate_errClass (s : State) : (s.invalidate).errClass = s.errClass := rfl
@[simp] theorem State.invalidate_errDetail (s : State) : (s.invalidate).errDetail = s.errDetail := rfl
@[simp] theorem State.invalidate_errPos (s : State) : (s.invalidate).errPos = s.errPos := rfl
@[simp] theorem State.invalidate_doneIe (s : State) : (s.invalidate).doneIe = s.doneIe := rfl
@[simp] theorem State.invalidate_inLen (s : State) : (s.invalidate).inLen = s.inLen := rfl
@[simp] theorem State.invalidate_inOff (s : State) : (s.invalidate).inOff = s.inOff := rfl
@[simp] theorem State.invalidate_origLen (s : State) : (s.invalidate).origLen = s.origLen := rfl
@[simp] theorem State.invalidate_outLen (s : State) : (s.invalidate).outLen = s.outLen := rfl
@[simp] theorem State.invalidate_inPos (s : State) : (s.invalidate).inPos = s.inPos := rfl
@[simp] theorem State.invalidate_nodeCount (s : State) : (s.invalidate).nodeCount = s.nodeCount := rfl
@[simp] theorem State.invalidate_root (s : State) : (s.invalidate).root = s.root := rfl
@[simp] theorem State.invalidate_leafCount (s : State) : (s.invalidate).leafCount = s.leafCount := rfl
@[simp] theorem State.invalidate_descBits (s : State) : (s.invalidate).descBits = s.descBits := rfl
@[simp] theorem State.invalidate_payloadBits (s : State) : (s.invalidate).payloadBits = s.payloadBits := rfl
@[simp] theorem State.invalidate_maxCodeLen (s : State) : (s.invalidate).maxCodeLen = s.maxCodeLen := rfl
@[simp] theorem State.invalidate_nodeSel (s : State) : (s.invalidate).nodeSel = s.nodeSel := rfl
@[simp] theorem State.invalidate_codeSel (s : State) : (s.invalidate).codeSel = s.codeSel := rfl
@[simp] theorem State.invalidate_freq (s : State) : (s.invalidate).freq = s.freq := rfl
@[simp] theorem State.invalidate_nodes (s : State) : (s.invalidate).nodes = s.nodes := rfl
@[simp] theorem State.invalidate_codes (s : State) : (s.invalidate).codes = s.codes := rfl
@[simp] theorem State.invalidate_inBuf (s : State) : (s.invalidate).inBuf = s.inBuf := rfl
@[simp] theorem State.invalidate_outBuf (s : State) : (s.invalidate).outBuf = s.outBuf := rfl
@[simp] theorem State.invalidate_seq (s : State) : (s.invalidate).seq = s.seq := rfl
@[simp] theorem State.invalidate_hidden (s : State) : (s.invalidate).hidden = s.hidden := rfl
@[simp] theorem State.invalidate_inputs (s : State) : (s.invalidate).inputs = s.inputs := rfl
@[simp] theorem State.invalidate_resp (s : State) : (s.invalidate).resp = s.resp := rfl
@[simp] theorem State.invalidate_fresh (s : State) : (s.invalidate).fresh = s.fresh := rfl
@[simp] theorem State.invalidate_bufSeed (s : State) : (s.invalidate).bufSeed = s.bufSeed := rfl

/-! ## `setOutLen`: OUT_LEN written -/

@[simp] theorem State.setOutLen_params (s : State) (n : Nat) : (s.setOutLen n).params = s.params := rfl
@[simp] theorem State.setOutLen_busy (s : State) (n : Nat) : (s.setOutLen n).busy = s.busy := rfl
@[simp] theorem State.setOutLen_done (s : State) (n : Nat) : (s.setOutLen n).done = s.done := rfl
@[simp] theorem State.setOutLen_err (s : State) (n : Nat) : (s.setOutLen n).err = s.err := rfl
@[simp] theorem State.setOutLen_haz (s : State) (n : Nat) : (s.setOutLen n).haz = s.haz := rfl
@[simp] theorem State.setOutLen_treeValid (s : State) (n : Nat) : (s.setOutLen n).treeValid = s.treeValid := rfl
@[simp] theorem State.setOutLen_codesValid (s : State) (n : Nat) : (s.setOutLen n).codesValid = s.codesValid := rfl
@[simp] theorem State.setOutLen_lastOp (s : State) (n : Nat) : (s.setOutLen n).lastOp = s.lastOp := rfl
@[simp] theorem State.setOutLen_errClass (s : State) (n : Nat) : (s.setOutLen n).errClass = s.errClass := rfl
@[simp] theorem State.setOutLen_errDetail (s : State) (n : Nat) : (s.setOutLen n).errDetail = s.errDetail := rfl
@[simp] theorem State.setOutLen_errPos (s : State) (n : Nat) : (s.setOutLen n).errPos = s.errPos := rfl
@[simp] theorem State.setOutLen_doneIe (s : State) (n : Nat) : (s.setOutLen n).doneIe = s.doneIe := rfl
@[simp] theorem State.setOutLen_inLen (s : State) (n : Nat) : (s.setOutLen n).inLen = s.inLen := rfl
@[simp] theorem State.setOutLen_inOff (s : State) (n : Nat) : (s.setOutLen n).inOff = s.inOff := rfl
@[simp] theorem State.setOutLen_origLen (s : State) (n : Nat) : (s.setOutLen n).origLen = s.origLen := rfl
@[simp] theorem State.setOutLen_outLen (s : State) (n : Nat) : (s.setOutLen n).outLen = BitVec.ofNat 25 n := rfl
@[simp] theorem State.setOutLen_inPos (s : State) (n : Nat) : (s.setOutLen n).inPos = s.inPos := rfl
@[simp] theorem State.setOutLen_nodeCount (s : State) (n : Nat) : (s.setOutLen n).nodeCount = s.nodeCount := rfl
@[simp] theorem State.setOutLen_root (s : State) (n : Nat) : (s.setOutLen n).root = s.root := rfl
@[simp] theorem State.setOutLen_leafCount (s : State) (n : Nat) : (s.setOutLen n).leafCount = s.leafCount := rfl
@[simp] theorem State.setOutLen_descBits (s : State) (n : Nat) : (s.setOutLen n).descBits = s.descBits := rfl
@[simp] theorem State.setOutLen_payloadBits (s : State) (n : Nat) : (s.setOutLen n).payloadBits = s.payloadBits := rfl
@[simp] theorem State.setOutLen_maxCodeLen (s : State) (n : Nat) : (s.setOutLen n).maxCodeLen = s.maxCodeLen := rfl
@[simp] theorem State.setOutLen_nodeSel (s : State) (n : Nat) : (s.setOutLen n).nodeSel = s.nodeSel := rfl
@[simp] theorem State.setOutLen_codeSel (s : State) (n : Nat) : (s.setOutLen n).codeSel = s.codeSel := rfl
@[simp] theorem State.setOutLen_freq (s : State) (n : Nat) : (s.setOutLen n).freq = s.freq := rfl
@[simp] theorem State.setOutLen_nodes (s : State) (n : Nat) : (s.setOutLen n).nodes = s.nodes := rfl
@[simp] theorem State.setOutLen_codes (s : State) (n : Nat) : (s.setOutLen n).codes = s.codes := rfl
@[simp] theorem State.setOutLen_inBuf (s : State) (n : Nat) : (s.setOutLen n).inBuf = s.inBuf := rfl
@[simp] theorem State.setOutLen_outBuf (s : State) (n : Nat) : (s.setOutLen n).outBuf = s.outBuf := rfl
@[simp] theorem State.setOutLen_seq (s : State) (n : Nat) : (s.setOutLen n).seq = s.seq := rfl
@[simp] theorem State.setOutLen_hidden (s : State) (n : Nat) : (s.setOutLen n).hidden = s.hidden := rfl
@[simp] theorem State.setOutLen_inputs (s : State) (n : Nat) : (s.setOutLen n).inputs = s.inputs := rfl
@[simp] theorem State.setOutLen_resp (s : State) (n : Nat) : (s.setOutLen n).resp = s.resp := rfl
@[simp] theorem State.setOutLen_fresh (s : State) (n : Nat) : (s.setOutLen n).fresh = s.fresh := rfl
@[simp] theorem State.setOutLen_bufSeed (s : State) (n : Nat) : (s.setOutLen n).bufSeed = s.bufSeed := rfl

/-! ## `setInPos`: IN_POS written -/

@[simp] theorem State.setInPos_params (s : State) (n : Nat) : (s.setInPos n).params = s.params := rfl
@[simp] theorem State.setInPos_busy (s : State) (n : Nat) : (s.setInPos n).busy = s.busy := rfl
@[simp] theorem State.setInPos_done (s : State) (n : Nat) : (s.setInPos n).done = s.done := rfl
@[simp] theorem State.setInPos_err (s : State) (n : Nat) : (s.setInPos n).err = s.err := rfl
@[simp] theorem State.setInPos_haz (s : State) (n : Nat) : (s.setInPos n).haz = s.haz := rfl
@[simp] theorem State.setInPos_treeValid (s : State) (n : Nat) : (s.setInPos n).treeValid = s.treeValid := rfl
@[simp] theorem State.setInPos_codesValid (s : State) (n : Nat) : (s.setInPos n).codesValid = s.codesValid := rfl
@[simp] theorem State.setInPos_lastOp (s : State) (n : Nat) : (s.setInPos n).lastOp = s.lastOp := rfl
@[simp] theorem State.setInPos_errClass (s : State) (n : Nat) : (s.setInPos n).errClass = s.errClass := rfl
@[simp] theorem State.setInPos_errDetail (s : State) (n : Nat) : (s.setInPos n).errDetail = s.errDetail := rfl
@[simp] theorem State.setInPos_errPos (s : State) (n : Nat) : (s.setInPos n).errPos = s.errPos := rfl
@[simp] theorem State.setInPos_doneIe (s : State) (n : Nat) : (s.setInPos n).doneIe = s.doneIe := rfl
@[simp] theorem State.setInPos_inLen (s : State) (n : Nat) : (s.setInPos n).inLen = s.inLen := rfl
@[simp] theorem State.setInPos_inOff (s : State) (n : Nat) : (s.setInPos n).inOff = s.inOff := rfl
@[simp] theorem State.setInPos_origLen (s : State) (n : Nat) : (s.setInPos n).origLen = s.origLen := rfl
@[simp] theorem State.setInPos_outLen (s : State) (n : Nat) : (s.setInPos n).outLen = s.outLen := rfl
@[simp] theorem State.setInPos_inPos (s : State) (n : Nat) : (s.setInPos n).inPos = BitVec.ofNat 32 n := rfl
@[simp] theorem State.setInPos_nodeCount (s : State) (n : Nat) : (s.setInPos n).nodeCount = s.nodeCount := rfl
@[simp] theorem State.setInPos_root (s : State) (n : Nat) : (s.setInPos n).root = s.root := rfl
@[simp] theorem State.setInPos_leafCount (s : State) (n : Nat) : (s.setInPos n).leafCount = s.leafCount := rfl
@[simp] theorem State.setInPos_descBits (s : State) (n : Nat) : (s.setInPos n).descBits = s.descBits := rfl
@[simp] theorem State.setInPos_payloadBits (s : State) (n : Nat) : (s.setInPos n).payloadBits = s.payloadBits := rfl
@[simp] theorem State.setInPos_maxCodeLen (s : State) (n : Nat) : (s.setInPos n).maxCodeLen = s.maxCodeLen := rfl
@[simp] theorem State.setInPos_nodeSel (s : State) (n : Nat) : (s.setInPos n).nodeSel = s.nodeSel := rfl
@[simp] theorem State.setInPos_codeSel (s : State) (n : Nat) : (s.setInPos n).codeSel = s.codeSel := rfl
@[simp] theorem State.setInPos_freq (s : State) (n : Nat) : (s.setInPos n).freq = s.freq := rfl
@[simp] theorem State.setInPos_nodes (s : State) (n : Nat) : (s.setInPos n).nodes = s.nodes := rfl
@[simp] theorem State.setInPos_codes (s : State) (n : Nat) : (s.setInPos n).codes = s.codes := rfl
@[simp] theorem State.setInPos_inBuf (s : State) (n : Nat) : (s.setInPos n).inBuf = s.inBuf := rfl
@[simp] theorem State.setInPos_outBuf (s : State) (n : Nat) : (s.setInPos n).outBuf = s.outBuf := rfl
@[simp] theorem State.setInPos_seq (s : State) (n : Nat) : (s.setInPos n).seq = s.seq := rfl
@[simp] theorem State.setInPos_hidden (s : State) (n : Nat) : (s.setInPos n).hidden = s.hidden := rfl
@[simp] theorem State.setInPos_inputs (s : State) (n : Nat) : (s.setInPos n).inputs = s.inputs := rfl
@[simp] theorem State.setInPos_resp (s : State) (n : Nat) : (s.setInPos n).resp = s.resp := rfl
@[simp] theorem State.setInPos_fresh (s : State) (n : Nat) : (s.setInPos n).fresh = s.fresh := rfl
@[simp] theorem State.setInPos_bufSeed (s : State) (n : Nat) : (s.setInPos n).bufSeed = s.bufSeed := rfl

/-! ## `setPayloadBits`: PAYLOAD_BITS written -/

@[simp] theorem State.setPayloadBits_params (s : State) (n : Nat) : (s.setPayloadBits n).params = s.params := rfl
@[simp] theorem State.setPayloadBits_busy (s : State) (n : Nat) : (s.setPayloadBits n).busy = s.busy := rfl
@[simp] theorem State.setPayloadBits_done (s : State) (n : Nat) : (s.setPayloadBits n).done = s.done := rfl
@[simp] theorem State.setPayloadBits_err (s : State) (n : Nat) : (s.setPayloadBits n).err = s.err := rfl
@[simp] theorem State.setPayloadBits_haz (s : State) (n : Nat) : (s.setPayloadBits n).haz = s.haz := rfl
@[simp] theorem State.setPayloadBits_treeValid (s : State) (n : Nat) :
    (s.setPayloadBits n).treeValid = s.treeValid := rfl
@[simp] theorem State.setPayloadBits_codesValid (s : State) (n : Nat) :
    (s.setPayloadBits n).codesValid = s.codesValid := rfl
@[simp] theorem State.setPayloadBits_lastOp (s : State) (n : Nat) : (s.setPayloadBits n).lastOp = s.lastOp := rfl
@[simp] theorem State.setPayloadBits_errClass (s : State) (n : Nat) : (s.setPayloadBits n).errClass = s.errClass := rfl
@[simp] theorem State.setPayloadBits_errDetail (s : State) (n : Nat) :
    (s.setPayloadBits n).errDetail = s.errDetail := rfl
@[simp] theorem State.setPayloadBits_errPos (s : State) (n : Nat) : (s.setPayloadBits n).errPos = s.errPos := rfl
@[simp] theorem State.setPayloadBits_doneIe (s : State) (n : Nat) : (s.setPayloadBits n).doneIe = s.doneIe := rfl
@[simp] theorem State.setPayloadBits_inLen (s : State) (n : Nat) : (s.setPayloadBits n).inLen = s.inLen := rfl
@[simp] theorem State.setPayloadBits_inOff (s : State) (n : Nat) : (s.setPayloadBits n).inOff = s.inOff := rfl
@[simp] theorem State.setPayloadBits_origLen (s : State) (n : Nat) : (s.setPayloadBits n).origLen = s.origLen := rfl
@[simp] theorem State.setPayloadBits_outLen (s : State) (n : Nat) : (s.setPayloadBits n).outLen = s.outLen := rfl
@[simp] theorem State.setPayloadBits_inPos (s : State) (n : Nat) : (s.setPayloadBits n).inPos = s.inPos := rfl
@[simp] theorem State.setPayloadBits_nodeCount (s : State) (n : Nat) :
    (s.setPayloadBits n).nodeCount = s.nodeCount := rfl
@[simp] theorem State.setPayloadBits_root (s : State) (n : Nat) : (s.setPayloadBits n).root = s.root := rfl
@[simp] theorem State.setPayloadBits_leafCount (s : State) (n : Nat) :
    (s.setPayloadBits n).leafCount = s.leafCount := rfl
@[simp] theorem State.setPayloadBits_descBits (s : State) (n : Nat) : (s.setPayloadBits n).descBits = s.descBits := rfl
@[simp] theorem State.setPayloadBits_payloadBits (s : State) (n : Nat) :
    (s.setPayloadBits n).payloadBits = BitVec.ofNat 64 n := rfl
@[simp] theorem State.setPayloadBits_maxCodeLen (s : State) (n : Nat) :
    (s.setPayloadBits n).maxCodeLen = s.maxCodeLen := rfl
@[simp] theorem State.setPayloadBits_nodeSel (s : State) (n : Nat) : (s.setPayloadBits n).nodeSel = s.nodeSel := rfl
@[simp] theorem State.setPayloadBits_codeSel (s : State) (n : Nat) : (s.setPayloadBits n).codeSel = s.codeSel := rfl
@[simp] theorem State.setPayloadBits_freq (s : State) (n : Nat) : (s.setPayloadBits n).freq = s.freq := rfl
@[simp] theorem State.setPayloadBits_nodes (s : State) (n : Nat) : (s.setPayloadBits n).nodes = s.nodes := rfl
@[simp] theorem State.setPayloadBits_codes (s : State) (n : Nat) : (s.setPayloadBits n).codes = s.codes := rfl
@[simp] theorem State.setPayloadBits_inBuf (s : State) (n : Nat) : (s.setPayloadBits n).inBuf = s.inBuf := rfl
@[simp] theorem State.setPayloadBits_outBuf (s : State) (n : Nat) : (s.setPayloadBits n).outBuf = s.outBuf := rfl
@[simp] theorem State.setPayloadBits_seq (s : State) (n : Nat) : (s.setPayloadBits n).seq = s.seq := rfl
@[simp] theorem State.setPayloadBits_hidden (s : State) (n : Nat) : (s.setPayloadBits n).hidden = s.hidden := rfl
@[simp] theorem State.setPayloadBits_inputs (s : State) (n : Nat) : (s.setPayloadBits n).inputs = s.inputs := rfl
@[simp] theorem State.setPayloadBits_resp (s : State) (n : Nat) : (s.setPayloadBits n).resp = s.resp := rfl
@[simp] theorem State.setPayloadBits_fresh (s : State) (n : Nat) : (s.setPayloadBits n).fresh = s.fresh := rfl
@[simp] theorem State.setPayloadBits_bufSeed (s : State) (n : Nat) : (s.setPayloadBits n).bufSeed = s.bufSeed := rfl

/-! ## `takeInput`: one pending input taken -/

@[simp] theorem State.takeInput_params (s : State) : (s.takeInput).params = s.params := rfl
@[simp] theorem State.takeInput_busy (s : State) : (s.takeInput).busy = s.busy := rfl
@[simp] theorem State.takeInput_done (s : State) : (s.takeInput).done = s.done := rfl
@[simp] theorem State.takeInput_err (s : State) : (s.takeInput).err = s.err := rfl
@[simp] theorem State.takeInput_haz (s : State) : (s.takeInput).haz = s.haz := rfl
@[simp] theorem State.takeInput_treeValid (s : State) : (s.takeInput).treeValid = s.treeValid := rfl
@[simp] theorem State.takeInput_codesValid (s : State) : (s.takeInput).codesValid = s.codesValid := rfl
@[simp] theorem State.takeInput_lastOp (s : State) : (s.takeInput).lastOp = s.lastOp := rfl
@[simp] theorem State.takeInput_errClass (s : State) : (s.takeInput).errClass = s.errClass := rfl
@[simp] theorem State.takeInput_errDetail (s : State) : (s.takeInput).errDetail = s.errDetail := rfl
@[simp] theorem State.takeInput_errPos (s : State) : (s.takeInput).errPos = s.errPos := rfl
@[simp] theorem State.takeInput_doneIe (s : State) : (s.takeInput).doneIe = s.doneIe := rfl
@[simp] theorem State.takeInput_inLen (s : State) : (s.takeInput).inLen = s.inLen := rfl
@[simp] theorem State.takeInput_inOff (s : State) : (s.takeInput).inOff = s.inOff := rfl
@[simp] theorem State.takeInput_origLen (s : State) : (s.takeInput).origLen = s.origLen := rfl
@[simp] theorem State.takeInput_outLen (s : State) : (s.takeInput).outLen = s.outLen := rfl
@[simp] theorem State.takeInput_inPos (s : State) : (s.takeInput).inPos = s.inPos := rfl
@[simp] theorem State.takeInput_nodeCount (s : State) : (s.takeInput).nodeCount = s.nodeCount := rfl
@[simp] theorem State.takeInput_root (s : State) : (s.takeInput).root = s.root := rfl
@[simp] theorem State.takeInput_leafCount (s : State) : (s.takeInput).leafCount = s.leafCount := rfl
@[simp] theorem State.takeInput_descBits (s : State) : (s.takeInput).descBits = s.descBits := rfl
@[simp] theorem State.takeInput_payloadBits (s : State) : (s.takeInput).payloadBits = s.payloadBits := rfl
@[simp] theorem State.takeInput_maxCodeLen (s : State) : (s.takeInput).maxCodeLen = s.maxCodeLen := rfl
@[simp] theorem State.takeInput_nodeSel (s : State) : (s.takeInput).nodeSel = s.nodeSel := rfl
@[simp] theorem State.takeInput_codeSel (s : State) : (s.takeInput).codeSel = s.codeSel := rfl
@[simp] theorem State.takeInput_freq (s : State) : (s.takeInput).freq = s.freq := rfl
@[simp] theorem State.takeInput_nodes (s : State) : (s.takeInput).nodes = s.nodes := rfl
@[simp] theorem State.takeInput_codes (s : State) : (s.takeInput).codes = s.codes := rfl
@[simp] theorem State.takeInput_inBuf (s : State) : (s.takeInput).inBuf = s.inBuf := rfl
@[simp] theorem State.takeInput_outBuf (s : State) : (s.takeInput).outBuf = s.outBuf := rfl
@[simp] theorem State.takeInput_seq (s : State) : (s.takeInput).seq = s.seq := rfl
@[simp] theorem State.takeInput_hidden (s : State) : (s.takeInput).hidden = s.hidden := rfl
@[simp] theorem State.takeInput_inputs (s : State) : (s.takeInput).inputs = s.inputs.tail := rfl
@[simp] theorem State.takeInput_resp (s : State) : (s.takeInput).resp = s.resp := rfl
@[simp] theorem State.takeInput_fresh (s : State) : (s.takeInput).fresh = s.fresh := rfl
@[simp] theorem State.takeInput_bufSeed (s : State) : (s.takeInput).bufSeed = s.bufSeed := rfl

/-! ## `answerRead`: an HREAD answered -/

@[simp] theorem State.answerRead_params (s : State) (d : Word) (ok : Bool) :
    (s.answerRead d ok).params = s.params := rfl
@[simp] theorem State.answerRead_busy (s : State) (d : Word) (ok : Bool) : (s.answerRead d ok).busy = s.busy := rfl
@[simp] theorem State.answerRead_done (s : State) (d : Word) (ok : Bool) : (s.answerRead d ok).done = s.done := rfl
@[simp] theorem State.answerRead_err (s : State) (d : Word) (ok : Bool) : (s.answerRead d ok).err = s.err := rfl
@[simp] theorem State.answerRead_haz (s : State) (d : Word) (ok : Bool) : (s.answerRead d ok).haz = s.haz := rfl
@[simp] theorem State.answerRead_treeValid (s : State) (d : Word) (ok : Bool) :
    (s.answerRead d ok).treeValid = s.treeValid := rfl
@[simp] theorem State.answerRead_codesValid (s : State) (d : Word) (ok : Bool) :
    (s.answerRead d ok).codesValid = s.codesValid := rfl
@[simp] theorem State.answerRead_lastOp (s : State) (d : Word) (ok : Bool) :
    (s.answerRead d ok).lastOp = s.lastOp := rfl
@[simp] theorem State.answerRead_errClass (s : State) (d : Word) (ok : Bool) :
    (s.answerRead d ok).errClass = s.errClass := rfl
@[simp] theorem State.answerRead_errDetail (s : State) (d : Word) (ok : Bool) :
    (s.answerRead d ok).errDetail = s.errDetail := rfl
@[simp] theorem State.answerRead_errPos (s : State) (d : Word) (ok : Bool) :
    (s.answerRead d ok).errPos = s.errPos := rfl
@[simp] theorem State.answerRead_doneIe (s : State) (d : Word) (ok : Bool) :
    (s.answerRead d ok).doneIe = s.doneIe := rfl
@[simp] theorem State.answerRead_inLen (s : State) (d : Word) (ok : Bool) : (s.answerRead d ok).inLen = s.inLen := rfl
@[simp] theorem State.answerRead_inOff (s : State) (d : Word) (ok : Bool) : (s.answerRead d ok).inOff = s.inOff := rfl
@[simp] theorem State.answerRead_origLen (s : State) (d : Word) (ok : Bool) :
    (s.answerRead d ok).origLen = s.origLen := rfl
@[simp] theorem State.answerRead_outLen (s : State) (d : Word) (ok : Bool) :
    (s.answerRead d ok).outLen = s.outLen := rfl
@[simp] theorem State.answerRead_inPos (s : State) (d : Word) (ok : Bool) : (s.answerRead d ok).inPos = s.inPos := rfl
@[simp] theorem State.answerRead_nodeCount (s : State) (d : Word) (ok : Bool) :
    (s.answerRead d ok).nodeCount = s.nodeCount := rfl
@[simp] theorem State.answerRead_root (s : State) (d : Word) (ok : Bool) : (s.answerRead d ok).root = s.root := rfl
@[simp] theorem State.answerRead_leafCount (s : State) (d : Word) (ok : Bool) :
    (s.answerRead d ok).leafCount = s.leafCount := rfl
@[simp] theorem State.answerRead_descBits (s : State) (d : Word) (ok : Bool) :
    (s.answerRead d ok).descBits = s.descBits := rfl
@[simp] theorem State.answerRead_payloadBits (s : State) (d : Word) (ok : Bool) :
    (s.answerRead d ok).payloadBits = s.payloadBits := rfl
@[simp] theorem State.answerRead_maxCodeLen (s : State) (d : Word) (ok : Bool) :
    (s.answerRead d ok).maxCodeLen = s.maxCodeLen := rfl
@[simp] theorem State.answerRead_nodeSel (s : State) (d : Word) (ok : Bool) :
    (s.answerRead d ok).nodeSel = s.nodeSel := rfl
@[simp] theorem State.answerRead_codeSel (s : State) (d : Word) (ok : Bool) :
    (s.answerRead d ok).codeSel = s.codeSel := rfl
@[simp] theorem State.answerRead_freq (s : State) (d : Word) (ok : Bool) : (s.answerRead d ok).freq = s.freq := rfl
@[simp] theorem State.answerRead_nodes (s : State) (d : Word) (ok : Bool) : (s.answerRead d ok).nodes = s.nodes := rfl
@[simp] theorem State.answerRead_codes (s : State) (d : Word) (ok : Bool) : (s.answerRead d ok).codes = s.codes := rfl
@[simp] theorem State.answerRead_inBuf (s : State) (d : Word) (ok : Bool) : (s.answerRead d ok).inBuf = s.inBuf := rfl
@[simp] theorem State.answerRead_outBuf (s : State) (d : Word) (ok : Bool) :
    (s.answerRead d ok).outBuf = s.outBuf := rfl
@[simp] theorem State.answerRead_seq (s : State) (d : Word) (ok : Bool) : (s.answerRead d ok).seq = s.seq := rfl
@[simp] theorem State.answerRead_hidden (s : State) (d : Word) (ok : Bool) :
    (s.answerRead d ok).hidden = s.hidden := rfl
@[simp] theorem State.answerRead_inputs (s : State) (d : Word) (ok : Bool) :
    (s.answerRead d ok).inputs = s.inputs := rfl
@[simp] theorem State.answerRead_resp (s : State) (d : Word) (ok : Bool) : (s.answerRead d ok).resp = .read d ok := rfl
@[simp] theorem State.answerRead_fresh (s : State) (d : Word) (ok : Bool) : (s.answerRead d ok).fresh = s.fresh := rfl
@[simp] theorem State.answerRead_bufSeed (s : State) (d : Word) (ok : Bool) :
    (s.answerRead d ok).bufSeed = s.bufSeed := rfl

/-! ## `answerWrite`: an HWRITE answered -/

@[simp] theorem State.answerWrite_params (s : State) (ok : Bool) : (s.answerWrite ok).params = s.params := rfl
@[simp] theorem State.answerWrite_busy (s : State) (ok : Bool) : (s.answerWrite ok).busy = s.busy := rfl
@[simp] theorem State.answerWrite_done (s : State) (ok : Bool) : (s.answerWrite ok).done = s.done := rfl
@[simp] theorem State.answerWrite_err (s : State) (ok : Bool) : (s.answerWrite ok).err = s.err := rfl
@[simp] theorem State.answerWrite_haz (s : State) (ok : Bool) : (s.answerWrite ok).haz = s.haz := rfl
@[simp] theorem State.answerWrite_treeValid (s : State) (ok : Bool) : (s.answerWrite ok).treeValid = s.treeValid := rfl
@[simp] theorem State.answerWrite_codesValid (s : State) (ok : Bool) :
    (s.answerWrite ok).codesValid = s.codesValid := rfl
@[simp] theorem State.answerWrite_lastOp (s : State) (ok : Bool) : (s.answerWrite ok).lastOp = s.lastOp := rfl
@[simp] theorem State.answerWrite_errClass (s : State) (ok : Bool) : (s.answerWrite ok).errClass = s.errClass := rfl
@[simp] theorem State.answerWrite_errDetail (s : State) (ok : Bool) : (s.answerWrite ok).errDetail = s.errDetail := rfl
@[simp] theorem State.answerWrite_errPos (s : State) (ok : Bool) : (s.answerWrite ok).errPos = s.errPos := rfl
@[simp] theorem State.answerWrite_doneIe (s : State) (ok : Bool) : (s.answerWrite ok).doneIe = s.doneIe := rfl
@[simp] theorem State.answerWrite_inLen (s : State) (ok : Bool) : (s.answerWrite ok).inLen = s.inLen := rfl
@[simp] theorem State.answerWrite_inOff (s : State) (ok : Bool) : (s.answerWrite ok).inOff = s.inOff := rfl
@[simp] theorem State.answerWrite_origLen (s : State) (ok : Bool) : (s.answerWrite ok).origLen = s.origLen := rfl
@[simp] theorem State.answerWrite_outLen (s : State) (ok : Bool) : (s.answerWrite ok).outLen = s.outLen := rfl
@[simp] theorem State.answerWrite_inPos (s : State) (ok : Bool) : (s.answerWrite ok).inPos = s.inPos := rfl
@[simp] theorem State.answerWrite_nodeCount (s : State) (ok : Bool) : (s.answerWrite ok).nodeCount = s.nodeCount := rfl
@[simp] theorem State.answerWrite_root (s : State) (ok : Bool) : (s.answerWrite ok).root = s.root := rfl
@[simp] theorem State.answerWrite_leafCount (s : State) (ok : Bool) : (s.answerWrite ok).leafCount = s.leafCount := rfl
@[simp] theorem State.answerWrite_descBits (s : State) (ok : Bool) : (s.answerWrite ok).descBits = s.descBits := rfl
@[simp] theorem State.answerWrite_payloadBits (s : State) (ok : Bool) :
    (s.answerWrite ok).payloadBits = s.payloadBits := rfl
@[simp] theorem State.answerWrite_maxCodeLen (s : State) (ok : Bool) :
    (s.answerWrite ok).maxCodeLen = s.maxCodeLen := rfl
@[simp] theorem State.answerWrite_nodeSel (s : State) (ok : Bool) : (s.answerWrite ok).nodeSel = s.nodeSel := rfl
@[simp] theorem State.answerWrite_codeSel (s : State) (ok : Bool) : (s.answerWrite ok).codeSel = s.codeSel := rfl
@[simp] theorem State.answerWrite_freq (s : State) (ok : Bool) : (s.answerWrite ok).freq = s.freq := rfl
@[simp] theorem State.answerWrite_nodes (s : State) (ok : Bool) : (s.answerWrite ok).nodes = s.nodes := rfl
@[simp] theorem State.answerWrite_codes (s : State) (ok : Bool) : (s.answerWrite ok).codes = s.codes := rfl
@[simp] theorem State.answerWrite_inBuf (s : State) (ok : Bool) : (s.answerWrite ok).inBuf = s.inBuf := rfl
@[simp] theorem State.answerWrite_outBuf (s : State) (ok : Bool) : (s.answerWrite ok).outBuf = s.outBuf := rfl
@[simp] theorem State.answerWrite_seq (s : State) (ok : Bool) : (s.answerWrite ok).seq = s.seq := rfl
@[simp] theorem State.answerWrite_hidden (s : State) (ok : Bool) : (s.answerWrite ok).hidden = s.hidden := rfl
@[simp] theorem State.answerWrite_inputs (s : State) (ok : Bool) : (s.answerWrite ok).inputs = s.inputs := rfl
@[simp] theorem State.answerWrite_resp (s : State) (ok : Bool) : (s.answerWrite ok).resp = .write ok := rfl
@[simp] theorem State.answerWrite_fresh (s : State) (ok : Bool) : (s.answerWrite ok).fresh = s.fresh := rfl
@[simp] theorem State.answerWrite_bufSeed (s : State) (ok : Bool) : (s.answerWrite ok).bufSeed = s.bufSeed := rfl

/-! ## `tick`: one draw used up -/

@[simp] theorem State.tick_params (s : State) : (s.tick).params = s.params := rfl
@[simp] theorem State.tick_busy (s : State) : (s.tick).busy = s.busy := rfl
@[simp] theorem State.tick_done (s : State) : (s.tick).done = s.done := rfl
@[simp] theorem State.tick_err (s : State) : (s.tick).err = s.err := rfl
@[simp] theorem State.tick_haz (s : State) : (s.tick).haz = s.haz := rfl
@[simp] theorem State.tick_treeValid (s : State) : (s.tick).treeValid = s.treeValid := rfl
@[simp] theorem State.tick_codesValid (s : State) : (s.tick).codesValid = s.codesValid := rfl
@[simp] theorem State.tick_lastOp (s : State) : (s.tick).lastOp = s.lastOp := rfl
@[simp] theorem State.tick_errClass (s : State) : (s.tick).errClass = s.errClass := rfl
@[simp] theorem State.tick_errDetail (s : State) : (s.tick).errDetail = s.errDetail := rfl
@[simp] theorem State.tick_errPos (s : State) : (s.tick).errPos = s.errPos := rfl
@[simp] theorem State.tick_doneIe (s : State) : (s.tick).doneIe = s.doneIe := rfl
@[simp] theorem State.tick_inLen (s : State) : (s.tick).inLen = s.inLen := rfl
@[simp] theorem State.tick_inOff (s : State) : (s.tick).inOff = s.inOff := rfl
@[simp] theorem State.tick_origLen (s : State) : (s.tick).origLen = s.origLen := rfl
@[simp] theorem State.tick_outLen (s : State) : (s.tick).outLen = s.outLen := rfl
@[simp] theorem State.tick_inPos (s : State) : (s.tick).inPos = s.inPos := rfl
@[simp] theorem State.tick_nodeCount (s : State) : (s.tick).nodeCount = s.nodeCount := rfl
@[simp] theorem State.tick_root (s : State) : (s.tick).root = s.root := rfl
@[simp] theorem State.tick_leafCount (s : State) : (s.tick).leafCount = s.leafCount := rfl
@[simp] theorem State.tick_descBits (s : State) : (s.tick).descBits = s.descBits := rfl
@[simp] theorem State.tick_payloadBits (s : State) : (s.tick).payloadBits = s.payloadBits := rfl
@[simp] theorem State.tick_maxCodeLen (s : State) : (s.tick).maxCodeLen = s.maxCodeLen := rfl
@[simp] theorem State.tick_nodeSel (s : State) : (s.tick).nodeSel = s.nodeSel := rfl
@[simp] theorem State.tick_codeSel (s : State) : (s.tick).codeSel = s.codeSel := rfl
@[simp] theorem State.tick_freq (s : State) : (s.tick).freq = s.freq := rfl
@[simp] theorem State.tick_nodes (s : State) : (s.tick).nodes = s.nodes := rfl
@[simp] theorem State.tick_codes (s : State) : (s.tick).codes = s.codes := rfl
@[simp] theorem State.tick_inBuf (s : State) : (s.tick).inBuf = s.inBuf := rfl
@[simp] theorem State.tick_outBuf (s : State) : (s.tick).outBuf = s.outBuf := rfl
@[simp] theorem State.tick_seq (s : State) : (s.tick).seq = s.seq := rfl
@[simp] theorem State.tick_hidden (s : State) : (s.tick).hidden = s.hidden := rfl
@[simp] theorem State.tick_inputs (s : State) : (s.tick).inputs = s.inputs := rfl
@[simp] theorem State.tick_resp (s : State) : (s.tick).resp = s.resp := rfl
@[simp] theorem State.tick_fresh (s : State) : (s.tick).fresh = s.fresh + 1 := rfl
@[simp] theorem State.tick_bufSeed (s : State) : (s.tick).bufSeed = s.bufSeed := rfl

/-! ## `analyze`: R150: the window counted -/

@[simp] theorem State.analyze_params (s : State) : (s.analyze).params = s.params := rfl
@[simp] theorem State.analyze_busy (s : State) : (s.analyze).busy = s.busy := rfl
@[simp] theorem State.analyze_done (s : State) : (s.analyze).done = s.done := rfl
@[simp] theorem State.analyze_err (s : State) : (s.analyze).err = s.err := rfl
@[simp] theorem State.analyze_haz (s : State) : (s.analyze).haz = s.haz := rfl
@[simp] theorem State.analyze_treeValid (s : State) : (s.analyze).treeValid = s.treeValid := rfl
@[simp] theorem State.analyze_codesValid (s : State) : (s.analyze).codesValid = s.codesValid := rfl
@[simp] theorem State.analyze_lastOp (s : State) : (s.analyze).lastOp = s.lastOp := rfl
@[simp] theorem State.analyze_errClass (s : State) : (s.analyze).errClass = s.errClass := rfl
@[simp] theorem State.analyze_errDetail (s : State) : (s.analyze).errDetail = s.errDetail := rfl
@[simp] theorem State.analyze_errPos (s : State) : (s.analyze).errPos = s.errPos := rfl
@[simp] theorem State.analyze_doneIe (s : State) : (s.analyze).doneIe = s.doneIe := rfl
@[simp] theorem State.analyze_inLen (s : State) : (s.analyze).inLen = s.inLen := rfl
@[simp] theorem State.analyze_inOff (s : State) : (s.analyze).inOff = s.inOff := rfl
@[simp] theorem State.analyze_origLen (s : State) : (s.analyze).origLen = s.origLen := rfl
@[simp] theorem State.analyze_outLen (s : State) : (s.analyze).outLen = s.outLen := rfl
@[simp] theorem State.analyze_inPos (s : State) : (s.analyze).inPos = s.inPos := rfl
@[simp] theorem State.analyze_nodeCount (s : State) : (s.analyze).nodeCount = s.nodeCount := rfl
@[simp] theorem State.analyze_root (s : State) : (s.analyze).root = s.root := rfl
@[simp] theorem State.analyze_leafCount (s : State) : (s.analyze).leafCount = s.leafCount := rfl
@[simp] theorem State.analyze_descBits (s : State) : (s.analyze).descBits = s.descBits := rfl
@[simp] theorem State.analyze_payloadBits (s : State) : (s.analyze).payloadBits = s.payloadBits := rfl
@[simp] theorem State.analyze_maxCodeLen (s : State) : (s.analyze).maxCodeLen = s.maxCodeLen := rfl
@[simp] theorem State.analyze_nodeSel (s : State) : (s.analyze).nodeSel = s.nodeSel := rfl
@[simp] theorem State.analyze_codeSel (s : State) : (s.analyze).codeSel = s.codeSel := rfl
@[simp] theorem State.analyze_freq (s : State) :
    (s.analyze).freq = countBytes (Vector.replicate 256 0#32) s.window := rfl
@[simp] theorem State.analyze_nodes (s : State) : (s.analyze).nodes = s.nodes := rfl
@[simp] theorem State.analyze_codes (s : State) : (s.analyze).codes = s.codes := rfl
@[simp] theorem State.analyze_inBuf (s : State) : (s.analyze).inBuf = s.inBuf := rfl
@[simp] theorem State.analyze_outBuf (s : State) : (s.analyze).outBuf = s.outBuf := rfl
@[simp] theorem State.analyze_seq (s : State) : (s.analyze).seq = s.seq := rfl
@[simp] theorem State.analyze_hidden (s : State) : (s.analyze).hidden = s.hidden := rfl
@[simp] theorem State.analyze_inputs (s : State) : (s.analyze).inputs = s.inputs := rfl
@[simp] theorem State.analyze_resp (s : State) : (s.analyze).resp = s.resp := rfl
@[simp] theorem State.analyze_fresh (s : State) : (s.analyze).fresh = s.fresh := rfl
@[simp] theorem State.analyze_bufSeed (s : State) : (s.analyze).bufSeed = s.bufSeed := rfl

/-! ## `clearAll`: R137: CLEAR -/

@[simp] theorem State.clearAll_params (s : State) : (s.clearAll).params = s.params := rfl
@[simp] theorem State.clearAll_busy (s : State) : (s.clearAll).busy = s.busy := rfl
@[simp] theorem State.clearAll_done (s : State) : (s.clearAll).done = s.done := rfl
@[simp] theorem State.clearAll_err (s : State) : (s.clearAll).err = s.err := rfl
@[simp] theorem State.clearAll_haz (s : State) : (s.clearAll).haz = s.haz := rfl
@[simp] theorem State.clearAll_treeValid (s : State) : (s.clearAll).treeValid = false := rfl
@[simp] theorem State.clearAll_codesValid (s : State) : (s.clearAll).codesValid = false := rfl
@[simp] theorem State.clearAll_lastOp (s : State) : (s.clearAll).lastOp = s.lastOp := rfl
@[simp] theorem State.clearAll_errClass (s : State) : (s.clearAll).errClass = s.errClass := rfl
@[simp] theorem State.clearAll_errDetail (s : State) : (s.clearAll).errDetail = s.errDetail := rfl
@[simp] theorem State.clearAll_errPos (s : State) : (s.clearAll).errPos = s.errPos := rfl
@[simp] theorem State.clearAll_doneIe (s : State) : (s.clearAll).doneIe = s.doneIe := rfl
@[simp] theorem State.clearAll_inLen (s : State) : (s.clearAll).inLen = s.inLen := rfl
@[simp] theorem State.clearAll_inOff (s : State) : (s.clearAll).inOff = s.inOff := rfl
@[simp] theorem State.clearAll_origLen (s : State) : (s.clearAll).origLen = 0#32 := rfl
@[simp] theorem State.clearAll_outLen (s : State) : (s.clearAll).outLen = 0#25 := rfl
@[simp] theorem State.clearAll_inPos (s : State) : (s.clearAll).inPos = 0#32 := rfl
@[simp] theorem State.clearAll_nodeCount (s : State) : (s.clearAll).nodeCount = 0#10 := rfl
@[simp] theorem State.clearAll_root (s : State) : (s.clearAll).root = 0#9 := rfl
@[simp] theorem State.clearAll_leafCount (s : State) : (s.clearAll).leafCount = 0#9 := rfl
@[simp] theorem State.clearAll_descBits (s : State) : (s.clearAll).descBits = 0#12 := rfl
@[simp] theorem State.clearAll_payloadBits (s : State) : (s.clearAll).payloadBits = 0#64 := rfl
@[simp] theorem State.clearAll_maxCodeLen (s : State) : (s.clearAll).maxCodeLen = 0#8 := rfl
@[simp] theorem State.clearAll_nodeSel (s : State) : (s.clearAll).nodeSel = s.nodeSel := rfl
@[simp] theorem State.clearAll_codeSel (s : State) : (s.clearAll).codeSel = s.codeSel := rfl
@[simp] theorem State.clearAll_freq (s : State) : (s.clearAll).freq = Vector.replicate 256 0#32 := rfl
@[simp] theorem State.clearAll_nodes (s : State) : (s.clearAll).nodes = s.nodes := rfl
@[simp] theorem State.clearAll_codes (s : State) : (s.clearAll).codes = s.codes := rfl
@[simp] theorem State.clearAll_inBuf (s : State) : (s.clearAll).inBuf = s.inBuf := rfl
@[simp] theorem State.clearAll_outBuf (s : State) : (s.clearAll).outBuf = s.outBuf := rfl
@[simp] theorem State.clearAll_seq (s : State) : (s.clearAll).seq = s.seq := rfl
@[simp] theorem State.clearAll_hidden (s : State) : (s.clearAll).hidden = s.hidden := rfl
@[simp] theorem State.clearAll_inputs (s : State) : (s.clearAll).inputs = s.inputs := rfl
@[simp] theorem State.clearAll_resp (s : State) : (s.clearAll).resp = s.resp := rfl
@[simp] theorem State.clearAll_fresh (s : State) : (s.clearAll).fresh = s.fresh := rfl
@[simp] theorem State.clearAll_bufSeed (s : State) : (s.clearAll).bufSeed = s.bufSeed := rfl

/-! ## `compressEmpty`: R232: COMPRESS of an empty window -/

@[simp] theorem State.compressEmpty_params (s : State) : (s.compressEmpty).params = s.params := rfl
@[simp] theorem State.compressEmpty_busy (s : State) : (s.compressEmpty).busy = s.busy := rfl
@[simp] theorem State.compressEmpty_done (s : State) : (s.compressEmpty).done = s.done := rfl
@[simp] theorem State.compressEmpty_err (s : State) : (s.compressEmpty).err = s.err := rfl
@[simp] theorem State.compressEmpty_haz (s : State) : (s.compressEmpty).haz = s.haz := rfl
@[simp] theorem State.compressEmpty_treeValid (s : State) : (s.compressEmpty).treeValid = s.treeValid := rfl
@[simp] theorem State.compressEmpty_codesValid (s : State) : (s.compressEmpty).codesValid = s.codesValid := rfl
@[simp] theorem State.compressEmpty_lastOp (s : State) : (s.compressEmpty).lastOp = s.lastOp := rfl
@[simp] theorem State.compressEmpty_errClass (s : State) : (s.compressEmpty).errClass = s.errClass := rfl
@[simp] theorem State.compressEmpty_errDetail (s : State) : (s.compressEmpty).errDetail = s.errDetail := rfl
@[simp] theorem State.compressEmpty_errPos (s : State) : (s.compressEmpty).errPos = s.errPos := rfl
@[simp] theorem State.compressEmpty_doneIe (s : State) : (s.compressEmpty).doneIe = s.doneIe := rfl
@[simp] theorem State.compressEmpty_inLen (s : State) : (s.compressEmpty).inLen = s.inLen := rfl
@[simp] theorem State.compressEmpty_inOff (s : State) : (s.compressEmpty).inOff = s.inOff := rfl
@[simp] theorem State.compressEmpty_origLen (s : State) : (s.compressEmpty).origLen = s.origLen := rfl
@[simp] theorem State.compressEmpty_outLen (s : State) : (s.compressEmpty).outLen = 8#25 := rfl
@[simp] theorem State.compressEmpty_inPos (s : State) :
    (s.compressEmpty).inPos = s.inLen := by simp [State.compressEmpty, State.setInPos]
@[simp] theorem State.compressEmpty_nodeCount (s : State) : (s.compressEmpty).nodeCount = 0#10 := rfl
@[simp] theorem State.compressEmpty_root (s : State) : (s.compressEmpty).root = 0#9 := rfl
@[simp] theorem State.compressEmpty_leafCount (s : State) : (s.compressEmpty).leafCount = 0#9 := rfl
@[simp] theorem State.compressEmpty_descBits (s : State) : (s.compressEmpty).descBits = 0#12 := rfl
@[simp] theorem State.compressEmpty_payloadBits (s : State) : (s.compressEmpty).payloadBits = 0#64 := rfl
@[simp] theorem State.compressEmpty_maxCodeLen (s : State) : (s.compressEmpty).maxCodeLen = 0#8 := rfl
@[simp] theorem State.compressEmpty_nodeSel (s : State) : (s.compressEmpty).nodeSel = s.nodeSel := rfl
@[simp] theorem State.compressEmpty_codeSel (s : State) : (s.compressEmpty).codeSel = s.codeSel := rfl
@[simp] theorem State.compressEmpty_freq (s : State) : (s.compressEmpty).freq = s.freq := rfl
@[simp] theorem State.compressEmpty_nodes (s : State) : (s.compressEmpty).nodes = s.nodes := rfl
@[simp] theorem State.compressEmpty_codes (s : State) : (s.compressEmpty).codes = s.codes := rfl
@[simp] theorem State.compressEmpty_inBuf (s : State) : (s.compressEmpty).inBuf = s.inBuf := rfl
@[simp] theorem State.compressEmpty_outBuf (s : State) : (s.compressEmpty).outBuf = writeHeader s.outBuf 0#32 := rfl
@[simp] theorem State.compressEmpty_seq (s : State) : (s.compressEmpty).seq = s.seq := rfl
@[simp] theorem State.compressEmpty_hidden (s : State) : (s.compressEmpty).hidden = s.hidden := rfl
@[simp] theorem State.compressEmpty_inputs (s : State) : (s.compressEmpty).inputs = s.inputs := rfl
@[simp] theorem State.compressEmpty_resp (s : State) : (s.compressEmpty).resp = s.resp := rfl
@[simp] theorem State.compressEmpty_fresh (s : State) : (s.compressEmpty).fresh = s.fresh := rfl
@[simp] theorem State.compressEmpty_bufSeed (s : State) : (s.compressEmpty).bufSeed = s.bufSeed := rfl

/-! ## `resetStep`: R280, R282 -/

@[simp] theorem State.resetStep_params (s : State) : s.resetStep.params = s.params := rfl
@[simp] theorem State.resetStep_busy (s : State) : s.resetStep.busy = (State.resetFor s.params).busy := rfl
@[simp] theorem State.resetStep_done (s : State) : s.resetStep.done = (State.resetFor s.params).done := rfl
@[simp] theorem State.resetStep_err (s : State) : s.resetStep.err = (State.resetFor s.params).err := rfl
@[simp] theorem State.resetStep_haz (s : State) : s.resetStep.haz = (State.resetFor s.params).haz := rfl
@[simp] theorem State.resetStep_treeValid (s : State) : s.resetStep.treeValid = (State.resetFor s.params).treeValid := rfl
@[simp] theorem State.resetStep_codesValid (s : State) : s.resetStep.codesValid = (State.resetFor s.params).codesValid := rfl
@[simp] theorem State.resetStep_lastOp (s : State) : s.resetStep.lastOp = (State.resetFor s.params).lastOp := rfl
@[simp] theorem State.resetStep_errClass (s : State) : s.resetStep.errClass = (State.resetFor s.params).errClass := rfl
@[simp] theorem State.resetStep_errDetail (s : State) : s.resetStep.errDetail = (State.resetFor s.params).errDetail := rfl
@[simp] theorem State.resetStep_errPos (s : State) : s.resetStep.errPos = (State.resetFor s.params).errPos := rfl
@[simp] theorem State.resetStep_doneIe (s : State) : s.resetStep.doneIe = (State.resetFor s.params).doneIe := rfl
@[simp] theorem State.resetStep_inLen (s : State) : s.resetStep.inLen = (State.resetFor s.params).inLen := rfl
@[simp] theorem State.resetStep_inOff (s : State) : s.resetStep.inOff = (State.resetFor s.params).inOff := rfl
@[simp] theorem State.resetStep_origLen (s : State) : s.resetStep.origLen = (State.resetFor s.params).origLen := rfl
@[simp] theorem State.resetStep_outLen (s : State) : s.resetStep.outLen = (State.resetFor s.params).outLen := rfl
@[simp] theorem State.resetStep_inPos (s : State) : s.resetStep.inPos = (State.resetFor s.params).inPos := rfl
@[simp] theorem State.resetStep_nodeCount (s : State) : s.resetStep.nodeCount = (State.resetFor s.params).nodeCount := rfl
@[simp] theorem State.resetStep_root (s : State) : s.resetStep.root = (State.resetFor s.params).root := rfl
@[simp] theorem State.resetStep_leafCount (s : State) : s.resetStep.leafCount = (State.resetFor s.params).leafCount := rfl
@[simp] theorem State.resetStep_descBits (s : State) : s.resetStep.descBits = (State.resetFor s.params).descBits := rfl
@[simp] theorem State.resetStep_payloadBits (s : State) : s.resetStep.payloadBits = (State.resetFor s.params).payloadBits := rfl
@[simp] theorem State.resetStep_maxCodeLen (s : State) : s.resetStep.maxCodeLen = (State.resetFor s.params).maxCodeLen := rfl
@[simp] theorem State.resetStep_nodeSel (s : State) : s.resetStep.nodeSel = (State.resetFor s.params).nodeSel := rfl
@[simp] theorem State.resetStep_codeSel (s : State) : s.resetStep.codeSel = (State.resetFor s.params).codeSel := rfl
@[simp] theorem State.resetStep_freq (s : State) : s.resetStep.freq = (State.resetFor s.params).freq := rfl
@[simp] theorem State.resetStep_nodes (s : State) : s.resetStep.nodes = (State.resetFor s.params).nodes := rfl
@[simp] theorem State.resetStep_codes (s : State) : s.resetStep.codes = (State.resetFor s.params).codes := rfl
@[simp] theorem State.resetStep_inBuf (s : State) : s.resetStep.inBuf = (State.resetFor s.params).inBuf := rfl
@[simp] theorem State.resetStep_outBuf (s : State) : s.resetStep.outBuf = (State.resetFor s.params).outBuf := rfl
@[simp] theorem State.resetStep_seq (s : State) : s.resetStep.seq = (State.resetFor s.params).seq := rfl
@[simp] theorem State.resetStep_hidden (s : State) : s.resetStep.hidden = (State.resetFor s.params).hidden := rfl
@[simp] theorem State.resetStep_inputs (s : State) : s.resetStep.inputs = s.inputs := rfl
@[simp] theorem State.resetStep_resp (s : State) : s.resetStep.resp = (State.resetFor s.params).resp := rfl
@[simp] theorem State.resetStep_fresh (s : State) : s.resetStep.fresh = s.fresh + 1 := rfl
@[simp] theorem State.resetStep_bufSeed (s : State) : s.resetStep.bufSeed = s.fresh := rfl

/-! ## What the updates leave of the window, its bits and the buffers' bytes -/

@[simp] theorem State.startCommand_window (s : State) (w : Word) :
    (s.startCommand w).window = s.window := rfl
@[simp] theorem State.startCommand_windowLen (s : State) (w : Word) :
    (s.startCommand w).windowLen = s.windowLen := rfl
@[simp] theorem State.startCommand_windowOk (s : State) (w : Word) :
    (s.startCommand w).windowOk = s.windowOk := rfl
@[simp] theorem State.startCommand_inByte (s : State) (w : Word) (o : Nat) :
    (s.startCommand w).inByte o = s.inByte o := rfl
@[simp] theorem State.startCommand_inBit (s : State) (w : Word) (q : Nat) :
    (s.startCommand w).inBit q = s.inBit q := rfl
@[simp] theorem State.startCommand_bitAvailable (s : State) (w : Word) (q : Nat) :
    (s.startCommand w).bitAvailable q = s.bitAvailable q := rfl
@[simp] theorem State.startCommand_outByte (s : State) (w : Word) (o : Nat) :
    (s.startCommand w).outByte o = s.outByte o := rfl

@[simp] theorem State.complete_window (s : State) (c : Option Cause) (p : Nat) :
    (s.complete c p).window = s.window := rfl
@[simp] theorem State.complete_windowLen (s : State) (c : Option Cause) (p : Nat) :
    (s.complete c p).windowLen = s.windowLen := rfl
@[simp] theorem State.complete_windowOk (s : State) (c : Option Cause) (p : Nat) :
    (s.complete c p).windowOk = s.windowOk := rfl
@[simp] theorem State.complete_inByte (s : State) (c : Option Cause) (p : Nat) (o : Nat) :
    (s.complete c p).inByte o = s.inByte o := rfl
@[simp] theorem State.complete_inBit (s : State) (c : Option Cause) (p : Nat) (q : Nat) :
    (s.complete c p).inBit q = s.inBit q := rfl
@[simp] theorem State.complete_bitAvailable (s : State) (c : Option Cause) (p : Nat) (q : Nat) :
    (s.complete c p).bitAvailable q = s.bitAvailable q := rfl
@[simp] theorem State.complete_outByte (s : State) (c : Option Cause) (p : Nat) (o : Nat) :
    (s.complete c p).outByte o = s.outByte o := rfl

@[simp] theorem State.clearTreeRegs_window (s : State) :
    (s.clearTreeRegs).window = s.window := rfl
@[simp] theorem State.clearTreeRegs_windowLen (s : State) :
    (s.clearTreeRegs).windowLen = s.windowLen := rfl
@[simp] theorem State.clearTreeRegs_windowOk (s : State) :
    (s.clearTreeRegs).windowOk = s.windowOk := rfl
@[simp] theorem State.clearTreeRegs_inByte (s : State) (o : Nat) :
    (s.clearTreeRegs).inByte o = s.inByte o := rfl
@[simp] theorem State.clearTreeRegs_inBit (s : State) (q : Nat) :
    (s.clearTreeRegs).inBit q = s.inBit q := rfl
@[simp] theorem State.clearTreeRegs_bitAvailable (s : State) (q : Nat) :
    (s.clearTreeRegs).bitAvailable q = s.bitAvailable q := rfl
@[simp] theorem State.clearTreeRegs_outByte (s : State) (o : Nat) :
    (s.clearTreeRegs).outByte o = s.outByte o := rfl

@[simp] theorem State.invalidate_window (s : State) :
    (s.invalidate).window = s.window := rfl
@[simp] theorem State.invalidate_windowLen (s : State) :
    (s.invalidate).windowLen = s.windowLen := rfl
@[simp] theorem State.invalidate_windowOk (s : State) :
    (s.invalidate).windowOk = s.windowOk := rfl
@[simp] theorem State.invalidate_inByte (s : State) (o : Nat) :
    (s.invalidate).inByte o = s.inByte o := rfl
@[simp] theorem State.invalidate_inBit (s : State) (q : Nat) :
    (s.invalidate).inBit q = s.inBit q := rfl
@[simp] theorem State.invalidate_bitAvailable (s : State) (q : Nat) :
    (s.invalidate).bitAvailable q = s.bitAvailable q := rfl
@[simp] theorem State.invalidate_outByte (s : State) (o : Nat) :
    (s.invalidate).outByte o = s.outByte o := rfl

@[simp] theorem State.setOutLen_window (s : State) (n : Nat) :
    (s.setOutLen n).window = s.window := rfl
@[simp] theorem State.setOutLen_windowLen (s : State) (n : Nat) :
    (s.setOutLen n).windowLen = s.windowLen := rfl
@[simp] theorem State.setOutLen_windowOk (s : State) (n : Nat) :
    (s.setOutLen n).windowOk = s.windowOk := rfl
@[simp] theorem State.setOutLen_inByte (s : State) (n : Nat) (o : Nat) :
    (s.setOutLen n).inByte o = s.inByte o := rfl
@[simp] theorem State.setOutLen_inBit (s : State) (n : Nat) (q : Nat) :
    (s.setOutLen n).inBit q = s.inBit q := rfl
@[simp] theorem State.setOutLen_bitAvailable (s : State) (n : Nat) (q : Nat) :
    (s.setOutLen n).bitAvailable q = s.bitAvailable q := rfl
@[simp] theorem State.setOutLen_outByte (s : State) (n : Nat) (o : Nat) :
    (s.setOutLen n).outByte o = s.outByte o := rfl

@[simp] theorem State.setInPos_window (s : State) (n : Nat) :
    (s.setInPos n).window = s.window := rfl
@[simp] theorem State.setInPos_windowLen (s : State) (n : Nat) :
    (s.setInPos n).windowLen = s.windowLen := rfl
@[simp] theorem State.setInPos_windowOk (s : State) (n : Nat) :
    (s.setInPos n).windowOk = s.windowOk := rfl
@[simp] theorem State.setInPos_inByte (s : State) (n : Nat) (o : Nat) :
    (s.setInPos n).inByte o = s.inByte o := rfl
@[simp] theorem State.setInPos_inBit (s : State) (n : Nat) (q : Nat) :
    (s.setInPos n).inBit q = s.inBit q := rfl
@[simp] theorem State.setInPos_bitAvailable (s : State) (n : Nat) (q : Nat) :
    (s.setInPos n).bitAvailable q = s.bitAvailable q := rfl
@[simp] theorem State.setInPos_outByte (s : State) (n : Nat) (o : Nat) :
    (s.setInPos n).outByte o = s.outByte o := rfl

@[simp] theorem State.setPayloadBits_window (s : State) (n : Nat) :
    (s.setPayloadBits n).window = s.window := rfl
@[simp] theorem State.setPayloadBits_windowLen (s : State) (n : Nat) :
    (s.setPayloadBits n).windowLen = s.windowLen := rfl
@[simp] theorem State.setPayloadBits_windowOk (s : State) (n : Nat) :
    (s.setPayloadBits n).windowOk = s.windowOk := rfl
@[simp] theorem State.setPayloadBits_inByte (s : State) (n : Nat) (o : Nat) :
    (s.setPayloadBits n).inByte o = s.inByte o := rfl
@[simp] theorem State.setPayloadBits_inBit (s : State) (n : Nat) (q : Nat) :
    (s.setPayloadBits n).inBit q = s.inBit q := rfl
@[simp] theorem State.setPayloadBits_bitAvailable (s : State) (n : Nat) (q : Nat) :
    (s.setPayloadBits n).bitAvailable q = s.bitAvailable q := rfl
@[simp] theorem State.setPayloadBits_outByte (s : State) (n : Nat) (o : Nat) :
    (s.setPayloadBits n).outByte o = s.outByte o := rfl

@[simp] theorem State.takeInput_window (s : State) :
    (s.takeInput).window = s.window := rfl
@[simp] theorem State.takeInput_windowLen (s : State) :
    (s.takeInput).windowLen = s.windowLen := rfl
@[simp] theorem State.takeInput_windowOk (s : State) :
    (s.takeInput).windowOk = s.windowOk := rfl
@[simp] theorem State.takeInput_inByte (s : State) (o : Nat) :
    (s.takeInput).inByte o = s.inByte o := rfl
@[simp] theorem State.takeInput_inBit (s : State) (q : Nat) :
    (s.takeInput).inBit q = s.inBit q := rfl
@[simp] theorem State.takeInput_bitAvailable (s : State) (q : Nat) :
    (s.takeInput).bitAvailable q = s.bitAvailable q := rfl
@[simp] theorem State.takeInput_outByte (s : State) (o : Nat) :
    (s.takeInput).outByte o = s.outByte o := rfl

@[simp] theorem State.answerRead_window (s : State) (d : Word) (ok : Bool) :
    (s.answerRead d ok).window = s.window := rfl
@[simp] theorem State.answerRead_windowLen (s : State) (d : Word) (ok : Bool) :
    (s.answerRead d ok).windowLen = s.windowLen := rfl
@[simp] theorem State.answerRead_windowOk (s : State) (d : Word) (ok : Bool) :
    (s.answerRead d ok).windowOk = s.windowOk := rfl
@[simp] theorem State.answerRead_inByte (s : State) (d : Word) (ok : Bool) (o : Nat) :
    (s.answerRead d ok).inByte o = s.inByte o := rfl
@[simp] theorem State.answerRead_inBit (s : State) (d : Word) (ok : Bool) (q : Nat) :
    (s.answerRead d ok).inBit q = s.inBit q := rfl
@[simp] theorem State.answerRead_bitAvailable (s : State) (d : Word) (ok : Bool) (q : Nat) :
    (s.answerRead d ok).bitAvailable q = s.bitAvailable q := rfl
@[simp] theorem State.answerRead_outByte (s : State) (d : Word) (ok : Bool) (o : Nat) :
    (s.answerRead d ok).outByte o = s.outByte o := rfl

@[simp] theorem State.answerWrite_window (s : State) (ok : Bool) :
    (s.answerWrite ok).window = s.window := rfl
@[simp] theorem State.answerWrite_windowLen (s : State) (ok : Bool) :
    (s.answerWrite ok).windowLen = s.windowLen := rfl
@[simp] theorem State.answerWrite_windowOk (s : State) (ok : Bool) :
    (s.answerWrite ok).windowOk = s.windowOk := rfl
@[simp] theorem State.answerWrite_inByte (s : State) (ok : Bool) (o : Nat) :
    (s.answerWrite ok).inByte o = s.inByte o := rfl
@[simp] theorem State.answerWrite_inBit (s : State) (ok : Bool) (q : Nat) :
    (s.answerWrite ok).inBit q = s.inBit q := rfl
@[simp] theorem State.answerWrite_bitAvailable (s : State) (ok : Bool) (q : Nat) :
    (s.answerWrite ok).bitAvailable q = s.bitAvailable q := rfl
@[simp] theorem State.answerWrite_outByte (s : State) (ok : Bool) (o : Nat) :
    (s.answerWrite ok).outByte o = s.outByte o := rfl

@[simp] theorem State.tick_window (s : State) :
    (s.tick).window = s.window := rfl
@[simp] theorem State.tick_windowLen (s : State) :
    (s.tick).windowLen = s.windowLen := rfl
@[simp] theorem State.tick_windowOk (s : State) :
    (s.tick).windowOk = s.windowOk := rfl
@[simp] theorem State.tick_inByte (s : State) (o : Nat) :
    (s.tick).inByte o = s.inByte o := rfl
@[simp] theorem State.tick_inBit (s : State) (q : Nat) :
    (s.tick).inBit q = s.inBit q := rfl
@[simp] theorem State.tick_bitAvailable (s : State) (q : Nat) :
    (s.tick).bitAvailable q = s.bitAvailable q := rfl
@[simp] theorem State.tick_outByte (s : State) (o : Nat) :
    (s.tick).outByte o = s.outByte o := rfl

@[simp] theorem State.analyze_window (s : State) :
    (s.analyze).window = s.window := rfl
@[simp] theorem State.analyze_windowLen (s : State) :
    (s.analyze).windowLen = s.windowLen := rfl
@[simp] theorem State.analyze_windowOk (s : State) :
    (s.analyze).windowOk = s.windowOk := rfl
@[simp] theorem State.analyze_inByte (s : State) (o : Nat) :
    (s.analyze).inByte o = s.inByte o := rfl
@[simp] theorem State.analyze_inBit (s : State) (q : Nat) :
    (s.analyze).inBit q = s.inBit q := rfl
@[simp] theorem State.analyze_bitAvailable (s : State) (q : Nat) :
    (s.analyze).bitAvailable q = s.bitAvailable q := rfl
@[simp] theorem State.analyze_outByte (s : State) (o : Nat) :
    (s.analyze).outByte o = s.outByte o := rfl

@[simp] theorem State.clearAll_window (s : State) :
    (s.clearAll).window = s.window := rfl
@[simp] theorem State.clearAll_windowLen (s : State) :
    (s.clearAll).windowLen = s.windowLen := rfl
@[simp] theorem State.clearAll_windowOk (s : State) :
    (s.clearAll).windowOk = s.windowOk := rfl
@[simp] theorem State.clearAll_inByte (s : State) (o : Nat) :
    (s.clearAll).inByte o = s.inByte o := rfl
@[simp] theorem State.clearAll_inBit (s : State) (q : Nat) :
    (s.clearAll).inBit q = s.inBit q := rfl
@[simp] theorem State.clearAll_bitAvailable (s : State) (q : Nat) :
    (s.clearAll).bitAvailable q = s.bitAvailable q := rfl
@[simp] theorem State.clearAll_outByte (s : State) (o : Nat) :
    (s.clearAll).outByte o = s.outByte o := rfl

@[simp] theorem State.compressEmpty_window (s : State) :
    (s.compressEmpty).window = s.window := rfl
@[simp] theorem State.compressEmpty_windowLen (s : State) :
    (s.compressEmpty).windowLen = s.windowLen := rfl
@[simp] theorem State.compressEmpty_windowOk (s : State) :
    (s.compressEmpty).windowOk = s.windowOk := rfl
@[simp] theorem State.compressEmpty_inByte (s : State) (o : Nat) :
    (s.compressEmpty).inByte o = s.inByte o := rfl
@[simp] theorem State.compressEmpty_inBit (s : State) (q : Nat) :
    (s.compressEmpty).inBit q = s.inBit q := rfl
@[simp] theorem State.compressEmpty_bitAvailable (s : State) (q : Nat) :
    (s.compressEmpty).bitAvailable q = s.bitAvailable q := rfl

end Sys2Proof.Machine
end

