-- ==== Sys2Proof/Laws/Ops.lean ====
section
/-! SUPPORT. One lemma per shared operation that says once everything it can do. The proofs cite these and do not unfold the
operations. -/

namespace Sys2Proof.Machine

/-! ## Entries of the arrays -/

@[simp] theorem symGet_symSet_same {α : Type} (t : Vector α 256) (s : Symbol) (x : α) : symGet (symSet t s x) s = x := by
  simp [symGet, symSet]

theorem symGet_symSet_of_ne {α : Type} (t : Vector α 256) {s u : Symbol} (x : α) (h : u ≠ s) :
    symGet (symSet t s x) u = symGet t u := by
  have : s.toNat ≠ u.toNat := fun e => h (BitVec.eq_of_toNat_eq e.symm)
  simp [symGet, symSet, this]

theorem symGet_symSet {α : Type} (t : Vector α 256) (s u : Symbol) (x : α) :
    symGet (symSet t s x) u = if u = s then x else symGet t u := by
  by_cases h : u = s
  · subst h
    simp
  · simp [symGet_symSet_of_ne t x h, h]

@[simp] theorem symGet_replicate {α : Type} (x : α) (s : Symbol) : symGet (Vector.replicate 256 x) s = x := by
  simp [symGet]

theorem mem_allSymbols (s : Symbol) : s ∈ allSymbols := by
  simp only [allSymbols, List.mem_map, List.mem_range]
  exact ⟨s.toNat, s.isLt, by simp⟩

theorem nodeAt_eq_none (a : Arena) (i : NodeIx) : nodeAt a i = none ↔ i = NodeIx.nil := by
  have h := i.isLt
  simp only [nodeAt, Vector.getElem?_eq_none_iff]
  constructor
  · intro h1
    apply BitVec.eq_of_toNat_eq
    simp only [BitVec.toNat_ofNat]
    omega
  · rintro rfl
    simp

theorem nodeAt_isSome (a : Arena) {i : NodeIx} (h : i.toNat < 511) : ∃ n, nodeAt a i = some n :=
  ⟨a[i.toNat], by simp [nodeAt]⟩

theorem nodeAt_setNode (a : Arena) (i : Nat) (n : Node) (j : NodeIx) (h : i < 511) :
    nodeAt (setNode a i n) j = if j.toNat = i then some n else nodeAt a j := by
  simp only [nodeAt, setNode, Vector.getElem?_setIfInBounds]
  by_cases hj : j.toNat = i
  · subst hj
    simp [h]
  · simp [hj, Ne.symm hj]

theorem nodeAt_setLeft (a : Arena) (i c j : NodeIx) :
    nodeAt (setLeft a i c) j = if j = i then (nodeAt a j).map (fun n => { n with left := c }) else nodeAt a j := by
  unfold setLeft
  by_cases hj : j = i
  · subst hj
    cases hn : nodeAt a j with
    | none => simp [hn]
    | some n =>
      have h : j.toNat < 511 := by
        simp only [nodeAt, Vector.getElem?_eq_some_iff] at hn
        exact hn.1
      simp [nodeAt_setNode _ _ _ _ h]
  · cases hn : nodeAt a i with
    | none => simp [hj]
    | some n =>
      have h : i.toNat < 511 := by
        simp only [nodeAt, Vector.getElem?_eq_some_iff] at hn
        exact hn.1
      have h1 : j.toNat ≠ i.toNat := fun e => hj (BitVec.eq_of_toNat_eq e)
      simp [nodeAt_setNode _ _ _ _ h, hj, h1]

theorem nodeAt_setRight (a : Arena) (i c j : NodeIx) :
    nodeAt (setRight a i c) j = if j = i then (nodeAt a j).map (fun n => { n with right := c }) else nodeAt a j := by
  unfold setRight
  by_cases hj : j = i
  · subst hj
    cases hn : nodeAt a j with
    | none => simp [hn]
    | some n =>
      have h : j.toNat < 511 := by
        simp only [nodeAt, Vector.getElem?_eq_some_iff] at hn
        exact hn.1
      simp [nodeAt_setNode _ _ _ _ h]
  · cases hn : nodeAt a i with
    | none => simp [hj]
    | some n =>
      have h : i.toNat < 511 := by
        simp only [nodeAt, Vector.getElem?_eq_some_iff] at hn
        exact hn.1
      have h1 : j.toNat ≠ i.toNat := fun e => hj (BitVec.eq_of_toNat_eq e)
      simp [nodeAt_setNode _ _ _ _ h, hj, h1]

/-- R47: an entry below the count is the arena's, any other the free one. -/
theorem nodeAt_freeFrom (count : Nat) (a free : Arena) (i : NodeIx) :
    nodeAt (freeFrom count a free) i = if i.toNat < count then nodeAt a i else nodeAt free i := by
  have hi := i.isLt
  simp only [nodeAt, freeFrom, Vector.getElem?_mk, List.getElem?_toArray, List.getElem?_append, List.length_take,
    Vector.length_toList, List.getElem?_take, List.getElem?_drop, Vector.getElem?_toList]
  by_cases h : i.toNat < count
  · by_cases h2 : i.toNat < 511
    · simp [h, h2]
    · have h3 : ¬ i.toNat < min count 511 := by omega
      simp only [h, h3, if_true, if_false]
      rw [Vector.getElem?_eq_none (by omega), Vector.getElem?_eq_none (by omega)]
  · have h3 : ¬ i.toNat < min count 511 := by omega
    simp only [h, h3, if_false]
    by_cases h4 : count ≤ 511
    · rw [show count + (i.toNat - min count 511) = i.toNat by omega]
    · rw [Vector.getElem?_eq_none (by omega), Vector.getElem?_eq_none (by omega)]

theorem nodeAt_freeFrom_of_lt {count : Nat} (a free : Arena) {i : NodeIx} (h : i.toNat < count) :
    nodeAt (freeFrom count a free) i = nodeAt a i := by
  rw [nodeAt_freeFrom, if_pos h]

/-! ## Trees in an arena -/

/-- A tree stays where it is held, at the same indices, in any arena that agrees on its nodes. -/
theorem CodeTree.heldAt_congr (t : CodeTree) (a b : Arena) (i : NodeIx) (h : t.heldAt a i)
    (hab : ∀ x ∈ t.indices a i, nodeAt b x = nodeAt a x) : t.heldAt b i ∧ t.indices b i = t.indices a i := by
  induction t generalizing i with
  | leaf sym ph =>
    obtain ⟨n, hn, hr⟩ := h
    exact ⟨⟨n, (hab i (by simp [CodeTree.indices])).trans hn, hr⟩, rfl⟩
  | node l r ihl ihr =>
    obtain ⟨n, hn, hl, hhl, hhr⟩ := h
    simp only [CodeTree.indices, hn, List.mem_cons, List.mem_append] at hab
    obtain ⟨h1, h2⟩ := ihl n.left hhl fun x hx => hab x (.inr (.inl hx))
    obtain ⟨h3, h4⟩ := ihr n.right hhr fun x hx => hab x (.inr (.inr hx))
    have hb := (hab i (.inl rfl)).trans hn
    exact ⟨⟨n, hb, hl, h1, h3⟩, by simp only [CodeTree.indices, hb, hn, h2, h4]⟩

/-- The indices of a tree a state holds lie below NODE_COUNT. -/
theorem State.holdsTree_index_lt {s : State} {t : CodeTree} (h : s.holdsTree t) :
    ∀ x ∈ t.indices s.nodes s.root, x.toNat < s.nodeCount.toNat := by
  intro x hx
  obtain ⟨j, hj, rfl⟩ := List.mem_map.1 (h.2.1.mem_iff.1 hx)
  rw [List.mem_range] at hj
  rw [BitVec.toNat_ofNat]
  exact Nat.lt_of_le_of_lt (Nat.mod_le _ _) hj

/-- A held tree is held by every state with the same tree registers whose arena agrees below NODE_COUNT. -/
theorem State.holdsTree_congr {s u : State} {t : CodeTree} (h : s.holdsTree t) (hc : u.nodeCount = s.nodeCount)
    (hr : u.root = s.root) (hl : u.leafCount = s.leafCount) (hd : u.descBits = s.descBits)
    (hn : ∀ x : NodeIx, x.toNat < s.nodeCount.toNat → nodeAt u.nodes x = nodeAt s.nodes x) : u.holdsTree t := by
  obtain ⟨h1, h2⟩ := t.heldAt_congr s.nodes u.nodes s.root h.1 fun x hx => hn x (State.holdsTree_index_lt h x hx)
  obtain ⟨-, h3, h4⟩ := h
  simp only [State.holdsTree, hc, hr, hl, hd, h2]
  exact ⟨h1, h3, h4⟩

/-- The completion step keeps the tree, whatever it leaves at indices ≥ NODE_COUNT. -/
theorem State.holdsTree_complete {s : State} {t : CodeTree} (h : s.holdsTree t) (c : Option Cause) (p : Nat) :
    (s.complete c p).holdsTree t :=
  State.holdsTree_congr h rfl rfl rfl rfl fun _ hx => nodeAt_freeFrom_of_lt _ _ hx

/-! ## Bit strings -/

@[simp] theorem length_bitsMsb {w : Nat} (v : BitVec w) (n : Nat) : (bitsMsb v n).length = n := by
  induction n with
  | zero => rfl
  | succ n ih => simp [bitsMsb, ih]

theorem getElem_bitsMsb {w : Nat} (v : BitVec w) (n i : Nat) (h : i < (bitsMsb v n).length) :
    (bitsMsb v n)[i] = v.getLsbD (n - 1 - i) := by
  induction n generalizing i with
  | zero => simp [bitsMsb] at h
  | succ n ih =>
    cases i with
    | zero => simp [bitsMsb]
    | succ i =>
      simp only [bitsMsb, List.getElem_cons_succ, ih]
      congr 1
      omega

/-! ## The input window -/

@[simp] theorem State.length_window (s : State) : s.window.length = s.windowLen := by simp [State.window]

theorem State.getElem_window (s : State) (j : Nat) (h : j < s.window.length) :
    s.window[j] = s.inByte (s.inOff.toNat + j) := by simp [State.window]

theorem State.windowOk_iff (s : State) : s.windowOk = true ↔ s.windowFits := by
  simp [State.windowOk, State.windowFits]

theorem State.checkWindow_of_fits (s : State) (h : s.windowFits) : s.checkWindow = .ok s := by
  simp [State.checkWindow, (State.windowOk_iff s).2 h]

theorem State.checkWindow_of_not_fits (s : State) (h : ¬ s.windowFits) : s.checkWindow = .raise .badArg 0 s := by
  have : s.windowOk = false := by
    rw [Bool.eq_false_iff]
    exact fun e => h ((State.windowOk_iff s).1 e)
  simp [State.checkWindow, this]

theorem State.window_of_empty (s : State) (h : s.inOff = s.inLen) : s.window = [] := by
  simp [State.window, State.windowLen, h]

/-! ## How a command's lines run and end -/

@[simp] theorem Run.andThen_ok (s : State) (k : State → Run) : (Run.ok s).andThen k = k s := rfl

@[simp] theorem Run.andThen_raise (c : Cause) (p : Nat) (s : State) (k : State → Run) :
    (Run.raise c p s).andThen k = .raise c p s := rfl

@[simp] theorem Run.andThen_notATree (k : State → Run) : Run.notATree.andThen k = .notATree := rfl

@[simp] theorem Run.complete_ok (s : State) : (Run.ok s).complete = .next (s.complete none 0) := rfl

@[simp] theorem Run.complete_raise (c : Cause) (p : Nat) (s : State) :
    (Run.raise c p s).complete = .next (s.complete (some c) p) := rfl

@[simp] theorem Run.complete_notATree : Run.notATree.complete = .fault .notATree := rfl

/-- Everything `andThen` can end with. -/
theorem Run.andThen_cases (r : Run) (k : State → Run) :
    (∃ s, r = .ok s ∧ r.andThen k = k s) ∨ (∃ c p s, r = .raise c p s ∧ r.andThen k = .raise c p s) ∨
      (r = .notATree ∧ r.andThen k = .notATree) := by
  cases r with
  | ok s => exact .inl ⟨s, rfl, rfl⟩
  | raise c p s => exact .inr (.inl ⟨c, p, s, rfl, rfl⟩)
  | notATree => exact .inr (.inr ⟨rfl, rfl⟩)

/-- Everything a completion can be: a command that answers a next state either finished or raised. -/
theorem Run.complete_eq_next {r : Run} {t : State} (h : r.complete = .next t) :
    (∃ s, r = .ok s ∧ t = s.complete none 0) ∨ ∃ c p s, r = .raise c p s ∧ t = s.complete (some c) p := by
  cases r with
  | ok s => exact .inl ⟨s, rfl, by simpa [Run.complete, eq_comm] using h⟩
  | raise c p s => exact .inr ⟨c, p, s, rfl, by simpa [Run.complete, eq_comm] using h⟩
  | notATree => simp [Run.complete] at h

/-- No run is refused, and a faulting one walked over an arena that holds no tree. -/
theorem Run.complete_stops (r : Run) :
    (∃ t, r.complete = .next t) ∨ (r = .notATree ∧ r.complete = .fault .notATree) := by
  cases r with
  | ok s => exact .inl ⟨_, rfl⟩
  | raise c p s => exact .inl ⟨_, rfl⟩
  | notATree => exact .inr ⟨rfl, rfl⟩

/-- The completion step changes what `State.finished` says, and nothing else. -/
theorem State.finished_complete (s : State) (c : Option Cause) (p : Nat) : s.finished c p (s.complete c p) :=
  ⟨fun _ h => nodeAt_freeFrom_of_lt _ _ h, rfl⟩

/-- R250: every cause has a nonzero class. -/
theorem Cause.errClass_ne_zero (c : Cause) : c.errClass ≠ 0#4 := by cases c <;> decide

/-! ## The phases that commands share -/

/-- Everything `build_tree` can do: raise EMPTY_TABLE, or go on with the tree it grew from the `k` scanned leaves. -/
theorem State.buildTree_cases (s : State) :
    ((scanLeaves s.freq allSymbols s.nodes 0).2 = 0 ∧ s.buildTree = .raise .emptyTable 0 s.clearTreeRegs) ∨
    ∃ a k, scanLeaves s.freq allSymbols s.nodes 0 = (a, k) ∧ k ≠ 0 ∧
      s.buildTree = .ok { s with
        nodes := (growTree s.hidden.heap a k).1, nodeCount := BitVec.ofNat 10 (growTree s.hidden.heap a k).2,
        root := BitVec.ofNat 9 ((growTree s.hidden.heap a k).2 - 1),
        leafCount := BitVec.ofNat 9 (if k = 1 then 2 else k),
        descBits := BitVec.ofNat 12 (10 * (if k = 1 then 2 else k) - 1), treeValid := true } := by
  rcases hs : scanLeaves s.freq allSymbols s.nodes 0 with ⟨a, k⟩
  by_cases h : k = 0
  · exact .inl ⟨h, by simp only [State.buildTree, hs, h, if_true]⟩
  · refine .inr ⟨a, k, rfl, h, ?_⟩
    simp only [State.buildTree, hs]
    rw [if_neg h]

/-- Everything `derive_codes` can do. -/
theorem State.deriveCodes_cases (s : State) :
    s.deriveCodes = .notATree ∨
    ∃ t, walkCodes s.nodes walkFuel [(s.root, 0, 0)] (Vector.replicate 256 { len := 0#8, val := 0#255 }) = some t ∧
      s.deriveCodes = .ok { s with
        codes := t, maxCodeLen := BitVec.ofNat 8 (longestCode t),
        payloadBits := BitVec.ofNat 64 (payloadLength s.freq t), codesValid := true } := by
  unfold State.deriveCodes
  split
  · exact .inl rfl
  · rename_i t h
    exact .inr ⟨t, h, rfl⟩

/-- Everything the packer's last phases can do. -/
theorem State.emitPayload_cases (s : State) (bits : Nat) :
    (s.params.outBufSize < ceil8 bits ∧ s.emitPayload bits = .raise .outOverflow 0 s) ∨
    ∃ w, ceil8 bits ≤ s.params.outBufSize ∧ w = ((Writer.start s.outBuf 0).putCodes s.codes s.window).flush ∧
      s.emitPayload bits = .ok { s with
        outBuf := w.buf, outLen := BitVec.ofNat 25 w.op, payloadBits := BitVec.ofNat 64 bits, inPos := s.inLen } := by
  by_cases h : ceil8 bits > s.params.outBufSize
  · exact .inl ⟨h, by simp [State.emitPayload, h]⟩
  · refine .inr ⟨_, not_lt.1 h, rfl, ?_⟩
    simp only [State.emitPayload]
    rw [if_neg h]
    simp [State.setOutLen, State.setPayloadBits, State.setInPos]

/-- Everything `unpack_symbols` and the two register writes after it can do. -/
theorem State.unpackFrom_cases (s : State) (count p : Nat) :
    (∃ buf p', unpackSymbols s count 0 p s.outBuf = .done buf p' ∧
      s.unpackFrom count p = .ok { s with
        outBuf := buf, outLen := BitVec.ofNat 25 count, inPos := BitVec.ofNat 32 (ceil8 p') }) ∨
    (∃ buf, unpackSymbols s count 0 p s.outBuf = .exhausted buf ∧
      s.unpackFrom count p = .raise .payloadExhausted s.inLen.toNat { s with outBuf := buf }) ∨
    s.unpackFrom count p = .notATree := by
  unfold State.unpackFrom
  split
  · rename_i buf p' h
    exact .inl ⟨buf, p', h, rfl⟩
  · rename_i buf h
    exact .inr (.inl ⟨buf, h, rfl⟩)
  · exact .inr (.inr rfl)

/-- R226: the four malformations a descriptor can fail with. -/
theorem parseLoop_fails (s : State) (room : Nat) (stk : List (NodeIx × Bool)) (r : Parser) (c : Cause) (pos : Nat)
    (a : Arena) (h : parseLoop s room stk r = .fail c pos a) :
    c = .descExhausted ∨ c = .descTooManyNodes ∨ c = .descDupSymbol ∨ c = .descRootLeaf := by
  induction room generalizing stk r with
  | zero =>
    cases stk with
    | nil => simp [parseLoop] at h
    | cons x rest =>
      simp only [parseLoop, Parsed.fail.injEq] at h
      exact .inr (.inl h.1.symm)
  | succ room ih =>
    cases stk with
    | nil => simp [parseLoop] at h
    | cons x rest =>
      simp only [parseLoop] at h
      split at h
      · split at h
        · split at h
          · simp only [Parsed.fail.injEq] at h
            simp [← h.1]
          · split at h
            · simp only [Parsed.fail.injEq] at h
              simp [← h.1]
            · split at h
              · simp only [Parsed.fail.injEq] at h
                simp [← h.1]
              · exact ih _ _ h
        · exact ih _ _ h
      · simp only [Parsed.fail.injEq] at h
        simp [← h.1]

/-- Everything `parse_tree` can do: fail with the tree cleared, or go on with the parsed tree's registers. -/
theorem State.parseTree_cases (s : State) (p0 : Nat) (k : State → Nat → Run) :
    (∃ c pos a, (c = .descExhausted ∨ c = .descTooManyNodes ∨ c = .descDupSymbol ∨ c = .descRootLeaf) ∧
      s.parseTree p0 k = .raise c pos { s.invalidate.clearTreeRegs with nodes := a }) ∨
    ∃ r, parseLoop s 511 [(NodeIx.nil, false)] { nodes := s.nodes, m := 0, l := 0, seen := [], p := p0 } = .done r ∧
      s.parseTree p0 k = k { s.invalidate with
        nodes := r.nodes, nodeCount := BitVec.ofNat 10 r.m, root := 0#9, leafCount := BitVec.ofNat 9 r.l,
        descBits := BitVec.ofNat 12 (r.p - p0), treeValid := true } r.p := by
  unfold State.parseTree
  split
  · rename_i c pos a h
    exact .inl ⟨c, pos, a, parseLoop_fails _ _ _ _ _ _ _ h, rfl⟩
  · rename_i r h
    exact .inr ⟨r, h, rfl⟩

/-! ## The Host bus -/

theorem Target.eq_mapped (c : Target) (h1 : c ≠ .misaligned) (h2 : c ≠ .unmapped) :
    (∃ r, c = .reg r) ∨ (∃ x, c = .freq x) ∨ (∃ o, c = .inBuf o) ∨ ∃ o, c = .outBuf o := by
  cases c <;> simp_all

/-- Everything an HREAD can do (R115). -/
theorem State.busRead_cases (s : State) (addr : Word) :
    ((decodeAddr s.params addr = .misaligned ∨ decodeAddr s.params addr = .unmapped) ∧
      s.busRead addr = s.answerRead 0#32 false) ∨
    (∃ d, s.busy = true ∧ s.busRead addr = s.tick.answerRead d true) ∨
    s.busRead addr = s.answerRead (s.readTarget (decodeAddr s.params addr)) true := by
  unfold State.busRead
  split
  · rename_i h
    exact .inl ⟨.inl h, rfl⟩
  · rename_i h
    exact .inl ⟨.inr h, rfl⟩
  · split
    · rename_i h
      exact .inr (.inl ⟨_, by simp_all, rfl⟩)
    · split
      · rename_i h
        exact .inr (.inl ⟨_, by simp_all, rfl⟩)
      · exact .inr (.inr rfl)

/-- Everything an HWRITE can do (R114). -/
theorem State.busWrite_cases (s : State) (addr wdata : Word) (strb : BitVec 4) :
    s.busWrite addr wdata strb = s.answerWrite false ∨
    (s.busy = true ∧ (decodeAddr s.params addr).isProtected = true ∧
      s.busWrite addr wdata strb = State.answerWrite { s with haz := true } true) ∨
    ((s.busy = false ∨ (decodeAddr s.params addr).isProtected = false) ∧
      (decodeAddr s.params addr).strobesBad strb = false ∧
      s.busWrite addr wdata strb = (s.writeTarget wdata strb (decodeAddr s.params addr)).answerWrite true) := by
  unfold State.busWrite
  split
  · exact .inl rfl
  · exact .inl rfl
  · split
    · exact .inl rfl
    · split
      · rename_i h
        exact .inr (.inl ⟨by simp_all, by simp_all, rfl⟩)
      · rename_i h1 h2
        refine .inr (.inr ⟨?_, by simpa using h1, rfl⟩)
        cases hb : s.busy
        · exact .inl rfl
        · exact .inr (by simpa [hb] using h2)

/-- What a full-word write to a register does, register by register (R114). -/
theorem State.writeReg_cases (s : State) (wdata : Word) (r : Reg) :
    (r = .cmd ∧ s.writeReg wdata r = s.startCommand wdata) ∨
    (r = .status ∧ ∃ d z, s.writeReg wdata r = { s with done := d, haz := z } ∧ (d = true → s.done = true)) ∨
    (r = .irqEn ∧ s.writeReg wdata r = { s with doneIe := wdata.getLsbD 0 }) ∨
    (r = .inLen ∧ s.writeReg wdata r = { s with inLen := wdata }) ∨
    (r = .inOff ∧ s.writeReg wdata r = { s with inOff := wdata }) ∨
    (r = .origLen ∧ s.writeReg wdata r = { s with origLen := wdata }) ∨
    (r = .nodeSel ∧ s.writeReg wdata r = { s with nodeSel := wdata.extractLsb' 0 9 }) ∨
    (r = .codeSel ∧ s.writeReg wdata r = { s with codeSel := wdata.extractLsb' 0 8 }) ∨
    s.writeReg wdata r = s := by
  cases r with
  | cmd => exact .inl ⟨rfl, rfl⟩
  | status =>
    refine .inr (.inl ⟨rfl, _, _, rfl, ?_⟩)
    split <;> simp
  | irqEn => exact .inr (.inr (.inl ⟨rfl, rfl⟩))
  | inLen => exact .inr (.inr (.inr (.inl ⟨rfl, rfl⟩)))
  | inOff => exact .inr (.inr (.inr (.inr (.inl ⟨rfl, rfl⟩))))
  | origLen => exact .inr (.inr (.inr (.inr (.inr (.inl ⟨rfl, rfl⟩)))))
  | nodeSel => exact .inr (.inr (.inr (.inr (.inr (.inr (.inl ⟨rfl, rfl⟩))))))
  | codeSel => exact .inr (.inr (.inr (.inr (.inr (.inr (.inr (.inl ⟨rfl, rfl⟩)))))))
  | _ => exact .inr (.inr (.inr (.inr (.inr (.inr (.inr (.inr rfl)))))))

/-! ## The next move -/

/-- Everything that can be next (R18). -/
theorem State.nextMove_cases (s : State) :
    (s.nextMove = .rest ∧ s.seq = .idle) ∨ (∃ w, s.nextMove = .command w ∧ s.seq = .exec w) ∨
    (∃ d w rest, s.nextMove = .request d w ∧ s.inputs = .request d w :: rest) ∨
    ∃ rest, s.nextMove = .reset ∧ s.inputs = .resetPulse :: rest := by
  unfold State.nextMove State.coreMove
  cases hi : s.inputs with
  | nil => cases hs : s.seq <;> simp
  | cons i rest =>
    cases i with
    | request d w => simp
    | coreTurn => cases hs : s.seq <;> simp
    | resetPulse => simp

end Sys2Proof.Machine
end

