-- ==== Sys2Proof/Laws/PerInstr.lean ====
section
/-! SUPPORT. Statements for all instructions, one lemma per constructor of `Instr`. -/

namespace Sys2Proof.Laws

/-- The bytes of an instruction: a command word has 4 (30_encoding.md rule R80), a transaction its descriptor in 5 and its
write data in 4 (rule R99, log entry 11). -/
def EncodedLength.Statement (i : Instr) : Prop :=
  (encode i).length = match i.format with
    | .command => 4
    | .transaction => 9

theorem EncodedLength.nop : EncodedLength.Statement .nop := rfl

theorem EncodedLength.clear : EncodedLength.Statement .clear := rfl

theorem EncodedLength.analyze : EncodedLength.Statement .analyze := rfl

theorem EncodedLength.build : EncodedLength.Statement .build := rfl

theorem EncodedLength.derive : EncodedLength.Statement .derive := rfl

theorem EncodedLength.pack : EncodedLength.Statement .pack := rfl

theorem EncodedLength.unpack : EncodedLength.Statement .unpack := rfl

theorem EncodedLength.sertree : EncodedLength.Statement .sertree := rfl

theorem EncodedLength.parsetree : EncodedLength.Statement .parsetree := rfl

theorem EncodedLength.compress : EncodedLength.Statement .compress := rfl

theorem EncodedLength.decompress : EncodedLength.Statement .decompress := rfl

theorem EncodedLength.illegal (word : Word) : EncodedLength.Statement (.illegal word) := rfl

theorem EncodedLength.hread (addr : Word) : EncodedLength.Statement (.hread addr) := rfl

theorem EncodedLength.hwrite (addr wdata : Word) (strb : BitVec 4) :
    EncodedLength.Statement (.hwrite addr wdata strb) := rfl

end Sys2Proof.Laws
end

