-- ==== Sys2Proof/Tests/Slice0.lean ====
section
/-! SUPPORT. The model's own tests. Expected values are the spec's: words from 30_encoding.md rules R81, R82 and R99, results
from the worked examples of the rules named at each test. A theorem named `witness_<Obligation>` shows states and operands
that meet that statement's hypotheses. -/

namespace Sys2Proof.Tests

set_option Elab.async false

open Sys2Proof.Machine

/-! ## WellFormed smoke: each check refuses an ill-formed term -/

theorem test_wf_refuses_listed_word : Instr.wf (.illegal 0x00000011#32) = false := by decide
theorem test_wf_accepts_reserved_bits : Instr.wf (.illegal 0x00000110#32) = true := by decide
theorem test_params_refuse_not_multiple_of_4 : Params.sizeOk 1026 = false := by decide
theorem test_params_refuse_too_small : Params.sizeOk 1020 = false := by decide
theorem test_params_refuse_too_large : Params.sizeOk 16777220 = false := by decide
theorem test_params_bounds_accepted : (Params.sizeOk 1024 && Params.sizeOk 16777216) = true := by decide
theorem test_params_check_input_size : Params.wf { inBufSize := 1020, outBufSize := 1024 } = false := by decide
theorem test_params_check_output_size : Params.wf { inBufSize := 1024, outBufSize := 1026 } = false := by decide
theorem test_reset_refuses_bad_sizes : (State.resetChecked { inBufSize := 4, outBufSize := 1024 }).isNone = true := by decide

/-! ## Decoding: the words of R81 and R99 written out, least significant byte first -/

theorem test_decode_nop : decode .command [0x00#8, 0x00#8, 0x00#8, 0x00#8] = .ok (.nop, []) := by decide
theorem test_decode_clear : decode .command [0x01#8, 0x00#8, 0x00#8, 0x00#8] = .ok (.clear, []) := by decide
theorem test_decode_analyze : decode .command [0x10#8, 0x00#8, 0x00#8, 0x00#8] = .ok (.analyze, []) := by decide
theorem test_decode_build : decode .command [0x11#8, 0x00#8, 0x00#8, 0x00#8] = .ok (.build, []) := by decide
theorem test_decode_derive : decode .command [0x20#8, 0x00#8, 0x00#8, 0x00#8] = .ok (.derive, []) := by decide
theorem test_decode_pack : decode .command [0x30#8, 0x00#8, 0x00#8, 0x00#8] = .ok (.pack, []) := by decide
theorem test_decode_unpack : decode .command [0x31#8, 0x00#8, 0x00#8, 0x00#8] = .ok (.unpack, []) := by decide
theorem test_decode_sertree : decode .command [0x40#8, 0x00#8, 0x00#8, 0x00#8] = .ok (.sertree, []) := by decide
theorem test_decode_parsetree : decode .command [0x41#8, 0x00#8, 0x00#8, 0x00#8] = .ok (.parsetree, []) := by decide
theorem test_decode_compress : decode .command [0x50#8, 0x00#8, 0x00#8, 0x00#8] = .ok (.compress, []) := by decide
theorem test_decode_decompress : decode .command [0x51#8, 0x00#8, 0x00#8, 0x00#8] = .ok (.decompress, []) := by decide

/-- R138: a legal opcode with RSVD ≠ 0 is illegal. -/
theorem test_decode_illegal :
    decode .command [0x10#8, 0x01#8, 0x00#8, 0x00#8] = .ok (.illegal 0x00000110#32, []) := by decide

/-- HREAD(0x00000014): descriptor 0x00_0000_0014. -/
theorem test_decode_hread :
    decode .transaction [0x14#8, 0x00#8, 0x00#8, 0x00#8, 0x00#8, 0x00#8, 0x00#8, 0x00#8, 0x00#8]
      = .ok (.hread 0x00000014#32, []) := by decide

/-- R99's example: HWRITE(0x01000004, 0x0000005A, 0b0001) is the descriptor 0x11_0100_0004. -/
theorem test_decode_hwrite :
    decode .transaction [0x04#8, 0x00#8, 0x00#8, 0x01#8, 0x11#8, 0x5A#8, 0x00#8, 0x00#8, 0x00#8]
      = .ok (.hwrite 0x01000004#32 0x0000005A#32 0b0001#4, []) := by decide

theorem test_decode_refuses_short_command : decode .command [0x10#8, 0x00#8] = .error .commandTooShort := by decide
theorem test_decode_refuses_wide_descriptor :
    decode .transaction [0x14#8, 0x00#8, 0x00#8, 0x00#8, 0x20#8, 0x00#8, 0x00#8, 0x00#8, 0x00#8]
      = .error .descriptorTooWide := by decide

theorem test_tableWord_compress : decodeTableWord 32 0x50 = some .compress := by decide
theorem test_tableWord_hwrite : decodeTableWord 40 0x1101000004 = some (.hwrite 0x01000004#32 0#32 0b0001#4) := by decide

/-! ## Small states -/

/-- `s` with these bytes in IN_BUF from offset `o`, and the input window around them. -/
def withWindow (o : Nat) (bs : List Byte) (s : State) : State :=
  { s with inBuf := Memory.writeAll s.inBuf o bs, inOff := BitVec.ofNat 32 o, inLen := BitVec.ofNat 32 (o + bs.length) }

/-- The tree of the worked example (42_tree_builder.md rule R162). -/
def aabcTree : CodeTree := .node (.leaf 0x41#8 false) (.node (.leaf 0x42#8 false) (.leaf 0x43#8 false))

/-- Its arena as BUILD writes it (R162). -/
def aabcNodes : Arena :=
  setNode (setNode (setNode (setNode (setNode State.reset.nodes 0 (leafNode false 0x41#8 2#40))
    1 (leafNode false 0x42#8 1#40)) 2 (leafNode false 0x43#8 1#40)) 3 (internalNode 2#40 1#9 2#9))
    4 (internalNode 4#40 0#9 3#9)

def treeState : State :=
  { State.reset with nodes := aabcNodes, nodeCount := 5#10, root := 4#9, leafCount := 3#9, descBits := 29#12,
                     treeValid := true }

/-- The codes of R186. -/
def aabcCodes : CodeTable :=
  symSet (symSet (symSet State.reset.codes 0x41#8 { len := 1#8, val := 0#255 })
    0x42#8 { len := 2#8, val := 2#255 }) 0x43#8 { len := 2#8, val := 3#255 }

def codesState : State := { treeState with codes := aabcCodes, codesValid := true }

/-- The counts of R162. -/
def aabcFreq : FreqTable := symSet (symSet (symSet State.reset.freq 0x41#8 2#32) 0x42#8 1#32) 0x43#8 1#32

def aabc : List Byte := [0x41#8, 0x41#8, 0x42#8, 0x43#8]

/-- The container of R94. -/
def aabcContainer : List Byte :=
  [0x48#8, 0x55#8, 0x46#8, 0x46#8, 0x00#8, 0x00#8, 0x00#8, 0x04#8, 0x50#8, 0x54#8, 0x2A#8, 0x18#8, 0x2C#8]

def busyState : State := State.reset.startCommand 0x00000050#32

/-- The check holds of the next state. -/
def after (i : Instr) (s : State) (check : State → Bool) : Bool :=
  match exec i s with
  | .next t => check t
  | .fault _ => false
  | .refused _ => false

theorem after_next {i : Instr} {s : State} {check : State → Bool} (h : after i s check = true) :
    ∃ t, exec i s = .next t ∧ check t = true := by
  unfold after at h
  split at h
  · rename_i t ht
    exact ⟨t, ht, h⟩
  · simp at h
  · simp at h

/-- OUT_BUF begins with these bytes. -/
def outIs (t : State) (bs : List Byte) : Bool := (List.range bs.length).map t.outByte == bs

/-! ## One step of each instruction -/

/-- R136: RUN NOP ends with STATUS = 0x00000002. -/
theorem test_nop_status : after .nop (State.reset.startCommand 0#32) (fun t => t.status == 0x00000002#32) = true := by
  decide +kernel

/-- R137: CLEAR after the AABC tree leaves NODE_COUNT = 0 and STATUS = 0x00000102. -/
theorem test_clear_status :
    after .clear ({ codesState with freq := aabcFreq }.startCommand 0x00000001#32)
      (fun t => t.status == 0x00000102#32 && t.nodeCount == 0#10 && symGet t.freq 0x41#8 == 0#32) = true := by
  decide +kernel

/-- R138: STATUS = 0x0000FF06, ERROR = 0x00000104. -/
theorem test_illegal_status :
    after (.illegal 0x000000FF#32) (State.reset.startCommand 0x000000FF#32)
      (fun t => t.status == 0x0000FF06#32 && t.error == 0x00000104#32 && t.errPos == 0#32) = true := by
  decide +kernel

/-- R150's example. -/
theorem test_analyze_counts :
    after .analyze (withWindow 2 aabc State.reset)
      (fun t => symGet t.freq 0x41#8 == 2#32 && symGet t.freq 0x42#8 == 1#32 && symGet t.freq 0x44#8 == 0#32 &&
        t.inPos == 6#32) = true := by
  decide +kernel

/-- R162: the merges, their orientation and the registers. -/
theorem test_build_aabc :
    after .build { State.reset with freq := aabcFreq }
      (fun t => t.nodeCount == 5#10 && t.root == 4#9 && t.leafCount == 3#9 && t.descBits == 29#12 &&
        nodeAt t.nodes 3#9 == some (internalNode 2#40 1#9 2#9) &&
        nodeAt t.nodes 4#9 == some (internalNode 4#40 0#9 3#9)) = true := by
  decide +kernel

/-- R158: the placeholder of a table whose only symbol is 0x00 is 0x01. -/
theorem test_build_single_zero :
    after .build { State.reset with freq := symSet State.reset.freq 0x00#8 9#32 }
      (fun t => t.root == 2#9 && nodeAt t.nodes 1#9 == some (leafNode true 0x01#8 0#40)) = true := by
  decide +kernel

/-- R186: the codes, MAX_CODE_LEN = 2 and PAYLOAD_BITS = 6. -/
theorem test_derive_aabc :
    after .derive { treeState with freq := aabcFreq }
      (fun t => symGet t.codes 0x41#8 == { len := 1#8, val := 0#255 } &&
        symGet t.codes 0x42#8 == { len := 2#8, val := 2#255 } &&
        symGet t.codes 0x43#8 == { len := 2#8, val := 3#255 } && t.maxCodeLen == 2#8 && t.payloadBits == 6#64) = true := by
  decide +kernel

/-- R209: PACK of AABC is 0x2C. -/
theorem test_pack_aabc :
    after .pack (withWindow 2 aabc codesState)
      (fun t => outIs t [0x2C#8] && t.outLen == 1#25 && t.payloadBits == 6#64 && t.inPos == 6#32) = true := by
  decide +kernel

/-- R209: PACK of 41 42 44 reports UNCODED_SYMBOL at the third byte. -/
theorem test_pack_uncoded :
    after .pack (withWindow 0 [0x41#8, 0x42#8, 0x44#8] codesState)
      (fun t => t.error == 0x00000604#32 && t.errPos == 2#32 && t.outLen == 0#25) = true := by
  decide +kernel

/-- R209: UNPACK of 2C to 4 symbols. -/
theorem test_unpack_aabc :
    after .unpack (withWindow 5 [0x2C#8] { treeState with origLen := 4#32 })
      (fun t => outIs t aabc && t.outLen == 4#25 && t.inPos == 6#32) = true := by
  decide +kernel

/-- R209: the seventh symbol finds no bits. -/
theorem test_unpack_exhausted :
    after .unpack (withWindow 5 [0x2C#8] { treeState with origLen := 7#32 })
      (fun t => t.error == 0x00000602#32 && t.errPos == 6#32 && t.outLen == 0#25 &&
        outIs t [0x41#8, 0x41#8, 0x42#8, 0x43#8, 0x41#8, 0x41#8]) = true := by
  decide +kernel

/-- R94: the descriptor 50 54 2A 18. -/
theorem test_sertree_aabc :
    after .sertree treeState (fun t => outIs t [0x50#8, 0x54#8, 0x2A#8, 0x18#8] && t.outLen == 4#25) = true := by
  decide +kernel

/-- R227's example. -/
theorem test_parsetree_aabc :
    after .parsetree (withWindow 0 [0x50#8, 0x54#8, 0x2A#8, 0x18#8] State.reset)
      (fun t => t.nodeCount == 5#10 && t.root == 0#9 && t.inPos == 4#32 &&
        nodeAt t.nodes 2#9 == some (internalNode 0#40 3#9 4#9)) = true := by
  decide +kernel

/-- R241: the descriptor 0 1 0x41 1 0x41 reports DESC_DUP_SYMBOL at the third byte. -/
theorem test_parsetree_dup :
    after .parsetree (withWindow 8 [0x50#8, 0x68#8, 0x20#8] State.reset)
      (fun t => t.error == 0x00000402#32 && t.errPos == 10#32 && !t.treeValid) = true := by
  decide +kernel

/-- R232's example. -/
theorem test_compress_aabc :
    after .compress (withWindow 0 aabc State.reset)
      (fun t => outIs t aabcContainer && t.outLen == 13#25 && t.origLen == 4#32 && t.descBits == 29#12 &&
        t.payloadBits == 6#64) = true := by
  decide +kernel

/-- R237's example. -/
theorem test_decompress_aabc :
    after .decompress (withWindow 3 aabcContainer State.reset)
      (fun t => outIs t aabc && t.outLen == 4#25 && t.inPos == 16#32 && t.nodeCount == 5#10 && t.root == 0#9) = true := by
  decide +kernel

/-- R255: a window "HUFX" of 4 bytes reports MAGIC_MISMATCH. -/
theorem test_decompress_magic :
    after .decompress (withWindow 3 [0x48#8, 0x55#8, 0x46#8, 0x58#8] State.reset)
      (fun t => t.error == 0x00000201#32 && t.errPos == 3#32) = true := by
  decide +kernel

/-- R115's example: HREAD(0x000) after reset. -/
theorem test_hread_id :
    after (.hread 0x00000000#32) State.reset (fun t => t.resp == .read 0x48554646#32 true) = true := by
  decide +kernel

/-- R115's example: HREAD(0x002) answers (0, ERR). -/
theorem test_hread_misaligned :
    after (.hread 0x00000002#32) State.reset (fun t => t.resp == .read 0#32 false) = true := by
  decide +kernel

/-- R65: the word 0x43424141 puts "AABC" in IN_BUF. -/
theorem test_hwrite_lanes :
    after (.hwrite 0x01000000#32 0x43424141#32 0b1111#4) State.reset
      (fun t => (List.range 4).map t.inByte == aabc) = true := by
  decide +kernel

/-- R285: a FREQ write while busy is dropped and sets HAZ. -/
theorem test_hwrite_dropped :
    after (.hwrite 0x00000400#32 0x00000001#32 0b1111#4) busyState
      (fun t => t.haz && t.resp == .write true && symGet t.freq 0x00#8 == 0#32) = true := by
  decide +kernel

/-! ## Witnesses: the statements' hypotheses can be met -/

theorem witness_DecodeOfEncodeIsTheInstruction :
    Instr.wf (.illegal 0xFFFFFFFF#32) = true ∧ Instr.wf (.hwrite 0xFFFFFFFC#32 0xFFFFFFFF#32 0b1111#4) = true := by decide

theorem witness_IllegalExactlyTheUnlistedWords :
    decodeCommand 0xFFFFFFFF#32 = .illegal 0xFFFFFFFF#32 ∧ 0xFFFFFFFF#32 ∉ commandWords ∧ 0x00000051#32 ∈ commandWords := by
  decide

theorem witness_StepRunsTheNextInstruction :
    busyState.seq = .exec 0x00000050#32 ∧ busyState.inputs = [] ∧
    { busyState with inputs := [.coreTurn] }.inputs = .coreTurn :: [] ∧
    (State.reset.placeRequest 0x0000000014#37 0#32).inputs = .request 0x0000000014#37 0#32 :: [] ∧
    (State.reset.placeCommand 0x00000010#32).nextInstr = some .analyze ∧
    (State.reset.placeRequest 0x0000000014#37 0#32).nextInstr = some (.hread 0x00000014#32) ∧
    State.reset.seq = .idle ∧ State.reset.inputs = [] := by
  decide +kernel

theorem witness_ResetStepGivesResetValues : { busyState with inputs := [.resetPulse] }.inputs = .resetPulse :: [] := rfl

/-- Every register's address, busy or not, and the ends of every range of the map. -/
theorem witness_AddressMap :
    Params.wf Params.default = true ∧
    (∀ r ∈ allRegs, decodeAddr Params.default (BitVec.ofNat 32 r.offset) = .reg r) ∧
    decodeAddr Params.default 0x00000012#32 = .misaligned ∧
    decodeAddr Params.default 0x0000008C#32 = .reg .errPos ∧
    decodeAddr Params.default 0x00000090#32 = .unmapped ∧ decodeAddr Params.default 0x000003FC#32 = .unmapped ∧
    decodeAddr Params.default 0x00000400#32 = .freq 0x00#8 ∧ decodeAddr Params.default 0x000007FC#32 = .freq 0xFF#8 ∧
    decodeAddr Params.default 0x00000800#32 = .unmapped ∧ decodeAddr Params.default 0x00FFFFFC#32 = .unmapped ∧
    decodeAddr Params.default 0x01000000#32 = .inBuf 0 ∧ decodeAddr Params.default 0x0100FFFC#32 = .inBuf 65532 ∧
    decodeAddr Params.default 0x01010000#32 = .unmapped ∧ decodeAddr Params.default 0x01FFFFFC#32 = .unmapped ∧
    decodeAddr Params.default 0x02000000#32 = .outBuf 0 ∧ decodeAddr Params.default 0x0200FFFC#32 = .outBuf 65532 ∧
    decodeAddr Params.default 0x02010000#32 = .unmapped ∧ decodeAddr Params.default 0x02FFFFFC#32 = .unmapped ∧
    decodeAddr Params.default 0x03000000#32 = .unmapped ∧ decodeAddr Params.default 0xFFFFFFFC#32 = .unmapped := by
  decide +kernel

theorem witness_BusErrorChangesNothing :
    decodeAddr State.reset.params 0x00000002#32 = .misaligned ∧ decodeAddr State.reset.params 0x00000090#32 = .unmapped ∧
    decodeAddr State.reset.params 0x00000010#32 = .reg .cmd ∧ 0b0111#4 ≠ 0b1111#4 := by
  decide +kernel

theorem witness_IdleReadReturnsStoredValue :
    State.reset.busy = false ∧ decodeAddr State.reset.params 0x00000000#32 = .reg .id ∧
    decodeAddr State.reset.params 0x000007FC#32 = .freq 0xFF#8 ∧
    decodeAddr State.reset.params 0x0100FFFC#32 = .inBuf 65532 ∧
    decodeAddr State.reset.params 0x0200FFFC#32 = .outBuf 65532 := by
  decide +kernel

/-- The node window at its first entry, its last and one past it; the code window with and without codes. -/
theorem witness_WindowRegisters :
    treeState.nodeSel.toNat < treeState.nodeCount.toNat ∧ (nodeAt treeState.nodes treeState.nodeSel).isSome = true ∧
    { treeState with nodeSel := 4#9 }.nodeSel.toNat < treeState.nodeCount.toNat ∧
    (nodeAt treeState.nodes 4#9).isSome = true ∧
    treeState.nodeCount.toNat ≤ { treeState with nodeSel := 5#9 }.nodeSel.toNat ∧
    codesState.codesValid = true ∧ treeState.codesValid = false := by
  decide +kernel

theorem witness_ReadsWhileBusy :
    busyState.busy = true ∧
    (∀ r ∈ allRegs, decodeAddr busyState.params (BitVec.ofNat 32 r.offset) = .reg r) ∧
    decodeAddr busyState.params 0x00000400#32 = .freq 0x00#8 ∧ decodeAddr busyState.params 0x02000000#32 = .outBuf 0 ∧
    decodeAddr busyState.params 0x01000000#32 = .inBuf 0 := by
  decide +kernel

theorem witness_ProtectedWriteIsDropped :
    busyState.busy = true ∧ decodeAddr busyState.params 0x00000010#32 = .reg .cmd ∧
    decodeAddr busyState.params 0x00000064#32 = .reg .codeSel ∧ decodeAddr busyState.params 0x000007FC#32 = .freq 0xFF#8 ∧
    decodeAddr busyState.params 0x0100FFFC#32 = .inBuf 65532 ∧
    decodeAddr busyState.params 0x0200FFFC#32 = .outBuf 65532 := by
  decide +kernel

theorem witness_RegisterWrites :
    (∀ r ∈ allRegs, decodeAddr State.reset.params (BitVec.ofNat 32 r.offset) = .reg r) ∧ State.reset.busy = false := by
  decide +kernel

theorem witness_FreqWriteReplacesStrobedLanes :
    State.reset.busy = false ∧ decodeAddr State.reset.params 0x000007FC#32 = .freq 0xFF#8 := by
  decide +kernel

theorem witness_BufferWriteStoresStrobedLanes :
    State.reset.busy = false ∧ decodeAddr State.reset.params 0x0100FFFC#32 = .inBuf 65532 ∧
    decodeAddr State.reset.params 0x0200FFFC#32 = .outBuf 65532 := by
  decide +kernel

theorem witness_ReadReturnsTheLastWrite :
    State.reset.busy = false ∧ (∃ o, decodeAddr State.reset.params 0x01000000#32 = .inBuf o) ∧
    (∃ o, decodeAddr State.reset.params 0x02000000#32 = .outBuf o) ∧
    (∃ sym, decodeAddr State.reset.params 0x00000400#32 = .freq sym) ∧
    ∀ r ∈ [Reg.inLen, .inOff, .origLen, .nodeSel, .codeSel, .irqEn],
      decodeAddr State.reset.params (BitVec.ofNat 32 r.offset) = .reg r := by
  exact ⟨rfl, ⟨0, by decide +kernel⟩, ⟨0, by decide +kernel⟩, ⟨0#8, by decide +kernel⟩, by decide +kernel⟩

theorem witness_BusyTransactionsKeepOperands :
    ∃ t, Instr.format (.hwrite 0x00000020#32 0x00000001#32 0b1111#4) = .transaction ∧ busyState.busy = true ∧
      exec (.hwrite 0x00000020#32 0x00000001#32 0b1111#4) busyState = .next t := ⟨_, rfl, rfl, rfl⟩

theorem witness_InterruptLine :
    decodeAddr State.reset.params 0x00000010#32 = .reg .cmd ∧ State.reset.busy = false ∧
    decodeAddr State.reset.params 0x00000014#32 = .reg .status ∧ (0x00000002#32).getLsbD 1 = true := by
  decide +kernel

theorem witness_CompletionStepFrame :
    ∃ t, Instr.format .clear = .command ∧ exec .clear busyState = .next t := ⟨_, rfl, rfl⟩

theorem witness_FailedCommandHasNoOutput :
    ∃ t, Instr.format .sertree = .command ∧ exec .sertree busyState = .next t ∧ t.err = true := ⟨_, rfl, rfl, rfl⟩

theorem witness_ControlCommandsComplete : 0x00000110#32 ∉ commandWords := by decide

/-- The window one byte past IN_BUF, the window that starts after its end, and the empty window at IN_BUF's end. -/
theorem witness_BadWindowIsRefusedFirst :
    ¬ { State.reset with inLen := 65537#32 }.windowFits ∧ ¬ { State.reset with inOff := 1#32 }.windowFits ∧
    { State.reset with inLen := 65536#32, inOff := 65536#32 }.windowFits ∧
    ∃ t, exec .nop { State.reset with inLen := 65536#32, inOff := 65536#32 } = .next t := by
  exact ⟨fun h => absurd h.1 (by decide), fun h => absurd h.2 (by decide), ⟨by decide, by decide⟩, _, rfl⟩

theorem witness_AnalyzeCountsTheWindow :
    (withWindow 2 aabc State.reset).windowFits ∧ ¬ { State.reset with inLen := 65537#32 }.windowFits :=
  ⟨⟨by decide, by decide⟩, fun h => absurd h.1 (by decide)⟩

theorem witness_BuildOfEmptyTableFails : ∀ sym, symGet State.reset.freq sym = 0#32 := by
  intro sym
  simp [State.reset, State.resetFor, symGet]

theorem witness_BuildOfOneSymbol :
    symGet (symSet State.reset.freq 0x00#8 9#32) 0x00#8 ≠ 0#32 ∧
    ∀ y, y ≠ 0x00#8 → symGet (symSet State.reset.freq 0x00#8 9#32) y = 0#32 := by
  decide +kernel

theorem witness_BuildMakesATree :
    2 ≤ (presentSymbols (symSet (symSet State.reset.freq 0x00#8 1#32) 0xFF#8 1#32)).length := by
  decide +kernel

/-- A queue with one place left whose entries are all the same index. -/
theorem witness_HeapInsertKeepsOrder :
    Heap.ordered aabcNodes { arr := Vector.replicate 256 1#9, size := 255 } ∧ 255 < 256 := by
  refine ⟨fun c h1 h2 => ?_, by decide⟩
  have h3 : c < 256 := by
    simp only at h2
    omega
  have h4 : (c - 1) / 2 < 256 := by omega
  simp [heapAt, keyLess, h3, h4, Vector.getD, BitVec.ult]

/-- A queue of one entry, and a full one. -/
theorem witness_HeapExtractReturnsTheLeast :
    Heap.ordered aabcNodes { arr := Vector.replicate 256 1#9, size := 1 } ∧
    Heap.ordered aabcNodes { arr := Vector.replicate 256 1#9, size := 256 } ∧ 1 ≤ 256 := by
  refine ⟨fun c h1 h2 => ?_, fun c h1 h2 => ?_, by decide⟩
  · simp only at h2
    omega
  · have h3 : c < 256 := h2
    have h4 : (c - 1) / 2 < 256 := by omega
    simp [heapAt, keyLess, h3, h4, Vector.getD, BitVec.ult]

theorem witness_NoTreeIsRefused :
    State.reset.treeValid = false ∧ { State.reset with origLen := 1#32 }.windowFits ∧
    { State.reset with origLen := 1#32 }.origLen ≠ 0#32 := ⟨rfl, ⟨by decide, by decide⟩, by decide⟩

theorem aabc_heldAt : aabcTree.heldAt aabcNodes 4#9 :=
  ⟨internalNode 4#40 0#9 3#9, by decide +kernel, rfl, ⟨leafNode false 0x41#8 2#40, by decide +kernel, rfl, rfl, rfl⟩,
    internalNode 2#40 1#9 2#9, by decide +kernel, rfl, ⟨leafNode false 0x42#8 1#40, by decide +kernel, rfl, rfl, rfl⟩,
    ⟨leafNode false 0x43#8 1#40, by decide +kernel, rfl, rfl, rfl⟩⟩

theorem aabc_holdsTree : treeState.holdsTree aabcTree :=
  ⟨aabc_heldAt, by decide +kernel, rfl, by decide, rfl, rfl, rfl⟩

theorem aabc_codeTable : aabcTree.codeTable codesState.codes := by
  refine ⟨by decide +kernel, ?_⟩
  decide +kernel

theorem witness_DeriveWritesTheLeafPaths : treeState.treeValid = true ∧ treeState.holdsTree aabcTree :=
  ⟨rfl, aabc_holdsTree⟩

theorem witness_DeriveBitLengthOutputs :
    ∃ t, exec .derive { treeState with freq := aabcFreq } = .next t ∧ t.err = false := by
  obtain ⟨t, h, ht⟩ := after_next (i := .derive) (s := { treeState with freq := aabcFreq }) (check := fun t => !t.err)
    (by decide +kernel)
  exact ⟨t, h, by simpa using ht⟩

theorem witness_DerivedCodesArePrefixFree :
    treeState.treeValid = true ∧ treeState.holdsTree aabcTree ∧ aabcTree.codeTable codesState.codes ∧
    (symGet codesState.codes 0x42#8).len ≠ 0#8 ∧ (symGet codesState.codes 0x43#8).len ≠ 0#8 :=
  ⟨rfl, aabc_holdsTree, aabc_codeTable, by decide +kernel, by decide +kernel⟩

theorem witness_PackWritesThePayload :
    (withWindow 2 aabc codesState).windowFits ∧ codesState.codesValid = true ∧
    (∀ b ∈ (withWindow 2 aabc codesState).window, (symGet codesState.codes b).len ≠ 0#8) ∧
    ceil8 (payloadOf codesState.codes (withWindow 2 aabc codesState).window).length ≤ codesState.params.outBufSize :=
  ⟨⟨by decide, by decide⟩, rfl, by decide +kernel, by decide +kernel⟩

/-- No codes; an uncoded byte at position 0 and at the window's last position; a payload that does not fit. -/
theorem witness_PackErrors :
    (withWindow 2 aabc treeState).windowFits ∧ treeState.codesValid = false ∧
    (withWindow 2 [0x44#8] codesState).window[0]? = some 0x44#8 ∧
    (withWindow 0 [0x41#8, 0x42#8, 0x44#8] codesState).window[2]? = some 0x44#8 ∧
    (symGet codesState.codes 0x44#8).len = 0#8 ∧
    (∀ i, i < 2 → ∀ c ∈ (withWindow 0 [0x41#8, 0x42#8, 0x44#8] codesState).window[i]?,
      (symGet codesState.codes c).len ≠ 0#8) ∧
    (let s := withWindow 2 aabc { codesState with params := { inBufSize := 1024, outBufSize := 0 } }
     s.windowFits ∧ s.codesValid = true ∧ (∀ b ∈ s.window, (symGet s.codes b).len ≠ 0#8) ∧
     s.params.outBufSize < ceil8 (payloadOf s.codes s.window).length) :=
  ⟨⟨by decide, by decide⟩, rfl, by decide +kernel, by decide +kernel, by decide +kernel, by decide +kernel,
    ⟨by decide, by decide⟩, rfl, by decide +kernel, by decide +kernel⟩

/-- The leaves whose edge bits the payload 2C is. -/
def aabcLeaves : List (Symbol × List Bool) :=
  [(0x41#8, [false]), (0x41#8, [false]), (0x42#8, [true, false]), (0x43#8, [true, true])]

theorem witness_UnpackWritesTheSymbols :
    (let s := withWindow 5 [0x2C#8] { treeState with origLen := 4#32 }
     s.windowFits ∧ s.treeValid = true ∧ aabcTree.heldAt s.nodes s.root ∧ (∀ x ∈ aabcLeaves, x ∈ aabcTree.paths) ∧
     aabcLeaves ≠ [] ∧ s.origLen.toNat = aabcLeaves.length ∧ aabcLeaves.length ≤ s.params.outBufSize ∧
     s.bitsAt (8 * s.inOff.toNat) (aabcLeaves.flatMap Prod.snd)) :=
  ⟨⟨by decide, by decide⟩, rfl, aabc_heldAt, by decide, by decide, rfl, by decide, ⟨by decide, by decide +kernel⟩⟩

theorem witness_UnpackEmptyAndOverflow :
    State.reset.windowFits ∧ State.reset.origLen = 0#32 ∧ { treeState with origLen := 65537#32 }.origLen ≠ 0#32 ∧
    treeState.treeValid = true ∧ treeState.params.outBufSize < { treeState with origLen := 65537#32 }.origLen.toNat :=
  ⟨⟨by decide, by decide⟩, rfl, by decide, rfl, by decide⟩

/-- The payload 2D ends inside the code of C: seven bits of leaves and one bit more. -/
theorem witness_UnpackRunsOutOfBits :
    (let s := withWindow 5 [0x2D#8] { treeState with origLen := 6#32 }
     let xs := aabcLeaves ++ [(0x41#8, [false])]
     s.windowFits ∧ s.treeValid = true ∧ aabcTree.heldAt s.nodes s.root ∧ (∀ x ∈ xs, x ∈ aabcTree.paths) ∧
     (0x43#8, [true, true]) ∈ aabcTree.paths ∧ [true] <+: [true, true] ∧ [true] ≠ [true, true] ∧
     xs.length < s.origLen.toNat ∧ s.origLen.toNat ≤ s.params.outBufSize ∧
     s.bitsAt (8 * s.inOff.toNat) (xs.flatMap Prod.snd ++ [true]) ∧
     8 * s.inOff.toNat + (xs.flatMap Prod.snd ++ [true]).length = 8 * s.inLen.toNat) :=
  ⟨⟨by decide, by decide⟩, rfl, aabc_heldAt, by decide, by decide, by decide, by decide, by decide, by decide,
    ⟨by decide, by decide +kernel⟩, by decide⟩

theorem witness_UnpackInvertsPack :
    ∃ t, (let s := withWindow 2 aabc codesState
     let u := withWindow 5 [0x2C#8] { treeState with origLen := 4#32 }
     s.windowFits ∧ s.codesValid = true ∧ s.holdsTree aabcTree ∧ aabcTree.codeTable s.codes ∧
     exec .pack s = .next t ∧ t.err = false ∧ s.window ≠ [] ∧ u.nodes = s.nodes ∧ u.root = s.root ∧
     u.treeValid = true ∧ u.windowFits ∧ u.inOff.toNat = 5 ∧
     u.inLen.toNat = 5 + ceil8 (payloadOf s.codes s.window).length ∧ u.origLen.toNat = s.window.length ∧
     s.window.length ≤ u.params.outBufSize ∧
     ∀ j, j < ceil8 (payloadOf s.codes s.window).length → u.inByte (5 + j) = t.outByte j) := by
  obtain ⟨t, h, ht⟩ := after_next (i := .pack) (s := withWindow 2 aabc codesState)
    (check := fun t => !t.err && (withWindow 5 [0x2C#8] treeState).inByte 5 == t.outByte 0)
    (by decide +kernel)
  simp only [Bool.and_eq_true, Bool.not_eq_true', beq_iff_eq] at ht
  have hn : ceil8 (payloadOf codesState.codes (withWindow 2 aabc codesState).window).length = 1 := by decide +kernel
  refine ⟨t, ⟨by decide, by decide⟩, rfl, aabc_holdsTree, aabc_codeTable, h, ht.1, by decide +kernel, rfl, rfl, rfl,
    ⟨by decide, by decide⟩, rfl, by decide +kernel, by decide +kernel, by decide +kernel, ?_⟩
  intro j hj
  have h0 : j = 0 := Nat.lt_one_iff.1 (hn ▸ hj)
  subst h0
  exact ht.2

theorem witness_SertreeWritesTheDescriptor :
    treeState.treeValid = true ∧ treeState.holdsTree aabcTree ∧ State.reset.treeValid = false :=
  ⟨rfl, aabc_holdsTree, rfl⟩

theorem witness_ParsetreeReadsTheDescriptor :
    (let s := withWindow 1 [0x50#8, 0x54#8, 0x2A#8, 0x18#8] State.reset
     s.windowFits ∧ aabcTree.isNode = true ∧ aabcTree.symbols.Nodup ∧ s.bitsAt (8 * s.inOff.toNat) aabcTree.desc) :=
  ⟨⟨by decide, by decide⟩, rfl, by decide, ⟨by decide, by decide +kernel⟩⟩

theorem witness_AcceptedDescriptorIsATree :
    (∃ t, exec .parsetree (withWindow 1 [0x50#8, 0x54#8, 0x2A#8, 0x18#8] State.reset) = .next t ∧ t.err = false) ∧
    ∃ t, exec .decompress (withWindow 3 aabcContainer State.reset) = .next t ∧ t.origLen ≠ 0#32 ∧ t.err = false := by
  obtain ⟨t, h, ht⟩ := after_next (i := .parsetree)
    (s := withWindow 1 [0x50#8, 0x54#8, 0x2A#8, 0x18#8] State.reset) (check := fun t => !t.err) (by decide +kernel)
  obtain ⟨u, k, hu⟩ := after_next (i := .decompress) (s := withWindow 3 aabcContainer State.reset)
    (check := fun t => t.origLen != 0#32 && !t.err) (by decide +kernel)
  exact ⟨⟨t, h, by simpa using ht⟩, u, k, by simpa using hu⟩

/-- `State.bitsAt`'s bits, bit by bit. -/
def bitsB (s : State) : Nat → List Bool → Bool
  | _, [] => true
  | p, b :: bs => s.inBit p == b && bitsB s (p + 1) bs

theorem bitsAt_of_bitsB (s : State) (p : Nat) (bs : List Bool) (hl : p + bs.length ≤ 8 * s.inLen.toNat)
    (hb : bitsB s p bs = true) : s.bitsAt p bs := by
  refine ⟨hl, fun q h => ?_⟩
  induction bs generalizing p q with
  | nil => simp at h
  | cons b bs ih =>
    simp only [bitsB, Bool.and_eq_true, beq_iff_eq] at hb
    cases q with
    | zero => exact hb.1
    | succ q =>
      have h1 := ih (p + 1) (by simp only [List.length_cons] at hl; omega) hb.2 q (by simpa using h)
      rw [show p + (q + 1) = p + 1 + q by omega]
      simpa using h1

/-- The window of a descriptor's bytes for PARSETREE, and the same behind a header of one symbol for DECOMPRESS. -/
def parseWindow (bs : List Byte) : State := withWindow 1 bs State.reset
def decompressWindow (bs : List Byte) : State :=
  withWindow 1 ([0x48#8, 0x55#8, 0x46#8, 0x46#8, 0x00#8, 0x00#8, 0x00#8, 0x01#8] ++ bs) State.reset

/-- What DescriptorChecks asks of a window and a command, but for its last clauses' own bits. -/
def checksMet (s base : State) (i : Instr) (p0 : Nat) (items : List (Option Symbol)) : Prop :=
  s.windowFits ∧ s.parsesAt i base p0 ∧ descPrefix items ∧ s.bitsAt p0 (items.flatMap itemBits)

theorem parse_checksMet (bs : List Byte) (items : List (Option Symbol)) (hf : (parseWindow bs).windowOk = true)
    (hd : descPrefix items) (hl : 8 + (items.flatMap itemBits).length ≤ 8 * (parseWindow bs).inLen.toNat)
    (hb : bitsB (parseWindow bs) 8 (items.flatMap itemBits) = true) :
    checksMet (parseWindow bs) (parseWindow bs) .parsetree 8 items := by
  simp only [State.windowOk, Bool.and_eq_true, decide_eq_true_eq] at hf
  exact ⟨hf, .inl ⟨rfl, rfl, rfl⟩, hd, bitsAt_of_bitsB _ _ _ hl hb⟩

theorem decompress_checksMet (bs : List Byte) (items : List (Option Symbol))
    (hf : (decompressWindow bs).windowOk = true) (hw : 8 ≤ (decompressWindow bs).windowLen)
    (hh : (List.range 8).map (fun j => (decompressWindow bs).inByte (1 + j)) =
      [0x48#8, 0x55#8, 0x46#8, 0x46#8] ++ be32 1#32)
    (hd : descPrefix items) (hl : 72 + (items.flatMap itemBits).length ≤ 8 * (decompressWindow bs).inLen.toNat)
    (hb : bitsB (decompressWindow bs) 72 (items.flatMap itemBits) = true) :
    checksMet (decompressWindow bs) { decompressWindow bs with origLen := 1#32, outLen := 0#25 } .decompress 72 items := by
  simp only [State.windowOk, Bool.and_eq_true, decide_eq_true_eq] at hf
  refine ⟨hf, .inr ⟨rfl, rfl, hw, 1#32, by decide, by show 1 ≤ 65536; decide, ?_, rfl⟩, hd, bitsAt_of_bitsB _ _ _ hl hb⟩
  intro j hj
  have h8 : j < 8 := hj
  have h1 := congrArg (fun l => l[j]?) hh
  simp only [List.getElem?_map, List.getElem?_range h8, Option.map_some] at h1
  rw [List.getElem?_eq_getElem hj] at h1
  exact Option.some.inj h1

/-- Windows that end before a tag, at the start, at the next byte, and inside a leaf's symbol; a first tag of 1; a repeated
symbol; 511 tags of 0: for PARSETREE, then behind a header for DECOMPRESS. -/
theorem witness_DescriptorChecks :
    (checksMet (parseWindow []) (parseWindow []) .parsetree 8 [] ∧
      8 + 0 = 8 * (parseWindow []).inLen.toNat) ∧
    (checksMet (parseWindow [0x50#8]) (parseWindow [0x50#8]) .parsetree 8 [none] ∧
      (parseWindow [0x50#8]).bitsAt 9 [true, false, true, false, false, false, false] ∧
      9 + 7 = 8 * (parseWindow [0x50#8]).inLen.toNat) ∧
    (checksMet (parseWindow [0x80#8]) (parseWindow [0x80#8]) .parsetree 8 [] ∧
      (parseWindow [0x80#8]).bitsAt 8 [true]) ∧
    (checksMet (parseWindow [0x50#8, 0x68#8, 0x20#8]) (parseWindow [0x50#8, 0x68#8, 0x20#8]) .parsetree 8
        [none, some 0x41#8] ∧
      (parseWindow [0x50#8, 0x68#8, 0x20#8]).bitsAt 18 (itemBits (some 0x41#8))) ∧
    checksMet (parseWindow (List.replicate 64 0x00#8)) (parseWindow (List.replicate 64 0x00#8)) .parsetree 8
      (List.replicate 511 none) ∧
    (checksMet (decompressWindow []) { decompressWindow [] with origLen := 1#32, outLen := 0#25 } .decompress 72 [] ∧
      72 + 0 = 8 * (decompressWindow []).inLen.toNat) ∧
    (checksMet (decompressWindow [0x50#8]) { decompressWindow [0x50#8] with origLen := 1#32, outLen := 0#25 }
        .decompress 72 [none] ∧
      (decompressWindow [0x50#8]).bitsAt 73 [true, false, true, false, false, false, false] ∧
      73 + 7 = 8 * (decompressWindow [0x50#8]).inLen.toNat) ∧
    (checksMet (decompressWindow [0x80#8]) { decompressWindow [0x80#8] with origLen := 1#32, outLen := 0#25 }
        .decompress 72 [] ∧
      (decompressWindow [0x80#8]).bitsAt 72 [true]) ∧
    (checksMet (decompressWindow [0x50#8, 0x68#8, 0x20#8])
        { decompressWindow [0x50#8, 0x68#8, 0x20#8] with origLen := 1#32, outLen := 0#25 } .decompress 72
        [none, some 0x41#8] ∧
      (decompressWindow [0x50#8, 0x68#8, 0x20#8]).bitsAt 82 (itemBits (some 0x41#8))) ∧
    checksMet (decompressWindow (List.replicate 64 0x00#8))
      { decompressWindow (List.replicate 64 0x00#8) with origLen := 1#32, outLen := 0#25 } .decompress 72
      (List.replicate 511 none) := by
  refine ⟨⟨?_, by decide⟩, ⟨?_, ?_, by decide⟩, ⟨?_, ?_⟩, ⟨?_, ?_⟩, ?_, ⟨?_, by decide⟩, ⟨?_, ?_, by decide⟩, ⟨?_, ?_⟩,
    ⟨?_, ?_⟩, ?_⟩
  case refine_1 | refine_2 | refine_4 | refine_6 | refine_8 =>
    exact parse_checksMet _ _ (by decide +kernel) ⟨by decide +kernel, by decide +kernel, by decide +kernel⟩
      (by decide +kernel) (by decide +kernel)
  case refine_9 | refine_10 | refine_12 | refine_14 | refine_16 =>
    exact decompress_checksMet _ _ (by decide +kernel) (by decide +kernel) (by decide +kernel)
      ⟨by decide +kernel, by decide +kernel, by decide +kernel⟩ (by decide +kernel) (by decide +kernel)
  all_goals exact bitsAt_of_bitsB _ _ _ (by decide +kernel) (by decide +kernel)

theorem witness_CompressOfEmptyWindow : State.reset.windowFits ∧ State.reset.inOff = State.reset.inLen :=
  ⟨⟨by decide, by decide⟩, rfl⟩

/-- A container that fits OUT_BUF, and a state whose OUT_BUF is too small for it, where COMPRESS reports OUT_OVERFLOW. -/
theorem witness_CompressWritesTheContainer :
    (withWindow 2 aabc State.reset).windowFits ∧ (withWindow 2 aabc State.reset).window ≠ [] ∧
    (containerOf aabcTree aabcCodes (withWindow 2 aabc State.reset).window).length ≤ State.reset.params.outBufSize ∧
    (let s := withWindow 2 aabc { State.reset with params := { inBufSize := 65536, outBufSize := 8 } }
     s.windowFits ∧ s.window ≠ [] ∧ ∃ t, exec .compress s = .next t ∧ t.error = 0x00000103#32) := by
  refine ⟨⟨by decide, by decide⟩, by decide +kernel, by decide +kernel, ⟨by decide, by decide⟩, by decide +kernel, ?_⟩
  obtain ⟨t, h, ht⟩ := after_next (i := .compress)
    (s := withWindow 2 aabc { State.reset with params := { inBufSize := 65536, outBufSize := 8 } })
    (check := fun t => t.error == 0x00000103#32) (by decide +kernel)
  exact ⟨t, h, by simpa using ht⟩

/-- Windows of 3, 4 and 7 bytes, a wrong fourth byte, the length 0, and a length one above OUT_BUF_SIZE. -/
theorem witness_DecompressHeader :
    (let s := withWindow 1 [0x48#8, 0x55#8, 0x46#8] State.reset
     s.windowFits ∧ s.windowLen < 4) ∧
    (let s := withWindow 1 [0x48#8, 0x55#8, 0x46#8, 0x58#8] State.reset
     s.windowFits ∧ 4 ≤ s.windowLen ∧ ¬ s.inBytesAt s.inOff.toNat [0x48#8, 0x55#8, 0x46#8, 0x46#8]) ∧
    (let s := withWindow 1 [0x48#8, 0x55#8, 0x46#8, 0x46#8, 0x00#8, 0x00#8, 0x00#8] State.reset
     s.windowFits ∧ 4 ≤ s.windowLen ∧ s.windowLen < 8 ∧
     s.inBytesAt s.inOff.toNat [0x48#8, 0x55#8, 0x46#8, 0x46#8]) ∧
    (let s := withWindow 1 ([0x48#8, 0x55#8, 0x46#8, 0x46#8] ++ be32 0#32) State.reset
     s.windowFits ∧ 8 ≤ s.windowLen ∧
     s.inBytesAt s.inOff.toNat ([0x48#8, 0x55#8, 0x46#8, 0x46#8] ++ be32 0#32)) ∧
    (let s := withWindow 1 ([0x48#8, 0x55#8, 0x46#8, 0x46#8] ++ be32 65537#32) State.reset
     s.windowFits ∧ 8 ≤ s.windowLen ∧
     s.inBytesAt s.inOff.toNat ([0x48#8, 0x55#8, 0x46#8, 0x46#8] ++ be32 65537#32) ∧
     s.params.outBufSize < (65537#32).toNat ∧ 65537#32 ≠ 0#32) := by
  refine ⟨⟨⟨by decide, by decide⟩, by decide⟩, ⟨⟨by decide, by decide⟩, by decide, ?_⟩,
    ⟨⟨by decide, by decide⟩, by decide, by decide, by unfold State.inBytesAt; decide +kernel⟩,
    ⟨⟨by decide, by decide⟩, by decide, by unfold State.inBytesAt; decide +kernel⟩,
    ⟨⟨by decide, by decide⟩, by decide, by unfold State.inBytesAt; decide +kernel, by decide, by decide⟩⟩
  intro h
  exact absurd (h 3 (by decide)) (by decide +kernel)

/-- The container of AABC, and the container of its bytes with the length 6 and the payload 2D, which ends inside the code
of C: seven bits of leaves and one bit more. -/
theorem witness_DecompressReadsTheContainer :
    (let s := withWindow 3 aabcContainer State.reset
     s.windowFits ∧ aabcTree.isNode = true ∧ aabcTree.symbols.Nodup ∧ (∀ x ∈ aabcLeaves, x ∈ aabcTree.paths) ∧
     4#32 ≠ 0#32 ∧ (4#32).toNat ≤ s.params.outBufSize ∧
     s.inBytesAt s.inOff.toNat ([0x48#8, 0x55#8, 0x46#8, 0x46#8] ++ be32 4#32) ∧
     s.bitsAt (8 * (s.inOff.toNat + 8)) aabcTree.desc ∧ aabcLeaves.length = (4#32).toNat ∧
     s.bitsAt (8 * (s.inOff.toNat + 8 + ceil8 aabcTree.desc.length)) (aabcLeaves.flatMap Prod.snd)) ∧
    (let s := withWindow 3 ([0x48#8, 0x55#8, 0x46#8, 0x46#8, 0x00#8, 0x00#8, 0x00#8, 0x06#8,
       0x50#8, 0x54#8, 0x2A#8, 0x18#8, 0x2D#8]) State.reset
     let xs := aabcLeaves ++ [(0x41#8, [false])]
     let o := s.inOff.toNat + 8 + ceil8 aabcTree.desc.length
     s.windowFits ∧ (∀ x ∈ xs, x ∈ aabcTree.paths) ∧ (6#32).toNat ≤ s.params.outBufSize ∧
     s.inBytesAt s.inOff.toNat ([0x48#8, 0x55#8, 0x46#8, 0x46#8] ++ be32 6#32) ∧
     s.bitsAt (8 * (s.inOff.toNat + 8)) aabcTree.desc ∧ xs.length < (6#32).toNat ∧
     (0x43#8, [true, true]) ∈ aabcTree.paths ∧ [true] <+: [true, true] ∧ [true] ≠ [true, true] ∧
     s.bitsAt (8 * o) (xs.flatMap Prod.snd ++ [true]) ∧
     8 * o + (xs.flatMap Prod.snd ++ [true]).length = 8 * s.inLen.toNat) :=
  ⟨⟨⟨by decide, by decide⟩, rfl, by decide, by decide, by decide, by decide, by unfold State.inBytesAt; decide +kernel,
      ⟨by decide, by decide +kernel⟩, rfl, ⟨by decide, by decide +kernel⟩⟩,
    ⟨by decide, by decide⟩, by decide, by decide, by unfold State.inBytesAt; decide +kernel,
    ⟨by decide, by decide +kernel⟩, by decide, by decide, by decide, by decide, ⟨by decide, by decide +kernel⟩, by decide⟩

theorem witness_DecompressInvertsCompress :
    ∃ t, (let s := withWindow 0 aabc State.reset
     let u := withWindow 3 aabcContainer State.reset
     s.windowFits ∧ exec .compress s = .next t ∧ t.err = false ∧ s.params.wf = true ∧ u.windowFits ∧
     s.window.length ≤ u.params.outBufSize ∧ u.inLen.toNat = u.inOff.toNat + t.outLen.toNat ∧
     ∀ j, j < t.outLen.toNat → u.inByte (u.inOff.toNat + j) = t.outByte j) := by
  obtain ⟨t, h, ht⟩ := after_next (i := .compress) (s := withWindow 0 aabc State.reset)
    (check := fun t => !t.err && t.outLen == 13#25 &&
      (List.range 13).all fun j => (withWindow 3 aabcContainer State.reset).inByte (3 + j) == t.outByte j) (by decide +kernel)
  simp only [Bool.and_eq_true, Bool.not_eq_true', beq_iff_eq, List.all_eq_true, List.mem_range] at ht
  refine ⟨t, ⟨by decide, by decide⟩, h, ht.1.1, by decide, ⟨by decide, by decide⟩, by decide +kernel, ?_, ?_⟩
  · rw [ht.1.2]
    decide
  · rw [ht.1.2]
    exact ht.2

/-- The container cut to its first k bytes, at both ends of each range: 0 and 3, 4 and 7, 8 and 11, and 12. -/
theorem witness_TruncationIsDetected :
    ∃ t, (let s := withWindow 0 aabc State.reset
     s.windowFits ∧ exec .compress s = .next t ∧ t.err = false ∧ s.params.wf = true ∧ s.window ≠ [] ∧
     8 + ceil8 t.descBits.toNat = 12 ∧
     ∀ k ∈ [0, 3, 4, 7, 8, 11, 12],
       (let u := withWindow 3 (aabcContainer.take k) State.reset
        u.windowFits ∧ s.window.length ≤ u.params.outBufSize ∧ u.inLen.toNat - u.inOff.toNat = k ∧
        u.inLen.toNat < u.inOff.toNat + t.outLen.toNat ∧
        ∀ j, u.inOff.toNat + j < u.inLen.toNat → u.inByte (u.inOff.toNat + j) = t.outByte j)) := by
  obtain ⟨t, h, ht⟩ := after_next (i := .compress) (s := withWindow 0 aabc State.reset)
    (check := fun t => !t.err && t.outLen == 13#25 && t.descBits == 29#12 && outIs t aabcContainer) (by decide +kernel)
  simp only [Bool.and_eq_true, Bool.not_eq_true', beq_iff_eq] at ht
  have hw : (withWindow 0 aabc State.reset).window.length ≤ 65536 := by decide +kernel
  refine ⟨t, ⟨by decide, by decide⟩, h, ht.1.1.1, by decide, by decide +kernel, by rw [ht.1.2]; decide, ?_⟩
  have hk : ∀ k ∈ [0, 3, 4, 7, 8, 11, 12],
      (let u := withWindow 3 (aabcContainer.take k) State.reset
       u.windowOk = true ∧ u.inOff.toNat = 3 ∧ u.inLen.toNat = 3 + k ∧ u.params.outBufSize = 65536 ∧ k < 13 ∧
       ∀ j < k, u.inByte (3 + j) = aabcContainer.getD j 0#8) := by decide +kernel
  have hout : ∀ j < 13, aabcContainer.getD j 0#8 = t.outByte j := by
    intro j hj
    have h1 : (List.range 13).map t.outByte = aabcContainer := beq_iff_eq.1 ht.2
    rw [← h1]
    simp [List.getD, hj]
  intro k hmem
  obtain ⟨hf, ho, hl, hp, hk13, hb⟩ := hk k hmem
  simp only [State.windowOk, Bool.and_eq_true, decide_eq_true_eq] at hf
  refine ⟨hf, by rw [hp]; exact hw, by omega, ?_, fun j hj => ?_⟩
  · rw [ht.1.1.2, ho, hl]
    simp only [BitVec.reduceToNat]
    omega
  · rw [ho] at hj ⊢
    rw [hl] at hj
    rw [hb j (by omega), hout j (by omega)]

/-- A busy state with a true tree, whose next step is SERTREE's completion, meets every invariant's premises. -/
def sertreeState : State := treeState.placeCommand 0x00000040#32

theorem sertreeState_steps : ∃ t, step sertreeState = .next t := by
  obtain ⟨t, h, _⟩ := after_next (i := .sertree) (s := sertreeState.takeInput) (check := fun _ => true)
    (by decide +kernel)
  exact ⟨t, h⟩

theorem sertreeState_flagsTrue : sertreeState.flagsTrue :=
  ⟨fun _ => ⟨aabcTree, aabc_holdsTree⟩, fun h => absurd h (by decide)⟩

theorem witness_StepKeepsBuffersCanonical : sertreeState.buffersCanonical ∧ ∃ t, step sertreeState = .next t :=
  ⟨⟨rfl, rfl⟩, sertreeState_steps⟩

theorem witness_StepKeepsLifecycle : sertreeState.lifecycleOk ∧ ∃ t, step sertreeState = .next t := by
  refine ⟨⟨by decide +kernel, ?_, by decide +kernel, by decide +kernel⟩, sertreeState_steps⟩
  intro w h
  have hw : w = 0x00000040#32 := by
    have h1 : Seq.exec 0x00000040#32 = Seq.exec w := h
    simpa [eq_comm] using h1
  subst hw
  decide +kernel

theorem witness_StepKeepsTreeRegisters : sertreeState.treeRegsOk ∧ ∃ t, step sertreeState = .next t :=
  ⟨⟨by decide +kernel, fun h => absurd h (by decide +kernel)⟩, sertreeState_steps⟩

theorem witness_StepKeepsFlagsTrue : sertreeState.flagsTrue ∧ ∃ t, step sertreeState = .next t :=
  ⟨sertreeState_flagsTrue, sertreeState_steps⟩

theorem witness_StepKeepsOutputBounds :
    sertreeState.params.wf = true ∧ sertreeState.flagsTrue ∧ sertreeState.payloadBits.toNat < 2 ^ 48 ∧
    sertreeState.outLen.toNat ≤ sertreeState.params.outBufSize ∧ ∃ t, step sertreeState = .next t :=
  ⟨by decide, sertreeState_flagsTrue, by decide, by decide, sertreeState_steps⟩

theorem witness_ResetMeetsTheInvariants :
    Params.wf { inBufSize := 1024, outBufSize := 16777216 } = true ∧
    Params.wf { inBufSize := 16777216, outBufSize := 1024 } = true := by decide

theorem witness_NoStepFaults : sertreeState.flagsTrue := sertreeState_flagsTrue

/-- A state with a true tree, and another arena that differs from its own at index 5 = NODE_COUNT alone. -/
theorem witness_UnspecifiedStateIsNeverRead :
    Instr.format .build = .command ∧ treeState.flagsTrue ∧
    setNode aabcNodes 5 (leafNode false 0x44#8 7#40) ≠ treeState.nodes ∧
    ∀ x : NodeIx, x.toNat < treeState.nodeCount.toNat →
      nodeAt (setNode aabcNodes 5 (leafNode false 0x44#8 7#40)) x = nodeAt treeState.nodes x := by
  refine ⟨rfl, ⟨fun _ => ⟨aabcTree, aabc_holdsTree⟩, fun h => absurd h (by decide)⟩, fun h => ?_, fun x hx => ?_⟩
  · exact absurd (congrArg (fun a => nodeAt a 5#9) h) (by decide +kernel)
  · have h5 : x.toNat < 5 := hx
    have hn : x.toNat ≠ 5 := by omega
    simp [nodeAt, setNode, treeState, Ne.symm hn]

/-- A step that loads IN_BUF, and one that starts a command. -/
theorem witness_OnlyTheHostLoadsAndStarts :
    (let s := State.reset.placeRequest (descriptor 1#1 0b1111#4 0x01000000#32) 0x43424141#32
     ∃ t, step s = .next t ∧ t.inBuf ≠ s.inBuf) ∧
    (let s := State.reset.placeRequest (descriptor 1#1 0b1111#4 0x00000010#32) 0x00000050#32
     ∃ t, step s = .next t ∧ s.busy = false ∧ t.busy = true) :=
  ⟨⟨_, rfl, by decide +kernel⟩, ⟨_, rfl, rfl, by decide +kernel⟩⟩

end Sys2Proof.Tests
end

section
/-! SUPPORT. Who moves next and what a step runs (00_scope.md rule R18): the equations of `coreMove`, `nextMove`,
`nextInstr`, `takeInput` and `step`, and the statement about the step that they settle. -/

namespace Sys2Proof.Machine

/-! ## The next move -/

theorem State.coreMove_of_idle {s : State} (h : s.seq = .idle) : s.coreMove = .rest := by
  rw [State.coreMove, h]

theorem State.coreMove_of_exec {s : State} {w : Word} (h : s.seq = .exec w) : s.coreMove = .command w := by
  rw [State.coreMove, h]

/-- It is the Core's turn when nothing is pending or the first entry says so (log entry 2). -/
theorem State.nextMove_of_coreTurn {s : State} (h : s.inputs = [] ∨ ∃ rest, s.inputs = .coreTurn :: rest) :
    s.nextMove = s.coreMove := by
  rcases h with h | ⟨rest, h⟩ <;> rw [State.nextMove, h]

theorem State.nextMove_of_request {s : State} {desc : BitVec 37} {wdata : Word} {rest : List Input}
    (h : s.inputs = .request desc wdata :: rest) : s.nextMove = .request desc wdata := by
  rw [State.nextMove, h]

theorem State.nextMove_of_resetPulse {s : State} {rest : List Input} (h : s.inputs = .resetPulse :: rest) :
    s.nextMove = .reset := by
  rw [State.nextMove, h]

theorem State.nextInstr_eq_some_iff {s : State} {i : Instr} :
    s.nextInstr = some i ↔
      (∃ w, s.nextMove = .command w ∧ decodeCommand w = i) ∨
      ∃ desc wdata, s.nextMove = .request desc wdata ∧ decodeRequest desc wdata = i := by
  unfold State.nextInstr
  cases s.nextMove <;> simp

/-! ## The pending input -/

theorem State.takeInput_of_cons {s : State} {x : Input} {rest : List Input} (h : s.inputs = x :: rest) :
    s.takeInput = { s with inputs := rest } := by
  rw [State.takeInput, h, List.tail_cons]

theorem State.takeInput_of_nil {s : State} (h : s.inputs = []) : s.takeInput = s := by
  rw [State.takeInput, h, List.tail_nil, ← h]

/-! ## The step, by the next move -/

theorem step_of_rest {s : State} (h : s.nextMove = .rest) : step s = .next s.takeInput := by
  rw [step, h]

theorem step_of_command {s : State} {w : Word} (h : s.nextMove = .command w) :
    step s = exec (decodeCommand w) s.takeInput := by
  rw [step, h]

theorem step_of_request {s : State} {desc : BitVec 37} {wdata : Word} (h : s.nextMove = .request desc wdata) :
    step s = exec (decodeRequest desc wdata) s.takeInput := by
  rw [step, h]

theorem step_of_reset {s : State} (h : s.nextMove = .reset) : step s = .next s.takeInput.resetStep := by
  rw [step, h]

theorem step_of_nextInstr {s : State} {i : Instr} (h : s.nextInstr = some i) : step s = exec i s.takeInput := by
  rcases State.nextInstr_eq_some_iff.1 h with ⟨w, hmove, rfl⟩ | ⟨desc, wdata, hmove, rfl⟩
  · exact step_of_command hmove
  · exact step_of_request hmove

/-! ## The obligation -/

/-- Settles O4, from the move each case takes: the Core's command, the Host's transaction, either of the two as
`nextInstr` names it, and the idle rest, whose `takeInput` has nothing to take. -/
theorem stepRunsTheNextInstruction : Obligations.StepRunsTheNextInstruction := by
  refine ⟨fun s w hseq hturn => ?coreTurn, fun s desc wdata rest hin => ?request, fun s i hi => ?named,
    fun s hseq hin => ?idle⟩
  case coreTurn =>
    exact step_of_command ((State.nextMove_of_coreTurn hturn).trans (State.coreMove_of_exec hseq))
  case request =>
    rw [step_of_request (State.nextMove_of_request hin), State.takeInput_of_cons hin]
  case named => exact step_of_nextInstr hi
  case idle =>
    have hrest : s.nextMove = .rest :=
      (State.nextMove_of_coreTurn (.inl hin)).trans (State.coreMove_of_idle hseq)
    rw [step_of_rest hrest, State.takeInput_of_nil hin]

end Sys2Proof.Machine
end

section
/-! SUPPORT. What the registers read as (10_state.md rules R22 to R43): the fields of the words the model concatenates, the
two windows, and the statements about registers that they settle. -/

namespace Sys2Proof.Machine

/-! ## Fields of a concatenation

The widths are variables here, so that a field of a 32-bit word is found by unification with the word's own parts. -/

section Fields
variable {u v w : Nat} (x : BitVec v) (y : BitVec w)

theorem getLsbD_append_high (i : Nat) : (x ++ y).getLsbD (w + i) = x.getLsbD i := by
  simp [BitVec.getLsbD_append]

theorem getLsbD_append_ofBool (b : Bool) : (x ++ BitVec.ofBool b).getLsbD 0 = b := by
  rw [BitVec.getLsbD_append, if_pos Nat.one_pos, BitVec.getLsbD_ofBool, decide_eq_true rfl, Bool.true_and]

theorem getLsbD_append_low {i : Nat} (h : i < w) : (x ++ y).getLsbD i = y.getLsbD i := by
  rw [BitVec.getLsbD_append, if_pos h]

theorem extractLsb'_append_high (i n : Nat) : (x ++ y).extractLsb' (w + i) n = x.extractLsb' i n := by
  rw [BitVec.extractLsb'_append_eq_of_le (Nat.le_add_right w i), Nat.add_sub_cancel_left]

theorem extractLsb'_append_low : (x ++ y).extractLsb' 0 w = y := by
  rw [BitVec.extractLsb'_append_eq_of_add_le (by omega), BitVec.extractLsb'_eq_self]

theorem extractLsb'_append_top : (x ++ y).extractLsb' w v = x :=
  (extractLsb'_append_high x y 0 v).trans BitVec.extractLsb'_eq_self

theorem extractLsb'_append_middle (z : BitVec u) : (x ++ y ++ z).extractLsb' u w = y :=
  (extractLsb'_append_high _ z 0 w).trans (extractLsb'_append_low x y)

theorem extractLsb'_append_second (z : BitVec u) : (x ++ y ++ z).extractLsb' (u + w) v = x :=
  (extractLsb'_append_high _ z w v).trans (extractLsb'_append_top x y)

/-- The four flags below the rest of a word, each at its bit. -/
theorem getLsbD_append_flags (a b c d : Bool) :
    (x ++ BitVec.ofBool a ++ BitVec.ofBool b ++ BitVec.ofBool c ++ BitVec.ofBool d).getLsbD 0 = d ∧
    (x ++ BitVec.ofBool a ++ BitVec.ofBool b ++ BitVec.ofBool c ++ BitVec.ofBool d).getLsbD 1 = c ∧
    (x ++ BitVec.ofBool a ++ BitVec.ofBool b ++ BitVec.ofBool c ++ BitVec.ofBool d).getLsbD 2 = b ∧
    (x ++ BitVec.ofBool a ++ BitVec.ofBool b ++ BitVec.ofBool c ++ BitVec.ofBool d).getLsbD 3 = a :=
  ⟨getLsbD_append_ofBool _ d,
    (getLsbD_append_high _ _ 0).trans (getLsbD_append_ofBool _ c),
    (getLsbD_append_high _ _ 1).trans <| (getLsbD_append_high _ _ 0).trans (getLsbD_append_ofBool _ b),
    (getLsbD_append_high _ _ 2).trans <| (getLsbD_append_high _ _ 1).trans <|
      (getLsbD_append_high _ _ 0).trans (getLsbD_append_ofBool _ a)⟩

theorem getLsbD_append_flags_high (a b c d : Bool) (i : Nat) :
    (x ++ BitVec.ofBool a ++ BitVec.ofBool b ++ BitVec.ofBool c ++ BitVec.ofBool d).getLsbD (4 + i) = x.getLsbD i := by
  rw [show 4 + i = 1 + (1 + (1 + (1 + i))) by omega]
  simp only [getLsbD_append_high]

theorem extractLsb'_append_flags_high (a b c d : Bool) (i n : Nat) :
    (x ++ BitVec.ofBool a ++ BitVec.ofBool b ++ BitVec.ofBool c ++ BitVec.ofBool d).extractLsb' (4 + i) n =
      x.extractLsb' i n := by
  rw [show 4 + i = 1 + (1 + (1 + (1 + i))) by omega]
  simp only [extractLsb'_append_high]

end Fields

/-! ## The words of STATUS, ERROR and the node window -/

/-- R27: the flags of STATUS. -/
theorem State.status_flags (s : State) :
    s.status.getLsbD 0 = s.busy ∧ s.status.getLsbD 1 = s.done ∧ s.status.getLsbD 2 = s.err ∧
    s.status.getLsbD 3 = s.haz ∧ s.status.getLsbD 4 = s.treeValid ∧ s.status.getLsbD 5 = s.codesValid := by
  obtain ⟨hbusy, hdone, herr, hhaz⟩ :=
    getLsbD_append_flags (0#16 ++ s.lastOp ++ 0#2 ++ (BitVec.ofBool s.codesValid ++ BitVec.ofBool s.treeValid))
      s.haz s.err s.done s.busy
  have hhigh := getLsbD_append_flags_high
    (0#16 ++ s.lastOp ++ 0#2 ++ (BitVec.ofBool s.codesValid ++ BitVec.ofBool s.treeValid)) s.haz s.err s.done s.busy
  exact ⟨hbusy, hdone, herr, hhaz,
    (hhigh 0).trans <| (getLsbD_append_low _ _ (by decide)).trans (getLsbD_append_ofBool _ _),
    (hhigh 1).trans <| (getLsbD_append_low _ _ (by decide)).trans <|
      (getLsbD_append_high _ _ 0).trans (by simp)⟩

/-- R27: the reserved bits of STATUS and LAST_OP. -/
theorem State.status_fields (s : State) :
    s.status.extractLsb' 6 2 = 0#2 ∧ s.status.extractLsb' 8 8 = s.lastOp ∧ s.status.extractLsb' 16 16 = 0#16 := by
  have hhigh := extractLsb'_append_flags_high
    (0#16 ++ s.lastOp ++ 0#2 ++ (BitVec.ofBool s.codesValid ++ BitVec.ofBool s.treeValid)) s.haz s.err s.done s.busy
  exact ⟨(hhigh 2 2).trans (extractLsb'_append_middle _ _ _),
    (hhigh 4 8).trans <| (extractLsb'_append_high _ _ 2 8).trans (extractLsb'_append_middle _ _ _),
    (hhigh 12 16).trans <| (extractLsb'_append_high _ _ 10 16).trans (extractLsb'_append_second _ _ _)⟩

/-- R28: the fields of ERROR. -/
theorem State.error_fields (s : State) :
    s.error.extractLsb' 0 4 = s.errClass ∧ s.error.extractLsb' 4 4 = 0#4 ∧ s.error.extractLsb' 8 8 = s.errDetail ∧
    s.error.extractLsb' 16 16 = 0#16 :=
  ⟨extractLsb'_append_low _ _, extractLsb'_append_middle _ _ _,
    (extractLsb'_append_high _ _ 4 8).trans (extractLsb'_append_middle _ _ _),
    (extractLsb'_append_high _ _ 12 16).trans (extractLsb'_append_second _ _ _)⟩

/-- R41: the fields of NODE_INFO. -/
theorem Node.info_fields (n : Node) :
    n.info.getLsbD 0 = n.leaf ∧ n.info.getLsbD 1 = n.ph ∧ n.info.extractLsb' 2 6 = 0#6 ∧
    n.info.extractLsb' 8 8 = n.sym ∧ n.info.extractLsb' 16 16 = 0#16 :=
  ⟨getLsbD_append_ofBool _ _, (getLsbD_append_high _ _ 0).trans (getLsbD_append_ofBool _ _),
    (extractLsb'_append_high _ _ 1 6).trans (extractLsb'_append_middle _ _ _),
    (extractLsb'_append_high _ _ 7 8).trans <| (extractLsb'_append_high _ _ 6 8).trans (extractLsb'_append_middle _ _ _),
    (extractLsb'_append_high _ _ 15 16).trans <|
      (extractLsb'_append_high _ _ 14 16).trans (extractLsb'_append_second _ _ _)⟩

/-- R41: the fields of NODE_LINK. -/
theorem Node.link_fields (n : Node) :
    n.link.extractLsb' 0 9 = n.left ∧ n.link.extractLsb' 9 7 = 0#7 ∧ n.link.extractLsb' 16 9 = n.right ∧
    n.link.extractLsb' 25 7 = 0#7 :=
  ⟨extractLsb'_append_low _ _, extractLsb'_append_middle _ _ _,
    (extractLsb'_append_high _ _ 7 9).trans (extractLsb'_append_middle _ _ _),
    (extractLsb'_append_high _ _ 16 7).trans (extractLsb'_append_second _ _ _)⟩

/-- A word's two halves, put together again. -/
theorem extractLsb'_append_halves {v w : Nat} (x : BitVec (v + w)) : x.extractLsb' w v ++ x.extractLsb' 0 w = x := by
  rw [BitVec.extractLsb'_append_extractLsb'_eq_extractLsb' (Nat.zero_add w).symm, BitVec.extractLsb'_eq_self]

/-! ## The windows -/

theorem State.windowNode_of_lt {s : State} {n : Node} (h : s.nodeSel.toNat < s.nodeCount.toNat)
    (hn : nodeAt s.nodes s.nodeSel = some n) : s.windowNode = some n := by
  rw [State.windowNode, if_pos h, hn]

theorem State.windowNode_of_ge {s : State} (h : s.nodeCount.toNat ≤ s.nodeSel.toNat) : s.windowNode = none :=
  if_neg (Nat.not_lt.2 h)

theorem State.windowCode_of_valid {s : State} (h : s.codesValid = true) :
    s.windowCode = some (symGet s.codes s.codeSel) := if_pos h

theorem State.windowCode_of_invalid {s : State} (h : s.codesValid = false) : s.windowCode = none := by
  rw [State.windowCode, h]
  rfl

/-! ## The obligations -/

/-- Settles O10: the constants and the stored values are `readReg`'s own arms, the fields are those of the words. -/
theorem registerReadValues : Obligations.RegisterReadValues := by
  intro s
  obtain ⟨hbusy, hdone, herr, hhaz, htree, hcodes⟩ := s.status_flags
  obtain ⟨hreserved, hlastOp, hupper⟩ := s.status_fields
  obtain ⟨hclass, hgap, hdetail, hrest⟩ := s.error_fields
  exact ⟨rfl, rfl, rfl, rfl, rfl, hbusy, hdone, herr, hhaz, htree, hcodes, hreserved, hlastOp, hupper, hclass, hgap,
    hdetail, hrest, getLsbD_append_ofBool _ _, extractLsb'_append_top _ _, rfl, rfl, rfl, rfl, rfl, rfl, rfl, rfl, rfl,
    extractLsb'_append_halves (v := 32) (w := 32) s.payloadBits, rfl, rfl, rfl, rfl⟩

/-- Settles O11, from the entry each window shows. -/
theorem windowRegisters : Obligations.WindowRegisters := by
  intro s
  refine ⟨fun n hlt hn => ?shown, fun hge => ?hidden, fun hv => ?codes, fun hv => ?noCodes⟩
  case shown =>
    obtain ⟨hleaf, hph, hgap, hsym, hupper⟩ := n.info_fields
    obtain ⟨hleft, hlow, hright, hhigh⟩ := n.link_fields
    simp only [State.readReg, State.windowNode_of_lt hlt hn]
    refine ⟨hleaf, hph, hgap, hsym, hupper, hleft, hlow, hright, hhigh, ?_, ?_⟩
    · rw [BitVec.extractLsb'_setWidth_of_le (by decide), BitVec.extractLsb'_eq_self]
      exact extractLsb'_append_halves (v := 8) (w := 32) n.weight
    · ext i hi
      simp
  case hidden => simp [State.readReg, State.windowNode_of_ge hge]
  case codes =>
    simp only [State.readReg, State.windowCode_of_valid hv, true_and]
    intro j
    ext i hi
    have hj := j.isLt
    simp [show 32 * j.val + i < 256 by omega]
  case noCodes => simp [State.readReg, State.windowCode_of_invalid hv]

end Sys2Proof.Machine
end

section
/-! SUPPORT. What a step can do, said once for every invariant: a command runs its lines and completes, a transaction goes
over the bus, and nothing else but reset changes the state. The life cycle's bookkeeping is the first invariant. -/

namespace Sys2Proof.Machine

/-! ## The state a command's lines end in -/

/-- The state in which a command's lines end, finished or raised, meets `P`. -/
def Run.endsIn (r : Run) (P : State → Prop) : Prop :=
  match r with
  | .ok s => P s
  | .raise _ _ s => P s
  | .notATree => True

section EndsIn
variable {r : Run} {k : State → Run} {s t : State} {P Q : State → Prop}

theorem Run.endsIn_mono (h : r.endsIn P) (hPQ : ∀ s, P s → Q s) : r.endsIn Q := by
  cases r with
  | ok s => exact hPQ s h
  | raise c p s => exact hPQ s h
  | notATree => trivial

theorem Run.endsIn_of_forall (h : ∀ s, P s) : r.endsIn P := by
  cases r with
  | ok s => exact h s
  | raise c p s => exact h s
  | notATree => trivial

/-- R134: after `check_window` a command goes on in the same state, or has raised BAD_ARG in it. -/
theorem State.endsIn_checkWindow (hs : P s) (hk : s.windowFits → (k s).endsIn P) : (s.checkWindow.andThen k).endsIn P := by
  by_cases hw : s.windowFits
  · rw [State.checkWindow_of_fits s hw]
    exact hk hw
  · rw [State.checkWindow_of_not_fits s hw]
    exact hs

theorem Run.endsIn_complete (h : r.endsIn P) (ht : r.complete = .next t) : ∃ s c p, P s ∧ t = s.complete c p := by
  rcases Run.complete_eq_next ht with ⟨s, rfl, rfl⟩ | ⟨c, p, s, rfl, rfl⟩
  · exact ⟨s, none, 0, h, rfl⟩
  · exact ⟨s, some c, p, h, rfl⟩

end EndsIn

/-! ## The lines of every command -/

/-- A command's lines up to its completion step (41_control.md rule R132); a transaction has none. -/
def commandRun : Instr → State → Run
  | .nop, s => .ok s
  | .clear, s => .ok s.clearAll
  | .analyze, s => s.checkWindow.andThen fun s => .ok (s.analyze.setInPos s.inLen.toNat)
  | .build, s => s.invalidate.buildTree
  | .derive, s => if s.treeValid then s.deriveCodes else .raise .noTree 0 s
  | .pack, s => (s.setOutLen 0).checkWindow.andThen State.packWindow
  | .unpack, s => (s.setOutLen 0).checkWindow.andThen State.unpackWindow
  | .sertree, s => if s.treeValid then (s.setOutLen 0).serializeTree else .raise .noTree 0 (s.setOutLen 0)
  | .parsetree, s =>
    s.checkWindow.andThen fun s => s.parseTree (8 * s.inOff.toNat) fun s p => .ok (s.setInPos (ceil8 p))
  | .compress, s => (s.setOutLen 0).checkWindow.andThen State.compressWindow
  | .decompress, s => (s.setOutLen 0).checkWindow.andThen State.decompressWindow
  | .illegal _, s => .raise .illegalCommand 0 s
  | .hread _, s => .ok s
  | .hwrite _ _ _, s => .ok s

theorem exec_of_command {i : Instr} (h : i.format = .command) (s : State) : exec i s = (commandRun i s).complete := by
  cases i with
  | hread => exact nomatch h
  | hwrite => exact nomatch h
  | _ => rfl

theorem exec_hread (addr : Word) (s : State) : exec (.hread addr) s = .next (s.busRead addr) := rfl

theorem exec_hwrite (addr wdata : Word) (strb : BitVec 4) (s : State) :
    exec (.hwrite addr wdata strb) s = .next (s.busWrite addr wdata strb) := rfl

theorem mem_of_lookup_eq_some {α β : Type} [BEq α] [LawfulBEq α] {l : List (α × β)} {a : α} {b : β}
    (h : l.lookup a = some b) : (a, b) ∈ l := by
  obtain ⟨before, after, rfl, -⟩ := List.lookup_eq_some_iff.1 h
  simp

theorem decodeCommand_format (w : Word) : (decodeCommand w).format = .command := by
  have hmap : ∀ x ∈ opcodeMap, x.2.format = .command := by decide
  unfold decodeCommand
  split
  · next i h => exact hmap _ (mem_of_lookup_eq_some h)
  · rfl

theorem decodeRequest_cases (desc : BitVec 37) (wdata : Word) :
    (∃ addr, decodeRequest desc wdata = .hread addr) ∨
    ∃ addr strb, decodeRequest desc wdata = .hwrite addr wdata strb := by
  unfold decodeRequest
  split
  · exact .inr ⟨_, _, rfl⟩
  · exact .inl ⟨_, rfl⟩

/-! ## The step -/

/-- Everything a step can do, as a rule for invariants: from `P` before it to `Q` after it. -/
theorem step_ends {P Q : State → Prop} {s t : State} (hstep : step s = .next t) (hs : P s)
    (htake : ∀ s, P s → P s.takeInput) (hrest : ∀ s, P s → Q s)
    (hcommand : ∀ i s, P s → (commandRun i s).endsIn fun u => ∀ c p, Q (u.complete c p))
    (hread : ∀ addr s, P s → Q (s.busRead addr))
    (hwrite : ∀ addr wdata strb s, P s → Q (s.busWrite addr wdata strb))
    (hreset : ∀ s, P s → Q s.resetStep) : Q t := by
  have hin := htake s hs
  rcases s.nextMove_cases with ⟨hmove, -⟩ | ⟨w, hmove, -⟩ | ⟨desc, wdata, -, hmove, -⟩ | ⟨-, hmove, -⟩
  · rw [step_of_rest hmove, Host.Outcome.next.injEq] at hstep
    exact hstep ▸ hrest _ hin
  · rw [step_of_command hmove, exec_of_command (decodeCommand_format w)] at hstep
    obtain ⟨u, c, p, hu, rfl⟩ := Run.endsIn_complete (hcommand _ _ hin) hstep
    exact hu c p
  · rw [step_of_request hmove] at hstep
    rcases decodeRequest_cases desc wdata with ⟨addr, hi⟩ | ⟨addr, strb, hi⟩
    · rw [hi, exec_hread, Host.Outcome.next.injEq] at hstep
      exact hstep ▸ hread addr _ hin
    · rw [hi, exec_hwrite, Host.Outcome.next.injEq] at hstep
      exact hstep ▸ hwrite addr wdata strb _ hin
  · rw [step_of_reset hmove, Host.Outcome.next.injEq] at hstep
    exact hstep ▸ hreset _ hin

/-! ## The life cycle -/

theorem State.error_eq_zero {s : State} (hc : s.errClass = 0#4) (hd : s.errDetail = 0#8) : s.error = 0#32 := by
  rw [State.error, hc, hd]
  decide

/-- R250, R251: the ERROR word of a completion. -/
theorem State.error_complete (s : State) (c : Option Cause) (p : Nat) :
    (s.complete c p).error = 0#32 ∨ (s.complete c p).error ∈ errorWords := by
  cases c with
  | none => exact .inl (State.error_eq_zero rfl rfl)
  | some c =>
    right
    simp only [State.error, State.complete_errClass, State.complete_errDetail]
    cases c <;> decide

/-- Every completion leaves the bookkeeping in order, whatever it was before. -/
theorem State.lifecycleOk_complete (s : State) (c : Option Cause) (p : Nat) : (s.complete c p).lifecycleOk := by
  refine ⟨by simp, fun w hw => by simp at hw, ?_, s.error_complete c p⟩
  cases c with
  | none => simp
  | some c => simp [c.errClass_ne_zero]

/-- R131: every command start leaves the bookkeeping in order. -/
theorem State.lifecycleOk_startCommand (s : State) (w : Word) : (s.startCommand w).lifecycleOk := by
  refine ⟨by simp, fun v hv => ?_, by simp, .inl (State.error_eq_zero rfl rfl)⟩
  obtain rfl : w = v := by simpa using hv
  exact ⟨rfl, rfl, State.error_eq_zero rfl rfl, rfl, rfl⟩

theorem State.lifecycleOk_busRead {s : State} (h : s.lifecycleOk) (addr : Word) : (s.busRead addr).lifecycleOk := by
  rcases s.busRead_cases addr with ⟨-, he⟩ | ⟨d, -, he⟩ | he <;> rw [he] <;> exact h

/-- A write to STATUS can only clear DONE, which is clear already while a command runs. -/
theorem State.lifecycleOk_writeReg {s : State} (h : s.lifecycleOk) (wdata : Word) (r : Reg) :
    (s.writeReg wdata r).lifecycleOk := by
  rcases s.writeReg_cases wdata r with ⟨-, he⟩ | ⟨-, d, z, he, hd⟩ | ⟨-, he⟩ | ⟨-, he⟩ | ⟨-, he⟩ | ⟨-, he⟩ | ⟨-, he⟩ |
    ⟨-, he⟩ | he <;> rw [he]
  case inl => exact s.lifecycleOk_startCommand wdata
  case inr.inl =>
    obtain ⟨hbusy, hexec, herr, herror⟩ := h
    refine ⟨hbusy, fun w hw => ?_, herr, herror⟩
    obtain ⟨hdone, hrest⟩ := hexec w hw
    exact ⟨Bool.eq_false_iff.2 fun h => absurd (hd h) (by simp [hdone]), hrest⟩
  all_goals exact h

theorem State.lifecycleOk_busWrite {s : State} (h : s.lifecycleOk) (addr wdata : Word) (strb : BitVec 4) :
    (s.busWrite addr wdata strb).lifecycleOk := by
  rcases s.busWrite_cases addr wdata strb with he | ⟨-, -, he⟩ | ⟨-, -, he⟩ <;> rw [he]
  · exact h
  · exact h
  · cases decodeAddr s.params addr with
    | reg r => exact State.lifecycleOk_writeReg h wdata r
    | _ => exact h

theorem State.lifecycleOk_resetStep (s : State) : s.resetStep.lifecycleOk := by
  refine ⟨by simp [State.resetFor], fun w hw => ?_, by simp [State.resetFor], .inl (State.error_eq_zero rfl rfl)⟩
  exact nomatch (show Seq.idle = .exec w from hw)

/-- Settles O53: completion, command start and reset set the bookkeeping, and no other write touches it. -/
theorem stepKeepsLifecycle : Obligations.StepKeepsLifecycle := by
  intro s t hs hstep
  exact step_ends hstep hs (fun _ h => h) (fun _ h => h)
    (fun _ _ _ => Run.endsIn_of_forall State.lifecycleOk_complete)
    (fun addr _ h => State.lifecycleOk_busRead h addr)
    (fun addr wdata strb _ h => State.lifecycleOk_busWrite h addr wdata strb)
    (fun s _ => s.lifecycleOk_resetStep)

end Sys2Proof.Machine
end

section
/-! SUPPORT. Code trees: the counts of 10_state.md rule R53, their codes, and what the two walks over a held tree compute,
`derive_codes` (43_code_deriver.md rule R181) and `write_desc` (45_container.md rule R221). -/

namespace Sys2Proof.Machine

/-! ## Counts -/

theorem CodeTree.symbols_length_pos (t : CodeTree) : 0 < t.symbols.length := by
  cases t with
  | leaf => exact Nat.one_pos
  | node l r =>
    have := l.symbols_length_pos
    simp only [CodeTree.symbols, List.length_append]
    omega

/-- R53: a strict binary tree with `n` leaves has `2n − 1` nodes. -/
theorem CodeTree.size_eq (t : CodeTree) : t.size = 2 * t.symbols.length - 1 := by
  induction t with
  | leaf => rfl
  | node l r ihl ihr =>
    have hl := l.symbols_length_pos
    have hr := r.symbols_length_pos
    simp only [CodeTree.size, CodeTree.symbols, List.length_append]
    omega

/-- R38: one bit for an internal node, nine for a leaf. -/
theorem CodeTree.desc_length (t : CodeTree) : t.desc.length = 10 * t.symbols.length - 1 := by
  induction t with
  | leaf => simp [CodeTree.desc, CodeTree.symbols]
  | node l r ihl ihr =>
    have hl := l.symbols_length_pos
    have hr := r.symbols_length_pos
    simp only [CodeTree.desc, CodeTree.symbols, List.length_cons, List.length_append]
    omega

theorem CodeTree.indices_length {a : Arena} {t : CodeTree} {i : NodeIx} (h : t.heldAt a i) :
    (t.indices a i).length = t.size := by
  induction t generalizing i with
  | leaf => rfl
  | node l r ihl ihr =>
    obtain ⟨n, hn, -, hl, hr⟩ := h
    simp only [CodeTree.indices, hn, CodeTree.size, List.length_cons, List.length_append, ihl hl, ihr hr]

/-- The alphabet has 256 symbols (R8). -/
theorem length_le_of_nodup_symbols {l : List Symbol} (h : l.Nodup) : l.length ≤ 256 := by
  have hmap : (l.map BitVec.toNat).Nodup := h.map fun _ _ => BitVec.eq_of_toNat_eq
  have hsub : l.map BitVec.toNat ⊆ List.range 256 := fun n hn => by
    obtain ⟨x, -, rfl⟩ := List.mem_map.1 hn
    exact List.mem_range.2 x.isLt
  simpa using (List.subperm_of_subset hmap hsub).length_le

/-! ## Bit strings -/

theorem bitsVal_concat (bs : List Bool) (b : Bool) : bitsVal (bs ++ [b]) = 2 * bitsVal bs + b.toNat := by
  simp [bitsVal]

theorem bitsVal_lt (bs : List Bool) : bitsVal bs < 2 ^ bs.length := by
  induction bs using List.reverseRecOn with
  | nil => exact Nat.one_pos
  | append_singleton bs b ih =>
    have hb := b.toNat_le
    rw [bitsVal_concat, List.length_append, List.length_singleton, Nat.pow_succ]
    omega

/-! ## Codes -/

theorem CodeTree.mem_codes_leaf {sym : Symbol} {ph : Bool} {x : Symbol × List Bool} :
    x ∈ (CodeTree.leaf sym ph).codes ↔ ph = false ∧ x = (sym, []) := by
  cases ph <;> simp [CodeTree.codes, CodeTree.leafPaths]

theorem CodeTree.codes_node (l r : CodeTree) :
    (CodeTree.node l r).codes =
      l.codes.map (fun x => (x.1, false :: x.2)) ++ r.codes.map (fun x => (x.1, true :: x.2)) := by
  simp only [CodeTree.codes, CodeTree.leafPaths, List.filter_append, List.filter_map, List.map_append, List.map_map]
  rfl

theorem CodeTree.mem_codes_node {l r : CodeTree} {x : Symbol × List Bool} :
    x ∈ (CodeTree.node l r).codes ↔
      (∃ y ∈ l.codes, x = (y.1, false :: y.2)) ∨ ∃ y ∈ r.codes, x = (y.1, true :: y.2) := by
  simp only [CodeTree.codes_node, List.mem_append, List.mem_map, eq_comm]

theorem CodeTree.mem_symbols_of_mem_codes {t : CodeTree} {x : Symbol × List Bool} (h : x ∈ t.codes) :
    x.1 ∈ t.symbols := by
  induction t generalizing x with
  | leaf sym ph =>
    obtain ⟨-, rfl⟩ := CodeTree.mem_codes_leaf.1 h
    exact List.mem_singleton_self sym
  | node l r ihl ihr =>
    rcases CodeTree.mem_codes_node.1 h with ⟨y, hy, rfl⟩ | ⟨y, hy, rfl⟩
    · exact List.mem_append_left _ (ihl (x := y) hy)
    · exact List.mem_append_right _ (ihr (x := y) hy)

/-- No code is longer than the number of the other leaves. -/
theorem CodeTree.code_length_lt {t : CodeTree} {x : Symbol × List Bool} (h : x ∈ t.codes) :
    x.2.length < t.symbols.length := by
  induction t generalizing x with
  | leaf sym ph =>
    obtain ⟨-, rfl⟩ := CodeTree.mem_codes_leaf.1 h
    exact Nat.one_pos
  | node l r ihl ihr =>
    have hl := l.symbols_length_pos
    have hr := r.symbols_length_pos
    simp only [CodeTree.symbols, List.length_append]
    rcases CodeTree.mem_codes_node.1 h with ⟨y, hy, rfl⟩ | ⟨y, hy, rfl⟩
    · have := ihl hy
      simp only [List.length_cons]
      omega
    · have := ihr hy
      simp only [List.length_cons]
      omega

/-! ## The code table a walk over a tree writes -/

/-- What `derive_codes` (R181) makes of a code table while it walks a tree from a node whose code has this
length and value. -/
def CodeTree.writeCodes : CodeTree → (len pre : Nat) → CodeTable → CodeTable
  | .leaf sym ph, len, pre, c => if ph then c else symSet c sym { len := BitVec.ofNat 8 len, val := BitVec.ofNat 255 pre }
  | .node l r, len, pre, c => r.writeCodes (len + 1) (2 * pre + 1) (l.writeCodes (len + 1) (2 * pre) c)

/-- The code table `derive_codes` writes for a tree. -/
def CodeTree.table (t : CodeTree) : CodeTable := t.writeCodes 0 0 (Vector.replicate 256 { len := 0#8, val := 0#255 })

theorem walkCodes_of_heldAt {a : Arena} {t : CodeTree} {i : NodeIx} (h : t.heldAt a i) (fuel len pre : Nat)
    (rest : List (NodeIx × Nat × Nat)) (c : CodeTable) :
    walkCodes a (fuel + t.size) ((i, len, pre) :: rest) c = walkCodes a fuel rest (t.writeCodes len pre c) := by
  induction t generalizing i fuel len pre rest c with
  | leaf sym ph =>
    obtain ⟨n, hn, hleaf, rfl, rfl⟩ := h
    simp only [CodeTree.size, walkCodes, hn, hleaf, if_true, CodeTree.writeCodes]
  | node l r ihl ihr =>
    obtain ⟨n, hn, hleaf, hl, hr⟩ := h
    rw [show fuel + (CodeTree.node l r).size = fuel + r.size + l.size + 1 by simp only [CodeTree.size]; omega]
    simp only [walkCodes, hn, hleaf, Bool.false_eq_true, if_false]
    rw [ihl hl, ihr hr, CodeTree.writeCodes]

theorem symGet_writeCodes_of_ne {t : CodeTree} {x : Symbol} (h : ∀ y ∈ t.codes, y.1 ≠ x) (len pre : Nat)
    (c : CodeTable) : symGet (t.writeCodes len pre c) x = symGet c x := by
  induction t generalizing len pre c with
  | leaf sym ph =>
    cases ph with
    | true => rfl
    | false => exact symGet_symSet_of_ne c _ (Ne.symm (h (sym, []) (CodeTree.mem_codes_leaf.2 ⟨rfl, rfl⟩)))
  | node l r ihl ihr =>
    have hl : ∀ y ∈ l.codes, y.1 ≠ x := fun y hy => h (y.1, false :: y.2) (CodeTree.mem_codes_node.2 (.inl ⟨y, hy, rfl⟩))
    have hr : ∀ y ∈ r.codes, y.1 ≠ x := fun y hy => h (y.1, true :: y.2) (CodeTree.mem_codes_node.2 (.inr ⟨y, hy, rfl⟩))
    rw [CodeTree.writeCodes, ihr hr, ihl hl]

/-- Below a node with code `p`, a leaf's code is `p` and the edge bits down to it. -/
theorem symGet_writeCodes_of_mem {t : CodeTree} (hnd : t.symbols.Nodup) {x : Symbol × List Bool} (hx : x ∈ t.codes)
    (p : List Bool) (c : CodeTable) :
    symGet (t.writeCodes p.length (bitsVal p) c) x.1 =
      { len := BitVec.ofNat 8 (p ++ x.2).length, val := BitVec.ofNat 255 (bitsVal (p ++ x.2)) } := by
  induction t generalizing x p c with
  | leaf sym ph =>
    obtain ⟨rfl, rfl⟩ := CodeTree.mem_codes_leaf.1 hx
    simp [CodeTree.writeCodes]
  | node l r ihl ihr =>
    obtain ⟨hndl, hndr, hdisj⟩ := List.nodup_append.1 hnd
    have hleft : 2 * bitsVal p = bitsVal (p ++ [false]) := by simp [bitsVal_concat]
    have hright : 2 * bitsVal p + 1 = bitsVal (p ++ [true]) := by simp [bitsVal_concat]
    have hlen (b : Bool) : p.length + 1 = (p ++ [b]).length := by simp
    rw [CodeTree.writeCodes]
    rcases CodeTree.mem_codes_node.1 hx with ⟨y, hy, rfl⟩ | ⟨y, hy, rfl⟩
    · have hne : ∀ z ∈ r.codes, z.1 ≠ y.1 := fun z hz e =>
        hdisj _ (CodeTree.mem_symbols_of_mem_codes (x := y) hy) _ (CodeTree.mem_symbols_of_mem_codes (x := z) hz) e.symm
      rw [symGet_writeCodes_of_ne hne, hleft, hlen false, ihl hndl hy, List.append_assoc, List.singleton_append]
    · rw [hright, hlen true, ihr hndr hy, List.append_assoc, List.singleton_append]

/-- R181: the table the walk writes holds exactly the tree's codes. -/
theorem CodeTree.codeTable_table {t : CodeTree} (hnd : t.symbols.Nodup) : t.codeTable t.table := by
  refine ⟨fun x hx => ?_, fun sym hsym => ?_⟩
  · have hlen : x.2.length < 256 :=
      (CodeTree.code_length_lt hx).trans_le (length_le_of_nodup_symbols hnd)
    have hval : bitsVal x.2 < 2 ^ 255 :=
      (bitsVal_lt x.2).trans_le (Nat.pow_le_pow_right (by omega) (by omega))
    have hx := symGet_writeCodes_of_mem hnd hx [] (Vector.replicate 256 { len := 0#8, val := 0#255 })
    rw [List.nil_append] at hx
    rw [CodeTree.table, show symGet (t.writeCodes 0 0 _) x.1 = _ from hx]
    exact ⟨Nat.mod_eq_of_lt hlen, Nat.mod_eq_of_lt hval⟩
  · rw [CodeTree.table, symGet_writeCodes_of_ne hsym, symGet_replicate]

/-! ## The tree a state holds -/

theorem State.nodup_of_holdsTree {s : State} {t : CodeTree} (h : s.holdsTree t) : t.symbols.Nodup := by
  obtain ⟨-, -, -, hnd, -⟩ := h
  exact hnd

theorem State.size_le_of_holdsTree {s : State} {t : CodeTree} (h : s.holdsTree t) : t.size ≤ walkFuel := by
  have := length_le_of_nodup_symbols (State.nodup_of_holdsTree h)
  rw [t.size_eq, walkFuel]
  omega

/-- R38: DESC_BITS is the length of the tree's descriptor. -/
theorem State.desc_length_of_holdsTree {s : State} {t : CodeTree} (h : s.holdsTree t) :
    t.desc.length = s.descBits.toNat := by
  obtain ⟨-, -, -, -, hleaves, -, hdesc⟩ := h
  rw [t.desc_length, hdesc, hleaves]

/-- What `derive_codes` leaves: the tree's table and its bit-length outputs (R181, R182). -/
def State.withCodes (s : State) (c : CodeTable) : State :=
  { s with
    codes := c, maxCodeLen := BitVec.ofNat 8 (longestCode c), payloadBits := BitVec.ofNat 64 (payloadLength s.freq c),
    codesValid := true }

/-- R181: over a held tree `derive_codes` writes its table. -/
theorem State.deriveCodes_of_holdsTree {s : State} {t : CodeTree} (h : s.holdsTree t) :
    s.deriveCodes = .ok (s.withCodes t.table) := by
  have hsize := State.size_le_of_holdsTree h
  have hwalk := walkCodes_of_heldAt h.1 (walkFuel - t.size) 0 0 []
    (Vector.replicate 256 { len := 0#8, val := 0#255 })
  rw [Nat.sub_add_cancel hsize] at hwalk
  rw [State.deriveCodes, hwalk]
  cases walkFuel - t.size <;> rfl

/-! ## The descriptor -/

theorem Writer.putBits_append (w : Writer) (bs cs : List Bool) : w.putBits (bs ++ cs) = (w.putBits bs).putBits cs :=
  List.foldl_append

theorem Writer.putBits_cons (w : Writer) (b : Bool) (bs : List Bool) :
    w.putBits (b :: bs) = (w.putBit b).putBits bs := rfl

theorem writeDesc_of_heldAt {a : Arena} {t : CodeTree} {i : NodeIx} (h : t.heldAt a i) (fuel : Nat) (rest : List NodeIx)
    (w : Writer) : writeDesc a (fuel + t.size) (i :: rest) w = writeDesc a fuel rest (w.putBits t.desc) := by
  induction t generalizing i fuel rest w with
  | leaf sym ph =>
    obtain ⟨n, hn, hleaf, rfl, -⟩ := h
    simp only [CodeTree.size, CodeTree.desc, writeDesc, hn, hleaf, if_true, Writer.putBits_cons]
  | node l r ihl ihr =>
    obtain ⟨n, hn, hleaf, hl, hr⟩ := h
    rw [show fuel + (CodeTree.node l r).size = fuel + r.size + l.size + 1 by simp only [CodeTree.size]; omega]
    simp only [writeDesc, hn, hleaf, Bool.false_eq_true, if_false]
    rw [ihl hl, ihr hr, CodeTree.desc, Writer.putBits_cons, Writer.putBits_append]

/-- R221, R224: over a held tree the descriptor walk writes its descriptor and flushes. -/
theorem State.descWriter_of_holdsTree {s : State} {t : CodeTree} (h : s.holdsTree t) (buf : Memory) (op : Nat) :
    s.descWriter buf op = some ((Writer.start buf op).putBits t.desc).flush := by
  have hsize := State.size_le_of_holdsTree h
  have hwalk := writeDesc_of_heldAt h.1 (walkFuel - t.size) [] (Writer.start buf op)
  rw [Nat.sub_add_cancel hsize] at hwalk
  rw [State.descWriter, hwalk]
  cases walkFuel - t.size <;> rfl

end Sys2Proof.Machine
end

section
/-! SUPPORT. The priority queue as a bag of indices (42_tree_builder.md rule R153): inserting and extracting permute HEAP,
whatever the keys. -/

namespace Sys2Proof.Machine

/-! ## Entries of HEAP -/

theorem heapAt_eq (h : HeapArray) (c : Nat) : heapAt h c = h[c]?.getD 0#9 := by
  rw [heapAt, Vector.getD, Array.getD_eq_getD_getElem?, Vector.getElem?_toArray]

theorem heapAt_set (h : HeapArray) {c : Nat} (hc : c < 256) (x : NodeIx) (d : Nat) :
    heapAt (h.setIfInBounds c x) d = if d = c then x else heapAt h d := by
  rw [heapAt_eq, heapAt_eq, Vector.getElem?_setIfInBounds, if_pos hc]
  by_cases hd : d = c
  · rw [if_pos hd.symm, if_pos hd, Option.getD_some]
  · rw [if_neg (Ne.symm hd), if_neg hd]

theorem heapAt_heapSwap (h : HeapArray) {c p : Nat} (hc : c < 256) (hp : p < 256) (d : Nat) :
    heapAt (heapSwap h c p) d = heapAt h (Equiv.swap p c d) := by
  rw [heapSwap, heapAt_set _ hp, heapAt_set _ hc, Equiv.swap_apply_def]
  split
  · rfl
  · split <;> rfl

/-! ## Sifting permutes the queue -/

theorem map_swap_range_perm {c p n : Nat} (hc : c < n) (hp : p < n) :
    ((List.range n).map (Equiv.swap p c)).Perm (List.range n) := by
  refine (List.perm_ext_iff_of_nodup (List.nodup_range.map (Equiv.injective _)) List.nodup_range).2 fun d => ?_
  simp only [List.mem_map, List.mem_range]
  constructor
  · rintro ⟨e, he, rfl⟩
    rw [Equiv.swap_apply_def]
    split
    · exact hc
    · split <;> assumption
  · intro hd
    refine ⟨Equiv.swap p c d, ?_, Equiv.swap_apply_self _ _ _⟩
    rw [Equiv.swap_apply_def]
    split
    · exact hc
    · split <;> assumption

theorem live_heapSwap_perm (h : HeapArray) {c p n : Nat} (hc : c < n) (hp : p < n) (hn : n ≤ 256) :
    (Heap.live ⟨heapSwap h c p, n⟩).Perm (Heap.live ⟨h, n⟩) := by
  have hswap : Heap.live ⟨heapSwap h c p, n⟩ = ((List.range n).map (Equiv.swap p c)).map (heapAt h) := by
    rw [List.map_map]
    exact List.map_congr_left fun d _ => heapAt_heapSwap h (by omega) (by omega) d
  rw [hswap]
  exact (map_swap_range_perm hc hp).map _

theorem live_siftUp_perm (a : Arena) (fuel : Nat) (h : HeapArray) {c n : Nat} (hc : c < n) (hn : n ≤ 256) :
    (Heap.live ⟨siftUp a fuel h c, n⟩).Perm (Heap.live ⟨h, n⟩) := by
  induction fuel generalizing h c with
  | zero => rfl
  | succ fuel ih =>
    simp only [siftUp]
    split
    · rfl
    · split
      · exact (ih _ (by omega)).trans (live_heapSwap_perm h hc (by omega) hn)
      · rfl

theorem ite_and_lt {i j n : Nat} {p : Prop} [Decidable p] (hj : j < n) : (if i < n ∧ p then i else j) < n := by
  split
  · next h => exact h.1
  · exact hj

theorem bestChild_lt (a : Arena) (h : HeapArray) {n c : Nat} (hc : c < n) : bestChild a h n c < n :=
  ite_and_lt (ite_and_lt hc)

theorem live_siftDown_perm (a : Arena) (fuel : Nat) (h : HeapArray) {c n : Nat} (hc : c < n) (hn : n ≤ 256) :
    (Heap.live ⟨siftDown a n fuel h c, n⟩).Perm (Heap.live ⟨h, n⟩) := by
  induction fuel generalizing h c with
  | zero => rfl
  | succ fuel ih =>
    have hbest := bestChild_lt a h hc
    simp only [siftDown]
    split
    · rfl
    · exact (ih _ hbest).trans (live_heapSwap_perm h hc hbest hn)

/-! ## Inserting and extracting -/

theorem heapInsert_live_perm (a : Arena) (h : Heap) (i : NodeIx) (hs : h.size < 256) :
    (heapInsert a h i).live.Perm (i :: h.live) := by
  have hset : Heap.live ⟨h.arr.setIfInBounds h.size i, h.size + 1⟩ = h.live ++ [i] := by
    simp only [Heap.live, List.range_succ, List.map_append, List.map_singleton, heapAt_set _ hs, if_true]
    congr 1
    exact List.map_congr_left fun d hd => (heapAt_set _ hs i d).trans (if_neg (List.mem_range.1 hd).ne)
  refine (live_siftUp_perm a h.size _ (Nat.lt_succ_self _) hs).trans ?_
  rw [hset]
  exact List.perm_append_singleton i h.live

theorem heapExtractMin_live_perm (a : Arena) (h : Heap) (h1 : 1 ≤ h.size) (h2 : h.size ≤ 256) :
    ((heapExtractMin a h).1 :: (heapExtractMin a h).2.live).Perm h.live := by
  obtain ⟨arr, size⟩ := h
  obtain ⟨n, rfl⟩ : ∃ n, size = n + 1 := Nat.exists_eq_add_one.2 h1
  replace h2 : n + 1 ≤ 256 := h2
  simp only [heapExtractMin, Nat.add_sub_cancel]
  cases n with
  | zero => rfl
  | succ n =>
    rw [if_pos (Nat.succ_pos n)]
    have hlast : Heap.live ⟨arr.setIfInBounds 0 (heapAt arr (n + 1)), n + 1⟩ =
        heapAt arr (n + 1) :: (List.range n).map (fun d => heapAt arr (d + 1)) := by
      simp [Heap.live, List.range_succ_eq_map, heapAt_set]
    have hall : Heap.live ⟨arr, n + 1 + 1⟩ =
        heapAt arr 0 :: ((List.range n).map (fun d => heapAt arr (d + 1)) ++ [heapAt arr (n + 1)]) := by
      rw [Heap.live, List.range_succ_eq_map, List.map_cons, List.map_map, List.range_succ, List.map_append]
      rfl
    rw [hall]
    refine List.Perm.cons _ ((live_siftDown_perm a (n + 1) _ (Nat.succ_pos n) (by omega)).trans ?_)
    rw [hlast]
    exact (List.perm_append_singleton _ _).symm

end Sys2Proof.Machine
end

section
/-! SUPPORT. BUILD makes a tree (42_tree_builder.md rules R154 and R158): the scan writes a leaf per present symbol, every
merge joins two trees of a forest that uses up the arena, and one tree is left. -/

namespace Sys2Proof.Machine

/-! ## Registers that describe a held tree -/

theorem toNat_nodeIx {n : Nat} (h : n < 512) : (BitVec.ofNat 9 n).toNat = n := Nat.mod_eq_of_lt h

/-- A tree held at ROOT with NODE_COUNT, LEAF_COUNT and DESC_BITS written for it has every property of R53. -/
theorem State.holdsTree_of_registers {s : State} {t : CodeTree} {n : Nat} (hheld : t.heldAt s.nodes s.root)
    (hindices : (t.indices s.nodes s.root).Perm ((List.range n).map (BitVec.ofNat 9))) (hnode : t.isNode = true)
    (hnd : t.symbols.Nodup) (hcount : s.nodeCount = BitVec.ofNat 10 n)
    (hleaves : s.leafCount = BitVec.ofNat 9 t.symbols.length)
    (hdesc : s.descBits = BitVec.ofNat 12 (10 * t.symbols.length - 1)) : s.holdsTree t := by
  have hlen := length_le_of_nodup_symbols hnd
  have hn : n = 2 * t.symbols.length - 1 := by
    have := hindices.length_eq
    rwa [CodeTree.indices_length hheld, t.size_eq, List.length_map, List.length_range, eq_comm] at this
  have hcount' : s.nodeCount.toNat = n := by
    rw [hcount]
    exact Nat.mod_eq_of_lt (by omega)
  have hleaves' : s.leafCount.toNat = t.symbols.length := by
    rw [hleaves]
    exact Nat.mod_eq_of_lt (by omega)
  have hdesc' : s.descBits.toNat = 10 * t.symbols.length - 1 := by
    rw [hdesc]
    exact Nat.mod_eq_of_lt (by omega)
  refine ⟨hheld, ?_, hnode, hnd, hleaves', ?_, ?_⟩
  · rwa [hcount']
  · rw [hcount', hleaves', hn]
  · rw [hdesc', hleaves']

theorem CodeTree.isNode_of_two_symbols {t : CodeTree} (h : 2 ≤ t.symbols.length) : t.isNode = true := by
  cases t with
  | leaf => simp [CodeTree.symbols] at h
  | node => rfl

/-! ## Phase SCAN -/

section Scan
variable (f : FreqTable)

theorem scanLeaves_count (ss : List Symbol) (a : Arena) (k : Nat) :
    (scanLeaves f ss a k).2 = k + (ss.filter fun x => symGet f x ≠ 0#32).length := by
  induction ss generalizing a k with
  | nil => rfl
  | cons x ss ih =>
    by_cases hx : symGet f x = 0#32
    · simp [scanLeaves, hx, ih]
    · simp only [scanLeaves, ne_eq, hx, not_false_iff, if_true, ih, List.filter_cons, decide_true, List.length_cons]
      omega

theorem nodeAt_scanLeaves_of_lt (ss : List Symbol) (a : Arena) {k : Nat} {i : NodeIx} (hi : i.toNat < k) :
    nodeAt (scanLeaves f ss a k).1 i = nodeAt a i := by
  induction ss generalizing a k with
  | nil => rfl
  | cons x ss ih =>
    simp only [scanLeaves]
    split
    · rw [ih _ (by omega)]
      simp [nodeAt, setNode, hi.ne']
    · exact ih a hi

/-- The `j`-th present symbol's leaf stands at index `k + j`. -/
theorem nodeAt_scanLeaves (ss : List Symbol) (a : Arena) {k j : Nat} {x : Symbol}
    (hk : k + (ss.filter fun x => symGet f x ≠ 0#32).length ≤ 511)
    (hx : (ss.filter fun x => symGet f x ≠ 0#32)[j]? = some x) :
    nodeAt (scanLeaves f ss a k).1 (BitVec.ofNat 9 (k + j)) = some (leafNode false x ((symGet f x).setWidth 40)) := by
  induction ss generalizing a k j with
  | nil => simp at hx
  | cons y ss ih =>
    by_cases hy : symGet f y = 0#32
    · simp only [scanLeaves, ne_eq, hy, not_true_eq_false, if_false]
      simp only [List.filter_cons, hy, ne_eq, not_true_eq_false, decide_false, Bool.false_eq_true, if_false] at hk hx
      exact ih a hk hx
    · simp only [scanLeaves, ne_eq, hy, not_false_iff, if_true]
      simp only [List.filter_cons, hy, ne_eq, not_false_iff, decide_true, if_true, List.length_cons] at hk hx
      cases j with
      | zero =>
        obtain rfl : y = x := by simpa using hx
        have hki : (BitVec.ofNat 9 k).toNat = k := toNat_nodeIx (by omega)
        change nodeAt _ (BitVec.ofNat 9 k) = _
        rw [nodeAt_scanLeaves_of_lt f ss _ (by omega), nodeAt_setNode _ _ _ _ (by omega), if_pos hki]
      | succ j =>
        rw [show k + (j + 1) = k + 1 + j by omega]
        exact ih _ (by simp only [ne_eq]; omega) (by simpa using hx)

end Scan

theorem nodup_allSymbols : allSymbols.Nodup :=
  List.nodup_range.map_on fun i hi j hj h => by
    have := congrArg BitVec.toNat h
    simp only [List.mem_range] at hi hj
    simpa [Nat.mod_eq_of_lt hi, Nat.mod_eq_of_lt hj] using this

theorem nodup_presentSymbols (f : FreqTable) : (presentSymbols f).Nodup := nodup_allSymbols.filter _

theorem length_presentSymbols_le (f : FreqTable) : (presentSymbols f).length ≤ 256 :=
  length_le_of_nodup_symbols (nodup_presentSymbols f)

theorem scanLeaves_allSymbols (f : FreqTable) (a : Arena) :
    (scanLeaves f allSymbols a 0).2 = (presentSymbols f).length ∧
    ∀ j x, (presentSymbols f)[j]? = some x → nodeAt (scanLeaves f allSymbols a 0).1 (BitVec.ofNat 9 j) =
      some (leafNode false x ((symGet f x).setWidth 40)) := by
  have hlen := length_presentSymbols_le f
  refine ⟨(scanLeaves_count f allSymbols a 0).trans (Nat.zero_add _), fun j x hx => ?_⟩
  rw [← Nat.zero_add j]
  exact nodeAt_scanLeaves f allSymbols a (k := 0) ((Nat.zero_add _).trans_le (hlen.trans (by omega))) hx

/-! ## Phase LOAD -/

@[simp] theorem heapExtractMin_size (a : Arena) (h : Heap) : (heapExtractMin a h).2.size = h.size - 1 := rfl

@[simp] theorem heapInsert_size (a : Arena) (h : Heap) (i : NodeIx) : (heapInsert a h i).size = h.size + 1 := rfl

theorem loadHeap_live_perm (a : Arena) {count i : Nat} {h : Heap} (hs : h.size + count ≤ 256) :
    (loadHeap a count i h).live.Perm ((List.range' i count).map (BitVec.ofNat 9) ++ h.live) := by
  induction count generalizing i h with
  | zero => rfl
  | succ count ih =>
    have hsize : (heapInsert a h (BitVec.ofNat 9 i)).size + count ≤ 256 := by
      rw [heapInsert_size]
      omega
    rw [loadHeap, List.range'_succ, List.map_cons, List.cons_append]
    exact (ih hsize).trans <|
      ((heapInsert_live_perm a h _ (by omega)).append_left _).trans List.perm_middle

/-! ## The merge loop -/

/-- What the merge loop keeps while it joins trees over the leaves of `syms`: the arena below `m` holds the trees of a
forest and nothing else, the queue holds their roots, and the last node made is one of them. -/
structure Builder.Forest (b : Builder) (syms : List Symbol) (F : List (CodeTree × NodeIx)) : Prop where
  held : ∀ x ∈ F, x.1.heldAt b.nodes x.2
  live : b.heap.live.Perm (F.map Prod.snd)
  indices : (F.flatMap fun x => x.1.indices b.nodes x.2).Perm ((List.range b.m).map (BitVec.ofNat 9))
  symbols : (F.flatMap fun x => x.1.symbols).Perm syms
  count : b.m + F.length = 2 * syms.length
  last : BitVec.ofNat 9 (b.m - 1) ∈ F.map Prod.snd

theorem Builder.Forest.perm {b : Builder} {syms : List Symbol} {F G : List (CodeTree × NodeIx)}
    (h : b.Forest syms F) (hFG : F.Perm G) : b.Forest syms G where
  held x hx := h.held x (hFG.mem_iff.2 hx)
  live := h.live.trans (hFG.map _)
  indices := (hFG.flatMap_right _).symm.trans h.indices
  symbols := (hFG.flatMap_right _).symm.trans h.symbols
  count := hFG.length_eq ▸ h.count
  last := (hFG.map _).mem_iff.1 h.last

theorem Heap.length_live (h : Heap) : h.live.length = h.size := by simp [Heap.live]

theorem Builder.Forest.heap_size {b : Builder} {syms : List Symbol} {F : List (CodeTree × NodeIx)}
    (h : b.Forest syms F) : b.heap.size = F.length := by
  rw [← Heap.length_live, h.live.length_eq, List.length_map]

theorem Builder.Forest.index_lt {b : Builder} {syms : List Symbol} {F : List (CodeTree × NodeIx)}
    (h : b.Forest syms F) {x : CodeTree × NodeIx} (hx : x ∈ F) {i : NodeIx} (hi : i ∈ x.1.indices b.nodes x.2) :
    i.toNat < b.m := by
  obtain ⟨j, hj, rfl⟩ := List.mem_map.1 (h.indices.mem_iff.1 (List.mem_flatMap.2 ⟨x, hx, hi⟩))
  exact (Nat.mod_le j _).trans_lt (List.mem_range.1 hj)

/-- One element of a mapped list, taken out of both lists. -/
theorem exists_perm_cons_of_map_perm {α β : Type} {f : α → β} {x : β} {l : List β} {F : List α}
    (h : (x :: l).Perm (F.map f)) : ∃ e G, F.Perm (e :: G) ∧ f e = x ∧ l.Perm (G.map f) := by
  obtain ⟨e, he, rfl⟩ := List.mem_map.1 (h.mem_iff.1 List.mem_cons_self)
  obtain ⟨l1, l2, rfl⟩ := List.append_of_mem he
  refine ⟨e, l1 ++ l2, List.perm_middle, rfl, ?_⟩
  have hmap : ((l1 ++ e :: l2).map f).Perm (f e :: (l1 ++ l2).map f) := List.perm_middle.map f
  exact (List.perm_cons (f e)).1 (h.trans hmap)

/-- Joining the first two trees of the forest under a new node at `m`. -/
theorem Builder.Forest.join {b c : Builder} {syms : List Symbol} {x y : CodeTree × NodeIx}
    {F : List (CodeTree × NodeIx)} {w : BitVec 40} (h : b.Forest syms (x :: y :: F)) (hsyms : syms.length ≤ 256)
    (hnodes : c.nodes = setNode b.nodes b.m (internalNode w x.2 y.2)) (hm : c.m = b.m + 1)
    (hlive : c.heap.live.Perm (BitVec.ofNat 9 b.m :: F.map Prod.snd)) :
    c.Forest syms ((.node x.1 y.1, BitVec.ofNat 9 b.m) :: F) := by
  have hcount := h.count
  simp only [List.length_cons] at hcount
  have hbm : b.m < 511 := by omega
  have hnew : nodeAt c.nodes (BitVec.ofNat 9 b.m) = some (internalNode w x.2 y.2) := by
    rw [hnodes, nodeAt_setNode _ _ _ _ hbm, if_pos (toNat_nodeIx (by omega))]
  have hold : ∀ e ∈ x :: y :: F, e.1.heldAt c.nodes e.2 ∧ e.1.indices c.nodes e.2 = e.1.indices b.nodes e.2 := by
    intro e he
    refine e.1.heldAt_congr _ _ _ (h.held e he) fun i hi => ?_
    rw [hnodes, nodeAt_setNode _ _ _ _ hbm, if_neg (h.index_lt he hi).ne]
  obtain ⟨hx, hxi⟩ := hold x List.mem_cons_self
  obtain ⟨hy, hyi⟩ := hold y (List.mem_cons_of_mem _ List.mem_cons_self)
  have hF : ∀ e ∈ F, e.1.heldAt c.nodes e.2 ∧ e.1.indices c.nodes e.2 = e.1.indices b.nodes e.2 :=
    fun e he => hold e (List.mem_cons_of_mem _ (List.mem_cons_of_mem _ he))
  constructor
  case held =>
    intro e he
    rcases List.mem_cons.1 he with rfl | he
    · exact ⟨_, hnew, rfl, hx, hy⟩
    · exact (hF e he).1
  case live => exact hlive
  case indices =>
    have htail : (F.flatMap fun e => e.1.indices c.nodes e.2) = F.flatMap fun e => e.1.indices b.nodes e.2 :=
      List.flatMap_congr fun e he => (hF e he).2
    rw [List.flatMap_cons, htail, hm, List.range_succ, List.map_append, List.map_singleton]
    simp only [CodeTree.indices, hnew, internalNode, hxi, hyi, List.cons_append, List.append_assoc]
    refine List.Perm.trans (List.Perm.cons _ ?_) (List.perm_append_singleton _ _).symm
    simpa only [List.flatMap_cons] using h.indices
  case symbols =>
    simpa only [List.flatMap_cons, CodeTree.symbols, List.append_assoc] using h.symbols
  case count =>
    rw [hm, List.length_cons]
    omega
  case last =>
    rw [hm, Nat.add_sub_cancel]
    exact List.mem_cons_self

/-- R154: a merge makes the forest one tree smaller. -/
theorem Builder.Forest.mergeStep {b : Builder} {syms : List Symbol} {F : List (CodeTree × NodeIx)}
    (h : b.Forest syms F) (hsyms : syms.length ≤ 256) (h2 : 2 ≤ F.length) :
    ∃ G, (mergeStep b).Forest syms G ∧ G.length + 1 = F.length := by
  have hsize := h.heap_size
  have hlen : F.length ≤ 256 := by
    have hF : F.length ≤ (F.flatMap fun x => x.1.symbols).length := by
      rw [List.length_flatMap]
      calc F.length = (F.map fun _ => 1).sum := by simp
        _ ≤ (F.map fun x => x.1.symbols.length).sum := List.sum_le_sum fun x _ => x.1.symbols_length_pos
    rw [h.symbols.length_eq] at hF
    omega
  have hlive1 := heapExtractMin_live_perm b.nodes b.heap (by omega) (by omega)
  obtain ⟨x, F1, hF1, hx, hlive1'⟩ := exists_perm_cons_of_map_perm (hlive1.trans h.live)
  have hsize1 := heapExtractMin_size b.nodes b.heap
  have hlive2 := heapExtractMin_live_perm b.nodes (heapExtractMin b.nodes b.heap).2 (by omega) (by omega)
  obtain ⟨y, F2, hF2, hy, hlive2'⟩ := exists_perm_cons_of_map_perm (hlive2.trans hlive1')
  have hsize2 := heapExtractMin_size b.nodes (heapExtractMin b.nodes b.heap).2
  have hF : F.Perm (x :: y :: F2) := hF1.trans (hF2.cons x)
  refine ⟨_, (h.perm hF).join (c := Machine.mergeStep b) hsyms (by rw [hx, hy]; rfl) rfl ?_, ?_⟩
  · exact (heapInsert_live_perm _ (heapExtractMin b.nodes (heapExtractMin b.nodes b.heap).2).2 _ (by omega)).trans
      (hlive2'.cons _)
  · rw [hF.length_eq]
    rfl

theorem Builder.Forest.mergeLoop {b : Builder} {syms : List Symbol} {F : List (CodeTree × NodeIx)} (fuel : Nat)
    (h : b.Forest syms F) (hsyms : syms.length ≤ 256) (hfuel : F.length ≤ fuel + 1) :
    ∃ x, (mergeLoop fuel b).Forest syms [x] := by
  have hpos : 0 < F.length := by simpa using List.length_pos_of_mem h.last
  induction fuel generalizing b F with
  | zero =>
    obtain ⟨x, rfl⟩ := List.length_eq_one_iff.1 (show F.length = 1 by omega)
    exact ⟨x, h⟩
  | succ fuel ih =>
    rw [Machine.mergeLoop, h.heap_size]
    split
    · next hgt =>
      obtain ⟨G, hG, hlen⟩ := h.mergeStep hsyms hgt
      exact ih hG (by omega) (by omega)
    · obtain ⟨x, rfl⟩ := List.length_eq_one_iff.1 (show F.length = 1 by omega)
      exact ⟨x, h⟩

/-- The forest the merge loop starts from: the scanned leaves. -/
theorem Builder.forest_of_leaves {a : Arena} {syms : List Symbol} (stale : HeapArray) (hpos : 0 < syms.length)
    (hlen : syms.length ≤ 256)
    (ha : ∀ j x, syms[j]? = some x → ∃ w, nodeAt a (BitVec.ofNat 9 j) = some (leafNode false x w)) :
    Builder.Forest { nodes := a, heap := loadHeap a syms.length 0 { arr := stale, size := 0 }, m := syms.length } syms
      (syms.zipIdx.map fun x => (CodeTree.leaf x.1 false, BitVec.ofNat 9 x.2)) := by
  have hsnd : (syms.zipIdx.map fun x => (CodeTree.leaf x.1 false, BitVec.ofNat 9 x.2)).map Prod.snd =
      (List.range syms.length).map (BitVec.ofNat 9) := by
    rw [List.map_map, List.range_eq_range', ← List.zipIdx_map_snd 0 syms, List.map_map]
    rfl
  have hfst : (syms.zipIdx.map fun x => (CodeTree.leaf x.1 false, BitVec.ofNat 9 x.2)).flatMap
      (fun x => x.1.symbols) = syms := by
    rw [List.flatMap_map]
    simp only [CodeTree.symbols]
    exact (List.map_eq_flatMap ..).symm.trans (List.zipIdx_map_fst 0 syms)
  constructor
  case held =>
    intro e he
    obtain ⟨⟨x, j⟩, hx, rfl⟩ := List.mem_map.1 he
    obtain ⟨w, hw⟩ := ha j x (List.mk_mem_zipIdx_iff_getElem?.1 hx)
    exact ⟨_, hw, rfl, rfl, rfl⟩
  case live =>
    rw [hsnd, List.range_eq_range']
    exact (loadHeap_live_perm a (by simpa using hlen)).trans (by simp [Heap.live])
  case indices =>
    rw [← hsnd, List.flatMap_map, List.map_map]
    exact List.Perm.of_eq (List.map_eq_flatMap ..).symm
  case symbols => exact List.Perm.of_eq hfst
  case count =>
    rw [List.length_map, List.length_zipIdx, Nat.two_mul]
  case last =>
    rw [hsnd]
    exact List.mem_map_of_mem (List.mem_range.2 (Nat.sub_lt hpos Nat.one_pos))

/-! ## The tree BUILD grows -/

/-- R154: two or more leaves grow into one tree that fills the arena up to its root. -/
theorem growTree_of_leaves {a : Arena} {syms : List Symbol} (stale : HeapArray) (h2 : 2 ≤ syms.length)
    (hlen : syms.length ≤ 256)
    (ha : ∀ j x, syms[j]? = some x → ∃ w, nodeAt a (BitVec.ofNat 9 j) = some (leafNode false x w)) :
    ∃ t : CodeTree, t.symbols.Perm syms ∧
      t.heldAt (growTree stale a syms.length).1 (BitVec.ofNat 9 ((growTree stale a syms.length).2 - 1)) ∧
      (t.indices (growTree stale a syms.length).1 (BitVec.ofNat 9 ((growTree stale a syms.length).2 - 1))).Perm
        ((List.range (growTree stale a syms.length).2).map (BitVec.ofNat 9)) := by
  obtain ⟨⟨t, i⟩, hforest⟩ := (Builder.forest_of_leaves stale (by omega) hlen ha).mergeLoop syms.length hlen
    (by simp)
  rw [growTree, if_neg (by omega)]
  have hroot := hforest.last
  rw [List.map_singleton, List.mem_singleton] at hroot
  refine ⟨t, ?_, ?_, ?_⟩
  · simpa using hforest.symbols
  · rw [hroot]
    exact hforest.held (t, i) List.mem_cons_self
  · rw [hroot]
    simpa using hforest.indices

/-- The placeholder's symbol (R158). -/
def placeholderOf (x : Symbol) : Symbol := if x = 0x00#8 then 0x01#8 else 0x00#8

/-- The single-symbol tree of R158. -/
def singleTree (x : Symbol) : CodeTree := .node (.leaf x false) (.leaf (placeholderOf x) true)

/-- The arena `single_symbol_tree` leaves over a leaf for `x` of weight `w` (R158). -/
def singleArena (a : Arena) (x : Symbol) (w : BitVec 40) : Arena :=
  setNode (setNode a 1 (leafNode true (placeholderOf x) 0#40)) 2 (internalNode w 0#9 1#9)

theorem growTree_of_single {a : Arena} {x : Symbol} {w : BitVec 40} (stale : HeapArray)
    (ha : nodeAt a 0#9 = some (leafNode false x w)) : growTree stale a 1 = (singleArena a x w, 3) := by
  rw [growTree, if_pos rfl, singleSymbolTree, ha]
  rfl

theorem singleTree_symbols_nodup (x : Symbol) : (singleTree x).symbols.Nodup := by
  have hne : x ≠ placeholderOf x := by
    unfold placeholderOf
    split
    · next h => simp [h]
    · next h => exact h
  simpa [singleTree, CodeTree.symbols] using hne

/-- The three entries of R158. -/
theorem nodeAt_singleArena {a : Arena} {x : Symbol} {w : BitVec 40} (ha : nodeAt a 0#9 = some (leafNode false x w)) :
    nodeAt (singleArena a x w) 0#9 = some (leafNode false x w) ∧
    nodeAt (singleArena a x w) 1#9 = some (leafNode true (placeholderOf x) 0#40) ∧
    nodeAt (singleArena a x w) 2#9 = some (internalNode w 0#9 1#9) := by
  simp only [singleArena]
  refine ⟨?_, ?_, ?_⟩ <;> simp [nodeAt_setNode, ha]

theorem singleTree_heldAt {a : Arena} {x : Symbol} {w : BitVec 40} (ha : nodeAt a 0#9 = some (leafNode false x w)) :
    (singleTree x).heldAt (singleArena a x w) 2#9 ∧
    (singleTree x).indices (singleArena a x w) 2#9 = [2#9, 0#9, 1#9] := by
  obtain ⟨hreal, hph, hroot⟩ := nodeAt_singleArena ha
  refine ⟨⟨_, hroot, rfl, ⟨_, hreal, rfl, rfl, rfl⟩, ⟨_, hph, rfl, rfl, rfl⟩⟩, ?_⟩
  simp only [singleTree, CodeTree.indices, hroot]
  rfl

/-- `build_tree` writes the arena, the tree registers and TREE_VALID, and nothing else. -/
theorem State.buildTree_frame {s u : State} (h : s.buildTree = .ok u) :
    u = { s with
      nodes := u.nodes, nodeCount := u.nodeCount, root := u.root, leafCount := u.leafCount, descBits := u.descBits,
      treeValid := true } := by
  rcases s.buildTree_cases with ⟨-, he⟩ | ⟨a, k, -, -, he⟩ <;> rw [he] at h
  · cases h
  · exact Run.ok.inj h ▸ rfl

/-- R53, R154: what `build_tree` leaves of a table that is not empty is a tree. -/
theorem State.buildTree_holdsTree {s u : State} (h : s.buildTree = .ok u) : ∃ t, u.holdsTree t := by
  rcases s.buildTree_cases with ⟨-, he⟩ | ⟨a, k, hscan, hk, he⟩ <;> rw [he] at h
  · cases h
  obtain rfl := Run.ok.inj h
  obtain ⟨hcount, hleaves⟩ := scanLeaves_allSymbols s.freq s.nodes
  rw [hscan] at hcount hleaves
  obtain rfl : k = (presentSymbols s.freq).length := hcount
  have hlen := length_presentSymbols_le s.freq
  by_cases hone : (presentSymbols s.freq).length = 1
  · obtain ⟨x, hx⟩ := List.length_eq_one_iff.1 hone
    have ha := hleaves 0 x (by rw [hx]; rfl)
    obtain ⟨hheld, hindices⟩ := singleTree_heldAt ha
    simp only [hone, growTree_of_single _ ha]
    refine ⟨singleTree x, State.holdsTree_of_registers (n := 3) hheld ?_ rfl (singleTree_symbols_nodup x) rfl rfl rfl⟩
    rw [show CodeTree.indices _ (singleTree x) _ = _ from hindices]
    decide
  · obtain ⟨t, hsyms, hheld, hindices⟩ := growTree_of_leaves s.hidden.heap (by omega) hlen
      fun j x hx => ⟨_, hleaves j x hx⟩
    have hsymbols := hsyms.length_eq
    refine ⟨t, State.holdsTree_of_registers hheld hindices (CodeTree.isNode_of_two_symbols (by omega))
      (hsyms.nodup_iff.2 (nodup_presentSymbols s.freq)) rfl ?_ ?_⟩
    · rw [hsymbols, if_neg hone]
    · rw [hsymbols, if_neg hone]

end Sys2Proof.Machine
end

section
/-! SUPPORT. PARSETREE makes a tree (45_container.md rule R225): the loop fills one open slot with a whole subtree, numbered
in pre-order, before it goes on with the next. -/

namespace Sys2Proof.Machine

/-! ## Linking a node into its slot -/

theorem nodeAt_linkChild_of_ne (a : Arena) {par : NodeIx} (side : Bool) (i : NodeIx) {x : NodeIx} (h : x ≠ par) :
    nodeAt (linkChild a par side i) x = nodeAt a x := by
  unfold linkChild
  split
  · rfl
  · cases side
    · exact (nodeAt_setLeft a par i x).trans (if_neg h)
    · exact (nodeAt_setRight a par i x).trans (if_neg h)

theorem nodeAt_linkChild_left {a : Arena} {par i : NodeIx} {n : Node} (hpar : par ≠ NodeIx.nil)
    (hn : nodeAt a par = some n) : nodeAt (linkChild a par false i) par = some { n with left := i } := by
  rw [linkChild, if_neg hpar, if_neg Bool.false_ne_true, nodeAt_setLeft, if_pos rfl, hn, Option.map_some]

theorem nodeAt_linkChild_right {a : Arena} {par i : NodeIx} {n : Node} (hpar : par ≠ NodeIx.nil)
    (hn : nodeAt a par = some n) : nodeAt (linkChild a par true i) par = some { n with right := i } := by
  rw [linkChild, if_neg hpar, if_pos rfl, nodeAt_setRight, if_pos rfl, hn, Option.map_some]

/-! ## One subtree -/

/-- The parser went from `r` to `q` by reading the subtree `t` into the open slot (`par`, `side`): the subtree stands at
the indices from `r.m` on in pre-order, the entries before it are untouched but for the link to it, and the counters, the
symbols seen and the bit position have moved on by it. -/
structure Parser.Subtree (r : Parser) (par : NodeIx) (side : Bool) (t : CodeTree) (q : Parser) : Prop where
  held : t.heldAt q.nodes (BitVec.ofNat 9 r.m)
  indices : t.indices q.nodes (BitVec.ofNat 9 r.m) = (List.range' r.m t.size).map (BitVec.ofNat 9)
  below : ∀ x : NodeIx, x.toNat < r.m → nodeAt q.nodes x = nodeAt (linkChild r.nodes par side (BitVec.ofNat 9 r.m)) x
  m : q.m = r.m + t.size
  l : q.l = r.l + t.symbols.length
  seen : q.seen = t.symbols.reverse ++ r.seen
  nodup : q.seen.Nodup
  p : q.p = r.p + t.desc.length

/-- The parser after a leaf (R225). -/
def Parser.putLeaf (r : Parser) (par : NodeIx) (side : Bool) (sym : Symbol) : Parser :=
  { nodes := setNode (linkChild r.nodes par side (BitVec.ofNat 9 r.m)) r.m (leafNode false sym 0#40)
    m := r.m + 1, l := r.l + 1, seen := sym :: r.seen, p := r.p + 9 }

/-- The parser after an internal node, whose two slots are then open (R225). -/
def Parser.putInternal (r : Parser) (par : NodeIx) (side : Bool) : Parser :=
  { nodes := setNode (linkChild r.nodes par side (BitVec.ofNat 9 r.m)) r.m
      (internalNode 0#40 NodeIx.nil NodeIx.nil)
    m := r.m + 1, l := r.l, seen := r.seen, p := r.p + 1 }

/-- Everything one turn of the loop can do when the loop ends well: read a leaf, or an internal node and open its two
slots. -/
theorem parseLoop_cons_done {s : State} {room : Nat} {par : NodeIx} {side : Bool} {rest : List (NodeIx × Bool)}
    {r q : Parser} (h : parseLoop s room ((par, side) :: rest) r = .done q) :
    ∃ room', room = room' + 1 ∧
      ((r.m ≠ 0 ∧ ∃ sym, sym ∉ r.seen ∧ parseLoop s room' rest (r.putLeaf par side sym) = .done q) ∨
        parseLoop s room' ((BitVec.ofNat 9 r.m, false) :: (BitVec.ofNat 9 r.m, true) :: rest)
          (r.putInternal par side) = .done q) := by
  cases room with
  | zero => simp [parseLoop] at h
  | succ room =>
    refine ⟨room, rfl, ?_⟩
    simp only [parseLoop] at h
    split at h
    · split at h
      · split at h
        · cases h
        · next hm =>
          split at h
          · cases h
          · split at h
            · cases h
            · next hseen => exact .inl ⟨hm, _, by simpa using hseen, h⟩
      · exact .inr h
    · cases h

theorem Parser.subtree_putLeaf {r : Parser} (par : NodeIx) (side : Bool) {sym : Symbol} (hm : r.m < 511)
    (hsym : sym ∉ r.seen) (hnd : r.seen.Nodup) : r.Subtree par side (.leaf sym false) (r.putLeaf par side sym) where
  held := by
    refine ⟨leafNode false sym 0#40, ?_, rfl, rfl, rfl⟩
    rw [Parser.putLeaf, nodeAt_setNode _ _ _ _ hm, if_pos (toNat_nodeIx (by omega))]
  indices := rfl
  below x hx := by rw [Parser.putLeaf, nodeAt_setNode _ _ _ _ hm, if_neg hx.ne]
  m := rfl
  l := rfl
  seen := rfl
  nodup := List.nodup_cons.2 ⟨hsym, hnd⟩
  p := by simp [Parser.putLeaf, CodeTree.desc]

theorem Parser.Subtree.index_bounds {r q : Parser} {par : NodeIx} {side : Bool} {t : CodeTree}
    (h : r.Subtree par side t q) (hq : q.m ≤ 511) {x : NodeIx} (hx : x ∈ t.indices q.nodes (BitVec.ofNat 9 r.m)) :
    r.m ≤ x.toNat ∧ x.toNat < q.m := by
  rw [h.indices] at hx
  obtain ⟨j, hj, rfl⟩ := List.mem_map.1 hx
  rw [List.mem_range'_1] at hj
  have hm := h.m
  rw [toNat_nodeIx (by omega)]
  omega

/-- The two subtrees of an internal node, read one after the other, make the node's subtree. -/
theorem Parser.Subtree.node {r q q' : Parser} {par : NodeIx} {side : Bool} {tl tr : CodeTree}
    (hl : (r.putInternal par side).Subtree (BitVec.ofNat 9 r.m) false tl q)
    (hr : q.Subtree (BitVec.ofNat 9 r.m) true tr q') (hq : q'.m ≤ 511) :
    r.Subtree par side (.node tl tr) q' := by
  have hqm : q.m = r.m + 1 + tl.size := hl.m
  have hqm' : q'.m = q.m + tr.size := hr.m
  have hi : (BitVec.ofNat 9 r.m).toNat = r.m := toNat_nodeIx (by omega)
  have hnil : BitVec.ofNat 9 r.m ≠ NodeIx.nil := fun e => by
    have := congrArg BitVec.toNat e
    rw [hi] at this
    simp only [BitVec.toNat_ofNat] at this
    omega
  have hother {x : NodeIx} (hx : x.toNat ≠ r.m) : x ≠ BitVec.ofNat 9 r.m := fun e => hx (by rw [e, hi])
  have hput (x : NodeIx) : nodeAt (r.putInternal par side).nodes x =
      if x.toNat = r.m then some (internalNode 0#40 NodeIx.nil NodeIx.nil)
      else nodeAt (linkChild r.nodes par side (BitVec.ofNat 9 r.m)) x :=
    nodeAt_setNode _ _ _ _ (by omega)
  have hnode : nodeAt q'.nodes (BitVec.ofNat 9 r.m) =
      some (internalNode 0#40 (BitVec.ofNat 9 (r.m + 1)) (BitVec.ofNat 9 q.m)) := by
    have hopen := (hput (BitVec.ofNat 9 r.m)).trans (if_pos hi)
    have hleft : nodeAt q.nodes (BitVec.ofNat 9 r.m) = _ :=
      (hl.below _ (by rw [hi]; exact Nat.lt_succ_self _)).trans (nodeAt_linkChild_left hnil hopen)
    exact (hr.below _ (by omega)).trans (nodeAt_linkChild_right hnil hleft)
  have hkept {x : NodeIx} (hx : x.toNat < q.m) (hne : x.toNat ≠ r.m) : nodeAt q'.nodes x = nodeAt q.nodes x :=
    (hr.below x hx).trans (nodeAt_linkChild_of_ne _ _ _ (hother hne))
  obtain ⟨hlheld, hlindices⟩ := tl.heldAt_congr q.nodes q'.nodes _ hl.held fun x hx => by
    have hb : r.m + 1 ≤ x.toNat ∧ x.toNat < q.m := hl.index_bounds (by omega) hx
    exact hkept hb.2 (by omega)
  constructor
  case held => exact ⟨_, hnode, rfl, hlheld, hr.held⟩
  case indices =>
    have hleft : tl.indices q'.nodes (BitVec.ofNat 9 (r.m + 1)) =
        (List.range' (r.m + 1) tl.size).map (BitVec.ofNat 9) := hlindices.trans hl.indices
    have hsize : (CodeTree.node tl tr).size = tl.size + tr.size + 1 := rfl
    simp only [CodeTree.indices, hnode, internalNode]
    rw [hleft, hr.indices, hsize, List.range'_succ, List.map_cons, ← List.map_append, hqm, List.range'_append_1]
  case below =>
    intro x hx
    have hne := hother hx.ne
    rw [hkept (by omega) hx.ne, hl.below x (hx.trans (Nat.lt_succ_self _)), nodeAt_linkChild_of_ne _ _ _ hne, hput,
      if_neg hx.ne]
  case m =>
    have hsize : (CodeTree.node tl tr).size = tl.size + tr.size + 1 := rfl
    omega
  case l =>
    have hll : q.l = r.l + tl.symbols.length := hl.l
    rw [hr.l, hll, CodeTree.symbols, List.length_append, Nat.add_assoc]
  case seen =>
    have hls : q.seen = tl.symbols.reverse ++ r.seen := hl.seen
    rw [hr.seen, hls, CodeTree.symbols, List.reverse_append, List.append_assoc]
  case nodup => exact hr.nodup
  case p =>
    have hlp : q.p = r.p + 1 + tl.desc.length := hl.p
    rw [hr.p, hlp, CodeTree.desc, List.length_cons, List.length_append]
    omega

/-- R225: before the loop turns to the next open slot, it has read a whole subtree into the first. -/
theorem parseLoop_subtree {s : State} {room : Nat} {par : NodeIx} {side : Bool} {rest : List (NodeIx × Bool)}
    {r q : Parser} (h : parseLoop s room ((par, side) :: rest) r = .done q) (hroom : room + r.m ≤ 511)
    (hnd : r.seen.Nodup) :
    ∃ t r' room', r.Subtree par side t r' ∧ (r.m = 0 → t.isNode = true) ∧ room' + t.size = room ∧
      parseLoop s room' rest r' = .done q := by
  induction room using Nat.strong_induction_on generalizing par side rest r with
  | _ room ih =>
    obtain ⟨room, rfl, ⟨hm, sym, hsym, h⟩ | h⟩ := parseLoop_cons_done h
    · exact ⟨_, _, room, Parser.subtree_putLeaf par side (by omega) hsym hnd, fun h0 => absurd h0 hm, rfl, h⟩
    · have hmput : (r.putInternal par side).m = r.m + 1 := rfl
      obtain ⟨tl, r1, room1, hl, -, hroom1, h1⟩ := ih room (Nat.lt_succ_self _) h (by omega) hnd
      have hm1 := hl.m
      obtain ⟨tr, r2, room2, hr, -, hroom2, h2⟩ := ih room1 (by omega) h1 (by omega) hl.nodup
      have hm2 := hr.m
      refine ⟨.node tl tr, r2, room2, hl.node hr (by omega), fun _ => rfl, ?_, h2⟩
      have hsize : (CodeTree.node tl tr).size = tl.size + tr.size + 1 := rfl
      omega

/-! ## The whole descriptor -/

theorem parseLoop_nil (s : State) (room : Nat) (r : Parser) : parseLoop s room [] r = .done r := by
  cases room <;> rfl

/-- R53, R225: what `parse_tree` leaves of an accepted descriptor is a tree. -/
theorem State.holdsTree_of_parseLoop {s : State} {p0 : Nat} {r : Parser}
    (h : parseLoop s 511 [(NodeIx.nil, false)] { nodes := s.nodes, m := 0, l := 0, seen := [], p := p0 } = .done r) :
    ∃ t, State.holdsTree { s.invalidate with
      nodes := r.nodes, nodeCount := BitVec.ofNat 10 r.m, root := 0#9, leafCount := BitVec.ofNat 9 r.l,
      descBits := BitVec.ofNat 12 (r.p - p0), treeValid := true } t := by
  obtain ⟨t, q, room, hsub, hnode, -, hrest⟩ := parseLoop_subtree h (le_refl 511) List.nodup_nil
  obtain rfl := Parsed.done.inj ((parseLoop_nil s room q).symm.trans hrest)
  have hm : q.m = t.size := hsub.m.trans (Nat.zero_add _)
  have hl : q.l = t.symbols.length := hsub.l.trans (Nat.zero_add _)
  have hp : q.p = p0 + t.desc.length := hsub.p
  have hnd := hsub.nodup
  rw [hsub.seen, List.append_nil, List.nodup_reverse] at hnd
  refine ⟨t, State.holdsTree_of_registers hsub.held ?_ (hnode rfl) hnd rfl (by rw [hl]) ?_⟩
  · rw [hm, List.range_eq_range']
    exact List.Perm.of_eq hsub.indices
  · rw [hp, Nat.add_sub_cancel_left, t.desc_length]

end Sys2Proof.Machine
end

section
/-! SUPPORT. What a command can do to the tree: keep it, clear it, build one, or write its codes (10_state.md rule R53). The
two invariants about the tree and its registers follow. -/

namespace Sys2Proof.Machine

/-! ## What the phases after a window check can do -/

/-- Everything PACK can do after its window check (R200). -/
theorem State.packWindow_cases (s : State) :
    (∃ c p, s.packWindow = .raise c p s) ∨
    ∃ bits w, packBits s.codes s.window 0 0 = .ok bits ∧ ceil8 bits ≤ s.params.outBufSize ∧
      w = ((Writer.start s.outBuf 0).putCodes s.codes s.window).flush ∧
      s.packWindow = .ok { s with
        outBuf := w.buf, outLen := BitVec.ofNat 25 w.op, payloadBits := BitVec.ofNat 64 bits, inPos := s.inLen } := by
  unfold State.packWindow
  split
  · split
    · exact .inl ⟨_, _, rfl⟩
    · next bits hbits =>
      rcases s.emitPayload_cases bits with ⟨-, he⟩ | ⟨w, hfits, hw, he⟩
      · exact .inl ⟨_, _, he⟩
      · exact .inr ⟨bits, w, hbits, hfits, hw, he⟩
  · exact .inl ⟨_, _, rfl⟩

/-- Everything UNPACK can do after its window check (R203). -/
theorem State.unpackWindow_cases (s : State) :
    (∃ c p, s.unpackWindow = .raise c p s) ∨ s.unpackWindow = .ok (s.setInPos s.inOff.toNat) ∨
    (s.treeValid = true ∧ s.origLen.toNat ≤ s.params.outBufSize ∧
      s.unpackWindow = s.unpackFrom s.origLen.toNat (8 * s.inOff.toNat)) := by
  unfold State.unpackWindow
  split
  · exact .inr (.inl rfl)
  · split
    · next hv =>
      split
      · exact .inl ⟨_, _, rfl⟩
      · next hfits => exact .inr (.inr ⟨hv, not_lt.1 hfits, rfl⟩)
    · exact .inl ⟨_, _, rfl⟩

/-- Everything SERTREE can do after its tree check (R224). -/
theorem State.serializeTree_cases (s : State) :
    s.serializeTree = .notATree ∨
    ∃ w, s.descWriter s.outBuf 0 = some w ∧
      s.serializeTree = .ok { s with outBuf := w.buf, outLen := BitVec.ofNat 25 w.op } := by
  unfold State.serializeTree
  split
  · exact .inl rfl
  · next w hw => exact .inr ⟨w, hw, rfl⟩

/-- Everything COMPRESS can do from its capacity check on (R232). -/
theorem State.emitContainer_cases (s : State) :
    (∃ c p, s.emitContainer = .raise c p s) ∨ s.emitContainer = .notATree ∨
    ∃ d w, 8 + ceil8 s.descBits.toNat + ceil8 s.payloadBits.toNat ≤ s.params.outBufSize ∧
      s.descWriter (writeHeader s.outBuf (BitVec.ofNat 32 s.windowLen)) 8 = some d ∧
      w = ((Writer.start d.buf d.op).putCodes s.codes s.window).flush ∧
      s.emitContainer = .ok { s with outBuf := w.buf, outLen := BitVec.ofNat 25 w.op, inPos := s.inLen } := by
  unfold State.emitContainer
  split
  · exact .inl ⟨_, _, rfl⟩
  · next hfits =>
    split
    · exact .inr (.inl rfl)
    · next d hd =>
      refine .inr (.inr ⟨d, _, not_lt.1 hfits, hd, rfl, ?_⟩)
      simp [State.setOutLen, State.setInPos]

/-- Everything DECOMPRESS can do once ORIG_LEN is written (R237). -/
theorem State.decodeContainer_cases (s : State) :
    (∃ c p, s.decodeContainer = .raise c p s) ∨ s.decodeContainer = .ok (s.setInPos (s.inOff.toNat + 8)) ∨
    (s.origLen.toNat ≤ s.params.outBufSize ∧
      s.decodeContainer = s.parseTree (8 * (s.inOff.toNat + 8)) fun s p =>
        s.unpackFrom s.origLen.toNat (8 * ceil8 p)) := by
  unfold State.decodeContainer
  split
  · exact .inr (.inl rfl)
  · split
    · exact .inl ⟨_, _, rfl⟩
    · next hfits => exact .inr (.inr ⟨not_lt.1 hfits, rfl⟩)

/-- Everything DECOMPRESS can do after its window check (R237). -/
theorem State.decompressWindow_cases (s : State) :
    (∃ c p, s.decompressWindow = .raise c p s) ∨
    s.decompressWindow = State.decodeContainer { s with origLen := s.lengthField s.inOff.toNat } := by
  simp only [State.decompressWindow]
  split
  · exact .inl ⟨_, _, rfl⟩
  · split
    · split
      · exact .inl ⟨_, _, rfl⟩
      · exact .inr rfl
    · exact .inl ⟨_, _, rfl⟩

/-- COMPRESS's working state, before it builds (R232): the old tree is gone and the window is counted. -/
def State.counted (s : State) : State := { s.invalidate with origLen := BitVec.ofNat 32 s.windowLen }.analyze

theorem State.compressWindow_eq (s : State) :
    s.compressWindow = if s.windowLen = 0 then .ok s.counted.compressEmpty
      else (s.counted.buildTree.andThen State.deriveCodes).andThen State.emitContainer := rfl

/-- Everything COMPRESS can do after its window check (R232); the tree it builds is one that it can derive codes from. -/
theorem State.compressWindow_cases (s : State) :
    s.compressWindow = .ok s.counted.compressEmpty ∨
    s.compressWindow = .raise .emptyTable 0 s.counted.clearTreeRegs ∨
    ∃ b t, s.counted.buildTree = .ok b ∧ b.holdsTree t ∧
      s.compressWindow = (b.withCodes t.table).emitContainer := by
  rw [s.compressWindow_eq]
  split
  · exact .inl rfl
  · right
    rcases s.counted.buildTree_cases with ⟨-, he⟩ | ⟨a, k, -, -, he⟩
    · exact .inl (by rw [he]; rfl)
    · obtain ⟨t, ht⟩ := State.buildTree_holdsTree he
      exact .inr ⟨_, t, he, ht, by rw [he, Run.andThen_ok, State.deriveCodes_of_holdsTree ht, Run.andThen_ok]⟩

/-! ## Writes beside the tree -/

/-- `u` has the tree, its registers, its codes and the validity flags of `s`. -/
structure State.SameTree (s u : State) : Prop where
  treeValid : u.treeValid = s.treeValid
  codesValid : u.codesValid = s.codesValid
  nodes : u.nodes = s.nodes
  nodeCount : u.nodeCount = s.nodeCount
  root : u.root = s.root
  leafCount : u.leafCount = s.leafCount
  descBits : u.descBits = s.descBits
  codes : u.codes = s.codes

theorem State.SameTree.refl (s : State) : s.SameTree s := ⟨rfl, rfl, rfl, rfl, rfl, rfl, rfl, rfl⟩

theorem State.SameTree.holdsTree {s u : State} {t : CodeTree} (h : s.SameTree u) (ht : s.holdsTree t) : u.holdsTree t :=
  State.holdsTree_congr ht h.nodeCount h.root h.leafCount h.descBits fun x _ => by rw [h.nodes]

theorem State.SameTree.flagsTrue {s u : State} (h : s.SameTree u) (hs : s.flagsTrue) : u.flagsTrue := by
  obtain ⟨htree, hcodes⟩ := hs
  refine ⟨fun hv => ?_, fun hv => ?_⟩
  · obtain ⟨t, ht⟩ := htree (h.treeValid ▸ hv)
    exact ⟨t, h.holdsTree ht⟩
  · obtain ⟨t, ht, hc⟩ := hcodes (h.codesValid ▸ hv)
    exact ⟨t, h.holdsTree ht, h.codes ▸ hc⟩

theorem State.SameTree.treeRegsOk {s u : State} (h : s.SameTree u) (hs : s.treeRegsOk) : u.treeRegsOk := by
  rw [State.treeRegsOk, h.codesValid, h.treeValid, h.nodeCount, h.root, h.leafCount, h.descBits]
  exact hs

theorem State.sameTree_busRead (s : State) (addr : Word) : s.SameTree (s.busRead addr) := by
  rcases s.busRead_cases addr with ⟨-, he⟩ | ⟨d, -, he⟩ | he <;> rw [he] <;> constructor <;> rfl

theorem State.sameTree_writeTarget (s : State) (wdata : Word) (strb : BitVec 4) (c : Target) :
    s.SameTree (s.writeTarget wdata strb c) := by
  cases c with
  | reg r => cases r <;> constructor <;> rfl
  | _ => constructor <;> rfl

theorem State.sameTree_busWrite (s : State) (addr wdata : Word) (strb : BitVec 4) :
    s.SameTree (s.busWrite addr wdata strb) := by
  rcases s.busWrite_cases addr wdata strb with he | ⟨-, -, he⟩ | ⟨-, -, he⟩ <;> rw [he]
  · constructor <;> rfl
  · constructor <;> rfl
  · obtain ⟨h1, h2, h3, h4, h5, h6, h7, h8⟩ := s.sameTree_writeTarget wdata strb (decodeAddr s.params addr)
    exact ⟨h1, h2, h3, h4, h5, h6, h7, h8⟩

theorem State.sameTree_packWindow (s : State) : s.packWindow.endsIn s.SameTree := by
  rcases s.packWindow_cases with ⟨c, p, he⟩ | ⟨bits, w, -, -, -, he⟩ <;> rw [he] <;> constructor <;> rfl

theorem State.sameTree_unpackFrom (s : State) (count p : Nat) : (s.unpackFrom count p).endsIn s.SameTree := by
  rcases s.unpackFrom_cases count p with ⟨buf, p', -, he⟩ | ⟨buf, -, he⟩ | he <;> rw [he]
  · constructor <;> rfl
  · constructor <;> rfl
  · trivial

theorem State.sameTree_unpackWindow (s : State) : s.unpackWindow.endsIn s.SameTree := by
  rcases s.unpackWindow_cases with ⟨c, p, he⟩ | he | ⟨-, -, he⟩ <;> rw [he]
  · exact State.SameTree.refl s
  · constructor <;> rfl
  · exact s.sameTree_unpackFrom _ _

theorem State.sameTree_serializeTree (s : State) : s.serializeTree.endsIn s.SameTree := by
  rcases s.serializeTree_cases with he | ⟨w, -, he⟩ <;> rw [he]
  · trivial
  · constructor <;> rfl

theorem State.sameTree_emitContainer (s : State) : s.emitContainer.endsIn s.SameTree := by
  rcases s.emitContainer_cases with ⟨c, p, he⟩ | he | ⟨d, w, -, -, -, he⟩ <;> rw [he]
  · exact State.SameTree.refl s
  · trivial
  · constructor <;> rfl

/-! ## The four outcomes -/

/-- What a command's lines leave of the tree. That the codes written are a tree's is known only where the flags told the
truth before. -/
inductive State.TreeOutcome (s u : State) : Prop
  /-- the tree, its registers and its codes as before -/
  | kept (h : s.SameTree u)
  /-- no tree, its registers 0 -/
  | cleared (htree : u.treeValid = false) (hcodes : u.codesValid = false)
      (hregs : u.nodeCount = 0#10 ∧ u.root = 0#9 ∧ u.leafCount = 0#9 ∧ u.descBits = 0#12)
  /-- a new tree, without codes -/
  | built (htree : u.treeValid = true) (hcodes : u.codesValid = false) (h : ∃ t, u.holdsTree t)
  /-- a tree with its codes -/
  | coded (htree : u.treeValid = true) (h : s.flagsTrue → ∃ t, u.holdsTree t ∧ t.codeTable u.codes)

theorem State.TreeOutcome.flagsTrue {s u : State} (h : s.TreeOutcome u) (hs : s.flagsTrue) : u.flagsTrue := by
  cases h with
  | kept h => exact h.flagsTrue hs
  | cleared htree hcodes => exact ⟨fun hv => by simp [htree] at hv, fun hv => by simp [hcodes] at hv⟩
  | built _ hcodes h => exact ⟨fun _ => h, fun hv => by simp [hcodes] at hv⟩
  | coded _ h =>
    obtain ⟨t, ht, hc⟩ := h hs
    exact ⟨fun _ => ⟨t, ht⟩, fun _ => ⟨t, ht, hc⟩⟩

theorem State.TreeOutcome.treeRegsOk {s u : State} (h : s.TreeOutcome u) (hs : s.treeRegsOk) : u.treeRegsOk := by
  cases h with
  | kept h => exact h.treeRegsOk hs
  | cleared _ hcodes hregs => exact ⟨fun hv => by simp [hcodes] at hv, fun _ => hregs⟩
  | built htree => exact ⟨fun _ => htree, fun hv => by simp [htree] at hv⟩
  | coded htree => exact ⟨fun _ => htree, fun hv => by simp [htree] at hv⟩

/-- Writes beside the tree, before a command's lines, do not matter. -/
theorem State.TreeOutcome.of_sameTree {s s' : State} {r : Run} (h : s.SameTree s') (hr : r.endsIn s'.TreeOutcome) :
    r.endsIn s.TreeOutcome :=
  Run.endsIn_mono hr fun u hu => by
    cases hu with
    | kept h' =>
      exact .kept ⟨h'.treeValid.trans h.treeValid, h'.codesValid.trans h.codesValid, h'.nodes.trans h.nodes,
        h'.nodeCount.trans h.nodeCount, h'.root.trans h.root, h'.leafCount.trans h.leafCount,
        h'.descBits.trans h.descBits, h'.codes.trans h.codes⟩
    | cleared htree hcodes hregs => exact .cleared htree hcodes hregs
    | built htree hcodes h' => exact .built htree hcodes h'
    | coded htree h' => exact .coded htree fun hs => h' (h.flagsTrue hs)

/-- Nor do writes beside the tree after it is built. -/
theorem State.TreeOutcome.built_of_sameTree {s b : State} {r : Run} (htree : b.treeValid = true)
    (hcodes : b.codesValid = false) (h : ∃ t, b.holdsTree t) (hr : r.endsIn b.SameTree) : r.endsIn s.TreeOutcome :=
  Run.endsIn_mono hr fun u hu => by
    obtain ⟨t, ht⟩ := h
    exact .built (hu.treeValid.trans htree) (hu.codesValid.trans hcodes) ⟨t, hu.holdsTree ht⟩

/-- Nor after its codes are written. -/
theorem State.TreeOutcome.coded_of_sameTree {s b : State} {t : CodeTree} {r : Run} (htree : b.treeValid = true)
    (ht : b.holdsTree t) (hr : r.endsIn (b.withCodes t.table).SameTree) : r.endsIn s.TreeOutcome :=
  Run.endsIn_mono hr fun u hu => by
    have hu' : u.codes = t.table := hu.codes
    exact .coded (hu.treeValid.trans htree) fun _ =>
      ⟨t, hu.holdsTree (s := b.withCodes t.table) ht, hu'.symm ▸ CodeTree.codeTable_table (State.nodup_of_holdsTree ht)⟩

/-! ## The commands that write the tree -/

theorem State.treeOutcome_buildTree (s₀ s : State) (hcodes : s.codesValid = false) (htree : s.treeValid = false) :
    s.buildTree.endsIn s₀.TreeOutcome := by
  rcases s.buildTree_cases with ⟨-, he⟩ | ⟨a, k, -, -, he⟩
  · rw [he]
    exact .cleared htree hcodes ⟨rfl, rfl, rfl, rfl⟩
  · have ht := State.buildTree_holdsTree he
    rw [he]
    exact .built rfl hcodes ht

theorem State.treeOutcome_deriveCodes (s : State) (htree : s.treeValid = true) :
    s.deriveCodes.endsIn s.TreeOutcome := by
  rcases s.deriveCodes_cases with he | ⟨c, -, he⟩
  · rw [he]
    trivial
  · rw [he]
    refine .coded htree fun hs => ?_
    obtain ⟨t, ht⟩ := hs.1 htree
    rw [State.deriveCodes_of_holdsTree ht] at he
    have hc : t.table = c := congrArg State.codes (Run.ok.inj he)
    exact ⟨t, ht, hc ▸ CodeTree.codeTable_table (State.nodup_of_holdsTree ht)⟩

theorem State.treeOutcome_parseTree (s : State) (p0 : Nat) {k : State → Nat → Run}
    (hk : ∀ u p, (k u p).endsIn u.SameTree) : (s.parseTree p0 k).endsIn s.TreeOutcome := by
  rcases s.parseTree_cases p0 k with ⟨c, pos, a, -, he⟩ | ⟨r, hr, he⟩
  · rw [he]
    exact .cleared rfl rfl ⟨rfl, rfl, rfl, rfl⟩
  · rw [he]
    exact State.TreeOutcome.built_of_sameTree rfl rfl (State.holdsTree_of_parseLoop hr) (hk _ _)

theorem State.treeOutcome_compressWindow (s : State) : s.compressWindow.endsIn s.TreeOutcome := by
  rcases s.compressWindow_cases with he | he | ⟨b, t, hb, ht, he⟩ <;> rw [he]
  · exact .cleared rfl rfl ⟨rfl, rfl, rfl, rfl⟩
  · exact .cleared rfl rfl ⟨rfl, rfl, rfl, rfl⟩
  · have htree : b.treeValid = true := congrArg State.treeValid (State.buildTree_frame hb)
    exact State.TreeOutcome.coded_of_sameTree htree ht (State.sameTree_emitContainer _)

theorem State.treeOutcome_decompressWindow (s : State) : s.decompressWindow.endsIn s.TreeOutcome := by
  rcases s.decompressWindow_cases with ⟨c, p, he⟩ | he <;> rw [he]
  · exact .kept (.refl s)
  · refine State.TreeOutcome.of_sameTree (s' := { s with origLen := s.lengthField s.inOff.toNat })
      ⟨rfl, rfl, rfl, rfl, rfl, rfl, rfl, rfl⟩ ?_
    generalize { s with origLen := s.lengthField s.inOff.toNat } = u
    rcases u.decodeContainer_cases with ⟨c, p, he⟩ | he | ⟨-, he⟩ <;> rw [he]
    · exact .kept (.refl u)
    · exact .kept ⟨rfl, rfl, rfl, rfl, rfl, rfl, rfl, rfl⟩
    · exact u.treeOutcome_parseTree _ fun v p => v.sameTree_unpackFrom _ _

/-- R53: what every command leaves of the tree. -/
theorem commandRun_treeOutcome (i : Instr) (s : State) : (commandRun i s).endsIn s.TreeOutcome := by
  have hout : s.SameTree (s.setOutLen 0) := ⟨rfl, rfl, rfl, rfl, rfl, rfl, rfl, rfl⟩
  have hkept {r : Run} (h : r.endsIn s.SameTree) : r.endsIn s.TreeOutcome := Run.endsIn_mono h fun _ => .kept
  have hkeptOut {r : Run} (h : r.endsIn (s.setOutLen 0).SameTree) : r.endsIn s.TreeOutcome :=
    State.TreeOutcome.of_sameTree hout (Run.endsIn_mono h fun _ => .kept)
  cases i with
  | clear => exact .cleared rfl rfl ⟨rfl, rfl, rfl, rfl⟩
  | analyze => exact hkept (State.endsIn_checkWindow (.refl s) fun _ => ⟨rfl, rfl, rfl, rfl, rfl, rfl, rfl, rfl⟩)
  | build => exact s.treeOutcome_buildTree s.invalidate rfl rfl
  | derive =>
    rw [commandRun]
    split
    · next hv => exact s.treeOutcome_deriveCodes hv
    · exact hkept (.refl s)
  | pack => exact hkeptOut (State.endsIn_checkWindow (.refl _) fun _ => State.sameTree_packWindow _)
  | unpack => exact hkeptOut (State.endsIn_checkWindow (.refl _) fun _ => State.sameTree_unpackWindow _)
  | sertree =>
    rw [commandRun]
    split
    · exact hkeptOut (State.sameTree_serializeTree _)
    · exact hkept hout
  | parsetree =>
    exact State.endsIn_checkWindow (.kept (.refl s)) fun _ =>
      s.treeOutcome_parseTree _ fun _ _ => ⟨rfl, rfl, rfl, rfl, rfl, rfl, rfl, rfl⟩
  | compress =>
    exact State.TreeOutcome.of_sameTree hout
      (State.endsIn_checkWindow (.kept (.refl _)) fun _ => State.treeOutcome_compressWindow _)
  | decompress =>
    exact State.TreeOutcome.of_sameTree hout
      (State.endsIn_checkWindow (.kept (.refl _)) fun _ => State.treeOutcome_decompressWindow _)
  | nop | illegal | hread | hwrite => exact hkept (.refl s)

/-! ## The obligations -/

theorem State.flagsTrue_complete {s : State} (h : s.flagsTrue) (c : Option Cause) (p : Nat) :
    (s.complete c p).flagsTrue := by
  obtain ⟨htree, hcodes⟩ := h
  refine ⟨fun hv => ?_, fun hv => ?_⟩
  · obtain ⟨t, ht⟩ := htree hv
    exact ⟨t, State.holdsTree_complete ht c p⟩
  · obtain ⟨t, ht, hc⟩ := hcodes hv
    exact ⟨t, State.holdsTree_complete ht c p, hc⟩

/-- Settles O54, from what every command leaves of the tree; the bus does not touch it and reset clears it. -/
theorem stepKeepsTreeRegisters : Obligations.StepKeepsTreeRegisters := by
  intro s t hs hstep
  exact step_ends hstep hs (fun _ h => h) (fun _ h => h)
    (fun i s h => Run.endsIn_mono (commandRun_treeOutcome i s) fun _ hu _ _ => hu.treeRegsOk h)
    (fun addr s h => (s.sameTree_busRead addr).treeRegsOk h)
    (fun addr wdata strb s h => (s.sameTree_busWrite addr wdata strb).treeRegsOk h)
    (fun _ _ => ⟨(nomatch ·), fun _ => ⟨rfl, rfl, rfl, rfl⟩⟩)

/-- Settles O55, from what every command leaves of the tree; the completion step keeps the entries below NODE_COUNT, the
bus does not touch the tree, and reset clears the flags. -/
theorem stepKeepsFlagsTrue : Obligations.StepKeepsFlagsTrue := by
  intro s t hs hstep
  exact step_ends hstep hs (fun _ h => h) (fun _ h => h)
    (fun i s h => Run.endsIn_mono (commandRun_treeOutcome i s)
      fun _ hu c p => State.flagsTrue_complete (hu.flagsTrue h) c p)
    (fun addr s h => (s.sameTree_busRead addr).flagsTrue h)
    (fun addr wdata strb s h => (s.sameTree_busWrite addr wdata strb).flagsTrue h)
    (fun _ _ => ⟨(nomatch ·), (nomatch ·)⟩)

end Sys2Proof.Machine
end

section
/-! SUPPORT. How much a command writes: the bit writer's cursor (44_bit_packer.md rule R199), the bits of a payload (R182,
R200), and the bounds on OUT_LEN and PAYLOAD_BITS that follow (10_state.md rules R33 and R39). -/

namespace Sys2Proof.Machine

/-! ## The bit writer's cursor -/

theorem Writer.putBit_position {w : Writer} (h : w.nacc < 8) (b : Bool) :
    (w.putBit b).nacc < 8 ∧ 8 * (w.putBit b).op + (w.putBit b).nacc = 8 * w.op + w.nacc + 1 := by
  simp only [Writer.putBit]
  split
  · exact ⟨Nat.succ_pos 7, by simp only; omega⟩
  · exact ⟨by simp only; omega, by simp only; omega⟩

theorem Writer.putBits_position {w : Writer} (h : w.nacc < 8) (bs : List Bool) :
    (w.putBits bs).nacc < 8 ∧ 8 * (w.putBits bs).op + (w.putBits bs).nacc = 8 * w.op + w.nacc + bs.length := by
  induction bs generalizing w with
  | nil => exact ⟨h, rfl⟩
  | cons b bs ih =>
    obtain ⟨hput, hpos⟩ := Writer.putBit_position h b
    obtain ⟨hrest, hend⟩ := ih hput
    rw [Writer.putBits_cons, List.length_cons]
    exact ⟨hrest, by omega⟩

/-- R199: a bit string written through a fresh accumulator takes its whole bytes. -/
theorem Writer.op_flush_putBits (buf : Memory) (o : Nat) (bs : List Bool) :
    (((Writer.start buf o).putBits bs).flush).op = o + ceil8 bs.length := by
  obtain ⟨hnacc, hpos⟩ := Writer.putBits_position (w := Writer.start buf o) (Nat.succ_pos 7) bs
  simp only [Writer.start] at hnacc hpos ⊢
  rw [ceil8, Writer.flush]
  split
  · simp only
    omega
  · omega

/-! ## The bits of a payload -/

theorem Code.length_bits (c : Code) : c.bits.length = c.len.toNat := length_bitsMsb c.val c.len.toNat

theorem length_payloadOf (t : CodeTable) (ws : List Byte) :
    (payloadOf t ws).length = (ws.map fun b => (symGet t b).len.toNat).sum := by
  simp only [payloadOf, List.length_flatMap, Code.length_bits]

theorem Writer.putCodes_eq (t : CodeTable) (w : Writer) (ws : List Byte) :
    w.putCodes t ws = w.putBits (payloadOf t ws) := by
  induction ws generalizing w with
  | nil => rfl
  | cons b ws ih => exact (ih _).trans (Writer.putBits_append w _ _).symm

/-- R200: what phase PREPASS counts. -/
theorem packBits_eq_ok {t : CodeTable} {ws : List Byte} {j bits n : Nat} (h : packBits t ws j bits = .ok n) :
    n = bits + (payloadOf t ws).length := by
  induction ws generalizing j bits with
  | nil => exact (Except.ok.inj h).symm
  | cons b ws ih =>
    rw [packBits] at h
    split at h
    · cases h
    · rw [ih h, length_payloadOf, length_payloadOf, List.map_cons, List.sum_cons, Nat.add_assoc]

theorem length_payloadOf_le (t : CodeTable) (ws : List Byte) : (payloadOf t ws).length ≤ 255 * ws.length := by
  rw [length_payloadOf, Nat.mul_comm]
  refine (List.sum_le_card_nsmul _ 255 fun n hn => ?_).trans (by simp)
  obtain ⟨b, -, rfl⟩ := List.mem_map.1 hn
  exact Nat.le_of_lt_succ (symGet t b).len.isLt

/-! ## `Σ FREQ · LEN` -/

/-- R182: the sum over the table's entries is the sum over the symbols. -/
theorem payloadLength_eq (f : FreqTable) (t : CodeTable) :
    payloadLength f t = (allSymbols.map fun x => (symGet f x).toNat * (symGet t x).len.toNat).sum := by
  rw [payloadLength]
  congr 1
  refine List.ext_getElem (by simp [allSymbols]) fun i hi _ => ?_
  have hi' : i < 256 := by simpa using hi
  simp [allSymbols, symGet, Nat.mod_eq_of_lt hi']

/-- R39: 256 terms, each below 2^32 · 255. -/
theorem payloadLength_lt (f : FreqTable) (t : CodeTable) : payloadLength f t < 2 ^ 48 := by
  have hterm : ∀ n ∈ allSymbols.map fun x => (symGet f x).toNat * (symGet t x).len.toNat, n ≤ (2 ^ 32 - 1) * 255 := by
    intro n hn
    obtain ⟨x, -, rfl⟩ := List.mem_map.1 hn
    exact Nat.mul_le_mul (Nat.le_of_lt_succ (symGet f x).isLt) (Nat.le_of_lt_succ (symGet t x).len.isLt)
  have hsum := List.sum_le_card_nsmul _ _ hterm
  have hlen : allSymbols.length = 256 := by simp [allSymbols]
  rw [List.length_map, hlen, smul_eq_mul] at hsum
  rw [payloadLength_eq]
  omega

theorem symGet_countBytes (f : FreqTable) (ws : List Byte) (x : Symbol) :
    symGet (countBytes f ws) x = symGet f x + BitVec.ofNat 32 (ws.count x) := by
  induction ws generalizing f with
  | nil => simp [countBytes]
  | cons b ws ih =>
    rw [show countBytes f (b :: ws) = countBytes (symSet f b (symGet f b + 1#32)) ws from rfl, ih, symGet_symSet,
      List.count_cons]
    by_cases hx : x = b
    · subst hx
      rw [if_pos rfl, if_pos (beq_self_eq_true x), BitVec.add_assoc, Nat.add_comm, BitVec.ofNat_add]
    · rw [if_neg hx, if_neg (by simpa using Ne.symm hx), Nat.add_zero]

/-- R182, R232: the counts of a window make PAYLOAD_BITS the length of its payload. -/
theorem payloadLength_countBytes (t : CodeTable) {ws : List Byte} (h : ws.length < 2 ^ 32) :
    payloadLength (countBytes (Vector.replicate 256 0#32) ws) t = (payloadOf t ws).length := by
  have hcount (x : Symbol) : (symGet (countBytes (Vector.replicate 256 0#32) ws) x).toNat = ws.count x := by
    rw [symGet_countBytes, symGet_replicate, BitVec.zero_add]
    exact Nat.mod_eq_of_lt (List.count_le_length.trans_lt h)
  calc payloadLength (countBytes (Vector.replicate 256 0#32) ws) t
      = (allSymbols.map fun x => ws.count x * (symGet t x).len.toNat).sum := by simp only [payloadLength_eq, hcount]
    _ = ∑ x ∈ allSymbols.toFinset, ws.count x * (symGet t x).len.toNat :=
        (List.sum_toFinset _ nodup_allSymbols).symm
    _ = ∑ x ∈ ws.toFinset, ws.count x * (symGet t x).len.toNat := by
        refine (Finset.sum_subset (fun x _ => List.mem_toFinset.2 (mem_allSymbols x)) fun x _ hx => ?_).symm
        rw [List.count_eq_zero_of_not_mem fun hm => hx (List.mem_toFinset.2 hm), Nat.zero_mul]
    _ = (ws.map fun b => (symGet t b).len.toNat).sum := (Finset.sum_list_map_count ws _).symm
    _ = (payloadOf t ws).length := (length_payloadOf t ws).symm

/-! ## The bounds -/

/-- PAYLOAD_BITS is below 2^48 (R39) and OUT_LEN within OUT_BUF (R33). -/
def State.outputBounds (s : State) : Prop := s.payloadBits.toNat < 2 ^ 48 ∧ s.outLen.toNat ≤ s.params.outBufSize

theorem toNat_ofNat_le (w n : Nat) : (BitVec.ofNat w n).toNat ≤ n := Nat.mod_le n _

theorem State.outputBounds_setOutLen_zero {s : State} (h : s.outputBounds) : (s.setOutLen 0).outputBounds :=
  ⟨h.1, Nat.zero_le _⟩

/-- R7: a legal buffer size. -/
theorem Params.le_of_wf {p : Params} (h : p.wf = true) : p.inBufSize ≤ 2 ^ 24 ∧ 1024 ≤ p.outBufSize := by
  simp only [Params.wf, Params.sizeOk, Bool.and_eq_true, decide_eq_true_eq] at h
  obtain ⟨⟨-, hin⟩, ⟨-, hout⟩, -⟩ := h
  exact ⟨hin, hout⟩

theorem State.windowLen_le {s : State} (hp : s.params.wf = true) (hw : s.windowFits) : s.windowLen ≤ 2 ^ 24 := by
  have := (Params.le_of_wf hp).1
  have := hw.1
  rw [State.windowLen]
  omega

theorem State.outputBounds_packWindow {s : State} (hp : s.params.wf = true) (hw : s.windowFits) (hs : s.outputBounds) :
    s.packWindow.endsIn State.outputBounds := by
  rcases s.packWindow_cases with ⟨c, p, he⟩ | ⟨bits, w, hbits, hfits, hwriter, he⟩ <;> rw [he]
  · exact hs
  · have hlen : bits = (payloadOf s.codes s.window).length := (packBits_eq_ok hbits).trans (Nat.zero_add _)
    have hop : w.op = ceil8 bits := by
      rw [hwriter, Writer.putCodes_eq, Writer.op_flush_putBits, Nat.zero_add, hlen]
    have hbound := length_payloadOf_le s.codes s.window
    rw [← hlen, s.length_window] at hbound
    have hwin := State.windowLen_le hp hw
    exact ⟨(toNat_ofNat_le 64 bits).trans_lt (by omega), (toNat_ofNat_le 25 w.op).trans (hop ▸ hfits)⟩

theorem State.outputBounds_unpackFrom {s : State} {count : Nat} (p : Nat) (hcount : count ≤ s.params.outBufSize)
    (hs : s.outputBounds) : (s.unpackFrom count p).endsIn State.outputBounds := by
  rcases s.unpackFrom_cases count p with ⟨buf, p', -, he⟩ | ⟨buf, -, he⟩ | he <;> rw [he]
  · exact ⟨hs.1, (toNat_ofNat_le 25 count).trans hcount⟩
  · exact hs
  · trivial

theorem State.outputBounds_unpackWindow {s : State} (hs : s.outputBounds) :
    s.unpackWindow.endsIn State.outputBounds := by
  rcases s.unpackWindow_cases with ⟨c, p, he⟩ | he | ⟨-, hfits, he⟩ <;> rw [he]
  · exact hs
  · exact hs
  · exact State.outputBounds_unpackFrom _ hfits hs

/-- R224: a descriptor has at most 2559 bits, and OUT_BUF at least 1024 bytes. -/
theorem State.outputBounds_serializeTree {s : State} {t : CodeTree} (hp : s.params.wf = true) (ht : s.holdsTree t)
    (hs : s.outputBounds) : s.serializeTree.endsIn State.outputBounds := by
  rcases s.serializeTree_cases with he | ⟨w, hw, he⟩ <;> rw [he]
  · trivial
  · rw [State.descWriter_of_holdsTree ht, Option.some.injEq] at hw
    have hop : w.op = ceil8 t.desc.length := by rw [← hw, Writer.op_flush_putBits, Nat.zero_add]
    have hsyms := length_le_of_nodup_symbols (State.nodup_of_holdsTree ht)
    have hout := (Params.le_of_wf hp).2
    rw [t.desc_length, ceil8] at hop
    exact ⟨hs.1, (toNat_ofNat_le 25 w.op).trans (by simp only; omega)⟩

theorem State.outputBounds_parseTree {s : State} (p0 : Nat) {k : State → Nat → Run} (hs : s.outputBounds)
    (hk : ∀ u p, u.params = s.params → u.origLen = s.origLen → u.outputBounds → (k u p).endsIn State.outputBounds) :
    (s.parseTree p0 k).endsIn State.outputBounds := by
  rcases s.parseTree_cases p0 k with ⟨c, pos, a, -, he⟩ | ⟨r, -, he⟩ <;> rw [he]
  · exact hs
  · exact hk _ _ rfl rfl hs

/-- R232: COMPRESS's capacity check counts exactly the bytes it then writes. -/
theorem State.outputBounds_emitContainer {s : State} {t : CodeTree} (ht : s.holdsTree t)
    (hpayload : s.payloadBits.toNat = (payloadOf s.codes s.window).length) (hbits : s.payloadBits.toNat < 2 ^ 48)
    (hout : s.outLen.toNat ≤ s.params.outBufSize) : s.emitContainer.endsIn State.outputBounds := by
  rcases s.emitContainer_cases with ⟨c, p, he⟩ | he | ⟨d, w, hfits, hd, hw, he⟩ <;> rw [he]
  · exact ⟨hbits, hout⟩
  · trivial
  · rw [State.descWriter_of_holdsTree ht, Option.some.injEq] at hd
    have hop : w.op = 8 + ceil8 s.descBits.toNat + ceil8 s.payloadBits.toNat := by
      rw [hw, Writer.putCodes_eq, Writer.op_flush_putBits, ← hd, Writer.op_flush_putBits, hpayload,
        State.desc_length_of_holdsTree ht]
    exact ⟨hbits, (toNat_ofNat_le 25 w.op).trans (hop ▸ hfits)⟩

theorem State.outputBounds_compressWindow {s : State} (hp : s.params.wf = true) (hw : s.windowFits)
    (hs : s.outputBounds) : s.compressWindow.endsIn State.outputBounds := by
  rcases s.compressWindow_cases with he | he | ⟨b, t, hb, ht, he⟩ <;> rw [he]
  · exact ⟨Nat.two_pow_pos 48, (show 8 ≤ 1024 by decide).trans (Params.le_of_wf hp).2⟩
  · exact hs
  · have hframe := State.buildTree_frame hb
    have hfreq : b.freq = countBytes (Vector.replicate 256 0#32) s.window := (congrArg State.freq hframe).trans rfl
    have hwindow : b.window = s.window := (congrArg State.window hframe).trans rfl
    have hparams : b.params = s.params := (congrArg State.params hframe).trans rfl
    have houtLen : b.outLen = s.outLen := (congrArg State.outLen hframe).trans rfl
    have hwin := State.windowLen_le hp hw
    have hlt := payloadLength_lt b.freq t.table
    have hbits : (b.withCodes t.table).payloadBits.toNat = payloadLength b.freq t.table :=
      Nat.mod_eq_of_lt (by omega)
    refine State.outputBounds_emitContainer (s := b.withCodes t.table) (t := t) ht ?_ (hbits ▸ hlt) ?_
    · rw [hbits, hfreq, payloadLength_countBytes _ (by rw [s.length_window]; omega), ← hwindow]
      rfl
    · rw [show (b.withCodes t.table).outLen = s.outLen from houtLen,
        show (b.withCodes t.table).params = s.params from hparams]
      exact hs.2

theorem State.outputBounds_decompressWindow {s : State} (hs : s.outputBounds) :
    s.decompressWindow.endsIn State.outputBounds := by
  rcases s.decompressWindow_cases with ⟨c, p, he⟩ | he <;> rw [he]
  · exact hs
  · have hu : State.outputBounds { s with origLen := s.lengthField s.inOff.toNat } := hs
    generalize { s with origLen := s.lengthField s.inOff.toNat } = u at hu ⊢
    rcases u.decodeContainer_cases with ⟨c, p, he⟩ | he | ⟨hfits, he⟩ <;> rw [he]
    · exact hu
    · exact hu
    · refine State.outputBounds_parseTree _ hu fun v p hparams horig hv => ?_
      exact State.outputBounds_unpackFrom _ (by rwa [hparams, horig]) hv

/-- What every command leaves of the two bounds. -/
theorem commandRun_outputBounds (i : Instr) {s : State} (hp : s.params.wf = true) (hflags : s.flagsTrue)
    (hs : s.outputBounds) : (commandRun i s).endsIn State.outputBounds := by
  have hs0 := State.outputBounds_setOutLen_zero hs
  cases i with
  | clear => exact ⟨Nat.two_pow_pos 48, Nat.zero_le _⟩
  | analyze => exact State.endsIn_checkWindow hs fun _ => hs
  | build => rcases s.invalidate.buildTree_cases with ⟨-, he⟩ | ⟨a, k, -, -, he⟩ <;> rw [commandRun, he] <;> exact hs
  | derive =>
    rw [commandRun]
    split
    · rcases s.deriveCodes_cases with he | ⟨c, -, he⟩ <;> rw [he]
      · trivial
      · exact ⟨(toNat_ofNat_le 64 _).trans_lt (payloadLength_lt s.freq c), hs.2⟩
    · exact hs
  | pack => exact State.endsIn_checkWindow hs0 fun hw => State.outputBounds_packWindow (s := s.setOutLen 0) hp hw hs0
  | unpack => exact State.endsIn_checkWindow hs0 fun _ => State.outputBounds_unpackWindow hs0
  | sertree =>
    rw [commandRun]
    split
    · next hv =>
      obtain ⟨t, ht⟩ := hflags.1 hv
      exact State.outputBounds_serializeTree (s := s.setOutLen 0) hp ht hs0
    · exact hs0
  | parsetree =>
    exact State.endsIn_checkWindow hs fun _ => State.outputBounds_parseTree _ hs fun _ _ _ _ hu => hu
  | compress =>
    exact State.endsIn_checkWindow hs0 fun hw => State.outputBounds_compressWindow (s := s.setOutLen 0) hp hw hs0
  | decompress => exact State.endsIn_checkWindow hs0 fun _ => State.outputBounds_decompressWindow hs0
  | nop | illegal | hread | hwrite => exact hs

theorem State.outputBounds_busRead {s : State} (hs : s.outputBounds) (addr : Word) : (s.busRead addr).outputBounds := by
  rcases s.busRead_cases addr with ⟨-, he⟩ | ⟨d, -, he⟩ | he <;> rw [he] <;> exact hs

theorem State.outputBounds_busWrite {s : State} (hs : s.outputBounds) (addr wdata : Word) (strb : BitVec 4) :
    (s.busWrite addr wdata strb).outputBounds := by
  rcases s.busWrite_cases addr wdata strb with he | ⟨-, -, he⟩ | ⟨-, -, he⟩ <;> rw [he]
  · exact hs
  · exact hs
  · cases decodeAddr s.params addr with
    | reg r => cases r <;> exact hs
    | _ => exact hs

/-- Settles O56: what a command writes is bounded by the length it first checks, a bus access writes neither register,
and reset clears both. -/
theorem stepKeepsOutputBounds : Obligations.StepKeepsOutputBounds := by
  intro s t hp hflags hbits hout hstep
  exact step_ends (P := fun s => s.params.wf = true ∧ s.flagsTrue ∧ s.outputBounds) (Q := State.outputBounds) hstep
    ⟨hp, hflags, hbits, hout⟩ (fun _ h => h) (fun _ h => h.2.2)
    (fun i _ ⟨hp, hflags, hs⟩ => Run.endsIn_mono (commandRun_outputBounds i hp hflags hs) fun _ hu _ _ => hu)
    (fun addr _ ⟨_, _, hs⟩ => State.outputBounds_busRead hs addr)
    (fun addr wdata strb _ ⟨_, _, hs⟩ => State.outputBounds_busWrite hs addr wdata strb)
    (fun _ _ => ⟨Nat.two_pow_pos 48, Nat.zero_le _⟩)

end Sys2Proof.Machine
end

section
/-! SUPPORT. The builder reads neither the arena it finds nor the stale HEAP (42_tree_builder.md rules R156 and R157): runs
that agree on the leaves and on the queue stay in agreement. -/

namespace Sys2Proof.Machine

/-! ## Arenas that agree below an index -/

/-- The two arenas have the same entries at the indices below `m`. -/
def Arena.AgreeBelow (m : Nat) (a b : Arena) : Prop := ∀ x : NodeIx, x.toNat < m → nodeAt b x = nodeAt a x

theorem Arena.AgreeBelow.weightAt {m : Nat} {a b : Arena} (h : Arena.AgreeBelow m a b) {i : NodeIx} (hi : i.toNat < m) :
    weightAt b i = weightAt a i := by
  rw [Machine.weightAt, Machine.weightAt, h i hi]

/-- Writing the same entry at `m` extends the agreement by it. -/
theorem Arena.AgreeBelow.setNode {m : Nat} {a b : Arena} (h : Arena.AgreeBelow m a b) (n : Node) :
    Arena.AgreeBelow (m + 1) (setNode a m n) (setNode b m n) := by
  intro x hx
  simp only [nodeAt, Machine.setNode, Vector.getElem?_setIfInBounds]
  by_cases hm : m = x.toNat
  · rw [if_pos hm, if_pos hm]
  · rw [if_neg hm, if_neg hm]
    exact h x (by omega)

theorem Arena.AgreeBelow.linkChild {m : Nat} {a b : Arena} (h : Arena.AgreeBelow m a b) (par : NodeIx) (side : Bool)
    (i : NodeIx) : Arena.AgreeBelow m (linkChild a par side i) (linkChild b par side i) := by
  intro x hx
  unfold Machine.linkChild
  split
  · exact h x hx
  · split
    · rw [nodeAt_setRight, nodeAt_setRight, h x hx]
    · rw [nodeAt_setLeft, nodeAt_setLeft, h x hx]

theorem scanLeaves_agree (f : FreqTable) (ss : List Symbol) {a b : Arena} {k : Nat} (h : Arena.AgreeBelow k a b) :
    Arena.AgreeBelow (scanLeaves f ss a k).2 (scanLeaves f ss a k).1 (scanLeaves f ss b k).1 := by
  induction ss generalizing a b k with
  | nil => exact h
  | cons x ss ih =>
    simp only [scanLeaves]
    split
    · exact ih (h.setNode _)
    · exact ih h

/-! ## Queues that agree below HSIZE -/

/-- The two HEAP arrays hold the same indices below `n`, with the same weights in the two arenas. -/
def HeapArray.Agree (a b : Arena) (n : Nat) (h g : HeapArray) : Prop :=
  ∀ c, c < n → heapAt g c = heapAt h c ∧ weightAt b (heapAt h c) = weightAt a (heapAt h c)

section Queue
variable {a b : Arena} {n : Nat} {h g : HeapArray}

theorem HeapArray.Agree.mono {m : Nat} (H : HeapArray.Agree a b n h g) (hm : m ≤ n) : HeapArray.Agree a b m h g :=
  fun c hc => H c (hc.trans_le hm)

theorem HeapArray.Agree.keyLess (H : HeapArray.Agree a b n h g) {c p : Nat} (hc : c < n) (hp : p < n) :
    keyLess b (heapAt g c) (heapAt g p) = keyLess a (heapAt h c) (heapAt h p) := by
  obtain ⟨hc, hwc⟩ := H c hc
  obtain ⟨hp, hwp⟩ := H p hp
  rw [Machine.keyLess, Machine.keyLess, hc, hp, hwc, hwp]

/-- Writing an index of the same weight at `c` keeps the agreement elsewhere. -/
theorem HeapArray.Agree.set {x : NodeIx} {c : Nat} (hc : c < 256) (hx : weightAt b x = weightAt a x)
    (H : ∀ d, d < n → d ≠ c → heapAt g d = heapAt h d ∧ weightAt b (heapAt h d) = weightAt a (heapAt h d)) :
    HeapArray.Agree a b n (h.setIfInBounds c x) (g.setIfInBounds c x) := by
  intro d hd
  rw [heapAt_set _ hc, heapAt_set _ hc]
  split
  · exact ⟨rfl, hx⟩
  · next hne => exact H d hd hne

theorem HeapArray.Agree.swap (H : HeapArray.Agree a b n h g) {c p : Nat} (hc : c < n) (hp : p < n) (hn : n ≤ 256) :
    HeapArray.Agree a b n (heapSwap h c p) (heapSwap g c p) := by
  intro d hd
  rw [heapAt_heapSwap _ (by omega) (by omega), heapAt_heapSwap _ (by omega) (by omega)]
  refine H _ ?_
  rw [Equiv.swap_apply_def]
  split
  · exact hc
  · split <;> assumption

theorem HeapArray.Agree.siftUp (H : HeapArray.Agree a b n h g) (fuel : Nat) {c : Nat} (hc : c < n) (hn : n ≤ 256) :
    HeapArray.Agree a b n (siftUp a fuel h c) (siftUp b fuel g c) := by
  induction fuel generalizing h g c with
  | zero => exact H
  | succ fuel ih =>
    simp only [Machine.siftUp]
    split
    · exact H
    · rw [H.keyLess hc (show (c - 1) / 2 < n by omega)]
      split
      · exact ih (H.swap hc (by omega) hn) (by omega)
      · exact H

theorem HeapArray.Agree.bestChild (H : HeapArray.Agree a b n h g) {c : Nat} (hc : c < n) :
    bestChild b g n c = bestChild a h n c := by
  have hstep {i j : Nat} (hj : j < n) : (if i < n ∧ Machine.keyLess b (heapAt g i) (heapAt g j) then i else j) =
      if i < n ∧ Machine.keyLess a (heapAt h i) (heapAt h j) then i else j := by
    by_cases hi : i < n
    · rw [H.keyLess hi hj]
    · rw [if_neg fun h => hi h.1, if_neg fun h => hi h.1]
  simp only [Machine.bestChild]
  rw [hstep hc, hstep (ite_and_lt hc)]

theorem HeapArray.Agree.siftDown (H : HeapArray.Agree a b n h g) (fuel : Nat) {c : Nat} (hc : c < n) (hn : n ≤ 256) :
    HeapArray.Agree a b n (siftDown a n fuel h c) (siftDown b n fuel g c) := by
  induction fuel generalizing h g c with
  | zero => exact H
  | succ fuel ih =>
    have hbest := bestChild_lt a h hc
    simp only [Machine.siftDown, H.bestChild hc]
    split
    · exact H
    · exact ih (H.swap hc hbest hn) hbest

end Queue

/-- The two queues have one size, within HEAP, and agree below it. -/
structure Heap.Agree (a b : Arena) (h g : Heap) : Prop where
  size : g.size = h.size
  size_le : h.size ≤ 256
  arr : HeapArray.Agree a b h.size h.arr g.arr

theorem Heap.Agree.insert {a b : Arena} {h g : Heap} (H : Heap.Agree a b h g) (hs : h.size < 256) {i : NodeIx}
    (hi : weightAt b i = weightAt a i) : Heap.Agree a b (heapInsert a h i) (heapInsert b g i) := by
  refine ⟨congrArg (· + 1) H.size, hs, ?_⟩
  simp only [heapInsert, H.size]
  exact (HeapArray.Agree.set hs hi fun d hd hne => H.arr d (by omega)).siftUp _ (Nat.lt_succ_self _) hs

theorem Heap.Agree.extractMin {a b : Arena} {h g : Heap} (H : Heap.Agree a b h g) (h1 : 1 ≤ h.size) :
    (heapExtractMin b g).1 = (heapExtractMin a h).1 ∧
    Heap.Agree a b (heapExtractMin a h).2 (heapExtractMin b g).2 := by
  have hle := H.size_le
  have hless : HeapArray.Agree a b (h.size - 1) h.arr g.arr := H.arr.mono (Nat.sub_le _ _)
  obtain ⟨hlast, hweight⟩ := H.arr (h.size - 1) (by omega)
  refine ⟨(H.arr 0 h1).1, congrArg (· - 1) H.size, (Nat.sub_le _ _).trans hle, ?_⟩
  simp only [heapExtractMin, H.size]
  split
  · next hpos =>
    rw [hlast]
    exact (HeapArray.Agree.set (by decide) hweight fun d hd _ => hless d hd).siftDown _ hpos (by omega)
  · exact hless

theorem Heap.Agree.load {a b : Arena} {count i : Nat} {h g : Heap} (H : Heap.Agree a b h g)
    (hs : h.size + count ≤ 256)
    (hw : ∀ j, j < i + count → weightAt b (BitVec.ofNat 9 j) = weightAt a (BitVec.ofNat 9 j)) :
    Heap.Agree a b (loadHeap a count i h) (loadHeap b count i g) := by
  induction count generalizing i h g with
  | zero => exact H
  | succ count ih =>
    rw [loadHeap, loadHeap]
    refine ih (H.insert (by omega) (hw i (by omega))) ?_ fun j hj => hw j (by omega)
    rw [heapInsert_size]
    omega

/-! ## Builders that agree -/

/-- The two builders have reached the same index, agree on the arena below it and on the queue, and the queue holds
indices below it only. -/
structure Builder.Agree (b c : Builder) : Prop where
  m : c.m = b.m
  nodes : Arena.AgreeBelow b.m b.nodes c.nodes
  heap : Heap.Agree b.nodes c.nodes b.heap c.heap
  live_lt : ∀ i ∈ b.heap.live, i.toNat < b.m

theorem Heap.mem_live {h : Heap} {c : Nat} (hc : c < h.size) : heapAt h.arr c ∈ h.live :=
  List.mem_map_of_mem (List.mem_range.2 hc)

/-- Agreement on the arena carries over from any arena under the queue to any other one. -/
theorem Heap.Agree.change_arena {a b a' b' : Arena} {h g : Heap} {m : Nat} (H : Heap.Agree a b h g)
    (hnodes : Arena.AgreeBelow m a' b') (hlive : ∀ i ∈ h.live, i.toNat < m) : Heap.Agree a' b' h g :=
  ⟨H.size, H.size_le, fun c hc => ⟨(H.arr c hc).1, hnodes.weightAt (hlive _ (Heap.mem_live hc))⟩⟩

theorem Builder.Agree.mergeStep {b c : Builder} (H : b.Agree c) (h2 : 1 < b.heap.size) :
    (mergeStep b).Agree (mergeStep c) := by
  have hle := H.heap.size_le
  obtain ⟨hx, H1⟩ := H.heap.extractMin (by omega)
  have hsize1 := heapExtractMin_size b.nodes b.heap
  obtain ⟨hy, H2⟩ := H1.extractMin (by omega)
  have hsize2 := heapExtractMin_size b.nodes (heapExtractMin b.nodes b.heap).2
  have hperm1 := heapExtractMin_live_perm b.nodes b.heap (by omega) hle
  have hperm2 := heapExtractMin_live_perm b.nodes (heapExtractMin b.nodes b.heap).2 (by omega) (by omega)
  have hlive1 : ∀ i ∈ (heapExtractMin b.nodes b.heap).1 :: (heapExtractMin b.nodes b.heap).2.live, i.toNat < b.m :=
    fun i hi => H.live_lt i (hperm1.mem_iff.1 hi)
  have hlive2 : ∀ i ∈ (heapExtractMin b.nodes (heapExtractMin b.nodes b.heap).2).1 ::
      (heapExtractMin b.nodes (heapExtractMin b.nodes b.heap).2).2.live, i.toNat < b.m :=
    fun i hi => hlive1 i (List.mem_cons_of_mem _ (hperm2.mem_iff.1 hi))
  have hwx := H.nodes.weightAt (hlive1 _ List.mem_cons_self)
  have hwy := H.nodes.weightAt (hlive2 _ List.mem_cons_self)
  have hnew : (BitVec.ofNat 9 b.m).toNat < b.m + 1 := Nat.lt_succ_of_le (Nat.mod_le b.m _)
  simp only [Machine.mergeStep]
  rw [hx, hy, hwx, hwy, H.m]
  have hnodes := H.nodes.setNode (internalNode
    (weightAt b.nodes (heapExtractMin b.nodes b.heap).1 +
      weightAt b.nodes (heapExtractMin b.nodes (heapExtractMin b.nodes b.heap).2).1)
    (heapExtractMin b.nodes b.heap).1 (heapExtractMin b.nodes (heapExtractMin b.nodes b.heap).2).1)
  refine ⟨rfl, hnodes, ?_, fun i hi => ?_⟩
  · refine Heap.Agree.insert ?_ (by omega) (hnodes.weightAt hnew)
    exact H2.change_arena hnodes fun i hi => Nat.lt_succ_of_lt (hlive2 i (List.mem_cons_of_mem _ hi))
  · rcases List.mem_cons.1 ((heapInsert_live_perm _ _ _ (by omega)).mem_iff.1 hi) with rfl | hi
    · exact hnew
    · exact Nat.lt_succ_of_lt (hlive2 i (List.mem_cons_of_mem _ hi))

theorem Builder.Agree.mergeLoop {b c : Builder} (fuel : Nat) (H : b.Agree c) :
    (mergeLoop fuel b).Agree (mergeLoop fuel c) := by
  induction fuel generalizing b c with
  | zero => exact H
  | succ fuel ih =>
    rw [Machine.mergeLoop, Machine.mergeLoop, H.heap.size]
    split
    · next h2 => exact ih (H.mergeStep h2)
    · exact H

/-- The merge loop's start: the leaves loaded over any stale HEAP. -/
theorem Builder.agree_of_load {a b : Arena} {k : Nat} (stale stale' : HeapArray) (hk : k ≤ 256)
    (h : Arena.AgreeBelow k a b) :
    Builder.Agree { nodes := a, heap := loadHeap a k 0 { arr := stale, size := 0 }, m := k }
      { nodes := b, heap := loadHeap b k 0 { arr := stale', size := 0 }, m := k } := by
  have hlt {j : Nat} (hj : j < k) : (BitVec.ofNat 9 j).toNat < k := (Nat.mod_le j _).trans_lt hj
  have hsize : (0 : Nat) + k ≤ 256 := by omega
  refine ⟨rfl, h, ?_, fun i hi => ?_⟩
  · exact Heap.Agree.load ⟨rfl, Nat.zero_le _, fun c hc => absurd hc (Nat.not_lt_zero c)⟩ hsize
      fun j hj => h.weightAt (hlt (by omega))
  · have hmem := (loadHeap_live_perm a (i := 0) (h := { arr := stale, size := 0 }) hsize).mem_iff.1 hi
    obtain ⟨j, hj, rfl⟩ : ∃ j ∈ List.range' 0 k, BitVec.ofNat 9 j = i := by simpa [Heap.live] using hmem
    exact hlt (by simpa using hj)

/-- R157: what BUILD grows from the same leaves does not depend on the rest of the arena, nor on HEAP. -/
theorem growTree_agree {a b : Arena} {k : Nat} (stale stale' : HeapArray) (hk : k ≤ 256) (h : Arena.AgreeBelow k a b) :
    (growTree stale' b k).2 = (growTree stale a k).2 ∧
    Arena.AgreeBelow (growTree stale a k).2 (growTree stale a k).1 (growTree stale' b k).1 := by
  by_cases hone : k = 1
  · subst hone
    rw [growTree, growTree, if_pos rfl, if_pos rfl]
    obtain ⟨n, hn⟩ := nodeAt_isSome a (i := 0#9) (by decide)
    rw [singleSymbolTree, singleSymbolTree, h 0#9 (by decide), hn]
    exact ⟨rfl, (h.setNode _).setNode _⟩
  · rw [growTree, growTree, if_neg hone, if_neg hone]
    have H := (Builder.agree_of_load stale stale' hk h).mergeLoop k
    exact ⟨H.m, H.nodes⟩

end Sys2Proof.Machine
end

section
/-! SUPPORT. What the spec leaves unspecified is never read (10_state.md rules R47, R50, R51): a command that finds other
hidden arrays, or under true flags other arena entries at indices ≥ NODE_COUNT, ends the same. -/

namespace Sys2Proof.Machine

/-! ## States that agree on what is specified -/

/-- `s` with another arena and other hidden arrays. -/
def State.patch (s : State) (a : Arena) (h : Hidden) : State := { s with nodes := a, hidden := h }

/-! The proofs are `(rfl)`, not `rfl`, so that `simp` rewrites with them by congruence and an `if` it
rewrites keeps a decidability proof of its own condition. -/

section Patch
variable (s : State) (a : Arena) (h : Hidden)

@[simp] theorem State.patch_nodes : (s.patch a h).nodes = a := (rfl)
@[simp] theorem State.patch_hidden : (s.patch a h).hidden = h := (rfl)
@[simp] theorem State.patch_params : (s.patch a h).params = s.params := (rfl)
@[simp] theorem State.patch_treeValid : (s.patch a h).treeValid = s.treeValid := (rfl)
@[simp] theorem State.patch_codesValid : (s.patch a h).codesValid = s.codesValid := (rfl)
@[simp] theorem State.patch_nodeCount : (s.patch a h).nodeCount = s.nodeCount := (rfl)
@[simp] theorem State.patch_root : (s.patch a h).root = s.root := (rfl)
@[simp] theorem State.patch_descBits : (s.patch a h).descBits = s.descBits := (rfl)
@[simp] theorem State.patch_payloadBits : (s.patch a h).payloadBits = s.payloadBits := (rfl)
@[simp] theorem State.patch_nodeSel : (s.patch a h).nodeSel = s.nodeSel := (rfl)
@[simp] theorem State.patch_origLen : (s.patch a h).origLen = s.origLen := (rfl)
@[simp] theorem State.patch_inLen : (s.patch a h).inLen = s.inLen := (rfl)
@[simp] theorem State.patch_inOff : (s.patch a h).inOff = s.inOff := (rfl)
@[simp] theorem State.patch_freq : (s.patch a h).freq = s.freq := (rfl)
@[simp] theorem State.patch_codes : (s.patch a h).codes = s.codes := (rfl)
@[simp] theorem State.patch_outBuf : (s.patch a h).outBuf = s.outBuf := (rfl)
@[simp] theorem State.patch_window : (s.patch a h).window = s.window := (rfl)
@[simp] theorem State.patch_windowLen : (s.patch a h).windowLen = s.windowLen := (rfl)
@[simp] theorem State.patch_inBit (p : Nat) : (s.patch a h).inBit p = s.inBit p := (rfl)
@[simp] theorem State.patch_bitAvailable (p : Nat) : (s.patch a h).bitAvailable p = s.bitAvailable p := (rfl)
@[simp] theorem State.patch_magicAt (o : Nat) : (s.patch a h).magicAt o = s.magicAt o := (rfl)
@[simp] theorem State.patch_lengthField (o : Nat) : (s.patch a h).lengthField o = s.lengthField o := (rfl)

end Patch

/-- `u` is `s` but for the hidden arrays and the arena entries at indices ≥ NODE_COUNT. -/
def State.Agree (s u : State) : Prop := ∃ a h, u = s.patch a h ∧ Arena.AgreeBelow s.nodeCount.toNat s.nodes a

theorem State.agree_patch {s : State} {a : Arena} (h : Hidden) (ha : Arena.AgreeBelow s.nodeCount.toNat s.nodes a) :
    s.Agree (s.patch a h) := ⟨a, h, rfl, ha⟩

/-- Without nodes every arena agrees. -/
theorem State.agree_patch_of_empty {s : State} (hs : s.nodeCount = 0#10) (a : Arena) (h : Hidden) :
    s.Agree (s.patch a h) :=
  State.agree_patch h fun x hx => by simp [hs] at hx

theorem State.holdsTree_patch {s : State} {t : CodeTree} (ht : s.holdsTree t) {a : Arena} (h : Hidden)
    (ha : Arena.AgreeBelow s.nodeCount.toNat s.nodes a) : (s.patch a h).holdsTree t :=
  State.holdsTree_congr ht rfl rfl rfl rfl ha

theorem Arena.ext_nodeAt {a b : Arena} (h : ∀ x : NodeIx, nodeAt a x = nodeAt b x) : a = b := by
  refine Vector.ext fun i hi => ?_
  have hx := h (BitVec.ofNat 9 i)
  simpa [nodeAt, Nat.mod_eq_of_lt (show i < 512 by omega), hi] using hx

theorem freeFrom_congr {count : Nat} {a b : Arena} (h : Arena.AgreeBelow count a b) (free : Arena) :
    freeFrom count b free = freeFrom count a free :=
  Arena.ext_nodeAt fun x => by
    rw [nodeAt_freeFrom, nodeAt_freeFrom]
    split
    · next hx => exact h x hx
    · rfl

/-- The completion step leaves nothing of the difference. -/
theorem State.Agree.complete_eq {s u : State} (h : s.Agree u) (c : Option Cause) (p : Nat) :
    u.complete c p = s.complete c p := by
  obtain ⟨a, hd, rfl, ha⟩ := h
  have hnodes := freeFrom_congr ha (Config.freeArena s.fresh)
  simp only [State.complete, State.patch, hnodes]

/-! ## Runs that agree -/

/-- Two runs of a command's lines that end alike, in states that agree. -/
inductive Run.Agree : Run → Run → Prop
  | ok {s u : State} (h : s.Agree u) : Run.Agree (.ok s) (.ok u)
  | raise {s u : State} (c : Cause) (p : Nat) (h : s.Agree u) : Run.Agree (.raise c p s) (.raise c p u)
  | notATree : Run.Agree .notATree .notATree

theorem Run.Agree.complete_eq {r q : Run} (h : r.Agree q) : q.complete = r.complete := by
  cases h with
  | ok h => exact congrArg Host.Outcome.next (h.complete_eq none 0)
  | raise c p h => exact congrArg Host.Outcome.next (h.complete_eq (some c) p)
  | notATree => rfl

/-- A run with another arena and other hidden arrays in the state it ends in. -/
def Run.patch (r : Run) (a : Arena) (h : Hidden) : Run :=
  match r with
  | .ok s => .ok (s.patch a h)
  | .raise c p s => .raise c p (s.patch a h)
  | .notATree => .notATree

/-- Lines that leave the arena alone end in agreement. -/
theorem Run.agree_patch {s : State} {r : Run} {a : Arena} (h : Hidden)
    (hr : r.endsIn fun u => u.nodes = s.nodes ∧ u.nodeCount = s.nodeCount)
    (ha : Arena.AgreeBelow s.nodeCount.toNat s.nodes a) : r.Agree (r.patch a h) := by
  have hagree {u : State} (hu : u.nodes = s.nodes ∧ u.nodeCount = s.nodeCount) : u.Agree (u.patch a h) := by
    refine State.agree_patch h ?_
    rwa [hu.1, hu.2]
  cases r with
  | ok u => exact .ok (hagree hr)
  | raise c p u => exact .raise c p (hagree hr)
  | notATree => exact .notATree

theorem Run.agree_patch_of_sameTree {s : State} {r : Run} {a : Arena} (h : Hidden) (hr : r.endsIn s.SameTree)
    (ha : Arena.AgreeBelow s.nodeCount.toNat s.nodes a) : r.Agree (r.patch a h) :=
  Run.agree_patch h (Run.endsIn_mono hr fun _ hu => ⟨hu.nodes, hu.nodeCount⟩) ha

theorem State.agree_checkWindow {s : State} {k k' : State → Run} {a : Arena} {h : Hidden}
    (ha : Arena.AgreeBelow s.nodeCount.toNat s.nodes a) (hk : (k s).Agree (k' (s.patch a h))) :
    (s.checkWindow.andThen k).Agree ((s.patch a h).checkWindow.andThen k') := by
  by_cases hw : s.windowFits
  · rw [State.checkWindow_of_fits s hw, State.checkWindow_of_fits (s.patch a h) hw]
    exact hk
  · rw [State.checkWindow_of_not_fits s hw, State.checkWindow_of_not_fits (s.patch a h) hw]
    exact .raise _ _ (State.agree_patch h ha)

/-! ## Walks over the arena -/

/-- The walks over `a` are those over the arena of `s`: it is the same arena, or `s` holds a tree. -/
def State.SameWalks (s : State) (a : Arena) : Prop := a = s.nodes ∨ ∃ t, s.holdsTree t

section Walks
variable {s : State} {a : Arena} (h : Hidden)

theorem State.deriveCodes_patch (ha : Arena.AgreeBelow s.nodeCount.toNat s.nodes a) (hw : s.SameWalks a) :
    (s.patch a h).deriveCodes = s.deriveCodes.patch a h := by
  rcases hw with rfl | ⟨t, ht⟩
  · simp only [State.deriveCodes, State.patch]
    cases walkCodes s.nodes walkFuel [(s.root, 0, 0)] (Vector.replicate 256 { len := 0#8, val := 0#255 }) <;> rfl
  · rw [State.deriveCodes_of_holdsTree ht, State.deriveCodes_of_holdsTree (State.holdsTree_patch ht h ha)]
    rfl

theorem State.descWriter_patch (ha : Arena.AgreeBelow s.nodeCount.toNat s.nodes a) (hw : s.SameWalks a) (buf : Memory)
    (op : Nat) : (s.patch a h).descWriter buf op = s.descWriter buf op := by
  rcases hw with rfl | ⟨t, ht⟩
  · rfl
  · rw [State.descWriter_of_holdsTree ht, State.descWriter_of_holdsTree (State.holdsTree_patch ht h ha)]

/-- A decoding walk sees the tree and the bits, not where the nodes stand. -/
theorem walkSymbol_of_heldAt {s u : State} {t : CodeTree} {i j : NodeIx} (hbit : ∀ p, u.inBit p = s.inBit p)
    (hs : t.heldAt s.nodes i) (hu : t.heldAt u.nodes j) (fuel p : Nat) :
    walkSymbol u fuel j p = walkSymbol s fuel i p := by
  induction t generalizing i j fuel p with
  | leaf sym ph =>
    obtain ⟨n, hn, hleaf, hsym, -⟩ := hs
    obtain ⟨n', hn', hleaf', hsym', -⟩ := hu
    unfold walkSymbol
    simp only [hn, hn', hleaf, hleaf', if_true, hsym, hsym']
  | node l r ihl ihr =>
    obtain ⟨n, hn, hleaf, hl, hr⟩ := hs
    obtain ⟨n', hn', hleaf', hl', hr'⟩ := hu
    unfold walkSymbol
    simp only [hn, hn', hleaf, hleaf', Bool.false_eq_true, if_false]
    cases fuel with
    | zero => rfl
    | succ fuel =>
      simp only [hbit]
      cases s.inBit p
      · exact ihl hl hl' fuel (p + 1)
      · exact ihr hr hr' fuel (p + 1)

theorem walkSymbol_patch_hidden (fuel : Nat) (i : NodeIx) (p : Nat) :
    walkSymbol (s.patch s.nodes h) fuel i p = walkSymbol s fuel i p := by
  induction fuel generalizing i p with
  | zero =>
    unfold walkSymbol
    rfl
  | succ fuel ih =>
    unfold walkSymbol
    simp only [ih]
    rfl

theorem walkSymbol_patch (ha : Arena.AgreeBelow s.nodeCount.toNat s.nodes a) (hw : s.SameWalks a) (fuel p : Nat) :
    walkSymbol (s.patch a h) fuel s.root p = walkSymbol s fuel s.root p := by
  rcases hw with rfl | ⟨t, ht⟩
  · exact walkSymbol_patch_hidden h fuel s.root p
  · exact walkSymbol_of_heldAt (s := s) (u := s.patch a h) (fun _ => rfl) ht.1 (State.holdsTree_patch ht h ha).1 fuel p

theorem unpackSymbols_patch (ha : Arena.AgreeBelow s.nodeCount.toNat s.nodes a) (hw : s.SameWalks a)
    (count j p : Nat) (buf : Memory) : unpackSymbols (s.patch a h) count j p buf = unpackSymbols s count j p buf := by
  induction count generalizing j p buf with
  | zero => rfl
  | succ count ih =>
    simp only [unpackSymbols, State.patch_inLen, State.patch_root, walkSymbol_patch h ha hw]
    cases walkSymbol s (8 * s.inLen.toNat - p) s.root p with
    | leaf sym p' => exact ih _ _ _
    | exhausted => rfl
    | notATree => rfl

theorem State.unpackFrom_patch (ha : Arena.AgreeBelow s.nodeCount.toNat s.nodes a) (hw : s.SameWalks a)
    (count p : Nat) : (s.patch a h).unpackFrom count p = (s.unpackFrom count p).patch a h := by
  simp only [State.unpackFrom, State.patch_outBuf, unpackSymbols_patch h ha hw]
  cases unpackSymbols s count 0 p s.outBuf <;> rfl

theorem State.serializeTree_patch (ha : Arena.AgreeBelow s.nodeCount.toNat s.nodes a) (hw : s.SameWalks a) :
    (s.patch a h).serializeTree = s.serializeTree.patch a h := by
  simp only [State.serializeTree, State.patch_outBuf, State.descWriter_patch h ha hw]
  cases s.descWriter s.outBuf 0 <;> rfl

theorem State.emitContainer_patch (ha : Arena.AgreeBelow s.nodeCount.toNat s.nodes a) (hw : s.SameWalks a) :
    (s.patch a h).emitContainer = s.emitContainer.patch a h := by
  simp only [State.emitContainer, State.patch_descBits, State.patch_payloadBits, State.patch_params,
    State.patch_outBuf, State.patch_windowLen, State.descWriter_patch h ha hw]
  split
  · rfl
  · cases s.descWriter (writeHeader s.outBuf (BitVec.ofNat 32 s.windowLen)) 8 <;> rfl

theorem State.packWindow_patch (s : State) (a : Arena) (h : Hidden) :
    (s.patch a h).packWindow = s.packWindow.patch a h := by
  simp only [State.packWindow, State.patch_codesValid, State.patch_codes, State.patch_window]
  by_cases hv : s.codesValid = true
  · rw [if_pos hv, if_pos hv]
    cases packBits s.codes s.window 0 0 with
    | error j => rfl
    | ok bits =>
      simp only [State.emitPayload, State.patch_params]
      by_cases hfits : ceil8 bits > s.params.outBufSize
      · rw [if_pos hfits, if_pos hfits]
        rfl
      · rw [if_neg hfits, if_neg hfits]
        rfl
  · rw [if_neg hv, if_neg hv]
    rfl

end Walks

/-! ## The commands that write the arena -/

/-- R157: BUILD reads neither the arena it finds nor the hidden arrays. -/
theorem State.agree_buildTree (s : State) (a : Arena) (h : Hidden) : s.buildTree.Agree (s.patch a h).buildTree := by
  have hscan : Arena.AgreeBelow (scanLeaves s.freq allSymbols s.nodes 0).2 (scanLeaves s.freq allSymbols s.nodes 0).1
      (scanLeaves s.freq allSymbols a 0).1 :=
    scanLeaves_agree s.freq allSymbols fun x hx => absurd hx (Nat.not_lt_zero _)
  obtain ⟨hcount, -⟩ := scanLeaves_allSymbols s.freq s.nodes
  obtain ⟨hcount', -⟩ := scanLeaves_allSymbols s.freq a
  have hlen := length_presentSymbols_le s.freq
  simp only [State.buildTree, State.patch_freq, State.patch_nodes, State.patch_hidden]
  rw [hcount] at hscan
  simp only [hcount, hcount']
  split
  · exact .raise _ _ (State.agree_patch_of_empty rfl a h)
  · obtain ⟨hsize, hnodes⟩ := growTree_agree s.hidden.heap h.heap hlen hscan
    rw [hsize]
    exact .ok ⟨_, h, rfl, fun x hx => hnodes x (hx.trans_le (toNat_ofNat_le 10 _))⟩

/-- Two ends of the parser that agree: the same, but for the arena from the next free index on. -/
inductive Parsed.Agree : Parsed → Parsed → Prop
  | done (r : Parser) (b : Arena) (h : Arena.AgreeBelow r.m r.nodes b) :
      Parsed.Agree (.done r) (.done { r with nodes := b })
  | fail (c : Cause) (pos : Nat) (a b : Arena) : Parsed.Agree (.fail c pos a) (.fail c pos b)

theorem readBits_patch (s : State) (a : Arena) (h : Hidden) (count p acc : Nat) :
    readBits (s.patch a h) count p acc = readBits s count p acc := by
  induction count generalizing p acc with
  | zero => rfl
  | succ count ih =>
    rw [readBits, readBits, ih]
    rfl

/-- R225: the parser writes every entry it reads. -/
theorem parseLoop_agree (s : State) (a : Arena) (h : Hidden) (room : Nat) (stk : List (NodeIx × Bool)) (r : Parser)
    (b : Arena) (hb : Arena.AgreeBelow r.m r.nodes b) :
    Parsed.Agree (parseLoop s room stk r) (parseLoop (s.patch a h) room stk { r with nodes := b }) := by
  induction room generalizing stk r b with
  | zero =>
    cases stk with
    | nil => exact .done r b hb
    | cons => exact .fail _ _ _ _
  | succ room ih =>
    cases stk with
    | nil => exact .done r b hb
    | cons slot rest =>
      obtain ⟨par, side⟩ := slot
      have hlink := hb.linkChild par side (BitVec.ofNat 9 r.m)
      simp only [parseLoop, readBits_patch, State.patch_bitAvailable, State.patch_inBit, State.patch_inLen]
      split
      · split
        · split
          · exact .fail _ _ _ _
          · cases readBits s 8 (r.p + 1) 0 with
            | none => exact .fail _ _ _ _
            | some v =>
              simp only
              split
              · exact .fail _ _ _ _
              · exact ih _ { r with nodes := _, m := _, l := _, seen := _, p := _ } _ (hlink.setNode _)
        · exact ih _ { r with nodes := _, m := _, p := _ } _ (hlink.setNode _)
      · exact .fail _ _ _ _

/-- R225: nor does a command that parses depend on the arena it finds; its continuation runs over the parsed tree. -/
theorem State.agree_parseTree (s : State) (a : Arena) (h : Hidden) (p0 : Nat) {k k' : State → Nat → Run}
    (hk : ∀ u b p, (∃ t, u.holdsTree t) → Arena.AgreeBelow u.nodeCount.toNat u.nodes b →
      (k u p).Agree (k' (u.patch b h) p)) :
    (s.parseTree p0 k).Agree ((s.patch a h).parseTree p0 k') := by
  have H := parseLoop_agree s a h 511 [(NodeIx.nil, false)] { nodes := s.nodes, m := 0, l := 0, seen := [], p := p0 } a
    fun x hx => absurd hx (Nat.not_lt_zero _)
  rw [State.parseTree, State.parseTree]
  generalize hr : parseLoop s 511 [(NodeIx.nil, false)]
    { nodes := s.nodes, m := 0, l := 0, seen := [], p := p0 } = r at H
  generalize hq : parseLoop (s.patch a h) 511 [(NodeIx.nil, false)]
    { nodes := a, m := 0, l := 0, seen := [], p := p0 } = q at H
  rw [show (s.patch a h).nodes = a from rfl, hq]
  cases H with
  | fail c pos x y =>
    exact .raise c pos (State.agree_patch_of_empty (s := { s.invalidate.clearTreeRegs with nodes := x }) rfl y h)
  | done r b hb =>
    exact hk _ b r.p (State.holdsTree_of_parseLoop hr) fun x hx => hb x (hx.trans_le (toNat_ofNat_le 10 r.m))

theorem State.agree_compressWindow (s : State) (a : Arena) (h : Hidden) :
    s.compressWindow.Agree (s.patch a h).compressWindow := by
  have hbuild := s.counted.agree_buildTree a h
  rw [s.compressWindow_eq, (s.patch a h).compressWindow_eq, show (s.patch a h).windowLen = s.windowLen from rfl,
    show (s.patch a h).counted = s.counted.patch a h from rfl]
  split
  · exact .ok (State.agree_patch_of_empty (s := s.counted.compressEmpty) rfl a h)
  · generalize hr : s.counted.buildTree = r at hbuild
    generalize (s.counted.patch a h).buildTree = q at hbuild
    cases hbuild with
    | raise c p hu => exact .raise c p hu
    | notATree => exact .notATree
    | @ok v u hu =>
      obtain ⟨t, ht⟩ := State.buildTree_holdsTree hr
      obtain ⟨b, hd, rfl, hb⟩ := hu
      rw [Run.andThen_ok, Run.andThen_ok, State.deriveCodes_of_holdsTree ht,
        State.deriveCodes_of_holdsTree (State.holdsTree_patch ht hd hb), Run.andThen_ok, Run.andThen_ok]
      rw [show (v.patch b hd).withCodes t.table = (v.withCodes t.table).patch b hd from rfl,
        State.emitContainer_patch (s := v.withCodes t.table) hd hb (.inr ⟨t, ht⟩)]
      exact Run.agree_patch_of_sameTree (s := v.withCodes t.table) hd (State.sameTree_emitContainer _) hb

theorem State.agree_unpackFrom {s : State} {a : Arena} (h : Hidden)
    (ha : Arena.AgreeBelow s.nodeCount.toNat s.nodes a) (hw : s.SameWalks a) (count p : Nat) :
    (s.unpackFrom count p).Agree ((s.patch a h).unpackFrom count p) := by
  rw [State.unpackFrom_patch h ha hw]
  exact Run.agree_patch_of_sameTree h (s.sameTree_unpackFrom count p) ha

theorem State.agree_decodeContainer {s : State} {a : Arena} (h : Hidden)
    (ha : Arena.AgreeBelow s.nodeCount.toNat s.nodes a) : s.decodeContainer.Agree (s.patch a h).decodeContainer := by
  have hs := State.agree_patch h ha
  simp only [State.decodeContainer, State.patch_origLen, State.patch_inOff, State.patch_params]
  by_cases hzero : s.origLen = 0#32
  · rw [if_pos hzero, if_pos hzero]
    exact .ok (State.agree_patch (s := s.setInPos (s.inOff.toNat + 8)) h ha)
  rw [if_neg hzero, if_neg hzero]
  by_cases hfits : s.origLen.toNat > s.params.outBufSize
  · rw [if_pos hfits, if_pos hfits]
    exact .raise _ _ hs
  rw [if_neg hfits, if_neg hfits]
  exact s.agree_parseTree a h _ fun u b p ht hb =>
    State.agree_unpackFrom h hb (.inr ht) u.origLen.toNat (8 * ceil8 p)

theorem State.agree_decompressWindow {s : State} {a : Arena} (h : Hidden)
    (ha : Arena.AgreeBelow s.nodeCount.toNat s.nodes a) : s.decompressWindow.Agree (s.patch a h).decompressWindow := by
  have hs := State.agree_patch h ha
  simp only [State.decompressWindow, State.patch_inOff, State.patch_inLen, State.patch_windowLen, State.patch_magicAt,
    State.patch_lengthField]
  by_cases hshort : s.windowLen < 4
  · rw [if_pos hshort, if_pos hshort]
    exact .raise _ _ hs
  rw [if_neg hshort, if_neg hshort]
  by_cases hmagic : s.magicAt s.inOff.toNat = true
  · rw [if_pos hmagic, if_pos hmagic]
    by_cases hheader : s.windowLen < 8
    · rw [if_pos hheader, if_pos hheader]
      exact .raise _ _ hs
    · rw [if_neg hheader, if_neg hheader]
      exact State.agree_decodeContainer (s := { s with origLen := s.lengthField s.inOff.toNat }) h ha
  · rw [if_neg hmagic, if_neg hmagic]
    exact .raise _ _ hs

theorem State.agree_unpackWindow {s : State} {a : Arena} (h : Hidden)
    (ha : Arena.AgreeBelow s.nodeCount.toNat s.nodes a) (hw : s.treeValid = true → s.SameWalks a) :
    s.unpackWindow.Agree (s.patch a h).unpackWindow := by
  have hs := State.agree_patch h ha
  simp only [State.unpackWindow, State.patch_inOff, State.patch_origLen, State.patch_treeValid, State.patch_params]
  by_cases hzero : s.origLen = 0#32
  · rw [if_pos hzero, if_pos hzero]
    exact .ok (State.agree_patch (s := s.setInPos s.inOff.toNat) h ha)
  rw [if_neg hzero, if_neg hzero]
  by_cases hv : s.treeValid = true
  · rw [if_pos hv, if_pos hv]
    by_cases hfits : s.origLen.toNat > s.params.outBufSize
    · rw [if_pos hfits, if_pos hfits]
      exact .raise _ _ hs
    · rw [if_neg hfits, if_neg hfits]
      exact State.agree_unpackFrom h ha (hw hv) _ _
  · rw [if_neg hv, if_neg hv]
    exact .raise _ _ hs

/-! ## The obligation -/

/-- R47, R50, R51, R157: a command ends the same in states that agree, where its walks see the same tree. -/
theorem commandRun_agree (i : Instr) {s : State} {a : Arena} (h : Hidden)
    (ha : Arena.AgreeBelow s.nodeCount.toNat s.nodes a) (hw : s.treeValid = true → s.SameWalks a) :
    (commandRun i s).Agree (commandRun i (s.patch a h)) := by
  have hs := State.agree_patch h ha
  have hs0 : (s.setOutLen 0).Agree ((s.setOutLen 0).patch a h) := State.agree_patch (s := s.setOutLen 0) h ha
  cases i with
  | clear => exact .ok (State.agree_patch_of_empty (s := s.clearAll) rfl a h)
  | analyze =>
    exact State.agree_checkWindow ha (.ok (State.agree_patch (s := s.analyze.setInPos s.inLen.toNat) h ha))
  | build => exact s.invalidate.agree_buildTree a h
  | derive =>
    rw [commandRun, commandRun, State.patch_treeValid]
    split
    · next hv =>
      rw [State.deriveCodes_patch h ha (hw hv)]
      refine Run.agree_patch (s := s) h ?_ ha
      rcases s.deriveCodes_cases with he | ⟨c, -, he⟩ <;> rw [he]
      · trivial
      · exact ⟨rfl, rfl⟩
    · exact .raise _ _ hs
  | pack =>
    refine State.agree_checkWindow (s := s.setOutLen 0) ha ?_
    rw [State.packWindow_patch]
    exact Run.agree_patch_of_sameTree h (State.sameTree_packWindow _) ha
  | unpack => exact State.agree_checkWindow (s := s.setOutLen 0) ha (State.agree_unpackWindow h ha hw)
  | sertree =>
    rw [commandRun, commandRun, State.patch_treeValid]
    split
    · next hv =>
      have hser := State.serializeTree_patch (s := s.setOutLen 0) h ha (hw hv)
      rw [show (s.patch a h).setOutLen 0 = (s.setOutLen 0).patch a h from rfl, hser]
      exact Run.agree_patch_of_sameTree (s := s.setOutLen 0) h (State.sameTree_serializeTree _) ha
    · exact .raise _ _ hs0
  | parsetree =>
    exact State.agree_checkWindow ha <| s.agree_parseTree a h _ fun u b p _ hb =>
      .ok (State.agree_patch (s := u.setInPos (ceil8 p)) h hb)
  | compress => exact State.agree_checkWindow (s := s.setOutLen 0) ha (State.agree_compressWindow _ a h)
  | decompress => exact State.agree_checkWindow (s := s.setOutLen 0) ha (State.agree_decompressWindow h ha)
  | illegal => exact .raise _ _ hs
  | nop | hread | hwrite => exact .ok hs

theorem exec_patch {i : Instr} (hi : i.format = .command) {s : State} {a : Arena} (h : Hidden)
    (ha : Arena.AgreeBelow s.nodeCount.toNat s.nodes a) (hw : s.treeValid = true → s.SameWalks a) :
    exec i (s.patch a h) = exec i s := by
  rw [exec_of_command hi, exec_of_command hi]
  exact (commandRun_agree i h ha hw).complete_eq

/-- R41: the node window shows entries below NODE_COUNT only. -/
theorem State.readReg_patch {s : State} {a : Arena} (h : Hidden)
    (ha : Arena.AgreeBelow s.nodeCount.toNat s.nodes a) (r : Reg) : (s.patch a h).readReg r = s.readReg r := by
  have hwindow : (s.patch a h).windowNode = s.windowNode := by
    simp only [State.windowNode, State.patch_nodeSel, State.patch_nodeCount, State.patch_nodes]
    split
    · next hlt => exact ha _ hlt
    · rfl
  cases r with
  | nodeInfo | nodeLink | nodeWlo | nodeWhi => simp only [State.readReg, hwindow]
  | _ => rfl

/-- Settles O59: other hidden arrays are a patch of the state with its own arena; under true flags every walk is over the
tree, which lies below NODE_COUNT. -/
theorem unspecifiedStateIsNeverRead : Obligations.UnspecifiedStateIsNeverRead := by
  refine ⟨fun i s h hi => ?hidden, fun s a ha => ⟨fun hflags i hi => ?nodes, fun r => ?registers⟩⟩
  case hidden => exact exec_patch (a := s.nodes) hi h (fun _ _ => rfl) fun _ => .inl rfl
  case nodes => exact exec_patch hi s.hidden ha fun hv => .inr (hflags.1 hv)
  case registers => exact State.readReg_patch s.hidden ha r

end Sys2Proof.Machine
end

section
/-! SUPPORT. The Host bus as one access after another (40_host_bus.md rules R114 and R115): the lanes of a word (20_memory.md
rule R64), what a read finds behind an accepted write, and what an access can change while a command runs. -/

namespace Sys2Proof.Machine

/-! ## Lanes of a word (R64) -/

theorem laneOf_wordOfBytes (b₀ b₁ b₂ b₃ : Byte) :
    laneOf (wordOfBytes b₀ b₁ b₂ b₃) 0 = b₀ ∧ laneOf (wordOfBytes b₀ b₁ b₂ b₃) 1 = b₁ ∧
    laneOf (wordOfBytes b₀ b₁ b₂ b₃) 2 = b₂ ∧ laneOf (wordOfBytes b₀ b₁ b₂ b₃) 3 = b₃ :=
  ⟨extractLsb'_append_low _ _, extractLsb'_append_middle _ _ _,
    (extractLsb'_append_high _ _ 8 8).trans (extractLsb'_append_middle _ _ _),
    (extractLsb'_append_high _ _ 16 8).trans (extractLsb'_append_second _ _ _)⟩

/-- A word is its four lanes. -/
theorem wordOfBytes_laneOf (w : Word) : wordOfBytes (laneOf w 0) (laneOf w 1) (laneOf w 2) (laneOf w 3) = w := by
  have h₂ : laneOf w 3 ++ laneOf w 2 = w.extractLsb' 16 16 := BitVec.extractLsb'_append_extractLsb'_eq_extractLsb' rfl
  have h₁ : w.extractLsb' 16 16 ++ laneOf w 1 = w.extractLsb' 8 24 :=
    BitVec.extractLsb'_append_extractLsb'_eq_extractLsb' rfl
  rw [wordOfBytes, h₂, h₁]
  exact extractLsb'_append_halves (v := 24) (w := 8) w

theorem laneOf_mergeLanes (old new : Word) (strb : BitVec 4) {i : Nat} (hi : i < 4) :
    laneOf (mergeLanes old new strb) i = if strb.getLsbD i then laneOf new i else laneOf old i := by
  obtain ⟨h₀, h₁, h₂, h₃⟩ := laneOf_wordOfBytes
    (if strb.getLsbD 0 then laneOf new 0 else laneOf old 0) (if strb.getLsbD 1 then laneOf new 1 else laneOf old 1)
    (if strb.getLsbD 2 then laneOf new 2 else laneOf old 2) (if strb.getLsbD 3 then laneOf new 3 else laneOf old 3)
  match i, hi with
  | 0, _ => exact h₀
  | 1, _ => exact h₁
  | 2, _ => exact h₂
  | 3, _ => exact h₃

/-- Writing all four lanes leaves nothing of the old word. -/
theorem mergeLanes_full (old new : Word) : mergeLanes old new 0b1111#4 = new := wordOfBytes_laneOf new

/-- A word whose bytes are merged one by one is merged as a word. -/
theorem wordOfBytes_eq_mergeLanes {b b' : Nat → Byte} {new : Word} {strb : BitVec 4}
    (h : ∀ i, i < 4 → b' i = if strb.getLsbD i then laneOf new i else b i) :
    wordOfBytes (b' 0) (b' 1) (b' 2) (b' 3) = mergeLanes (wordOfBytes (b 0) (b 1) (b 2) (b 3)) new strb := by
  obtain ⟨h₀, h₁, h₂, h₃⟩ := laneOf_wordOfBytes (b 0) (b 1) (b 2) (b 3)
  simp only [mergeLanes, h₀, h₁, h₂, h₃, h 0 (by decide), h 1 (by decide), h 2 (by decide), h 3 (by decide)]

theorem Memory.read_ite_write (m : Memory) (c : Bool) (o a : Nat) (b : Byte) :
    Memory.read (if c then Memory.write m o b else m) a = if c = true ∧ a = o then some b else Memory.read m a := by
  cases c with
  | false => simp
  | true =>
    by_cases h : a = o
    · subst h
      simp [Memory.read_write_same]
    · simp [Memory.read_write_of_ne m b h, h]

theorem Memory.read_writeLanes (m : Memory) (o : Nat) (wdata : Word) (strb : BitVec 4) {i : Nat} (hi : i < 4) :
    Memory.read (writeLanes m o wdata strb) (o + i) =
      if strb.getLsbD i then some (laneOf wdata i) else Memory.read m (o + i) := by
  simp only [writeLanes, Memory.read_ite_write, Nat.add_left_cancel_iff]
  match i, hi with
  | 0, _ => simp
  | 1, _ => simp
  | 2, _ => simp
  | 3, _ => simp

/-! ## A read behind an accepted write -/

section Idle
variable {s : State} {addr : Word} {c : Target}

theorem State.busRead_of_idle (hbusy : s.busy = false) (haddr : decodeAddr s.params addr = c) (hmis : c ≠ .misaligned)
    (hun : c ≠ .unmapped) : s.busRead addr = s.answerRead (s.readTarget c) true := by
  subst haddr
  rcases s.busRead_cases addr with ⟨h, -⟩ | ⟨d, h, -⟩ | he
  · exact absurd h (not_or.2 ⟨hmis, hun⟩)
  · simp [hbusy] at h
  · exact he

theorem State.busWrite_of_idle {strb : BitVec 4} (wdata : Word) (hbusy : s.busy = false)
    (haddr : decodeAddr s.params addr = c) (hmis : c ≠ .misaligned) (hun : c ≠ .unmapped)
    (hstrb : c.strobesBad strb = false) :
    s.busWrite addr wdata strb = (s.writeTarget wdata strb c).answerWrite true := by
  subst haddr
  unfold State.busWrite
  split
  · exact absurd ‹_› hmis
  · exact absurd ‹_› hun
  · rw [hstrb, hbusy]
    rfl

/-- Only a CMD write starts the Core; no write moves the address map. -/
theorem State.writeTarget_frame (s : State) (wdata : Word) (strb : BitVec 4) (hcmd : c ≠ .reg .cmd) :
    (s.writeTarget wdata strb c).busy = s.busy ∧ (s.writeTarget wdata strb c).params = s.params := by
  cases c with
  | reg r =>
    cases r with
    | cmd => exact absurd rfl hcmd
    | _ => exact ⟨rfl, rfl⟩
  | _ => exact ⟨rfl, rfl⟩

/-- R72: an idle read of the target that an accepted write has just left. -/
theorem exec_hread_of_hwrite {strb : BitVec 4} (wdata : Word) (hbusy : s.busy = false)
    (haddr : decodeAddr s.params addr = c) (hmis : c ≠ .misaligned) (hun : c ≠ .unmapped) (hcmd : c ≠ .reg .cmd)
    (hstrb : c.strobesBad strb = false) :
    ∃ t u, exec (.hwrite addr wdata strb) s = .next t ∧ exec (.hread addr) t = .next u ∧
      u.resp = .read ((s.writeTarget wdata strb c).readTarget c) true := by
  obtain ⟨hbusy', hparams⟩ := s.writeTarget_frame wdata strb hcmd
  refine ⟨_, _, exec_hwrite addr wdata strb s, exec_hread addr _, ?_⟩
  rw [State.busWrite_of_idle wdata hbusy haddr hmis hun hstrb,
    State.busRead_of_idle (by simp [hbusy', hbusy]) (by simp [hparams, haddr]) hmis hun]
  cases c <;> rfl

end Idle

/-- R46, R61: the targets that are words of an array or of a buffer. -/
def Target.isData (c : Target) : Prop := (∃ o, c = .inBuf o) ∨ (∃ o, c = .outBuf o) ∨ ∃ sym, c = .freq sym

theorem Target.isData_access {c : Target} (hc : c.isData) :
    c ≠ .misaligned ∧ c ≠ .unmapped ∧ c ≠ .reg .cmd ∧ ∀ strb, c.strobesBad strb = false := by
  rcases hc with ⟨o, rfl⟩ | ⟨o, rfl⟩ | ⟨sym, rfl⟩ <;> exact ⟨nofun, nofun, nofun, fun _ => rfl⟩

theorem State.inByte_writeLanes (s : State) (o : Nat) (wdata : Word) (strb : BitVec 4) {i : Nat} (hi : i < 4) :
    State.inByte { s with inBuf := writeLanes s.inBuf o wdata strb } (o + i) =
      if strb.getLsbD i then laneOf wdata i else s.inByte (o + i) := by
  simp only [State.inByte, Memory.read_writeLanes s.inBuf o wdata strb hi]
  cases strb.getLsbD i <;> rfl

theorem State.outByte_writeLanes (s : State) (o : Nat) (wdata : Word) (strb : BitVec 4) {i : Nat} (hi : i < 4) :
    State.outByte { s with outBuf := writeLanes s.outBuf o wdata strb } (o + i) =
      if strb.getLsbD i then laneOf wdata i else s.outByte (o + i) := by
  simp only [State.outByte, Memory.read_writeLanes s.outBuf o wdata strb hi]
  cases strb.getLsbD i <;> rfl

/-- R64, R114: an accepted write merges its lanes into the word the target reads as. -/
theorem State.readTarget_writeTarget {c : Target} (hc : c.isData) (s : State) (wdata : Word) (strb : BitVec 4) :
    (s.writeTarget wdata strb c).readTarget c = mergeLanes (s.readTarget c) wdata strb := by
  rcases hc with ⟨o, rfl⟩ | ⟨o, rfl⟩ | ⟨sym, rfl⟩
  · exact wordOfBytes_eq_mergeLanes (b := fun i => s.inByte (o + i))
      (b' := fun i => (s.writeTarget wdata strb (.inBuf o)).inByte (o + i))
      fun _ hi => s.inByte_writeLanes o wdata strb hi
  · exact wordOfBytes_eq_mergeLanes (b := fun i => s.outByte (o + i))
      (b' := fun i => (s.writeTarget wdata strb (.outBuf o)).outByte (o + i))
      fun _ hi => s.outByte_writeLanes o wdata strb hi
  · exact symGet_symSet_same _ _ _

/-- R29: IRQ_EN reads back bit 0 of the word written. -/
theorem State.irqEn_writeReg (s : State) (wdata : Word) :
    (s.writeReg wdata .irqEn).irqEn = (wdata.setWidth 1).setWidth 32 := by
  rw [BitVec.setWidth_one, BitVec.setWidth_eq_append (by decide)]
  rfl

/-- Settles O17: a word of data reads back with the written lanes merged into what it read before, and each register reads
back the bits its write stores. -/
theorem readReturnsTheLastWrite : Obligations.ReadReturnsTheLastWrite := by
  intro s addr wdata hbusy readsBack
  refine ⟨fun hdata => ?data, fun r haddr => ?register⟩
  case data =>
    obtain ⟨hmis, hun, hcmd, hstrb⟩ := Target.isData_access hdata
    have hmerged (strb : BitVec 4) : readsBack strb (mergeLanes (s.readTarget (decodeAddr s.params addr)) wdata strb) :=
      State.readTarget_writeTarget hdata s wdata strb ▸
        exec_hread_of_hwrite wdata hbusy rfl hmis hun hcmd (hstrb strb)
    refine ⟨mergeLanes_full _ wdata ▸ hmerged 0b1111#4, fun strb => ?_⟩
    refine ⟨_, _, _, exec_hread addr s, ?_, hmerged strb, fun i hi => laneOf_mergeLanes _ wdata strb hi⟩
    rw [State.busRead_of_idle hbusy rfl hmis hun]
    rfl
  case register =>
    have hback (hr : r ≠ .cmd) : readsBack 0b1111#4 ((s.writeReg wdata r).readReg r) :=
      exec_hread_of_hwrite wdata hbusy haddr nofun nofun (fun h => hr (Target.reg.inj h)) rfl
    refine ⟨?_, ?_, ?_, ?_⟩
    · rintro (rfl | rfl | rfl) <;> exact hback nofun
    · rintro rfl
      exact BitVec.setWidth_eq_extractLsb' (x := wdata) (w := 9) (by decide) ▸ hback nofun
    · rintro rfl
      exact BitVec.setWidth_eq_extractLsb' (x := wdata) (w := 8) (by decide) ▸ hback nofun
    · rintro rfl
      exact s.irqEn_writeReg wdata ▸ hback nofun

/-! ## An access while a command runs -/

theorem State.busRead_frame (s : State) (addr : Word) :
    ∃ resp fresh, s.busRead addr = { s with resp := resp, fresh := fresh } := by
  rcases s.busRead_cases addr with ⟨-, he⟩ | ⟨d, -, he⟩ | he <;> exact ⟨_, _, he⟩

/-- R285: what an unprotected write can reach. -/
theorem State.writeTarget_frame_of_unprotected {c : Target} (hc : c.isProtected = false) (s : State) (wdata : Word)
    (strb : BitVec 4) :
    ∃ done haz doneIe, s.writeTarget wdata strb c = { s with done := done, haz := haz, doneIe := doneIe } := by
  cases c with
  | reg r =>
    cases r with
    | cmd | inLen | inOff | origLen | nodeSel | codeSel => exact nomatch hc
    | _ => exact ⟨_, _, _, rfl⟩
  | freq | inBuf | outBuf => exact nomatch hc
  | misaligned | unmapped => exact ⟨_, _, _, rfl⟩

theorem State.busWrite_frame_of_busy {s : State} (hbusy : s.busy = true) (addr wdata : Word) (strb : BitVec 4) :
    ∃ done haz doneIe resp,
      s.busWrite addr wdata strb = { s with done := done, haz := haz, doneIe := doneIe, resp := resp } := by
  rcases s.busWrite_cases addr wdata strb with he | ⟨-, -, he⟩ | ⟨hopen, -, he⟩
  · exact ⟨_, _, _, _, he⟩
  · exact ⟨_, _, _, _, he⟩
  · have hc : (decodeAddr s.params addr).isProtected = false := hopen.resolve_left (by simp [hbusy])
    obtain ⟨done, haz, doneIe, hw⟩ := State.writeTarget_frame_of_unprotected hc s wdata strb
    exact ⟨done, haz, doneIe, .write true, by rw [he, hw]; rfl⟩

/-- Settles O18: the flags DONE, HAZ and DONE_IE and the model's own port and counter are all that a transaction changes
while busy. -/
theorem busyTransactionsKeepOperands : Obligations.BusyTransactionsKeepOperands := by
  intro s t i hi hbusy hexec
  have hframe : ∃ done haz doneIe resp fresh,
      t = { s with done := done, haz := haz, doneIe := doneIe, resp := resp, fresh := fresh } := by
    cases i with
    | hread addr =>
      obtain ⟨resp, fresh, he⟩ := s.busRead_frame addr
      exact ⟨_, _, _, resp, fresh, (Host.Outcome.next.inj hexec).symm.trans he⟩
    | hwrite addr wdata strb =>
      obtain ⟨done, haz, doneIe, resp, he⟩ := State.busWrite_frame_of_busy hbusy addr wdata strb
      exact ⟨done, haz, doneIe, resp, _, (Host.Outcome.next.inj hexec).symm.trans he⟩
    | _ => exact nomatch hi
  obtain ⟨done, haz, doneIe, resp, fresh, rfl⟩ := hframe
  exact ⟨rfl, rfl, rfl, rfl, rfl, rfl, rfl, rfl, rfl, rfl, rfl, rfl, rfl, rfl, rfl, rfl⟩

end Sys2Proof.Machine
end

section
/-! SUPPORT. What a step does to the two buffers (20_memory.md rule R61): a command leaves IN_BUF and the seed alone and
keeps OUT_BUF canonical, and only a Host write loads a buffer or starts a command. -/

namespace Sys2Proof.Machine

/-! ## What a command does to the buffers -/

/-- `u` has the IN_BUF of `s` and the seed of its unwritten bytes, and its OUT_BUF is canonical where that of `s` is
(log entry 6). -/
structure State.BuffersKept (s u : State) : Prop where
  inBuf : u.inBuf = s.inBuf
  bufSeed : u.bufSeed = s.bufSeed
  outBuf : Memory.wf s.outBuf = true → Memory.wf u.outBuf = true

/-- Nothing is written to a buffer. -/
theorem State.BuffersKept.of_same {s u : State}
    (h : u.inBuf = s.inBuf ∧ u.bufSeed = s.bufSeed ∧ u.outBuf = s.outBuf) : s.BuffersKept u := by
  obtain ⟨hin, hseed, hout⟩ := h
  exact ⟨hin, hseed, fun hs => hout.symm ▸ hs⟩

theorem State.BuffersKept.refl (s : State) : s.BuffersKept s := .of_same ⟨rfl, rfl, rfl⟩

theorem State.BuffersKept.trans {s u v : State} (h : s.BuffersKept u) (h' : u.BuffersKept v) : s.BuffersKept v :=
  ⟨h'.inBuf.trans h.inBuf, h'.bufSeed.trans h.bufSeed, fun hs => h'.outBuf (h.outBuf hs)⟩

/-- Lines that start in `u`, seen from a state before it. -/
theorem Run.endsIn_buffersKept_from {s u : State} {r : Run} (hr : r.endsIn u.BuffersKept) (h : s.BuffersKept u) :
    r.endsIn s.BuffersKept :=
  Run.endsIn_mono hr fun _ => h.trans

/-- The descriptor writer keeps its buffer canonical. -/
theorem State.wf_descWriter {s : State} {buf : Memory} {op : Nat} {w : Writer} (h : Memory.wf buf = true)
    (hw : s.descWriter buf op = some w) : Memory.wf w.buf = true := by
  obtain ⟨v, hv, rfl⟩ := Option.map_eq_some_iff.1 hw
  exact Writer.wf_flush v (wf_writeDesc _ _ _ _ _ h hv)

theorem State.buffersKept_buildTree (s : State) : s.buildTree.endsIn s.BuffersKept := by
  rcases s.buildTree_cases with ⟨-, he⟩ | ⟨a, k, -, -, he⟩ <;> rw [he] <;> exact .of_same ⟨rfl, rfl, rfl⟩

theorem State.buffersKept_deriveCodes (s : State) : s.deriveCodes.endsIn s.BuffersKept := by
  rcases s.deriveCodes_cases with he | ⟨c, -, he⟩ <;> rw [he]
  · trivial
  · exact .of_same ⟨rfl, rfl, rfl⟩

theorem State.buffersKept_packWindow (s : State) : s.packWindow.endsIn s.BuffersKept := by
  rcases s.packWindow_cases with ⟨c, p, he⟩ | ⟨bits, w, -, -, hw, he⟩ <;> rw [he]
  · exact .refl s
  · exact ⟨rfl, rfl, fun hs => hw ▸ Writer.wf_flush _ (Writer.wf_putCodes _ _ _ hs)⟩

theorem State.buffersKept_unpackFrom (s : State) (count p : Nat) : (s.unpackFrom count p).endsIn s.BuffersKept := by
  have hwf (hs : Memory.wf s.outBuf = true) := wf_unpackSymbols s count 0 p s.outBuf hs
  rcases s.unpackFrom_cases count p with ⟨buf, p', hu, he⟩ | ⟨buf, hu, he⟩ | he <;> rw [he]
  · rw [hu] at hwf
    exact ⟨rfl, rfl, hwf⟩
  · rw [hu] at hwf
    exact ⟨rfl, rfl, hwf⟩
  · trivial

theorem State.buffersKept_unpackWindow (s : State) : s.unpackWindow.endsIn s.BuffersKept := by
  rcases s.unpackWindow_cases with ⟨c, p, he⟩ | he | ⟨-, -, he⟩ <;> rw [he]
  · exact .refl s
  · exact .of_same ⟨rfl, rfl, rfl⟩
  · exact s.buffersKept_unpackFrom _ _

theorem State.buffersKept_serializeTree (s : State) : s.serializeTree.endsIn s.BuffersKept := by
  rcases s.serializeTree_cases with he | ⟨w, hw, he⟩ <;> rw [he]
  · trivial
  · exact ⟨rfl, rfl, fun hs => State.wf_descWriter hs hw⟩

theorem State.buffersKept_parseTree (s : State) (p0 : Nat) {k : State → Nat → Run}
    (hk : ∀ u p, (k u p).endsIn u.BuffersKept) : (s.parseTree p0 k).endsIn s.BuffersKept := by
  rcases s.parseTree_cases p0 k with ⟨c, pos, a, -, he⟩ | ⟨r, -, he⟩ <;> rw [he]
  · exact .of_same ⟨rfl, rfl, rfl⟩
  · exact Run.endsIn_buffersKept_from (hk _ _) (.of_same ⟨rfl, rfl, rfl⟩)

theorem State.buffersKept_emitContainer (s : State) : s.emitContainer.endsIn s.BuffersKept := by
  rcases s.emitContainer_cases with ⟨c, p, he⟩ | he | ⟨d, w, -, hd, hw, he⟩ <;> rw [he]
  · exact .refl s
  · trivial
  · refine ⟨rfl, rfl, fun hs => ?_⟩
    have hdesc : Memory.wf d.buf = true := State.wf_descWriter (wf_writeHeader _ _ hs) hd
    exact hw ▸ Writer.wf_flush _ (Writer.wf_putCodes _ _ _ hdesc)

theorem State.buffersKept_compressWindow (s : State) : s.compressWindow.endsIn s.BuffersKept := by
  have hcounted : s.BuffersKept s.counted := .of_same ⟨rfl, rfl, rfl⟩
  rcases s.compressWindow_cases with he | he | ⟨b, t, hb, -, he⟩ <;> rw [he]
  · exact ⟨rfl, rfl, wf_writeHeader _ _⟩
  · exact .of_same ⟨rfl, rfl, rfl⟩
  · have hbuilt : (Run.ok b).endsIn s.counted.BuffersKept := hb ▸ s.counted.buffersKept_buildTree
    have hcoded : b.BuffersKept (b.withCodes t.table) := .of_same ⟨rfl, rfl, rfl⟩
    exact Run.endsIn_buffersKept_from (State.buffersKept_emitContainer _) ((hcounted.trans hbuilt).trans hcoded)

theorem State.buffersKept_decodeContainer (s : State) : s.decodeContainer.endsIn s.BuffersKept := by
  rcases s.decodeContainer_cases with ⟨c, p, he⟩ | he | ⟨-, he⟩ <;> rw [he]
  · exact .refl s
  · exact .of_same ⟨rfl, rfl, rfl⟩
  · exact s.buffersKept_parseTree _ fun u p => u.buffersKept_unpackFrom _ _

theorem State.buffersKept_decompressWindow (s : State) : s.decompressWindow.endsIn s.BuffersKept := by
  rcases s.decompressWindow_cases with ⟨c, p, he⟩ | he <;> rw [he]
  · exact .refl s
  · exact Run.endsIn_buffersKept_from (State.buffersKept_decodeContainer _) (.of_same ⟨rfl, rfl, rfl⟩)

/-- R61: no command writes IN_BUF, and what it writes to OUT_BUF keeps the form. -/
theorem commandRun_buffersKept (i : Instr) (s : State) : (commandRun i s).endsIn s.BuffersKept := by
  have hout : s.BuffersKept (s.setOutLen 0) := .of_same ⟨rfl, rfl, rfl⟩
  cases i with
  | clear => exact .of_same ⟨rfl, rfl, rfl⟩
  | analyze => exact State.endsIn_checkWindow (.refl s) fun _ => .of_same ⟨rfl, rfl, rfl⟩
  | build => exact Run.endsIn_buffersKept_from s.invalidate.buffersKept_buildTree (.of_same ⟨rfl, rfl, rfl⟩)
  | derive =>
    rw [commandRun]
    split
    · exact s.buffersKept_deriveCodes
    · exact .refl s
  | pack =>
    exact State.endsIn_checkWindow hout fun _ => Run.endsIn_buffersKept_from (State.buffersKept_packWindow _) hout
  | unpack =>
    exact State.endsIn_checkWindow hout fun _ => Run.endsIn_buffersKept_from (State.buffersKept_unpackWindow _) hout
  | sertree =>
    rw [commandRun]
    split
    · exact Run.endsIn_buffersKept_from (State.buffersKept_serializeTree _) hout
    · exact hout
  | parsetree =>
    exact State.endsIn_checkWindow (.refl s) fun _ =>
      s.buffersKept_parseTree _ fun _ _ => .of_same ⟨rfl, rfl, rfl⟩
  | compress =>
    exact State.endsIn_checkWindow hout fun _ => Run.endsIn_buffersKept_from (State.buffersKept_compressWindow _) hout
  | decompress =>
    exact State.endsIn_checkWindow hout fun _ => Run.endsIn_buffersKept_from (State.buffersKept_decompressWindow _) hout
  | nop | illegal | hread | hwrite => exact .refl s

/-! ## What a bus access does to the buffers and the Core -/

theorem State.buffersCanonical_busRead {s : State} (h : s.buffersCanonical) (addr : Word) :
    (s.busRead addr).buffersCanonical := by
  rcases s.busRead_cases addr with ⟨-, he⟩ | ⟨d, -, he⟩ | he <;> rw [he] <;> exact h

theorem State.buffersCanonical_writeTarget {s : State} (h : s.buffersCanonical) (wdata : Word) (strb : BitVec 4)
    (c : Target) : (s.writeTarget wdata strb c).buffersCanonical := by
  obtain ⟨hin, hout⟩ := h
  cases c with
  | reg r => cases r <;> exact ⟨hin, hout⟩
  | inBuf o => exact ⟨wf_writeLanes _ o wdata strb hin, hout⟩
  | outBuf o => exact ⟨hin, wf_writeLanes _ o wdata strb hout⟩
  | freq | misaligned | unmapped => exact ⟨hin, hout⟩

theorem State.buffersCanonical_busWrite {s : State} (h : s.buffersCanonical) (addr wdata : Word) (strb : BitVec 4) :
    (s.busWrite addr wdata strb).buffersCanonical := by
  rcases s.busWrite_cases addr wdata strb with he | ⟨-, -, he⟩ | ⟨-, -, he⟩ <;> rw [he]
  · exact h
  · exact h
  · exact State.buffersCanonical_writeTarget h wdata strb _

/-- Only a write to the IN_BUF window changes IN_BUF; no write changes the seed. -/
theorem State.writeTarget_inBuf (s : State) (wdata : Word) (strb : BitVec 4) (c : Target) :
    (∃ o, c = .inBuf o) ∨
      (s.writeTarget wdata strb c).inBuf = s.inBuf ∧ (s.writeTarget wdata strb c).bufSeed = s.bufSeed := by
  cases c with
  | inBuf o => exact .inl ⟨o, rfl⟩
  | reg r => cases r <;> exact .inr ⟨rfl, rfl⟩
  | _ => exact .inr ⟨rfl, rfl⟩

/-- Everything a bus write can do to IN_BUF. -/
theorem State.busWrite_inBuf (s : State) (addr wdata : Word) (strb : BitVec 4) :
    (s.busy = false ∧ ∃ o, decodeAddr s.params addr = .inBuf o) ∨
      (s.busWrite addr wdata strb).inBuf = s.inBuf ∧ (s.busWrite addr wdata strb).bufSeed = s.bufSeed := by
  rcases s.busWrite_cases addr wdata strb with he | ⟨-, -, he⟩ | ⟨hopen, -, he⟩ <;> rw [he]
  · exact .inr ⟨rfl, rfl⟩
  · exact .inr ⟨rfl, rfl⟩
  · rcases s.writeTarget_inBuf wdata strb (decodeAddr s.params addr) with ⟨o, ho⟩ | hsame
    · exact .inl ⟨hopen.resolve_right (by simp [ho, Target.isProtected]), o, ho⟩
    · exact .inr hsame

/-- Everything a bus write can do to the Core: a full-word CMD write starts it, no other write touches BUSY (R130). -/
theorem State.busWrite_busy {s : State} {addr wdata : Word} {strb : BitVec 4} (hidle : s.busy = false)
    (hbusy : (s.busWrite addr wdata strb).busy = true) : strb = 0b1111#4 ∧ decodeAddr s.params addr = .reg .cmd := by
  rcases s.busWrite_cases addr wdata strb with he | ⟨-, -, he⟩ | ⟨-, hstrb, he⟩ <;> rw [he] at hbusy
  · simp [hidle] at hbusy
  · simp [hidle] at hbusy
  · by_cases hcmd : decodeAddr s.params addr = .reg .cmd
    · rw [hcmd] at hstrb
      exact ⟨by simpa [Target.strobesBad] using hstrb, hcmd⟩
    · have hframe := (s.writeTarget_frame wdata strb hcmd).1
      simp [hframe, hidle] at hbusy

/-! ## The step, by the instruction it runs -/

/-- Everything a step can be; for a bus write, the one that `nextInstr` names. -/
theorem step_cases {s t : State} (h : step s = .next t) :
    t = s.takeInput ∨
    (∃ i, (commandRun i s.takeInput).complete = .next t) ∨
    (∃ addr, t = s.takeInput.busRead addr) ∨
    (∃ addr wdata strb, s.nextInstr = some (.hwrite addr wdata strb) ∧ t = s.takeInput.busWrite addr wdata strb) ∨
    s.nextMove = .reset ∧ t = s.takeInput.resetStep := by
  rcases s.nextMove_cases with ⟨hmove, -⟩ | ⟨w, hmove, -⟩ | ⟨desc, wdata, -, hmove, -⟩ | ⟨-, hmove, -⟩
  · rw [step_of_rest hmove, Host.Outcome.next.injEq] at h
    exact .inl h.symm
  · rw [step_of_command hmove, exec_of_command (decodeCommand_format w)] at h
    exact .inr (.inl ⟨_, h⟩)
  · rw [step_of_request hmove] at h
    rcases decodeRequest_cases desc wdata with ⟨addr, hi⟩ | ⟨addr, strb, hi⟩
    · rw [hi, exec_hread, Host.Outcome.next.injEq] at h
      exact .inr (.inr (.inl ⟨addr, h.symm⟩))
    · rw [hi, exec_hwrite, Host.Outcome.next.injEq] at h
      have hnext : s.nextInstr = some (.hwrite addr wdata strb) :=
        State.nextInstr_eq_some_iff.2 (.inr ⟨desc, wdata, hmove, hi⟩)
      exact .inr (.inr (.inr (.inl ⟨addr, wdata, strb, hnext, h.symm⟩)))
  · rw [step_of_reset hmove, Host.Outcome.next.injEq] at h
    exact .inr (.inr (.inr (.inr ⟨hmove, h.symm⟩)))

/-! ## The obligations -/

/-- Settles O52: commands write through operations that keep the form, a bus write through `writeLanes`, and reset empties
both buffers. -/
theorem stepKeepsBuffersCanonical : Obligations.StepKeepsBuffersCanonical := by
  intro s t hs hstep
  exact step_ends hstep hs (fun _ h => h) (fun _ h => h)
    (fun i s ⟨hin, hout⟩ => Run.endsIn_mono (commandRun_buffersKept i s)
      fun _ hu _ _ => ⟨hu.inBuf.symm ▸ hin, hu.outBuf hout⟩)
    (fun addr _ h => State.buffersCanonical_busRead h addr)
    (fun addr wdata strb _ h => State.buffersCanonical_busWrite h addr wdata strb)
    (fun s _ => wf_resetFor s.params)

/-- Settles O60: of all that a step can be, only reset and a bus write reach IN_BUF, and only a bus write raises BUSY. -/
theorem onlyTheHostLoadsAndStarts : Obligations.OnlyTheHostLoadsAndStarts := by
  intro s t hstep
  have hquiet (h : t.inBuf = s.inBuf ∧ t.bufSeed = s.bufSeed) : ¬ (t.inBuf ≠ s.inBuf ∨ t.bufSeed ≠ s.bufSeed) := by
    simp [h]
  rcases step_cases hstep with rfl | ⟨i, hrun⟩ | ⟨addr, rfl⟩ | ⟨addr, wdata, strb, hnext, rfl⟩ | ⟨hmove, rfl⟩
  case inl =>
    exact ⟨fun h => absurd h (hquiet ⟨rfl, rfl⟩), fun hidle hbusy => by simp [hidle] at hbusy⟩
  case inr.inl =>
    obtain ⟨u, c, p, hu, rfl⟩ := Run.endsIn_complete (commandRun_buffersKept i s.takeInput) hrun
    exact ⟨fun h => absurd h (hquiet ⟨hu.inBuf, hu.bufSeed⟩), fun _ hbusy => by simp at hbusy⟩
  case inr.inr.inl =>
    obtain ⟨resp, fresh, he⟩ := s.takeInput.busRead_frame addr
    rw [he] at hquiet ⊢
    exact ⟨fun h => absurd h (hquiet ⟨rfl, rfl⟩), fun hidle hbusy => by simp [hidle] at hbusy⟩
  case inr.inr.inr.inl =>
    refine ⟨fun h => .inr ?_, fun hidle hbusy => ?_⟩
    · rcases s.takeInput.busWrite_inBuf addr wdata strb with ⟨hidle, o, ho⟩ | hsame
      · exact ⟨hidle, addr, wdata, strb, o, hnext, ho⟩
      · exact absurd h (hquiet hsame)
    · obtain ⟨rfl, hcmd⟩ := State.busWrite_busy (s := s.takeInput) hidle hbusy
      exact ⟨addr, wdata, hnext, hcmd⟩
  case inr.inr.inr.inr =>
    exact ⟨fun _ => .inl hmove, fun _ hbusy => nomatch hbusy⟩

end Sys2Proof.Machine
end

section
/-! SUPPORT. The encodings (30_encoding.md rules R80 to R82 and R99): what the opcode map gives a command word, that the
byte decoder reads a word, a descriptor and the write data back, and the statements about them that they settle. -/

namespace Sys2Proof.Machine

/-! ## The opcode map (R81, R82) -/

theorem commandWords_eq_keys : commandWords = opcodeMap.map Prod.fst := rfl

theorem encode_of_mem_opcodeMap : ∀ x ∈ opcodeMap, encode x.2 = bytesOfWord x.1 := by decide

theorem ne_illegal_of_mem_opcodeMap (v : Word) : ∀ x ∈ opcodeMap, x.2 ≠ .illegal v := by
  simp [opcodeMap]

theorem lookup_opcodeMap_eq_none_iff {w : Word} : opcodeMap.lookup w = none ↔ w ∉ commandWords := by
  rw [List.lookup_eq_none_iff, commandWords_eq_keys]
  simp only [bne_iff_ne, List.mem_map, not_exists, not_and]
  exact forall₂_congr fun _ _ => ne_comm

theorem decodeCommand_of_unlisted {w : Word} (h : w ∉ commandWords) : decodeCommand w = .illegal w := by
  rw [decodeCommand, lookup_opcodeMap_eq_none_iff.2 h]

/-- What a command word can decode to: its entry of the map, or ILLEGAL where the map has none. -/
theorem decodeCommand_cases (w : Word) :
    (w ∈ commandWords ∧ (w, decodeCommand w) ∈ opcodeMap) ∨ (w ∉ commandWords ∧ decodeCommand w = .illegal w) := by
  by_cases h : w ∈ commandWords
  · obtain ⟨i, hi⟩ := Option.ne_none_iff_exists'.1 fun hnone => lookup_opcodeMap_eq_none_iff.1 hnone h
    have hdecode : decodeCommand w = i := by rw [decodeCommand, hi]
    exact .inl ⟨h, hdecode ▸ mem_of_lookup_eq_some hi⟩
  · exact .inr ⟨h, decodeCommand_of_unlisted h⟩

/-- Every well-formed command is the bytes of one word, and that word's meaning. -/
theorem exists_word_of_command {i : Instr} (hformat : i.format = .command) (hwf : i.wf = true) :
    ∃ w, encode i = bytesOfWord w ∧ decodeCommand w = i := by
  cases i with
  | illegal w => exact ⟨w, rfl, decodeCommand_of_unlisted (by simpa [Instr.wf] using hwf)⟩
  | hread | hwrite => exact nomatch hformat
  | _ => exact ⟨_, rfl, rfl⟩

/-! ## The descriptor (R99) -/

theorem descriptor_fields (wr : BitVec 1) (strb : BitVec 4) (addr : Word) :
    (descriptor wr strb addr).getLsbD 36 = wr.getLsbD 0 ∧
    (descriptor wr strb addr).extractLsb' 32 4 = strb ∧ (descriptor wr strb addr).extractLsb' 0 32 = addr :=
  ⟨(getLsbD_append_high _ addr 4).trans (getLsbD_append_high wr strb 0), extractLsb'_append_middle _ _ _,
    extractLsb'_append_low _ _⟩

/-- STRB makes no difference to what a read decodes to. -/
theorem decodeRequest_descriptor_read (strb : BitVec 4) (addr wdata : Word) :
    decodeRequest (descriptor 0#1 strb addr) wdata = .hread addr := by
  obtain ⟨hwr, -, haddr⟩ := descriptor_fields 0#1 strb addr
  rw [decodeRequest, hwr, haddr]
  rfl

theorem decodeRequest_descriptor_write (strb : BitVec 4) (addr wdata : Word) :
    decodeRequest (descriptor 1#1 strb addr) wdata = .hwrite addr wdata strb := by
  obtain ⟨hwr, hstrb, haddr⟩ := descriptor_fields 1#1 strb addr
  rw [decodeRequest, hwr, hstrb, haddr]
  rfl

/-! ## Bytes -/

theorem decode_bytesOfWord (w : Word) (rest : List Byte) :
    decode .command (bytesOfWord w ++ rest) = .ok (decodeCommand w, rest) := by
  simp only [bytesOfWord, List.cons_append, List.nil_append, decode, wordOfBytes_laneOf]

/-- The descriptor's fifth byte holds its five high bits below three zeros. -/
theorem decode_bytesOfTransaction (desc : BitVec 37) (wdata : Word) (rest : List Byte) :
    decode .transaction (bytesOfTransaction desc wdata ++ rest) = .ok (decodeRequest desc wdata, rest) := by
  have hpad : (0#3 ++ desc.extractLsb' 32 5).extractLsb' 5 3 = 0#3 := extractLsb'_append_top _ _
  have hhigh : (0#3 ++ desc.extractLsb' 32 5).extractLsb' 0 5 = desc.extractLsb' 32 5 := extractLsb'_append_low _ _
  have hdesc : desc.extractLsb' 32 5 ++ desc.extractLsb' 0 32 = desc := extractLsb'_append_halves (v := 5) (w := 32) desc
  simp only [bytesOfTransaction, bytesOfWord, List.cons_append, List.nil_append, decode, wordOfBytes_laneOf]
  rw [if_pos hpad, hhigh, hdesc]

/-! ## The obligations -/

/-- Settles O1: a command is the bytes of its word, a transaction those of its descriptor and write data, and each part is
read back whole. -/
theorem decodeOfEncodeIsTheInstruction : Obligations.DecodeOfEncodeIsTheInstruction := by
  intro i rest hwf
  cases hformat : i.format with
  | command =>
    obtain ⟨w, hencode, hdecode⟩ := exists_word_of_command hformat hwf
    rw [hencode, decode_bytesOfWord, hdecode]
  | transaction =>
    cases i with
    | hread addr => rw [encode, decode_bytesOfTransaction, decodeRequest_descriptor_read]
    | hwrite addr wdata strb => rw [encode, decode_bytesOfTransaction, decodeRequest_descriptor_write]
    | _ => exact nomatch hformat

/-- Settles O2: a listed word decodes to its entry of the map, which is not ILLEGAL and encodes to it; any other word is
ILLEGAL and carries itself. -/
theorem illegalExactlyTheUnlistedWords : Obligations.IllegalExactlyTheUnlistedWords := by
  intro w
  rcases decodeCommand_cases w with ⟨hlisted, hmem⟩ | ⟨hunlisted, hdecode⟩
  · exact ⟨⟨fun ⟨v, hv⟩ => absurd hv (ne_illegal_of_mem_opcodeMap v _ hmem), fun h => absurd hlisted h⟩,
      encode_of_mem_opcodeMap _ hmem⟩
  · exact ⟨⟨fun _ => hunlisted, fun _ => ⟨w, hdecode⟩⟩, hdecode ▸ rfl⟩

/-- Settles O3: the bytes are those that the encoder writes, so O1 reads them back. -/
theorem writtenOutWordsDecode : Obligations.WrittenOutWordsDecode :=
  have readBack := fun i => decodeOfEncodeIsTheInstruction i []
  ⟨readBack .analyze rfl, readBack .build rfl, readBack .unpack rfl, readBack .decompress rfl,
    readBack (.illegal 0x00000110#32) rfl, readBack (.hwrite 0x01000004#32 0x0000005A#32 0b0001#4) rfl⟩

end Sys2Proof.Machine
end

section
/-! SUPPORT. The Host address map (20_memory.md rule R62, 40_host_bus.md rule R111): which register stands at an offset, and
what an address beyond the registers decodes to. -/

namespace Sys2Proof.Machine

/-! ## The registers' offsets (R22) -/

theorem mem_allRegs (r : Reg) : r ∈ allRegs := by
  cases r with
  | codeW j => revert j; decide
  | _ => decide

/-- The registers fill the words from 0 to 0x8C, one to a word and in order. -/
theorem map_offset_allRegs : allRegs.map Reg.offset = (List.range 36).map (4 * ·) := by decide

theorem exists_offset_eq_iff {a : Nat} : (∃ r : Reg, r.offset = a) ↔ a % 4 = 0 ∧ a ≤ 0x8F := by
  have hoffsets : (∃ r : Reg, r.offset = a) ↔ a ∈ allRegs.map Reg.offset := by simp [mem_allRegs]
  rw [hoffsets, map_offset_allRegs]
  simp only [List.mem_map, List.mem_range]
  exact ⟨fun ⟨k, hk, hak⟩ => by omega, fun ⟨haligned, hle⟩ => ⟨a / 4, by omega, by omega⟩⟩

theorem regAt_offset (r : Reg) : regAt r.offset = some r := by
  have hlisted : ∀ r ∈ allRegs, regAt r.offset = some r := by decide
  exact hlisted r (mem_allRegs r)

theorem regAt_eq_none {a : Nat} (h : 0x90 ≤ a) : regAt a = none := by
  refine List.find?_eq_none.2 fun r _ hr => ?_
  have := exists_offset_eq_iff.1 ⟨r, beq_iff_eq.1 hr⟩
  omega

/-! ## Address decode (R111) -/

section Decode
variable {p : Params} {addr : Word}

theorem decodeAddr_of_misaligned (h : addr.toNat % 4 ≠ 0) : decodeAddr p addr = .misaligned := if_pos h

theorem decodeAddr_of_offset {r : Reg} (h : addr.toNat = r.offset) : decodeAddr p addr = .reg r := by
  have haligned := (exists_offset_eq_iff.1 ⟨r, rfl⟩).1
  simp [decodeAddr, h, haligned, regAt_offset]

/-- Beyond the registers the three windows decide. -/
theorem decodeAddr_of_ge (haligned : addr.toNat % 4 = 0) (h : 0x90 ≤ addr.toNat) :
    decodeAddr p addr =
      if 0x400 ≤ addr.toNat ∧ addr.toNat ≤ 0x7FC then .freq (BitVec.ofNat 8 ((addr.toNat - 0x400) / 4))
      else if 0x01000000 ≤ addr.toNat ∧ addr.toNat < 0x01000000 + p.inBufSize then .inBuf (addr.toNat - 0x01000000)
      else if 0x02000000 ≤ addr.toNat ∧ addr.toNat < 0x02000000 + p.outBufSize then .outBuf (addr.toNat - 0x02000000)
      else .unmapped := by
  simp only [decodeAddr, haligned, regAt_eq_none h, ne_eq, not_true_eq_false, if_false]
  rfl

/-- R7: neither window reaches the next window's base. -/
theorem Params.sizes_le_of_wf (h : p.wf = true) : p.inBufSize ≤ 0x01000000 ∧ p.outBufSize ≤ 0x01000000 := by
  simp only [Params.wf, Params.sizeOk, Bool.and_eq_true, decide_eq_true_eq] at h
  obtain ⟨⟨-, hin⟩, -, hout⟩ := h
  exact ⟨hin, hout⟩

theorem decodeAddr_of_unmapped (haligned : addr.toNat % 4 = 0) (h : 0x90 ≤ addr.toNat)
    (hfreq : ¬ (0x400 ≤ addr.toNat ∧ addr.toNat ≤ 0x7FC))
    (hin : ¬ (0x01000000 ≤ addr.toNat ∧ addr.toNat < 0x01000000 + p.inBufSize))
    (hout : ¬ (0x02000000 ≤ addr.toNat ∧ addr.toNat < 0x02000000 + p.outBufSize)) :
    decodeAddr p addr = .unmapped := by
  rw [decodeAddr_of_ge haligned h, if_neg hfreq, if_neg hin, if_neg hout]

theorem decodeAddr_of_freqWindow (haligned : addr.toNat % 4 = 0) (hlo : 0x400 ≤ addr.toNat) (hhi : addr.toNat ≤ 0x7FF) :
    ∃ sym : Symbol, decodeAddr p addr = .freq sym ∧ addr.toNat = 0x400 + 4 * sym.toNat := by
  refine ⟨BitVec.ofNat 8 ((addr.toNat - 0x400) / 4), ?_, ?_⟩
  · rw [decodeAddr_of_ge haligned (by omega), if_pos (by omega)]
  · rw [BitVec.toNat_ofNat]
    omega

theorem decodeAddr_of_inWindow (haligned : addr.toNat % 4 = 0) (hlo : 0x01000000 ≤ addr.toNat)
    (hhi : addr.toNat < 0x02000000) :
    decodeAddr p addr =
      if addr.toNat < 0x01000000 + p.inBufSize then .inBuf (addr.toNat - 0x01000000) else .unmapped := by
  split
  next hlt => rw [decodeAddr_of_ge haligned (by omega), if_neg (by omega), if_pos ⟨hlo, hlt⟩]
  next hge => exact decodeAddr_of_unmapped haligned (by omega) (by omega) (by omega) (by omega)

theorem decodeAddr_of_outWindow (hp : p.wf = true) (haligned : addr.toNat % 4 = 0) (hlo : 0x02000000 ≤ addr.toNat) :
    decodeAddr p addr =
      if addr.toNat < 0x02000000 + p.outBufSize then .outBuf (addr.toNat - 0x02000000) else .unmapped := by
  obtain ⟨hsize, -⟩ := Params.sizes_le_of_wf hp
  split
  next hlt => rw [decodeAddr_of_ge haligned (by omega), if_neg (by omega), if_neg (by omega), if_pos ⟨hlo, hlt⟩]
  next hge => exact decodeAddr_of_unmapped haligned (by omega) (by omega) (by omega) (by omega)

end Decode

/-! ## The obligation -/

/-- Settles O7: the registers fill the words below 0x90, so above them the windows alone decide, and legal sizes keep the
windows apart. -/
theorem addressMap : Obligations.AddressMap := by
  refine ⟨fun p addr hp => ⟨decodeAddr_of_misaligned, fun haligned => ⟨fun r => decodeAddr_of_offset, ?gap, ?freq, ?low,
    ?input, ?output, ?high⟩, ?register⟩, ?offsets⟩
  case gap =>
    intro hlo hhi
    exact decodeAddr_of_unmapped haligned hlo (by omega) (by omega) (by omega)
  case freq => exact decodeAddr_of_freqWindow haligned
  case low =>
    intro hlo hhi
    exact decodeAddr_of_unmapped haligned (by omega) (by omega) (by omega) (by omega)
  case input =>
    intro hlo hhi
    exact decodeAddr_of_inWindow haligned hlo (by omega)
  case output =>
    intro hlo _
    exact decodeAddr_of_outWindow hp haligned hlo
  case high =>
    intro hlo
    obtain ⟨-, hsize⟩ := Params.sizes_le_of_wf hp
    rw [decodeAddr_of_outWindow hp haligned (by omega), if_neg (by omega)]
  case register =>
    intro hle haligned
    obtain ⟨r, hr⟩ := exists_offset_eq_iff.2 ⟨haligned, hle⟩
    exact ⟨r, hr.symm⟩
  case offsets =>
    exact ⟨rfl, rfl, rfl, rfl, rfl, rfl, rfl, rfl, rfl, rfl, rfl, rfl, rfl, rfl, rfl, rfl, rfl, rfl, rfl, rfl, rfl, rfl,
      rfl, rfl, rfl, rfl, rfl, fun _ => rfl, rfl⟩

end Sys2Proof.Machine
end

section
/-! SUPPORT. What one Host transaction does to a target, busy or idle (40_host_bus.md rules R112 to R115,
70_reset_and_hazards.md rules R285 to R287): its error, its answer, and everything that it writes. -/

namespace Sys2Proof.Machine

section Access
variable {s : State} {addr wdata : Word} {strb : BitVec 4} {c : Target}

/-! ## Errors (R112, R113) -/

theorem State.busRead_of_offMap (h : decodeAddr s.params addr = .misaligned ∨ decodeAddr s.params addr = .unmapped) :
    s.busRead addr = s.answerRead 0#32 false := by
  rcases h with h | h <;> rw [State.busRead, h]

theorem State.busWrite_of_offMap (h : decodeAddr s.params addr = .misaligned ∨ decodeAddr s.params addr = .unmapped) :
    s.busWrite addr wdata strb = s.answerWrite false := by
  rcases h with h | h <;> rw [State.busWrite, h]

theorem State.busWrite_of_partialStrobes {r : Reg} (haddr : decodeAddr s.params addr = .reg r) (hstrb : strb ≠ 0b1111#4) :
    s.busWrite addr wdata strb = s.answerWrite false := by
  have hbad : (Target.reg r).strobesBad strb = true := bne_iff_ne.2 hstrb
  simp only [State.busWrite, haddr, hbad, if_true]

/-! ## Reads of mapped targets (R115) -/

theorem Target.mapped_of_isVolatile (hc : c.isVolatile = true) : c ≠ .misaligned ∧ c ≠ .unmapped := by
  constructor <;> rintro rfl <;> exact nomatch hc

theorem State.busRead_of_mapped (haddr : decodeAddr s.params addr = c) (hmis : c ≠ .misaligned) (hun : c ≠ .unmapped) :
    s.busRead addr =
      if s.busy && c.isVolatile then s.tick.answerRead (Config.draw32 s.fresh) true
      else if s.busy && c == .reg .status then s.tick.answerRead (s.statusWith (Config.draw2 s.fresh)) true
      else s.answerRead (s.readTarget c) true := by
  subst haddr
  unfold State.busRead
  split
  · exact absurd ‹_› hmis
  · exact absurd ‹_› hun
  · rfl

theorem State.busRead_of_volatile (hbusy : s.busy = true) (haddr : decodeAddr s.params addr = c)
    (hc : c.isVolatile = true) : s.busRead addr = s.tick.answerRead (Config.draw32 s.fresh) true := by
  obtain ⟨hmis, hun⟩ := Target.mapped_of_isVolatile hc
  rw [State.busRead_of_mapped haddr hmis hun, if_pos (by rw [hbusy, hc]; rfl)]

/-- R286: a stable target answers its stored value, busy or not. -/
theorem State.busRead_of_stable (haddr : decodeAddr s.params addr = c) (hmis : c ≠ .misaligned) (hun : c ≠ .unmapped)
    (hc : c.isVolatile = false) (hstatus : c ≠ .reg .status) : s.busRead addr = s.answerRead (s.readTarget c) true := by
  rw [State.busRead_of_mapped haddr hmis hun, if_neg (by simp [hc]), if_neg (by simp [hstatus])]

theorem State.busRead_status_of_busy (hbusy : s.busy = true) (haddr : decodeAddr s.params addr = .reg .status) :
    s.busRead addr = s.tick.answerRead (s.statusWith (Config.draw2 s.fresh)) true := by
  rw [State.busRead_of_mapped haddr nofun nofun, hbusy]
  rfl

theorem Reg.isVolatile_iff {r : Reg} : r.isVolatile = true ↔
    r = .origLen ∨ r = .outLen ∨ r = .inPos ∨ r = .nodeCount ∨ r = .root ∨ r = .leafCount ∨ r = .descBits ∨
      r = .payloadBitsLo ∨ r = .payloadBitsHi ∨ r = .maxCodeLen ∨ r = .nodeInfo ∨ r = .nodeLink ∨ r = .nodeWlo ∨
      r = .nodeWhi ∨ r = .codeLen ∨ ∃ j, r = .codeW j := by
  cases r <;> simp [Reg.isVolatile]

/-- The draw for bits 5:4 leaves every other bit of STATUS as it is (R115). -/
theorem State.statusWith_agree (s : State) (v w : BitVec 2) :
    (s.statusWith v).extractLsb' 0 4 = (s.statusWith w).extractLsb' 0 4 ∧
    (s.statusWith v).extractLsb' 6 26 = (s.statusWith w).extractLsb' 6 26 := by
  have hlow (i : Nat) (hi : i < 4) : (s.statusWith v).getLsbD i = (s.statusWith w).getLsbD i := by
    have hflags (valid : BitVec 2) := getLsbD_append_flags (0#16 ++ s.lastOp ++ 0#2 ++ valid) s.haz s.err s.done s.busy
    obtain ⟨hv₀, hv₁, hv₂, hv₃⟩ := hflags v
    obtain ⟨hw₀, hw₁, hw₂, hw₃⟩ := hflags w
    match i, hi with
    | 0, _ => exact hv₀.trans hw₀.symm
    | 1, _ => exact hv₁.trans hw₁.symm
    | 2, _ => exact hv₂.trans hw₂.symm
    | 3, _ => exact hv₃.trans hw₃.symm
  have hhigh (valid : BitVec 2) : (s.statusWith valid).extractLsb' 6 26 = 0#16 ++ s.lastOp ++ 0#2 :=
    (extractLsb'_append_flags_high (0#16 ++ s.lastOp ++ 0#2 ++ valid) s.haz s.err s.done s.busy 2 26).trans
      (extractLsb'_append_top _ _)
  refine ⟨BitVec.eq_of_getLsbD_eq fun i hi => ?_, (hhigh v).trans (hhigh w).symm⟩
  rw [BitVec.getLsbD_extractLsb', BitVec.getLsbD_extractLsb', Nat.zero_add, hlow i hi]

/-! ## Writes to mapped targets (R114, R285) -/

theorem Target.mapped_of_isProtected (hc : c.isProtected = true) : c ≠ .misaligned ∧ c ≠ .unmapped := by
  constructor <;> rintro rfl <;> exact nomatch hc

theorem Reg.isProtected_iff {r : Reg} :
    r.isProtected = true ↔ r = .cmd ∨ r = .inLen ∨ r = .inOff ∨ r = .origLen ∨ r = .nodeSel ∨ r = .codeSel := by
  cases r <;> simp [Reg.isProtected]

theorem State.busWrite_of_mapped (haddr : decodeAddr s.params addr = c) (hmis : c ≠ .misaligned) (hun : c ≠ .unmapped)
    (hstrb : c.strobesBad strb = false) :
    s.busWrite addr wdata strb =
      if s.busy && c.isProtected then State.answerWrite { s with haz := true } true
      else (s.writeTarget wdata strb c).answerWrite true := by
  subst haddr
  unfold State.busWrite
  split
  · exact absurd ‹_› hmis
  · exact absurd ‹_› hun
  · rw [hstrb]
    rfl

theorem State.busWrite_of_dropped (hbusy : s.busy = true) (haddr : decodeAddr s.params addr = c)
    (hc : c.isProtected = true) (hstrb : c.strobesBad strb = false) :
    s.busWrite addr wdata strb = { s with haz := true, resp := .write true } := by
  obtain ⟨hmis, hun⟩ := Target.mapped_of_isProtected hc
  rw [State.busWrite_of_mapped haddr hmis hun hstrb, if_pos (by rw [hbusy, hc]; rfl)]
  rfl

/-- R114: a full-word register write that nothing protects now is carried out. -/
theorem exec_hwrite_reg {r : Reg} (haddr : decodeAddr s.params addr = .reg r)
    (hopen : s.busy = false ∨ r.isProtected = false) :
    exec (.hwrite addr wdata 0b1111#4) s = .next ((s.writeReg wdata r).answerWrite true) := by
  have hfree : ¬ (s.busy && (Target.reg r).isProtected) = true := by
    simpa [Target.isProtected, imp_iff_not_or] using hopen
  rw [exec_hwrite, State.busWrite_of_mapped haddr nofun nofun rfl, if_neg hfree]
  rfl

/-- R27: a 1 written to DONE or HAZ clears it. -/
theorem State.writeReg_status (s : State) (wdata : Word) :
    s.writeReg wdata .status =
      { s with done := s.done && !wdata.getLsbD 1, haz := s.haz && !wdata.getLsbD 3 } := by
  have hclear (b c : Bool) : (if b then false else c) = (c && !b) := by cases b <;> simp
  simp only [State.writeReg, hclear]

theorem State.startCommand_eq (s : State) (w : Word) :
    s.startCommand w = { s with
      busy := true, done := false, err := false, lastOp := w.setWidth 8, errClass := 0#4, errDetail := 0#8,
      errPos := 0#32, seq := .exec w } := by
  rw [BitVec.setWidth_eq_extractLsb' (x := w) (w := 8) (by decide)]
  rfl

end Access

/-! ## Bytes that a buffer write leaves alone (R64) -/

theorem Memory.read_writeLanes_of_outside (m : Memory) {o a : Nat} (wdata : Word) (strb : BitVec 4)
    (h : a < o ∨ o + 4 ≤ a) : Memory.read (writeLanes m o wdata strb) a = Memory.read m a := by
  have hne (i : Nat) (hi : i < 4) : a ≠ o + i := by omega
  simp only [writeLanes, Memory.read_ite_write, hne 0 (by decide), hne 1 (by decide), hne 2 (by decide),
    hne 3 (by decide), and_false, if_false]

/-! ## The obligations -/

/-- Settles O15: the entry is the old count with the strobed lanes merged in. -/
theorem freqWriteReplacesStrobedLanes : Obligations.FreqWriteReplacesStrobedLanes := by
  intro s addr wdata strb sym hbusy haddr
  refine ⟨_, congrArg Host.Outcome.next (State.busWrite_of_idle wdata hbusy haddr nofun nofun rfl), rfl, ?others, ?lanes⟩
  case others => exact fun x hx => symGet_symSet_of_ne s.freq _ hx
  case lanes =>
    intro i hi
    have hentry : symGet (s.writeTarget wdata strb (.freq sym)).freq sym = mergeLanes (symGet s.freq sym) wdata strb :=
      symGet_symSet_same _ _ _
    exact (congrArg (laneOf · i) hentry).trans (laneOf_mergeLanes _ wdata strb hi)

/-- Settles O16: either buffer is written by `writeLanes`, which reaches only the strobed bytes of one word. -/
theorem bufferWriteStoresStrobedLanes : Obligations.BufferWriteStoresStrobedLanes := by
  intro s addr wdata strb o hbusy
  refine ⟨fun haddr => ?input, fun haddr => ?output⟩
  case input =>
    refine ⟨_, congrArg Host.Outcome.next (State.busWrite_of_idle wdata hbusy haddr nofun nofun rfl), rfl,
      fun i hi => s.inByte_writeLanes o wdata strb hi, fun a ha => ?_⟩
    simp only [State.inByte, State.answerWrite_inBuf, State.answerWrite_bufSeed, State.writeTarget,
      Memory.read_writeLanes_of_outside s.inBuf wdata strb ha]
  case output =>
    refine ⟨_, congrArg Host.Outcome.next (State.busWrite_of_idle wdata hbusy haddr nofun nofun rfl), rfl,
      fun i hi => s.outByte_writeLanes o wdata strb hi, fun a ha => ?_⟩
    simp only [State.outByte, State.answerWrite_outBuf, State.answerWrite_bufSeed, State.writeTarget,
      Memory.read_writeLanes_of_outside s.outBuf wdata strb ha]

/-- Settles O8: off the map, or with partial strobes on a register, a transaction only answers. -/
theorem busErrorChangesNothing : Obligations.BusErrorChangesNothing := fun _ addr wdata strb =>
  ⟨fun hoff => ⟨congrArg _ (State.busRead_of_offMap hoff), congrArg _ (State.busWrite_of_offMap hoff)⟩,
    fun _ haddr hstrb => congrArg _ (State.busWrite_of_partialStrobes haddr hstrb),
    decodeRequest_descriptor_read strb addr wdata⟩

/-- Settles O9: an idle read answers `readTarget`, whatever the mapped target. -/
theorem idleReadReturnsStoredValue : Obligations.IdleReadReturnsStoredValue := by
  intro s addr hbusy
  have hread {c : Target} (haddr : decodeAddr s.params addr = c) (hmis : c ≠ .misaligned) (hun : c ≠ .unmapped) :
      exec (.hread addr) s = .next { s with resp := .read (s.readTarget c) true } :=
    congrArg _ (State.busRead_of_idle hbusy haddr hmis hun)
  exact ⟨fun _ haddr => hread haddr nofun nofun, fun _ haddr => hread haddr nofun nofun,
    fun _ haddr => hread haddr nofun nofun, fun _ haddr => hread haddr nofun nofun⟩

/-- Settles O12: the listed volatile targets draw, the stable ones answer what they hold, and STATUS draws its two
validity bits. -/
theorem readsWhileBusy : Obligations.ReadsWhileBusy := by
  intro s addr hbusy
  have hdraws {c : Target} (haddr : decodeAddr s.params addr = c) (hc : c.isVolatile = true) :
      ∃ d, exec (.hread addr) s = .next { s with resp := .read d true, fresh := s.fresh + 1 } :=
    ⟨_, congrArg _ (State.busRead_of_volatile hbusy haddr hc)⟩
  refine ⟨?volatile, fun r haddr hr => ?stable, fun o haddr => ?input, fun haddr => ?status⟩
  case volatile =>
    rintro (⟨r, haddr, hr⟩ | ⟨sym, haddr⟩ | ⟨o, haddr⟩)
    · exact hdraws haddr (Reg.isVolatile_iff.2 hr)
    · exact hdraws haddr rfl
    · exact hdraws haddr rfl
  case stable =>
    have hstable : r.isVolatile = false ∧ r ≠ .status := by
      rcases hr with rfl | rfl | rfl | rfl | rfl | rfl | rfl | rfl | rfl | rfl | rfl | rfl <;> exact ⟨rfl, nofun⟩
    exact congrArg _ (State.busRead_of_stable haddr nofun nofun hstable.1 fun h => hstable.2 (Target.reg.inj h))
  case input => exact congrArg _ (State.busRead_of_stable haddr nofun nofun rfl nofun)
  case status =>
    exact ⟨_, congrArg _ (State.busRead_status_of_busy hbusy haddr), s.statusWith_agree _ _⟩

/-- Settles O13: each listed target is protected, and only a register looks at the strobes. -/
theorem protectedWriteIsDropped : Obligations.ProtectedWriteIsDropped := by
  intro s addr wdata strb hbusy htarget
  refine congrArg Host.Outcome.next ?_
  rcases htarget with ⟨rfl, r, haddr, hr⟩ | ⟨sym, haddr⟩ | ⟨o, haddr⟩ | ⟨o, haddr⟩
  · exact State.busWrite_of_dropped hbusy haddr (Reg.isProtected_iff.2 hr) rfl
  · exact State.busWrite_of_dropped hbusy haddr rfl rfl
  · exact State.busWrite_of_dropped hbusy haddr rfl rfl
  · exact State.busWrite_of_dropped hbusy haddr rfl rfl

/-- Settles O14: an accepted full-word write is `writeReg`, which the model gives register by register. -/
theorem registerWrites : Obligations.RegisterWrites := by
  intro s addr wdata r haddr
  refine ⟨?flags, ?enable, ?readOnly, fun hidle => ?idle⟩
  case flags =>
    rintro rfl
    rw [exec_hwrite_reg haddr (.inr rfl), State.writeReg_status]
    rfl
  case enable =>
    rintro rfl
    exact exec_hwrite_reg haddr (.inr rfl)
  case readOnly =>
    intro hcmd hstatus hirqEn hinLen hinOff horigLen hnodeSel hcodeSel
    cases r with
    | cmd | status | irqEn | inLen | inOff | origLen | nodeSel | codeSel => contradiction
    | _ => exact exec_hwrite_reg haddr (.inr rfl)
  case idle =>
    have hwrite := exec_hwrite_reg (wdata := wdata) haddr (.inl hidle)
    refine ⟨?_, ?_, ?_, ?node, ?code, ?start⟩
    case node =>
      rintro rfl
      rw [hwrite, BitVec.setWidth_eq_extractLsb' (x := wdata) (w := 9) (by decide)]
      rfl
    case code =>
      rintro rfl
      rw [hwrite, BitVec.setWidth_eq_extractLsb' (x := wdata) (w := 8) (by decide)]
      rfl
    case start =>
      rintro rfl
      rw [hwrite, State.writeReg, State.startCommand_eq]
      rfl
    all_goals
      rintro rfl
      exact hwrite

end Sys2Proof.Machine
end

section
/-! SUPPORT. How a command ends (41_control.md rules R132 to R138): the fields that no command's lines write, the causes
they can raise, and the completion of NOP, CLEAR, an illegal word and a command whose window is refused. -/

namespace Sys2Proof.Machine

/-! ## What no command's lines write (R133) -/

/-- The parameters, the sticky flag, LAST_OP and the Host's registers, ORIG_LEN apart. -/
structure Control where
  params : Params
  haz : Bool
  lastOp : BitVec 8
  doneIe : Bool
  inLen : Word
  inOff : Word
  nodeSel : BitVec 9
  codeSel : BitVec 8

def State.control (s : State) : Control :=
  { params := s.params, haz := s.haz, lastOp := s.lastOp, doneIe := s.doneIe, inLen := s.inLen, inOff := s.inOff,
    nodeSel := s.nodeSel, codeSel := s.codeSel }

/-- With them ORIG_LEN, which R21 lets COMPRESS and DECOMPRESS write, and R137 also CLEAR (log entry 23). -/
def State.operands (s : State) : Control × Word := (s.control, s.origLen)

/-- The state in which a command's lines end, finished or raised, has the `f` of `s`. -/
def Run.keeps {α : Type} (r : Run) (f : State → α) (s : State) : Prop := r.endsIn fun u => f u = f s

/-- Lines that start in `u`, seen from a state before it. -/
theorem Run.keeps_from {α : Type} {f : State → α} {r : Run} {s u : State} (hr : r.keeps f u) (h : f u = f s) :
    r.keeps f s :=
  Run.endsIn_mono hr fun _ hv => hv.trans h

theorem Run.keeps_control {r : Run} {s : State} (h : r.keeps State.operands s) : r.keeps State.control s :=
  Run.endsIn_mono h fun _ => congrArg Prod.fst

theorem State.keeps_buildTree (s : State) : s.buildTree.keeps State.operands s := by
  rcases s.buildTree_cases with ⟨-, he⟩ | ⟨a, k, -, -, he⟩ <;> rw [he] <;> exact rfl

theorem State.keeps_deriveCodes (s : State) : s.deriveCodes.keeps State.operands s := by
  rcases s.deriveCodes_cases with he | ⟨c, -, he⟩ <;> rw [he]
  · trivial
  · exact rfl

theorem State.keeps_packWindow (s : State) : s.packWindow.keeps State.operands s := by
  rcases s.packWindow_cases with ⟨c, p, he⟩ | ⟨bits, w, -, -, -, he⟩ <;> rw [he] <;> exact rfl

theorem State.keeps_unpackFrom (s : State) (count p : Nat) : (s.unpackFrom count p).keeps State.operands s := by
  rcases s.unpackFrom_cases count p with ⟨buf, p', -, he⟩ | ⟨buf, -, he⟩ | he <;> rw [he]
  · exact rfl
  · exact rfl
  · trivial

theorem State.keeps_unpackWindow (s : State) : s.unpackWindow.keeps State.operands s := by
  rcases s.unpackWindow_cases with ⟨c, p, he⟩ | he | ⟨-, -, he⟩ <;> rw [he]
  · exact rfl
  · exact rfl
  · exact s.keeps_unpackFrom _ _

theorem State.keeps_serializeTree (s : State) : s.serializeTree.keeps State.operands s := by
  rcases s.serializeTree_cases with he | ⟨w, -, he⟩ <;> rw [he]
  · trivial
  · exact rfl

theorem State.keeps_parseTree (s : State) (p0 : Nat) {k : State → Nat → Run}
    (hk : ∀ u p, (k u p).keeps State.operands u) : (s.parseTree p0 k).keeps State.operands s := by
  rcases s.parseTree_cases p0 k with ⟨c, pos, a, -, he⟩ | ⟨r, -, he⟩ <;> rw [he]
  · exact rfl
  · exact Run.keeps_from (hk _ _) rfl

theorem State.keeps_emitContainer (s : State) : s.emitContainer.keeps State.operands s := by
  rcases s.emitContainer_cases with ⟨c, p, he⟩ | he | ⟨d, w, -, -, -, he⟩ <;> rw [he]
  · exact rfl
  · trivial
  · exact rfl

theorem State.keeps_decodeContainer (s : State) : s.decodeContainer.keeps State.operands s := by
  rcases s.decodeContainer_cases with ⟨c, p, he⟩ | he | ⟨-, he⟩ <;> rw [he]
  · exact rfl
  · exact rfl
  · exact s.keeps_parseTree _ fun u p => u.keeps_unpackFrom _ _

/-- COMPRESS writes ORIG_LEN before it counts. -/
theorem State.keeps_control_compressWindow (s : State) : s.compressWindow.keeps State.control s := by
  rcases s.compressWindow_cases with he | he | ⟨b, t, hb, -, he⟩ <;> rw [he]
  · exact rfl
  · exact rfl
  · have hbuilt : (Run.ok b).keeps State.control s.counted := Run.keeps_control (hb ▸ s.counted.keeps_buildTree)
    exact Run.keeps_from (Run.keeps_control (State.keeps_emitContainer _)) hbuilt

/-- DECOMPRESS writes ORIG_LEN once the header is read. -/
theorem State.keeps_control_decompressWindow (s : State) : s.decompressWindow.keeps State.control s := by
  rcases s.decompressWindow_cases with ⟨c, p, he⟩ | he <;> rw [he]
  · exact rfl
  · exact Run.keeps_from (Run.keeps_control (State.keeps_decodeContainer _)) rfl

/-- R21: every command but the three that write ORIG_LEN keeps all the operands. -/
theorem commandRun_keeps_operands {i : Instr} (hcompress : i ≠ .compress) (hdecompress : i ≠ .decompress)
    (hclear : i ≠ .clear) (s : State) : (commandRun i s).keeps State.operands s := by
  cases i with
  | compress => exact absurd rfl hcompress
  | decompress => exact absurd rfl hdecompress
  | clear => exact absurd rfl hclear
  | analyze => exact State.endsIn_checkWindow rfl fun _ => rfl
  | build => exact Run.keeps_from s.invalidate.keeps_buildTree rfl
  | derive =>
    rw [commandRun]
    split
    · exact s.keeps_deriveCodes
    · exact rfl
  | pack => exact State.endsIn_checkWindow rfl fun _ => (s.setOutLen 0).keeps_packWindow
  | unpack => exact State.endsIn_checkWindow rfl fun _ => (s.setOutLen 0).keeps_unpackWindow
  | sertree =>
    rw [commandRun]
    split
    · exact (s.setOutLen 0).keeps_serializeTree
    · exact rfl
  | parsetree => exact State.endsIn_checkWindow rfl fun _ => s.keeps_parseTree _ fun _ _ => rfl
  | nop | illegal | hread | hwrite => exact rfl

/-- R133: what every command keeps. -/
theorem commandRun_keeps_control (i : Instr) (s : State) : (commandRun i s).keeps State.control s := by
  by_cases hcompress : i = .compress
  · subst hcompress
    exact State.endsIn_checkWindow rfl fun _ => (s.setOutLen 0).keeps_control_compressWindow
  by_cases hdecompress : i = .decompress
  · subst hdecompress
    exact State.endsIn_checkWindow rfl fun _ => (s.setOutLen 0).keeps_control_decompressWindow
  by_cases hclear : i = .clear
  · subst hclear
    exact rfl
  exact Run.keeps_control (commandRun_keeps_operands hcompress hdecompress hclear s)

theorem Run.endsIn_and {r : Run} {P Q : State → Prop} (hP : r.endsIn P) (hQ : r.endsIn Q) :
    r.endsIn fun s => P s ∧ Q s := by
  cases r with
  | ok s => exact ⟨hP, hQ⟩
  | raise c p s => exact ⟨hP, hQ⟩
  | notATree => trivial

/-! ## What a command can raise -/

/-- The error a command's lines end with, if they end with one. -/
def Run.cause : Run → Option Cause
  | .ok _ => none
  | .raise c _ _ => some c
  | .notATree => none

theorem Run.cause_of_complete {r : Run} {t : State} (h : r.complete = .next t) :
    ∃ (s : State) (p : Nat), t = s.complete r.cause p := by
  rcases Run.complete_eq_next h with ⟨s, rfl, rfl⟩ | ⟨c, p, s, rfl, rfl⟩
  · exact ⟨s, 0, rfl⟩
  · exact ⟨s, p, rfl⟩

/-- R251: only BAD_ARG reads as its own ERROR word. -/
theorem State.error_complete_eq_badArg {s : State} {c : Option Cause} {p : Nat}
    (h : (s.complete c p).error = 0x00000204#32) : c = some .badArg := by
  cases c with
  | none =>
    rw [State.error_eq_zero (s := s.complete none p) rfl rfl] at h
    exact absurd h (by decide)
  | some c =>
    simp only [State.error, State.complete_errClass, State.complete_errDetail] at h
    revert h
    cases c <;> decide

/-- The lines after a window check that passes are all that can raise. -/
theorem State.cause_checkWindow {s : State} (h : s.windowFits) (k : State → Run) :
    (s.checkWindow.andThen k).cause = (k s).cause := by
  rw [State.checkWindow_of_fits s h, Run.andThen_ok]

theorem State.cause_buildTree_ne_badArg (s : State) : s.buildTree.cause ≠ some .badArg := by
  rcases s.buildTree_cases with ⟨-, he⟩ | ⟨a, k, -, -, he⟩ <;> rw [he] <;> exact nofun

theorem State.cause_deriveCodes (s : State) : s.deriveCodes.cause = none := by
  rcases s.deriveCodes_cases with he | ⟨c, -, he⟩ <;> rw [he] <;> rfl

theorem State.cause_packWindow_ne_badArg (s : State) : s.packWindow.cause ≠ some .badArg := by
  unfold State.packWindow
  split
  · split
    · exact nofun
    · next bits _ => rcases s.emitPayload_cases bits with ⟨-, he⟩ | ⟨w, -, -, he⟩ <;> rw [he] <;> exact nofun
  · exact nofun

theorem State.cause_unpackFrom_ne_badArg (s : State) (count p : Nat) :
    (s.unpackFrom count p).cause ≠ some .badArg := by
  rcases s.unpackFrom_cases count p with ⟨buf, p', -, he⟩ | ⟨buf, -, he⟩ | he <;> rw [he] <;> exact nofun

theorem State.cause_unpackWindow_ne_badArg (s : State) : s.unpackWindow.cause ≠ some .badArg := by
  unfold State.unpackWindow
  split
  · exact nofun
  · split
    · split
      · exact nofun
      · exact s.cause_unpackFrom_ne_badArg _ _
    · exact nofun

theorem State.cause_serializeTree (s : State) : s.serializeTree.cause = none := by
  rcases s.serializeTree_cases with he | ⟨w, -, he⟩ <;> rw [he] <;> rfl

theorem State.cause_parseTree_ne_badArg (s : State) (p0 : Nat) {k : State → Nat → Run}
    (hk : ∀ u p, (k u p).cause ≠ some .badArg) : (s.parseTree p0 k).cause ≠ some .badArg := by
  rcases s.parseTree_cases p0 k with ⟨c, pos, a, hc, he⟩ | ⟨r, -, he⟩ <;> rw [he]
  · rcases hc with rfl | rfl | rfl | rfl <;> exact nofun
  · exact hk _ _

theorem State.cause_emitContainer_ne_badArg (s : State) : s.emitContainer.cause ≠ some .badArg := by
  unfold State.emitContainer
  split
  · exact nofun
  · split <;> exact nofun

theorem State.cause_compressWindow_ne_badArg (s : State) : s.compressWindow.cause ≠ some .badArg := by
  rcases s.compressWindow_cases with he | he | ⟨b, t, -, -, he⟩ <;> rw [he]
  · exact nofun
  · exact nofun
  · exact State.cause_emitContainer_ne_badArg _

theorem State.cause_decodeContainer_ne_badArg (s : State) : s.decodeContainer.cause ≠ some .badArg := by
  unfold State.decodeContainer
  split
  · exact nofun
  · split
    · exact nofun
    · exact s.cause_parseTree_ne_badArg _ fun u p => u.cause_unpackFrom_ne_badArg _ _

theorem State.cause_decompressWindow_ne_badArg (s : State) : s.decompressWindow.cause ≠ some .badArg := by
  simp only [State.decompressWindow]
  split
  · exact nofun
  · split
    · split
      · exact nofun
      · exact State.cause_decodeContainer_ne_badArg _
    · exact nofun

/-- R134: only the window check raises BAD_ARG. -/
theorem commandRun_cause_ne_badArg (i : Instr) {s : State} (h : s.windowFits) :
    (commandRun i s).cause ≠ some .badArg := by
  have hout : (s.setOutLen 0).windowFits := h
  cases i with
  | analyze =>
    rw [commandRun, State.cause_checkWindow h]
    exact nofun
  | build => exact s.invalidate.cause_buildTree_ne_badArg
  | derive =>
    rw [commandRun]
    split
    · rw [s.cause_deriveCodes]
      exact nofun
    · exact nofun
  | pack =>
    rw [commandRun, State.cause_checkWindow hout]
    exact State.cause_packWindow_ne_badArg _
  | unpack =>
    rw [commandRun, State.cause_checkWindow hout]
    exact State.cause_unpackWindow_ne_badArg _
  | sertree =>
    rw [commandRun]
    split
    · rw [State.cause_serializeTree]
      exact nofun
    · exact nofun
  | parsetree =>
    rw [commandRun, State.cause_checkWindow h]
    exact s.cause_parseTree_ne_badArg _ fun _ _ => nofun
  | compress =>
    rw [commandRun, State.cause_checkWindow hout]
    exact State.cause_compressWindow_ne_badArg _
  | decompress =>
    rw [commandRun, State.cause_checkWindow hout]
    exact State.cause_decompressWindow_ne_badArg _
  | clear | nop | illegal | hread | hwrite => exact nofun

/-! ## Commands that end at once -/

/-- R134, R135: a command whose window is refused writes nothing after its check. -/
theorem State.complete_checkWindow_of_not_fits {s : State} (h : ¬ s.windowFits) (k : State → Run) :
    ∃ t, (s.checkWindow.andThen k).complete = .next t ∧ s.finished (some .badArg) 0 t := by
  rw [State.checkWindow_of_not_fits s h]
  exact ⟨_, rfl, s.finished_complete _ _⟩

theorem exec_nop (s : State) : exec .nop s = .next (s.complete none 0) := rfl

theorem exec_clear (s : State) : exec .clear s = .next (s.clearAll.complete none 0) := rfl

theorem exec_illegal (w : Word) (s : State) : exec (.illegal w) s = .next (s.complete (some .illegalCommand) 0) := rfl

/-- R131, R133: of what a start writes, a completion leaves LAST_OP alone. -/
theorem State.finished_startCommand {s t : State} {w : Word} {c : Option Cause} {p : Nat}
    (h : (s.startCommand w).finished c p t) : State.finished { s with lastOp := w.setWidth 8 } c p t := by
  rw [s.startCommand_eq w] at h
  exact h

/-! ## The obligations -/

/-- Settles O20: the completion step sets its own fields, and the lines before it keep the others. -/
theorem completionStepFrame : Obligations.CompletionStepFrame := by
  intro s t i hi ht
  rw [exec_of_command hi] at ht
  have horigLen (hcompress : i ≠ .compress) (hdecompress : i ≠ .decompress) (hclear : i ≠ .clear) :
      t.origLen = s.origLen := by
    obtain ⟨u, c, p, hu, rfl⟩ := Run.endsIn_complete (commandRun_keeps_operands hcompress hdecompress hclear s) ht
    exact congrArg Prod.snd hu
  obtain ⟨u, c, p, ⟨hcontrol, hbuf⟩, rfl⟩ :=
    Run.endsIn_complete (Run.endsIn_and (commandRun_keeps_control i s) (commandRun_buffersKept i s)) ht
  obtain ⟨-, -, herr, -⟩ := u.lifecycleOk_complete c p
  obtain ⟨hparams, hhaz, hlastOp, hdoneIe, hinLen, hinOff, hnodeSel, hcodeSel⟩ := Control.mk.inj hcontrol
  exact ⟨rfl, rfl, herr, rfl, hhaz, hlastOp, hdoneIe, hinLen, hinOff, hnodeSel, hcodeSel, hbuf.inBuf, hbuf.bufSeed,
    hparams, horigLen⟩

/-- Settles O24: a refused window ends the command in its check, and no line after the check raises BAD_ARG. -/
theorem badWindowIsRefusedFirst : Obligations.BadWindowIsRefusedFirst := by
  refine fun s => ⟨fun h => ⟨?plain, ?output⟩, fun h i t hi ht herror => ?fits⟩
  case plain =>
    rintro i (rfl | rfl) <;> exact State.complete_checkWindow_of_not_fits h _
  case output =>
    have hout : ¬ (s.setOutLen 0).windowFits := h
    rintro i (rfl | rfl | rfl | rfl) <;> exact State.complete_checkWindow_of_not_fits hout _
  case fits =>
    rw [exec_of_command hi] at ht
    obtain ⟨u, p, rfl⟩ := Run.cause_of_complete ht
    exact commandRun_cause_ne_badArg i h (State.error_complete_eq_badArg herror)

/-- Settles O23: each of the three is its writes and the completion step. -/
theorem controlCommandsComplete : Obligations.ControlCommandsComplete := by
  refine fun s => ⟨rfl, ⟨_, exec_nop s, s.finished_complete _ _⟩, rfl,
    ⟨_, exec_clear s, s.clearAll.finished_complete _ _⟩, fun w => ⟨decodeCommand_of_unlisted,
      ⟨_, exec_illegal w s, s.finished_complete _ _⟩, ?started⟩⟩
  exact ⟨_, exec_illegal w _, State.finished_startCommand (State.finished_complete _ _ _)⟩

end Sys2Proof.Machine
end

section
/-! SUPPORT. The order of the priority queue (42_tree_builder.md rules R152, R153, R156): the keys are a linear order, a
sift repairs the heap order around the one position that breaks it, and the root is the least key. -/

namespace Sys2Proof.Machine

/-! ## Keys -/

/-- R152: the key (WEIGHT, arena index), ordered lexicographically. -/
def nodeKey (a : Arena) (i : NodeIx) : ℕ ×ₗ ℕ := toLex ((weightAt a i).toNat, i.toNat)

theorem keyLess_iff (a : Arena) (i j : NodeIx) : keyLess a i j = true ↔ nodeKey a i < nodeKey a j := by
  simp [keyLess, nodeKey, Prod.Lex.toLex_lt_toLex, BitVec.ult, BitVec.toNat_inj]

theorem keyLess_eq_false_iff (a : Arena) (i j : NodeIx) : keyLess a i j = false ↔ nodeKey a j ≤ nodeKey a i := by
  rw [← not_lt, ← keyLess_iff, Bool.not_eq_true]

/-- The index breaks ties, so no two entries share a key. -/
theorem nodeKey_inj {a : Arena} {i j : NodeIx} (h : nodeKey a i = nodeKey a j) : i = j :=
  BitVec.eq_of_toNat_eq (congrArg (fun k => (ofLex k).2) h)

/-- The key of the index at a position of HEAP. -/
def keyAt (a : Arena) (h : HeapArray) (c : Nat) : ℕ ×ₗ ℕ := nodeKey a (heapAt h c)

theorem keyLess_heapAt_iff (a : Arena) (h : HeapArray) (c p : Nat) :
    keyLess a (heapAt h c) (heapAt h p) = true ↔ keyAt a h c < keyAt a h p := keyLess_iff ..

theorem Heap.ordered_iff (a : Arena) (h : Heap) :
    h.ordered a ↔ ∀ c, 0 < c → c < h.size → keyAt a h.arr ((c - 1) / 2) ≤ keyAt a h.arr c :=
  forall_congr' fun _ => imp_congr_right fun _ => imp_congr_right fun _ => keyLess_eq_false_iff ..

/-- R156: the root of an ordered queue has its least key. -/
theorem Heap.ordered.root_le {a : Arena} {h : Heap} (H : h.ordered a) {c : Nat} (hc : c < h.size) :
    keyAt a h.arr 0 ≤ keyAt a h.arr c := by
  induction c using Nat.strong_induction_on with
  | _ c ih =>
    rcases Nat.eq_zero_or_pos c with rfl | hpos
    · exact le_rfl
    · exact (ih ((c - 1) / 2) (by omega) (by omega)).trans ((Heap.ordered_iff a h).1 H c hpos hc)

/-! ## The heap order around one position -/

section Around
variable {κ κ' : Nat → ℕ ×ₗ ℕ} {n c b : Nat}

/-- The first `n` keys are in heap order if position `c` is passed over: its children are compared with its parent. -/
structure OrderedAround (κ : Nat → ℕ ×ₗ ℕ) (n c : Nat) : Prop where
  elsewhere : ∀ d, 0 < d → d < n → d ≠ c → (d - 1) / 2 ≠ c → κ ((d - 1) / 2) ≤ κ d
  across : 0 < c → ∀ d, 0 < d → d < n → (d - 1) / 2 = c → κ ((c - 1) / 2) ≤ κ d

/-- Position `c` is in order with its children. -/
def LeChildren (κ : Nat → ℕ ×ₗ ℕ) (n c : Nat) : Prop := ∀ d, 0 < d → d < n → (d - 1) / 2 = c → κ c ≤ κ d

/-- Position `c` is in order with its parent. -/
def GeParent (κ : Nat → ℕ ×ₗ ℕ) (c : Nat) : Prop := 0 < c → κ ((c - 1) / 2) ≤ κ c

theorem OrderedAround.ordered (H : OrderedAround κ n c) (hup : GeParent κ c) (hdown : LeChildren κ n c) :
    ∀ d, 0 < d → d < n → κ ((d - 1) / 2) ≤ κ d := by
  intro d hpos hd
  by_cases hself : d = c
  · exact hself ▸ hup (hself ▸ hpos)
  · by_cases hchild : (d - 1) / 2 = c
    · exact hchild ▸ hdown d hpos hd hchild
    · exact H.elsewhere d hpos hd hself hchild

/-- `κ'` are the keys `κ` with positions `c` and `p` exchanged. -/
structure SwapsKeys (κ κ' : Nat → ℕ ×ₗ ℕ) (c p : Nat) : Prop where
  left : κ' c = κ p
  right : κ' p = κ c
  other : ∀ d, d ≠ c → d ≠ p → κ' d = κ d

theorem swapsKeys_heapSwap (a : Arena) (h : HeapArray) {c p : Nat} (hc : c < 256) (hp : p < 256) :
    SwapsKeys (keyAt a h) (keyAt a (heapSwap h c p)) c p where
  left := by rw [keyAt, heapAt_heapSwap h hc hp, Equiv.swap_apply_right, keyAt]
  right := by rw [keyAt, heapAt_heapSwap h hc hp, Equiv.swap_apply_left, keyAt]
  other d hdc hdp := by rw [keyAt, heapAt_heapSwap h hc hp, Equiv.swap_apply_of_ne_of_ne hdp hdc, keyAt]

/-- A position that changes places with its greater parent moves the disorder up to it. -/
theorem OrderedAround.swap_parent (H : OrderedAround κ n c) (hdown : LeChildren κ n c) (hpos : 0 < c) (hc : c < n)
    (hlt : κ c < κ ((c - 1) / 2)) (S : SwapsKeys κ κ' c ((c - 1) / 2)) :
    OrderedAround κ' n ((c - 1) / 2) ∧ LeChildren κ' n ((c - 1) / 2) := by
  have hsibling : ∀ d, 0 < d → d < n → (d - 1) / 2 = (c - 1) / 2 → κ ((c - 1) / 2) ≤ κ' d := by
    intro d hd hdn hpar
    by_cases hdc : d = c
    · rw [hdc, S.left]
    · rw [S.other d hdc (by omega), ← hpar]
      exact H.elsewhere d hd hdn hdc (by omega)
  refine ⟨⟨fun d hd hdn hdp hpar => ?_, fun hpp d hd hdn hpar => ?_⟩, fun d hd hdn hpar => ?_⟩
  · rw [S.other d (by rintro rfl; exact hpar rfl) hdp]
    by_cases hchild : (d - 1) / 2 = c
    · rw [hchild, S.left]
      exact H.across hpos d hd hdn hchild
    · rw [S.other _ hchild hpar]
      exact H.elsewhere d hd hdn (by rintro rfl; exact hpar rfl) hchild
  · rw [S.other _ (by omega) (by omega)]
    exact (H.elsewhere _ hpp (by omega) (by omega) (by omega)).trans (hsibling d hd hdn hpar)
  · rw [S.right]
    exact hlt.le.trans (hsibling d hd hdn hpar)

/-- A position that changes places with its least child moves the disorder down to it. -/
theorem OrderedAround.swap_child (H : OrderedAround κ n c) (hup : GeParent κ c) (hpos : 0 < b) (hb : b < n)
    (hpar : (b - 1) / 2 = c) (hlt : κ b < κ c) (hleast : ∀ d, 0 < d → d < n → (d - 1) / 2 = c → κ b ≤ κ d)
    (S : SwapsKeys κ κ' c b) : OrderedAround κ' n b ∧ GeParent κ' b := by
  refine ⟨⟨fun d hd hdn hdb hdpar => ?_, fun _ d hd hdn hdpar => ?_⟩, fun _ => ?_⟩
  · by_cases hdc : d = c
    · subst hdc
      rw [S.left, S.other _ (by omega) (by omega)]
      exact H.across hd b hpos hb hpar
    · rw [S.other d hdc hdb]
      by_cases hchild : (d - 1) / 2 = c
      · rw [hchild, S.left]
        exact hleast d hd hdn hchild
      · rw [S.other _ hchild hdpar]
        exact H.elsewhere d hd hdn hdc hchild
  · rw [hpar, S.left, S.other d (by omega) (by omega), ← hdpar]
    exact H.elsewhere d hd hdn (by omega) (by omega)
  · rw [hpar, S.left, S.right]
    exact hlt.le

end Around

/-! ## Sifting repairs the order -/

/-- R153: the position sift-down goes to is `c` itself when it is in order with its children, else its least child. -/
theorem bestChild_cases (a : Arena) (h : HeapArray) (n c : Nat) :
    (bestChild a h n c = c ∧ LeChildren (keyAt a h) n c) ∨
    ∃ b, bestChild a h n c = b ∧ 0 < b ∧ b < n ∧ (b - 1) / 2 = c ∧ keyAt a h b < keyAt a h c ∧
      ∀ d, 0 < d → d < n → (d - 1) / 2 = c → keyAt a h b ≤ keyAt a h d := by
  have hchild {P : Nat → Prop} (hl : 2 * c + 1 < n → P (2 * c + 1)) (hr : 2 * c + 2 < n → P (2 * c + 2)) :
      ∀ d, 0 < d → d < n → (d - 1) / 2 = c → P d := by
    intro d hd hdn hpar
    obtain rfl | rfl : d = 2 * c + 1 ∨ d = 2 * c + 2 := by omega
    · exact hl hdn
    · exact hr hdn
  simp only [bestChild, keyLess_heapAt_iff]
  by_cases hl : 2 * c + 1 < n ∧ keyAt a h (2 * c + 1) < keyAt a h c
  · rw [if_pos hl]
    by_cases hr : 2 * c + 2 < n ∧ keyAt a h (2 * c + 2) < keyAt a h (2 * c + 1)
    · rw [if_pos hr]
      exact .inr ⟨_, rfl, by omega, hr.1, by omega, hr.2.trans hl.2, hchild (fun _ => hr.2.le) fun _ => le_rfl⟩
    · rw [if_neg hr]
      exact .inr ⟨_, rfl, by omega, hl.1, by omega, hl.2,
        hchild (fun _ => le_rfl) fun hrn => not_lt.1 fun hlt => hr ⟨hrn, hlt⟩⟩
  · have hle : 2 * c + 1 < n → keyAt a h c ≤ keyAt a h (2 * c + 1) := fun hln => not_lt.1 fun hlt => hl ⟨hln, hlt⟩
    rw [if_neg hl]
    by_cases hr : 2 * c + 2 < n ∧ keyAt a h (2 * c + 2) < keyAt a h c
    · rw [if_pos hr]
      exact .inr ⟨_, rfl, by omega, hr.1, by omega, hr.2, hchild (fun hln => hr.2.le.trans (hle hln)) fun _ => le_rfl⟩
    · rw [if_neg hr]
      exact .inl ⟨rfl, hchild hle fun hrn => not_lt.1 fun hlt => hr ⟨hrn, hlt⟩⟩

theorem siftUp_ordered (a : Arena) (fuel : Nat) {h : HeapArray} {c n : Nat} (H : OrderedAround (keyAt a h) n c)
    (hdown : LeChildren (keyAt a h) n c) (hc : c < n) (hn : n ≤ 256) (hfuel : c ≤ fuel) :
    Heap.ordered a ⟨siftUp a fuel h c, n⟩ := by
  have hstop {h : HeapArray} {c : Nat} (H : OrderedAround (keyAt a h) n c) (hdown : LeChildren (keyAt a h) n c)
      (hup : GeParent (keyAt a h) c) : Heap.ordered a ⟨h, n⟩ := (Heap.ordered_iff a ⟨h, n⟩).2 (H.ordered hup hdown)
  induction fuel generalizing h c with
  | zero => exact hstop H hdown fun hpos => absurd hpos (by omega)
  | succ fuel ih =>
    simp only [siftUp]
    split
    · next hzero => exact hstop H hdown fun hpos => absurd hzero hpos.ne'
    · next hne =>
      split
      · next hless =>
        obtain ⟨Hp, hdownp⟩ := H.swap_parent hdown (by omega) hc ((keyLess_heapAt_iff ..).1 hless)
          (swapsKeys_heapSwap a h (by omega) (by omega))
        exact ih Hp hdownp (by omega) (by omega)
      · next hless => exact hstop H hdown fun _ => not_lt.1 fun hlt => hless ((keyLess_heapAt_iff ..).2 hlt)

theorem siftDown_ordered (a : Arena) (fuel : Nat) {h : HeapArray} {c n : Nat} (H : OrderedAround (keyAt a h) n c)
    (hup : GeParent (keyAt a h) c) (hc : c < n) (hn : n ≤ 256) (hfuel : n ≤ c + fuel) :
    Heap.ordered a ⟨siftDown a n fuel h c, n⟩ := by
  induction fuel generalizing h c with
  | zero => exact absurd hfuel (by omega)
  | succ fuel ih =>
    simp only [siftDown]
    rcases bestChild_cases a h n c with ⟨hbest, hdown⟩ | ⟨b, hbest, hpos, hb, hpar, hlt, hleast⟩ <;> rw [hbest]
    · rw [if_pos rfl]
      exact (Heap.ordered_iff a ⟨h, n⟩).2 (H.ordered hup hdown)
    · rw [if_neg (by omega)]
      obtain ⟨Hb, hupb⟩ := H.swap_child hup hpos hb hpar hlt hleast (swapsKeys_heapSwap a h (by omega) (by omega))
      exact ih Hb hupb hb (by omega)

/-! ## Inserting and extracting -/

theorem keyAt_set (a : Arena) (h : HeapArray) {c d : Nat} (hc : c < 256) (hd : d ≠ c) (x : NodeIx) :
    keyAt a (h.setIfInBounds c x) d = keyAt a h d := by
  rw [keyAt, heapAt_set h hc, if_neg hd, keyAt]

/-- R153: the new index stands last, without children, before it is sifted up. -/
theorem heapInsert_ordered {a : Arena} {h : Heap} (H : h.ordered a) (hs : h.size < 256) (i : NodeIx) :
    (heapInsert a h i).ordered a := by
  have H' := (Heap.ordered_iff a h).1 H
  refine siftUp_ordered a h.size ⟨fun d hd hdn hdc hpar => ?_, fun _ d hd hdn hpar => ?_⟩ (fun d hd hdn hpar => ?_)
    (Nat.lt_succ_self _) hs le_rfl
  · rw [keyAt_set a _ hs hdc, keyAt_set a _ hs hpar]
    exact H' d hd (by omega)
  · omega
  · omega

/-- R153: the last index stands at the root, without a parent, before it is sifted down. -/
theorem heapExtractMin_ordered {a : Arena} {h : Heap} (H : h.ordered a) (h2 : h.size ≤ 256) :
    (heapExtractMin a h).2.ordered a := by
  have H' := (Heap.ordered_iff a h).1 H
  simp only [heapExtractMin]
  split
  · next hpos =>
    refine siftDown_ordered a _ ⟨fun d hd hdn hdc hpar => ?_, fun hzero => absurd hzero (lt_irrefl 0)⟩
      (fun hzero => absurd hzero (lt_irrefl 0)) hpos (by omega) (by omega)
    rw [keyAt_set a _ (by decide) hdc, keyAt_set a _ (by decide) hpar]
    exact H' d hd (by omega)
  · exact (Heap.ordered_iff a _).2 fun d hd hdn => H' d hd (hdn.trans_le (Nat.sub_le _ _))

/-- R156: no queued key is less than the one extracted. -/
theorem heapExtractMin_least {a : Arena} {h : Heap} (H : h.ordered a) {j : NodeIx} (hj : j ∈ h.live) :
    nodeKey a (heapExtractMin a h).1 ≤ nodeKey a j := by
  obtain ⟨c, hc, rfl⟩ := List.mem_map.1 hj
  exact H.root_le (List.mem_range.1 hc)

/-! ## The obligations -/

/-- Settles O29: the new last position is sifted up to where it is in order. -/
theorem heapInsertKeepsOrder : Obligations.HeapInsertKeepsOrder := fun a h i H hs =>
  ⟨heapInsert_ordered H hs i, heapInsert_live_perm a h i hs⟩

/-- Settles O30: the root of a queue in order is its least key, and the new root is sifted down. -/
theorem heapExtractReturnsTheLeast : Obligations.HeapExtractReturnsTheLeast := fun a h H h1 h2 =>
  ⟨fun j hj => (keyLess_eq_false_iff a j _).2 (heapExtractMin_least H hj), heapExtractMin_live_perm a h h1 h2,
    heapExtractMin_ordered H h2⟩

end Sys2Proof.Machine
end

section
/-! SUPPORT. The merge loop as a greedy choice (42_tree_builder.md rules R154, R155, R159): the queue holds every node
that no merge has taken, so each merge joins the two least of them, and what is queued weighs as much as the leaves. -/

namespace Sys2Proof.Machine

/-! ## Merges in an arena -/

/-- No internal node from `k` up to `m` has `i` as a child. -/
def Arena.Untaken (a : Arena) (k m : Nat) (i : NodeIx) : Prop :=
  ∀ j n, k ≤ j → j < m → nodeAt a (BitVec.ofNat 9 j) = some n → i ≠ n.left ∧ i ≠ n.right

/-- The entry at `j` joins the nodes `x` and `y`, in this order the two least that were left when the internal nodes
from `k` up to `j` had been made (R155, R159). -/
structure Arena.MergedAt (a : Arena) (k j : Nat) (x y : NodeIx) : Prop where
  entry : nodeAt a (BitVec.ofNat 9 j) = some (internalNode (weightAt a x + weightAt a y) x y)
  left_lt : x.toNat < j
  right_lt : y.toNat < j
  weight : (weightAt a x + weightAt a y).toNat = (weightAt a x).toNat + (weightAt a y).toNat
  less : nodeKey a x < nodeKey a y
  least : ∀ i : NodeIx, i.toNat < j → i ≠ x → i ≠ y → a.Untaken k j i → nodeKey a y < nodeKey a i

/-- The weight of the first `k` entries of an arena. -/
def Arena.leafWeight (a : Arena) (k : Nat) : Nat :=
  ((List.range k).map fun j => (weightAt a (BitVec.ofNat 9 j)).toNat).sum

/-- The arena `g` holds the leaves of `a` and the merges that make one tree of them. -/
structure Arena.GrownFrom (a g : Arena) (k : Nat) : Prop where
  leaves : Arena.AgreeBelow k a g
  merged : ∀ j, k ≤ j → j < 2 * k - 1 → ∃ x y, g.MergedAt k j x y
  root_weight : (weightAt g (BitVec.ofNat 9 (2 * k - 2))).toNat = a.leafWeight k

section Agree
variable {m : Nat} {a b : Arena}

theorem Arena.agreeBelow_setNode (m : Nat) (a : Arena) (n : Node) : Arena.AgreeBelow m a (setNode a m n) := by
  intro x hx
  simp [nodeAt, Machine.setNode, hx.ne']

theorem Arena.AgreeBelow.trans {c : Arena} (h : Arena.AgreeBelow m a b) (h' : Arena.AgreeBelow m b c) :
    Arena.AgreeBelow m a c :=
  fun x hx => (h' x hx).trans (h x hx)

theorem Arena.AgreeBelow.mono {k : Nat} (h : Arena.AgreeBelow m a b) (hk : k ≤ m) : Arena.AgreeBelow k a b :=
  fun x hx => h x (hx.trans_le hk)

theorem Arena.AgreeBelow.nodeKey (h : Arena.AgreeBelow m a b) {i : NodeIx} (hi : i.toNat < m) :
    nodeKey b i = nodeKey a i := by
  rw [Machine.nodeKey, Machine.nodeKey, h.weightAt hi]

/-- A queue stays in order in an arena that agrees on its nodes. -/
theorem Arena.AgreeBelow.ordered (h : Arena.AgreeBelow m a b) {q : Heap} (hlive : ∀ i ∈ q.live, i.toNat < m)
    (hq : q.ordered a) : q.ordered b := by
  have hkey (c : Nat) (hc : c < q.size) : keyAt b q.arr c = keyAt a q.arr c := h.nodeKey (hlive _ (Heap.mem_live hc))
  refine (Heap.ordered_iff b q).2 fun c hpos hc => ?_
  rw [hkey c hc, hkey _ (by omega)]
  exact (Heap.ordered_iff a q).1 hq c hpos hc

theorem Arena.AgreeBelow.untaken (h : Arena.AgreeBelow m a b) {k j : Nat} (hj : j ≤ m) {i : NodeIx}
    (hi : b.Untaken k j i) : a.Untaken k j i := by
  intro j' n hk hj' hn
  exact hi j' n hk hj' ((h _ ((Nat.mod_le j' _).trans_lt (hj'.trans_le hj))).trans hn)

theorem Arena.AgreeBelow.mergedAt (h : Arena.AgreeBelow m a b) {k j : Nat} (hj : j < m) {x y : NodeIx}
    (H : a.MergedAt k j x y) : b.MergedAt k j x y := by
  have hwx := h.weightAt (H.left_lt.trans hj)
  have hwy := h.weightAt (H.right_lt.trans hj)
  have hky := h.nodeKey (H.right_lt.trans hj)
  constructor
  case entry =>
    rw [h _ ((Nat.mod_le j _).trans_lt hj), hwx, hwy]
    exact H.entry
  case left_lt => exact H.left_lt
  case right_lt => exact H.right_lt
  case weight =>
    rw [hwx, hwy]
    exact H.weight
  case less =>
    rw [h.nodeKey (H.left_lt.trans hj), hky]
    exact H.less
  case least =>
    intro i hi hx hy hun
    rw [hky, h.nodeKey (hi.trans hj)]
    exact H.least i hi hx hy (h.untaken hj.le hun)

theorem Arena.AgreeBelow.grownFrom {a g g' : Arena} {k : Nat} (h : Arena.AgreeBelow (2 * k - 1) g g') (hk : 1 ≤ k)
    (H : Arena.GrownFrom a g k) : Arena.GrownFrom a g' k where
  leaves := H.leaves.trans (h.mono (by omega))
  merged j hkj hj :=
    have ⟨x, y, hxy⟩ := H.merged j hkj hj
    ⟨x, y, h.mergedAt hj hxy⟩
  root_weight := by
    rw [h.weightAt ((Nat.mod_le _ _).trans_lt (by omega))]
    exact H.root_weight

/-- A new node at `m` over the two least that were left is a merge. -/
theorem Arena.mergedAt_setNode {k : Nat} {x y : NodeIx} (hm : m < 511) (hx : x.toNat < m) (hy : y.toNat < m)
    (hadd : (weightAt a x + weightAt a y).toNat = (weightAt a x).toNat + (weightAt a y).toNat)
    (hxy : nodeKey a x < nodeKey a y)
    (hleast : ∀ i : NodeIx, i.toNat < m → i ≠ x → i ≠ y → a.Untaken k m i → nodeKey a y < nodeKey a i) :
    (Machine.setNode a m (internalNode (weightAt a x + weightAt a y) x y)).MergedAt k m x y := by
  have hagree := Arena.agreeBelow_setNode m a (internalNode (weightAt a x + weightAt a y) x y)
  constructor
  case entry => rw [nodeAt_setNode _ _ _ _ hm, if_pos (toNat_nodeIx (by omega)), hagree.weightAt hx, hagree.weightAt hy]
  case left_lt => exact hx
  case right_lt => exact hy
  case weight =>
    rw [hagree.weightAt hx, hagree.weightAt hy]
    exact hadd
  case less =>
    rw [hagree.nodeKey hx, hagree.nodeKey hy]
    exact hxy
  case least =>
    intro i hi hix hiy hun
    rw [hagree.nodeKey hi, hagree.nodeKey hy]
    exact hleast i hi hix hiy (hagree.untaken le_rfl hun)

end Agree

/-! ## The merge loop -/

/-- R153, R156: with no index queued twice, the one extracted is less than every one left. -/
theorem heapExtractMin_of_ordered {a : Arena} {h : Heap} (H : h.ordered a) (hnd : h.live.Nodup) (h1 : 1 ≤ h.size)
    (h2 : h.size ≤ 256) :
    (heapExtractMin a h).2.ordered a ∧ ((heapExtractMin a h).1 :: (heapExtractMin a h).2.live).Perm h.live ∧
    (heapExtractMin a h).2.live.Nodup ∧
    ∀ j ∈ (heapExtractMin a h).2.live, nodeKey a (heapExtractMin a h).1 < nodeKey a j := by
  have hperm := heapExtractMin_live_perm a h h1 h2
  obtain ⟨hnotin, hnd'⟩ := List.nodup_cons.1 (hperm.nodup_iff.2 hnd)
  refine ⟨heapExtractMin_ordered H h2, hperm, hnd', fun j hj => ?_⟩
  refine lt_of_le_of_ne (heapExtractMin_least H (hperm.mem_iff.1 (List.mem_cons_of_mem _ hj))) fun he => hnotin ?_
  rw [nodeKey_inj he]
  exact hj

/-- What the merge loop keeps while it joins the `k` leaves of `a`: the queue is in order and holds every node below `m`
that no merge has taken, and together they weigh as much as the leaves. -/
structure Builder.Merging (b : Builder) (a : Arena) (k : Nat) : Prop where
  ordered : b.heap.ordered b.nodes
  nodup : b.heap.live.Nodup
  live_lt : ∀ i ∈ b.heap.live, i.toNat < b.m
  untaken : ∀ i : NodeIx, i.toNat < b.m → b.nodes.Untaken k b.m i → i ∈ b.heap.live
  weights : (b.heap.live.map fun i => (weightAt b.nodes i).toNat).sum = a.leafWeight k
  leaves : Arena.AgreeBelow k a b.nodes
  merged : ∀ j, k ≤ j → j < b.m → ∃ x y, b.nodes.MergedAt k j x y
  le : k ≤ b.m
  count : b.m + b.heap.size = 2 * k

section Merging
variable {b c : Builder} {a : Arena} {k : Nat}

/-- Joining the two least queued nodes under a new one at `m`. -/
theorem Builder.Merging.join {x y : NodeIx} {rest : List NodeIx} (h : b.Merging a k) (hk : k ≤ 256)
    (hweight : a.leafWeight k < 2 ^ 40) (hlive : b.heap.live.Perm (x :: y :: rest))
    (hxy : nodeKey b.nodes x < nodeKey b.nodes y) (hrest : ∀ i ∈ rest, nodeKey b.nodes y < nodeKey b.nodes i)
    (hnodes : c.nodes = setNode b.nodes b.m (internalNode (weightAt b.nodes x + weightAt b.nodes y) x y))
    (hm : c.m = b.m + 1) (hclive : c.heap.live.Perm (BitVec.ofNat 9 b.m :: rest)) (hord : c.heap.ordered c.nodes) :
    c.Merging a k := by
  have hcount := h.count
  have hle := h.le
  have hsize : b.heap.size = rest.length + 2 := by simpa [Heap.length_live] using hlive.length_eq
  have hcsize : c.heap.size = rest.length + 1 := by simpa [Heap.length_live] using hclive.length_eq
  have hagree : Arena.AgreeBelow b.m b.nodes c.nodes := hnodes ▸ Arena.agreeBelow_setNode b.m b.nodes _
  have hmix : (BitVec.ofNat 9 b.m).toNat = b.m := toNat_nodeIx (by omega)
  have hlt : ∀ i ∈ x :: y :: rest, i.toNat < b.m := fun i hi => h.live_lt i (hlive.mem_iff.2 hi)
  simp only [List.forall_mem_cons] at hlt
  obtain ⟨hltx, hlty, hltrest⟩ := hlt
  have hsum : (weightAt b.nodes x).toNat + ((weightAt b.nodes y).toNat +
      (rest.map fun i => (weightAt b.nodes i).toNat).sum) = a.leafWeight k := by
    rw [← h.weights, (hlive.map _).sum_eq, List.map_cons, List.map_cons, List.sum_cons, List.sum_cons]
  have hadd : (weightAt b.nodes x + weightAt b.nodes y).toNat =
      (weightAt b.nodes x).toNat + (weightAt b.nodes y).toNat := by
    rw [BitVec.toNat_add]
    exact Nat.mod_eq_of_lt (by omega)
  have huntaken : ∀ i : NodeIx, i.toNat < b.m → i ≠ x → i ≠ y → b.nodes.Untaken k b.m i → i ∈ rest := by
    intro i hi hx hy hun
    simpa [hx, hy] using hlive.mem_iff.1 (h.untaken i hi hun)
  have hentry : nodeAt c.nodes (BitVec.ofNat 9 b.m) =
      some (internalNode (weightAt b.nodes x + weightAt b.nodes y) x y) := by
    rw [hnodes, nodeAt_setNode _ _ _ _ (by omega), if_pos hmix]
  have hnew : c.nodes.MergedAt k b.m x y := hnodes ▸ Arena.mergedAt_setNode (by omega) hltx hlty hadd hxy
    fun i hi hx hy hun => hrest i (huntaken i hi hx hy hun)
  constructor
  case ordered => exact hord
  case nodup =>
    have hnd := (hlive.nodup_iff.1 h.nodup).of_cons.of_cons
    exact hclive.nodup_iff.2 (List.nodup_cons.2 ⟨fun hmem => (hltrest _ hmem).ne hmix, hnd⟩)
  case live_lt =>
    intro i hi
    rw [hm]
    rcases List.mem_cons.1 (hclive.mem_iff.1 hi) with rfl | hi
    · omega
    · exact (hltrest i hi).trans (Nat.lt_succ_self _)
  case untaken =>
    intro i hi hun
    rw [hm] at hi hun
    refine hclive.mem_iff.2 (List.mem_cons.2 ?_)
    by_cases him : i.toNat = b.m
    · exact .inl (BitVec.eq_of_toNat_eq (him.trans hmix.symm))
    · obtain ⟨hx, hy⟩ := hun b.m _ hle (Nat.lt_succ_self _) hentry
      refine .inr (huntaken i (by omega) hx hy (hagree.untaken le_rfl fun j n hkj hj => ?_))
      exact hun j n hkj (hj.trans (Nat.lt_succ_self _))
  case weights =>
    have htail : (rest.map fun i => (weightAt c.nodes i).toNat) = rest.map fun i => (weightAt b.nodes i).toNat :=
      List.map_congr_left fun i hi => by rw [hagree.weightAt (hltrest i hi)]
    have hhead : weightAt c.nodes (BitVec.ofNat 9 b.m) = weightAt b.nodes x + weightAt b.nodes y := by
      rw [weightAt, hentry]
      rfl
    rw [(hclive.map _).sum_eq, List.map_cons, List.sum_cons, htail, hhead, hadd, ← hsum, Nat.add_assoc]
  case leaves => exact h.leaves.trans (hagree.mono hle)
  case merged =>
    intro j hkj hj
    by_cases hjm : j = b.m
    · exact ⟨x, y, hjm ▸ hnew⟩
    · obtain ⟨x', y', hold⟩ := h.merged j hkj (by omega)
      exact ⟨x', y', hagree.mergedAt (by omega) hold⟩
  case le => omega
  case count => omega

/-- R154, R159: one turn of the loop joins the two least queued nodes. -/
theorem Builder.Merging.mergeStep (h : b.Merging a k) (hk : k ≤ 256) (hweight : a.leafWeight k < 2 ^ 40)
    (h2 : 1 < b.heap.size) : (mergeStep b).Merging a k := by
  have hcount := h.count
  have hle := h.le
  obtain ⟨hord1, hperm1, hnd1, hlt1⟩ := heapExtractMin_of_ordered h.ordered h.nodup (by omega) (by omega)
  have hsize1 := heapExtractMin_size b.nodes b.heap
  obtain ⟨hord2, hperm2, -, hlt2⟩ := heapExtractMin_of_ordered hord1 hnd1 (by omega) (by omega)
  have hsize2 := heapExtractMin_size b.nodes (heapExtractMin b.nodes b.heap).2
  have hsize : (heapExtractMin b.nodes (heapExtractMin b.nodes b.heap).2).2.size < 256 := by omega
  have hperm := hperm1.symm.trans (hperm2.symm.cons _)
  have hlive2 := fun i hi => h.live_lt i (hperm.mem_iff.2 (List.mem_cons_of_mem _ (List.mem_cons_of_mem _ hi)))
  have hord (n : Node) := (Arena.agreeBelow_setNode b.m b.nodes n).ordered hlive2 hord2
  exact h.join (c := Machine.mergeStep b) hk hweight hperm (hlt1 _ (hperm2.mem_iff.1 List.mem_cons_self)) hlt2 rfl rfl
    (heapInsert_live_perm _ _ _ hsize) (heapInsert_ordered (hord _) hsize _)

theorem Builder.Merging.mergeLoop (fuel : Nat) (h : b.Merging a k) (hk : k ≤ 256) (hweight : a.leafWeight k < 2 ^ 40)
    (hpos : 1 ≤ b.heap.size) (hfuel : b.heap.size ≤ fuel + 1) :
    (mergeLoop fuel b).Merging a k ∧ (mergeLoop fuel b).heap.size = 1 := by
  induction fuel generalizing b with
  | zero => exact ⟨h, le_antisymm hfuel hpos⟩
  | succ fuel ih =>
    rw [Machine.mergeLoop]
    split
    · next h2 =>
      have hsize : (Machine.mergeStep b).heap.size = b.heap.size - 1 - 1 + 1 := rfl
      exact ih (h.mergeStep hk hweight h2) (by omega) (by omega)
    · next h1 => exact ⟨h, by omega⟩

/-- R159: when one node is left, it is the last one made, and it weighs as much as the leaves. -/
theorem Builder.Merging.grownFrom (h : b.Merging a k) (hk1 : 1 ≤ k) (hk : k ≤ 256) (h1 : b.heap.size = 1) :
    b.m = 2 * k - 1 ∧ Arena.GrownFrom a b.nodes k := by
  have hcount := h.count
  have hm : b.m = 2 * k - 1 := by omega
  have hroot : (BitVec.ofNat 9 (2 * k - 2)).toNat = 2 * k - 2 := toNat_nodeIx (by omega)
  have hmem : BitVec.ofNat 9 (2 * k - 2) ∈ b.heap.live := by
    refine h.untaken _ (by omega) fun j n hkj hj hn => ?_
    obtain ⟨x, y, H⟩ := h.merged j hkj hj
    obtain rfl := Option.some.inj (H.entry.symm.trans hn)
    have hne (z : NodeIx) (hz : z.toNat < j) : BitVec.ofNat 9 (2 * k - 2) ≠ z := fun he => by
      rw [← he] at hz
      omega
    exact ⟨hne x H.left_lt, hne y H.right_lt⟩
  obtain ⟨r, hr⟩ := List.length_eq_one_iff.1 (b.heap.length_live.trans h1)
  rw [hr, List.mem_singleton] at hmem
  have hweights := h.weights
  rw [hr] at hweights
  exact ⟨hm, h.leaves, fun j hkj hj => h.merged j hkj (by omega), by simpa [hmem] using hweights⟩

end Merging

/-! ## Phase LOAD -/

theorem loadHeap_ordered {a : Arena} {count i : Nat} {h : Heap} (H : h.ordered a) (hs : h.size + count ≤ 256) :
    (loadHeap a count i h).ordered a := by
  induction count generalizing i h with
  | zero => exact H
  | succ count ih =>
    refine ih (heapInsert_ordered H (by omega) _) ?_
    rw [heapInsert_size]
    omega

theorem nodup_map_ofNat_range {n : Nat} (h : n ≤ 512) : ((List.range n).map (BitVec.ofNat 9)).Nodup :=
  List.nodup_range.map_on fun i hi j hj he => by
    have := congrArg BitVec.toNat he
    rw [List.mem_range] at hi hj
    rwa [toNat_nodeIx (by omega), toNat_nodeIx (by omega)] at this

/-- The merge loop starts from the leaves, all of them queued. -/
theorem Builder.merging_of_load (a : Arena) {k : Nat} (stale : HeapArray) (hk : k ≤ 256) :
    Builder.Merging { nodes := a, heap := loadHeap a k 0 { arr := stale, size := 0 }, m := k } a k := by
  have hlive : (loadHeap a k 0 { arr := stale, size := 0 }).live.Perm ((List.range k).map (BitVec.ofNat 9)) := by
    simpa [Heap.live, List.range_eq_range'] using
      loadHeap_live_perm a (count := k) (i := 0) (h := { arr := stale, size := 0 }) (by simpa using hk)
  constructor
  case ordered => exact loadHeap_ordered (fun c _ hc => absurd hc (Nat.not_lt_zero c)) (by simpa using hk)
  case nodup => exact hlive.nodup_iff.2 (nodup_map_ofNat_range (by omega))
  case live_lt =>
    intro i hi
    obtain ⟨j, hj, rfl⟩ := List.mem_map.1 (hlive.mem_iff.1 hi)
    exact (Nat.mod_le j _).trans_lt (List.mem_range.1 hj)
  case untaken =>
    intro i hi _
    exact hlive.mem_iff.2 (List.mem_map.2 ⟨i.toNat, List.mem_range.2 hi, by simp⟩)
  case weights =>
    rw [(hlive.map _).sum_eq, List.map_map]
    rfl
  case leaves => exact fun _ _ => rfl
  case merged => exact fun j hkj hj => absurd hkj (Nat.not_le.2 hj)
  case le => exact le_rfl
  case count =>
    rw [← Heap.length_live, hlive.length_eq, List.length_map, List.length_range, Nat.two_mul]

theorem growTree_grownFrom {a : Arena} {k : Nat} (stale : HeapArray) (h2 : 2 ≤ k) (hk : k ≤ 256)
    (hweight : a.leafWeight k < 2 ^ 40) : ∃ g, growTree stale a k = (g, 2 * k - 1) ∧ Arena.GrownFrom a g k := by
  have hstart := Builder.merging_of_load a stale hk
  have hcount := hstart.count
  simp only at hcount
  obtain ⟨hend, hone⟩ := hstart.mergeLoop k hk hweight (by simp only; omega) (by simp only; omega)
  obtain ⟨hm, hgrown⟩ := hend.grownFrom (by omega) hk hone
  refine ⟨_, ?_, hgrown⟩
  rw [growTree, if_neg (by omega), ← hm]

end Sys2Proof.Machine
end

section
/-! SUPPORT. What ANALYZE and BUILD leave (42_tree_builder.md rules R150, R154, R158 to R160): the weights of the
scanned leaves, how the number of present symbols decides what BUILD does, and the obligations. -/

namespace Sys2Proof.Machine

/-! ## The leaves of a table -/

theorem mem_presentSymbols {f : FreqTable} {x : Symbol} : x ∈ presentSymbols f ↔ symGet f x ≠ 0#32 := by
  simp [presentSymbols, mem_allSymbols]

theorem sum_map_presentSymbols (f : FreqTable) :
    ((presentSymbols f).map fun x => (symGet f x).toNat).sum = (allSymbols.map fun x => (symGet f x).toNat).sum := by
  rw [presentSymbols]
  induction allSymbols with
  | nil => rfl
  | cons x ss ih =>
    by_cases hx : symGet f x = 0#32
    · simpa [hx] using ih
    · simpa [hx] using ih

/-- R160: 256 counts below 2^32 do not overflow the 40 bits of a weight. -/
theorem sum_freq_lt (f : FreqTable) : (allSymbols.map fun x => (symGet f x).toNat).sum < 2 ^ 40 := by
  have hterm : ∀ n ∈ allSymbols.map fun x => (symGet f x).toNat, n ≤ 2 ^ 32 - 1 := by
    intro n hn
    obtain ⟨x, -, rfl⟩ := List.mem_map.1 hn
    exact Nat.le_of_lt_succ (symGet f x).isLt
  have hsum := List.sum_le_card_nsmul _ _ hterm
  have hlen : allSymbols.length = 256 := by simp [allSymbols]
  rw [List.length_map, hlen, smul_eq_mul] at hsum
  omega

/-- The scanned leaves weigh as much as the whole table. -/
theorem leafWeight_scanLeaves (f : FreqTable) (a : Arena) :
    (scanLeaves f allSymbols a 0).1.leafWeight (presentSymbols f).length =
      (allSymbols.map fun x => (symGet f x).toNat).sum := by
  rw [← sum_map_presentSymbols, Arena.leafWeight]
  congr 1
  refine List.ext_getElem (by simp) fun j hj hj' => ?_
  have hlt : j < (presentSymbols f).length := by simpa using hj'
  have hleaf := (scanLeaves_allSymbols f a).2 j _ (List.getElem?_eq_getElem hlt)
  rw [List.getElem_map, List.getElem_map, List.getElem_range, weightAt, hleaf]
  exact BitVec.toNat_setWidth_of_le (by decide)

/-! ## The runs of `build_tree` -/

theorem presentSymbols_of_single {f : FreqTable} {x : Symbol} (hx : symGet f x ≠ 0#32)
    (hne : ∀ y, y ≠ x → symGet f y = 0#32) : presentSymbols f = [x] := by
  refine List.perm_singleton.1 <|
    (List.perm_ext_iff_of_nodup (nodup_presentSymbols f) (List.nodup_singleton x)).2 fun y => ?_
  rw [mem_presentSymbols, List.mem_singleton]
  exact ⟨fun hy => by_contra fun h => hy (hne y h), fun h => h ▸ hx⟩

/-- R154: the number of present symbols decides how `build_tree` ends. -/
theorem State.buildTree_of_empty {s : State} (h : presentSymbols s.freq = []) :
    s.buildTree = .raise .emptyTable 0 s.clearTreeRegs := by
  have hcount := (scanLeaves_allSymbols s.freq s.nodes).1
  rcases s.buildTree_cases with ⟨-, he⟩ | ⟨a, k, hscan, hk, -⟩
  · exact he
  · rw [hscan, h] at hcount
    exact absurd hcount hk

/-- A state in which `build_tree` has left a tree of `n` entries with this many leaves (R154). -/
def State.withTree (s : State) (g : Arena) (n leaves : Nat) : State :=
  { s with
    nodes := g, nodeCount := BitVec.ofNat 10 n, root := BitVec.ofNat 9 (n - 1), leafCount := BitVec.ofNat 9 leaves,
    descBits := BitVec.ofNat 12 (10 * leaves - 1), treeValid := true }

theorem State.buildTree_of_present {s : State} {k n leaves : Nat} {g : Arena}
    (hk : (presentSymbols s.freq).length = k) (hpos : k ≠ 0) (hleaves : (if k = 1 then 2 else k) = leaves)
    (hgrow : growTree s.hidden.heap (scanLeaves s.freq allSymbols s.nodes 0).1 k = (g, n)) :
    s.buildTree = .ok (s.withTree g n leaves) := by
  have hcount := (scanLeaves_allSymbols s.freq s.nodes).1
  rcases s.buildTree_cases with ⟨hzero, -⟩ | ⟨a, k', hscan, -, he⟩
  · exact absurd (hk.symm.trans (hcount.symm.trans hzero)) hpos
  · rw [hscan] at hcount hgrow
    obtain rfl : k' = k := hcount.trans hk
    rw [he, hgrow, hleaves]
    rfl

theorem exec_build (s : State) : exec .build s = s.invalidate.buildTree.complete := rfl

/-- BUILD of a table that is not empty: the completion step keeps the entries of the tree it has grown. -/
theorem exec_build_of_present {s : State} {k n leaves : Nat} {g : Arena} (hk : (presentSymbols s.freq).length = k)
    (hpos : k ≠ 0) (hleaves : (if k = 1 then 2 else k) = leaves) (hn : n < 1024)
    (hgrow : growTree s.hidden.heap (scanLeaves s.freq allSymbols s.nodes 0).1 k = (g, n)) :
    ∃ t, exec .build s = .next t ∧ (s.invalidate.withTree t.nodes n leaves).finished none 0 t ∧
      Arena.AgreeBelow n g t.nodes ∧ ∃ T, t.holdsTree T := by
  have hbuild := State.buildTree_of_present (s := s.invalidate) hk hpos hleaves hgrow
  obtain ⟨T, hT⟩ := State.buildTree_holdsTree hbuild
  rw [exec_build, hbuild]
  refine ⟨_, rfl, ⟨fun _ _ => rfl, rfl⟩, fun i hi => nodeAt_freeFrom_of_lt _ _ ?_,
    T, State.holdsTree_complete hT none 0⟩
  rwa [State.withTree, BitVec.toNat_ofNat, Nat.mod_eq_of_lt hn]

/-! ## The obligations -/

/-- Settles O26: the scan finds no symbol. -/
theorem buildOfEmptyTableFails : Obligations.BuildOfEmptyTableFails := by
  intro s hs
  have hempty : presentSymbols s.invalidate.freq = [] :=
    List.eq_nil_iff_forall_not_mem.2 fun x hx => mem_presentSymbols.1 hx (hs x)
  rw [exec_build, State.buildTree_of_empty hempty]
  exact ⟨_, rfl, State.finished_complete _ _ _⟩

/-- Settles O27: the three entries of R158 stand below NODE_COUNT. -/
theorem buildOfOneSymbol : Obligations.BuildOfOneSymbol := by
  intro s x hx hne
  have hsingle := presentSymbols_of_single hx hne
  have hleaf := (scanLeaves_allSymbols s.freq s.nodes).2 0 x (by rw [hsingle]; rfl)
  obtain ⟨hreal, hph, hroot⟩ := nodeAt_singleArena hleaf
  obtain ⟨t, ht, hfinished, hkept, -⟩ := exec_build_of_present (congrArg List.length hsingle) Nat.one_ne_zero rfl
    (by decide) (growTree_of_single _ hleaf)
  exact ⟨t, ht, hfinished, (hkept _ (by decide)).trans hreal, (hkept _ (by decide)).trans hph,
    (hkept _ (by decide)).trans hroot⟩

/-- Settles O28: BUILD leaves the arena that the merge loop grows from the scanned leaves. -/
theorem buildMakesATree : Obligations.BuildMakesATree := by
  intro s h2
  have hle := length_presentSymbols_le s.freq
  have hleaves := (scanLeaves_allSymbols s.freq s.nodes).2
  have hweight := leafWeight_scanLeaves s.freq s.nodes
  obtain ⟨g, hgrow, hgrown⟩ := growTree_grownFrom s.hidden.heap h2 hle (hweight.trans_lt (sum_freq_lt s.freq))
  obtain ⟨t, ht, hfinished, hkept, htree⟩ := exec_build_of_present rfl (by omega) (if_neg (by omega)) (by omega) hgrow
  have hfinal := hkept.grownFrom (by omega) hgrown
  have hrootIx : t.root = BitVec.ofNat 9 (2 * (presentSymbols s.freq).length - 2) := congrArg State.root hfinished.2
  refine ⟨t, ht, hfinished, fun j hj => ?leaf, fun j hkj hj => ?merged, ?root, htree⟩
  case leaf =>
    rw [hfinal.leaves _ ((Nat.mod_le j _).trans_lt hj)]
    exact hleaves j _ (List.getElem?_eq_getElem hj)
  case merged =>
    obtain ⟨x, y, H⟩ := hfinal.merged j hkj hj
    exact ⟨_, H.entry, rfl, rfl, rfl, H.left_lt, H.right_lt, H.weight, (keyLess_iff ..).2 H.less,
      fun i hi hx hy hun => (keyLess_iff ..).2 (H.least i hi hx hy hun)⟩
  case root =>
    rw [hrootIx, hfinal.root_weight]
    exact hweight

/-- Settles O25: the window is shorter than 2^32 bytes, so no count wraps. -/
theorem analyzeCountsTheWindow : Obligations.AnalyzeCountsTheWindow := by
  refine ⟨rfl, fun s => ⟨fun h => ?fits, fun h => State.complete_checkWindow_of_not_fits h _⟩⟩
  have hlen : s.window.length < 2 ^ 32 := by
    rw [State.length_window]
    exact (Nat.sub_le _ _).trans_lt s.inLen.isLt
  have hinPos : s.analyze.setInPos s.inLen.toNat = { s.analyze with inPos := s.inLen } := by
    rw [State.setInPos, BitVec.ofNat_toNat, BitVec.setWidth_eq]
  have hrun : commandRun .analyze s = .ok { s.analyze with inPos := s.inLen } := by
    rw [commandRun, State.checkWindow_of_fits s h, Run.andThen_ok, hinPos]
  rw [exec_of_command rfl, hrun]
  refine ⟨_, rfl, State.finished_complete _ _ _, fun sym => ?_⟩
  change (symGet (countBytes (Vector.replicate 256 0#32) s.window) sym).toNat = _
  rw [symGet_countBytes, symGet_replicate, BitVec.zero_add]
  exact Nat.mod_eq_of_lt (List.count_le_length.trans_lt hlen)

end Sys2Proof.Machine
end

section
/-! SUPPORT. What DERIVE leaves (43_code_deriver.md rules R180 to R187): the largest code length of a table, the code of
a symbol as a bit string, why no code begins another, and the obligations. -/

namespace Sys2Proof.Machine

/-! ## The largest code length -/

theorem mem_toList_iff_symGet {α : Type} {t : Vector α 256} {a : α} : a ∈ t.toList ↔ ∃ x, symGet t x = a := by
  rw [Vector.mem_toList_iff, Vector.mem_iff_getElem]
  constructor
  · rintro ⟨i, hi, rfl⟩
    exact ⟨BitVec.ofNatLT i hi, rfl⟩
  · rintro ⟨x, rfl⟩
    exact ⟨x.toNat, x.isLt, rfl⟩

theorem longestCode_eq_max (t : CodeTable) : longestCode t = (t.toList.map fun c => c.len.toNat).max?.getD 0 := by
  rw [longestCode, ← List.foldl_map, List.foldl_max, Nat.zero_max]

/-- R182: no code is longer. -/
theorem len_le_longestCode (t : CodeTable) (x : Symbol) : (symGet t x).len.toNat ≤ longestCode t := by
  rw [longestCode_eq_max]
  exact List.le_max?_getD_of_mem (List.mem_map.2 ⟨_, mem_toList_iff_symGet.2 ⟨x, rfl⟩, rfl⟩)

/-- R182: some symbol's code is that long. -/
theorem exists_len_eq_longestCode (t : CodeTable) : ∃ x, (symGet t x).len.toNat = longestCode t := by
  have hne : t.toList.map (fun c => c.len.toNat) ≠ [] := by simp [← List.length_eq_zero_iff]
  obtain ⟨m, hm⟩ := Option.isSome_iff_exists.1 (List.isSome_max?_iff.2 hne)
  obtain ⟨c, hc, hlen⟩ := List.mem_map.1 (List.max?_mem hm)
  obtain ⟨x, rfl⟩ := mem_toList_iff_symGet.1 hc
  exact ⟨x, by rw [longestCode_eq_max, hm, hlen, Option.getD_some]⟩

/-- R40: the largest length fits MAX_CODE_LEN. -/
theorem longestCode_lt (t : CodeTable) : longestCode t < 256 := by
  obtain ⟨x, hx⟩ := exists_len_eq_longestCode t
  exact hx ▸ (symGet t x).len.isLt

/-! ## A code as a bit string -/

theorem bitsVal_cons (b : Bool) (bs : List Bool) : bitsVal (b :: bs) = 2 ^ bs.length * b.toNat + bitsVal bs := by
  induction bs using List.reverseRecOn with
  | nil => simp [bitsVal]
  | append_singleton bs c ih =>
    rw [← List.cons_append, bitsVal_concat, bitsVal_concat, ih, List.length_append, List.length_singleton, Nat.pow_succ]
    ring

/-- R10: a bit string is read back from its length and value. -/
theorem bitsMsb_of_mod_eq_bitsVal {w : Nat} {v : BitVec w} {bs : List Bool} (h : v.toNat % 2 ^ bs.length = bitsVal bs) :
    bitsMsb v bs.length = bs := by
  induction bs with
  | nil => rfl
  | cons b bs ih =>
    rw [bitsVal_cons, List.length_cons] at h
    have hhead : v.getLsbD bs.length = b := calc
      v.getLsbD bs.length = (v.toNat % 2 ^ (bs.length + 1)).testBit bs.length := by
        simp [BitVec.getLsbD, Nat.testBit_mod_two_pow]
      _ = b.toNat.testBit 0 := by
        rw [h, Nat.testBit_two_pow_mul_add _ (bitsVal_lt bs), if_neg (lt_irrefl _), Nat.sub_self]
      _ = b := by cases b <;> rfl
    have htail : v.toNat % 2 ^ bs.length = bitsVal bs := by
      rw [← Nat.mod_mod_of_dvd v.toNat (Nat.pow_dvd_pow 2 (Nat.le_succ bs.length)), h, Nat.mul_add_mod,
        Nat.mod_eq_of_lt (bitsVal_lt bs)]
    rw [List.length_cons, bitsMsb, hhead, ih htail]

theorem Code.bits_eq {c : Code} {bs : List Bool} (hlen : c.len.toNat = bs.length) (hval : c.val.toNat = bitsVal bs) :
    c.bits = bs := by
  rw [Code.bits, hlen]
  exact bitsMsb_of_mod_eq_bitsVal (by rw [hval, Nat.mod_eq_of_lt (bitsVal_lt bs)])

/-- R180: in a table that holds a tree's codes, a symbol with a code is a real leaf, and its code the path to it. -/
theorem CodeTree.codeTable.mem_codes {t : CodeTree} {c : CodeTable} (h : t.codeTable c) {x : Symbol}
    (hx : (symGet c x).len ≠ 0#8) : (x, (symGet c x).bits) ∈ t.codes := by
  obtain ⟨hcodes, hrest⟩ := h
  by_cases hleaf : ∃ y ∈ t.codes, y.1 = x
  · obtain ⟨y, hy, rfl⟩ := hleaf
    obtain ⟨hlen, hval⟩ := hcodes y hy
    rwa [Code.bits_eq hlen hval]
  · exact absurd (congrArg Code.len (hrest x fun y hy he => hleaf ⟨y, hy, he⟩)) hx

/-! ## No code begins another -/

/-- R187: two paths that lead to leaves part at an internal node, so neither begins the other. -/
theorem CodeTree.eq_of_code_prefix {t : CodeTree} {x y : Symbol × List Bool} (hx : x ∈ t.codes) (hy : y ∈ t.codes)
    (h : x.2 <+: y.2) : x = y := by
  induction t generalizing x y with
  | leaf sym ph => exact (CodeTree.mem_codes_leaf.1 hx).2.trans (CodeTree.mem_codes_leaf.1 hy).2.symm
  | node l r ihl ihr =>
    rcases CodeTree.mem_codes_node.1 hx with ⟨x, hx', rfl⟩ | ⟨x, hx', rfl⟩ <;>
      rcases CodeTree.mem_codes_node.1 hy with ⟨y, hy', rfl⟩ | ⟨y, hy', rfl⟩ <;>
      obtain ⟨hedge, htail⟩ := List.cons_prefix_cons.1 h
    · rw [ihl hx' hy' htail]
    · exact nomatch hedge
    · exact nomatch hedge
    · rw [ihr hx' hy' htail]

theorem CodeTree.codeTable.prefixFree {t : CodeTree} {c : CodeTable} (h : t.codeTable c) {x y : Symbol} (hne : x ≠ y)
    (hx : (symGet c x).len ≠ 0#8) (hy : (symGet c y).len ≠ 0#8) : ¬ (symGet c x).bits <+: (symGet c y).bits :=
  fun hprefix => hne (congrArg Prod.fst (CodeTree.eq_of_code_prefix (h.mem_codes hx) (h.mem_codes hy) hprefix))

/-! ## What DERIVE does -/

theorem commandRun_derive_of_noTree {s : State} (h : s.treeValid = false) :
    commandRun .derive s = .raise .noTree 0 s := by
  rw [commandRun, h, if_neg Bool.false_ne_true]

theorem commandRun_derive_of_treeValid {s : State} (h : s.treeValid = true) :
    commandRun .derive s = s.deriveCodes := by
  rw [commandRun, if_pos h]

/-- R181: DERIVE over the tree the arena holds. -/
theorem exec_derive_of_holdsTree {s : State} {t : CodeTree} (hv : s.treeValid = true) (h : s.holdsTree t) :
    exec .derive s = .next ((s.withCodes t.table).complete none 0) := by
  rw [exec_of_command rfl, commandRun_derive_of_treeValid hv, State.deriveCodes_of_holdsTree h, Run.complete_ok]

/-- R181, R182: a DERIVE without an error has written some table and its two outputs. -/
theorem eq_of_exec_derive {s t : State} (h : exec .derive s = .next t) (herr : t.err = false) :
    ∃ c, t = (s.withCodes c).complete none 0 := by
  rw [exec_of_command rfl] at h
  cases hv : s.treeValid with
  | false =>
    rw [commandRun_derive_of_noTree hv, Run.complete_raise, Host.Outcome.next.injEq] at h
    exact nomatch h ▸ herr
  | true =>
    rw [commandRun_derive_of_treeValid hv] at h
    rcases s.deriveCodes_cases with he | ⟨c, -, he⟩
    · exact nomatch he ▸ h
    · rw [he, Run.complete_ok, Host.Outcome.next.injEq] at h
      exact ⟨c, h.symm⟩

/-! ## UNPACK without a tree -/

/-- R203: what UNPACK does after its window check when no tree is valid and a symbol is asked for. -/
theorem State.unpackWindow_of_noTree {s : State} (hn : s.origLen ≠ 0#32) (h : s.treeValid = false) :
    s.unpackWindow = .raise .noTree 0 s := by
  rw [State.unpackWindow, if_neg hn, h, if_neg Bool.false_ne_true]

/-! ## The obligations -/

/-- Settles O32: DERIVE leaves the table that its walk over the held tree writes. -/
theorem deriveWritesTheLeafPaths : Obligations.DeriveWritesTheLeafPaths := fun s _ hv h =>
  ⟨_, exec_derive_of_holdsTree hv h, (s.withCodes _).finished_complete none 0,
    CodeTree.codeTable_table (State.nodup_of_holdsTree h)⟩

/-- Settles O33: the sum fits PAYLOAD_BITS, and MAX_CODE_LEN is itself some symbol's LEN. -/
theorem deriveBitLengthOutputs : Obligations.DeriveBitLengthOutputs := by
  intro s t hexec herr
  obtain ⟨c, rfl⟩ := eq_of_exec_derive hexec herr
  have hlt := payloadLength_lt s.freq c
  have hbits : ((s.withCodes c).complete none 0).payloadBits.toNat = payloadLength s.freq c :=
    Nat.mod_eq_of_lt (hlt.trans (by decide))
  have hmax : ((s.withCodes c).complete none 0).maxCodeLen.toNat = longestCode c := Nat.mod_eq_of_lt (longestCode_lt c)
  obtain ⟨z, hz⟩ := exists_len_eq_longestCode c
  exact ⟨hbits.trans (payloadLength_eq s.freq c), hbits.trans_lt hlt,
    fun x => (len_le_longestCode c x).trans_eq hmax.symm, z, BitVec.eq_of_toNat_eq (hz.trans hmax.symm)⟩

/-- Settles O34: no code of a tree begins another, and DERIVE's table holds the codes of the tree it walks. -/
theorem derivedCodesArePrefixFree : Obligations.DerivedCodesArePrefixFree := fun _ _ h =>
  ⟨fun _ hc _ _ hne hx hy => hc.prefixFree hne hx hy, fun hv =>
    ⟨_, exec_derive_of_holdsTree hv h, fun _ _ hne hx hy =>
      (CodeTree.codeTable_table (State.nodup_of_holdsTree h)).prefixFree hne hx hy⟩⟩

/-- Settles O31: both commands raise before their first line that reads the tree. -/
theorem noTreeIsRefused : Obligations.NoTreeIsRefused := by
  refine fun s h => ⟨⟨_, ?derive, s.finished_complete _ _⟩, fun hfits hn =>
    ⟨_, ?unpack, (s.setOutLen 0).finished_complete _ _⟩⟩
  case derive => rw [exec_of_command rfl, commandRun_derive_of_noTree h, Run.complete_raise]
  case unpack =>
    have hfits' : (s.setOutLen 0).windowFits := hfits
    rw [exec_of_command rfl, commandRun, State.checkWindow_of_fits _ hfits', Run.andThen_ok,
      State.unpackWindow_of_noTree (s := s.setOutLen 0) hn h, Run.complete_raise]

end Sys2Proof.Machine
end

section
/-! SUPPORT. What the bit writer leaves in OUT_BUF (44_bit_packer.md rule R199): the bits of a packed byte (00_scope.md
rule R15), the writer after a bit string, and the obligation. -/

namespace Sys2Proof.Machine

/-! ## The bits of a packed byte -/

/-- R15: the bits of byte `j` of `pack(s)`, most significant first. -/
theorem bitsMsb_packByte (bs : List Bool) (j : Nat) :
    bitsMsb (packByte bs j) 8 = (List.range 8).map fun i => bs.getD (8 * j + i) false := by
  refine bitsMsb_of_mod_eq_bitsVal (bs := (List.range 8).map fun i => bs.getD (8 * j + i) false) ?_
  rw [packByte, BitVec.toNat_ofNat, List.length_map, List.length_range, Nat.mod_mod]
  have hval : ∀ f : Nat → Bool,
      ((List.range 8).map fun i => (f i).toNat * 2 ^ (7 - i)).sum = bitsVal ((List.range 8).map f) := by
    intro f
    simp only [List.range_succ, List.range_zero, bitsVal, List.map_append, List.map_cons, List.map_nil, List.nil_append,
      List.foldl_append, List.foldl_cons, List.foldl_nil, List.sum_append, List.sum_cons, List.sum_nil]
    omega
  rw [hval]
  exact Nat.mod_eq_of_lt ((bitsVal_lt _).trans_eq (by simp))

theorem getLsbD_packByte (bs : List Bool) (j : Nat) {i : Nat} (hi : i < 8) :
    (packByte bs j).getLsbD i = bs.getD (8 * j + (7 - i)) false := by
  have hlen : 7 - i < (bitsMsb (packByte bs j) 8).length := by
    rw [length_bitsMsb]
    omega
  calc (packByte bs j).getLsbD i
      = (bitsMsb (packByte bs j) 8)[7 - i] := by
        rw [getElem_bitsMsb, show 8 - 1 - (7 - i) = i by omega]
    _ = bs.getD (8 * j + (7 - i)) false := by
        simp only [bitsMsb_packByte, List.getElem_map, List.getElem_range]

/-- R15: bit `q` of a string stands in byte `q / 8` of its packing. -/
theorem getLsbD_packByte_div (bs : List Bool) {q : Nat} (hq : q < bs.length) :
    (packByte bs (q / 8)).getLsbD (7 - q % 8) = bs[q] := by
  rw [getLsbD_packByte bs (q / 8) (by omega), show 8 * (q / 8) + (7 - (7 - q % 8)) = q by omega,
    List.getD_eq_getElem _ _ hq]

/-- R15: the packing is padded with zeros. -/
theorem packByte_of_length_le {bs : List Bool} {j : Nat} (h : bs.length ≤ 8 * j) : packByte bs j = 0#8 := by
  refine BitVec.eq_of_getLsbD_eq fun i hi => ?_
  rw [getLsbD_packByte bs j hi, List.getD_eq_default _ _ (by omega), BitVec.getLsbD_zero]

/-- A further bit leaves the whole bytes before it alone. -/
theorem packByte_concat_of_lt {bs : List Bool} {j : Nat} (b : Bool) (h : j < bs.length / 8) :
    packByte (bs ++ [b]) j = packByte bs j := by
  refine BitVec.eq_of_getLsbD_eq fun i hi => ?_
  rw [getLsbD_packByte _ j hi, getLsbD_packByte _ j hi, List.getD_append _ _ _ _ (by omega)]

theorem getLsbD_ofBool_shiftLeft (b : Bool) (n : Nat) {i : Nat} (hi : i < 8) :
    ((BitVec.ofBool b).setWidth 8 <<< n).getLsbD i = (decide (i = n) && b) := by
  rw [BitVec.getLsbD_shiftLeft, BitVec.getLsbD_setWidth, BitVec.getLsbD_ofBool]
  by_cases h : i = n
  · simp [h, h ▸ hi]
  · rcases Nat.lt_or_gt_of_ne h with hlt | hgt
    · simp [h, hlt]
    · simp [h, show i - n ≠ 0 by omega]

/-- R199: what `put_bit` makes of the accumulator is the partial byte with one more bit. -/
theorem packByte_concat_last (bs : List Bool) (b : Bool) :
    packByte (bs ++ [b]) (bs.length / 8) =
      packByte bs (bs.length / 8) ||| ((BitVec.ofBool b).setWidth 8 <<< (7 - bs.length % 8)) := by
  refine BitVec.eq_of_getLsbD_eq fun i hi => ?_
  rw [BitVec.getLsbD_or, getLsbD_packByte _ _ hi, getLsbD_packByte _ _ hi, getLsbD_ofBool_shiftLeft b _ hi]
  rcases Nat.lt_trichotomy (8 * (bs.length / 8) + (7 - i)) bs.length with hlt | heq | hgt
  · rw [List.getD_append _ _ _ _ hlt, decide_eq_false (by omega), Bool.false_and, Bool.or_false]
  · rw [heq, List.getD_append_right _ _ _ _ le_rfl, List.getD_eq_default bs _ le_rfl, decide_eq_true (by omega),
      Nat.sub_self]
    rfl
  · rw [List.getD_eq_default _ _ (by rw [List.length_append, List.length_singleton]; omega),
      List.getD_eq_default _ _ hgt.le, decide_eq_false (by omega)]
    rfl

/-! ## The writer after a bit string -/

/-- The writer `w` has taken the bits `bs` since it started at cursor `o` over the buffer `m`: their whole bytes are
written, the others are in the accumulator. -/
structure Writer.Took (m : Memory) (o : Nat) (bs : List Bool) (w : Writer) : Prop where
  op : w.op = o + bs.length / 8
  nacc : w.nacc = bs.length % 8
  acc : w.acc = packByte bs (bs.length / 8)
  written : ∀ j, j < bs.length / 8 → Memory.read w.buf (o + j) = some (packByte bs j)
  kept : ∀ a, a < o ∨ o + bs.length / 8 ≤ a → Memory.read w.buf a = Memory.read m a

theorem Writer.took_start (m : Memory) (o : Nat) : Writer.Took m o [] (Writer.start m o) where
  op := rfl
  nacc := rfl
  acc := rfl
  written := fun _ hj => nomatch hj
  kept := fun _ _ => rfl

theorem Writer.Took.putBit {m : Memory} {o : Nat} {bs : List Bool} {w : Writer} (h : Writer.Took m o bs w) (b : Bool) :
    Writer.Took m o (bs ++ [b]) (w.putBit b) := by
  have hacc : w.acc ||| ((BitVec.ofBool b).setWidth 8 <<< (7 - w.nacc)) = packByte (bs ++ [b]) (bs.length / 8) := by
    rw [h.acc, h.nacc, packByte_concat_last]
  have hnacc := h.nacc
  have hop := h.op
  have hlen : (bs ++ [b]).length = bs.length + 1 := List.length_append
  rw [Writer.putBit, hacc]
  by_cases hfull : w.nacc + 1 = 8
  case pos =>
    have hdiv : (bs ++ [b]).length / 8 = bs.length / 8 + 1 := by omega
    rw [if_pos hfull]
    refine ⟨?op, by simp only; omega, (packByte_of_length_le (by omega)).symm, fun j hj => ?written, fun a ha => ?kept⟩
    case op =>
      rw [hdiv, hop, Nat.add_assoc]
    case written =>
      rw [hdiv, Nat.lt_succ_iff_lt_or_eq] at hj
      rcases hj with hj | rfl
      · rw [Memory.read_write_of_ne _ _ (by omega), h.written j hj, packByte_concat_of_lt b hj]
      · rw [hop, Memory.read_write_same]
    case kept =>
      rw [Memory.read_write_of_ne _ _ (by omega), h.kept a (by omega)]
  case neg =>
    have hdiv : (bs ++ [b]).length / 8 = bs.length / 8 := by omega
    rw [if_neg hfull]
    refine ⟨hop.trans (by rw [hdiv]), by simp only; omega, by rw [hdiv], fun j hj => ?_, fun a ha => ?_⟩
    · rw [hdiv] at hj
      rw [packByte_concat_of_lt b hj]
      exact h.written j hj
    · exact h.kept a (hdiv ▸ ha)

theorem Writer.took_putBits (m : Memory) (o : Nat) (bs : List Bool) :
    Writer.Took m o bs ((Writer.start m o).putBits bs) := by
  induction bs using List.reverseRecOn with
  | nil => exact Writer.took_start m o
  | append_singleton bs b ih =>
    rw [Writer.putBits_append]
    exact ih.putBit b

/-- R199: `flush()` writes a partial byte behind the whole ones, and nothing when there is none. -/
theorem Writer.Took.buf_flush {m : Memory} {o : Nat} {bs : List Bool} {w : Writer} (h : Writer.Took m o bs w) :
    (∀ j, j < ceil8 bs.length → Memory.read w.flush.buf (o + j) = some (packByte bs j)) ∧
    ∀ a, a < o ∨ o + ceil8 bs.length ≤ a → Memory.read w.flush.buf a = Memory.read m a := by
  have hnacc := h.nacc
  rw [Writer.flush, ceil8]
  by_cases hpartial : w.nacc > 0
  case pos =>
    have hceil : (bs.length + 7) / 8 = bs.length / 8 + 1 := by omega
    rw [if_pos hpartial, hceil, h.op, h.acc]
    refine ⟨fun j hj => ?_, fun a ha => ?_⟩
    · rcases Nat.lt_succ_iff_lt_or_eq.1 hj with hj | rfl
      · rw [Memory.read_write_of_ne _ _ (by omega), h.written j hj]
      · exact Memory.read_write_same _ _ _
    · rw [Memory.read_write_of_ne _ _ (by omega), h.kept a (by omega)]
  case neg =>
    have hceil : (bs.length + 7) / 8 = bs.length / 8 := by omega
    rw [if_neg hpartial, hceil]
    exact ⟨h.written, h.kept⟩

/-- Settles O35: the writer takes the bits one by one and flushes the rest. -/
theorem bitWriterWritesPack : Obligations.BitWriterWritesPack := fun m o bs =>
  ⟨Writer.op_flush_putBits m o bs, (Writer.took_putBits m o bs).buf_flush⟩

end Sys2Proof.Machine
end

section
/-! SUPPORT. What PACK leaves (44_bit_packer.md rules R200 and R201): the prepass, the run of the command in each of its
cases, and the obligations. -/

namespace Sys2Proof.Machine

/-! ## Commands that write OUT_BUF -/

theorem length_packBytes (bs : List Bool) : (packBytes bs).length = ceil8 bs.length := by
  rw [packBytes, List.length_map, List.length_range]

theorem getElem_packBytes (bs : List Bool) {j : Nat} (h : j < (packBytes bs).length) :
    (packBytes bs)[j] = packByte bs j := by
  simp only [packBytes, List.getElem_map, List.getElem_range]

theorem State.checkWindow_andThen_of_fits {s : State} (h : s.windowFits) (k : State → Run) :
    s.checkWindow.andThen k = k s := by
  rw [State.checkWindow_of_fits s h, Run.andThen_ok]

/-- Bytes that the last state's OUT_BUF lists from offset 0, over the first state's. -/
theorem State.outBytesWritten_of_read {s t : State} {bs : List Byte} (hseed : t.bufSeed = s.bufSeed)
    (hin : ∀ j, (h : j < bs.length) → Memory.read t.outBuf j = some bs[j])
    (hout : ∀ j, bs.length ≤ j → Memory.read t.outBuf j = Memory.read s.outBuf j) : s.outBytesWritten t bs := by
  refine ⟨fun j h => ?_, fun j h => ?_⟩
  · rw [State.outByte, hin j h]
  · rw [State.outByte, State.outByte, hout j h, hseed]

/-! ## Phase PREPASS -/

/-- R200: the prepass of coded bytes counts the bits of their payload. -/
theorem packBits_of_coded {t : CodeTable} {ws : List Byte} (h : ∀ b ∈ ws, (symGet t b).len ≠ 0#8) (j bits : Nat) :
    packBits t ws j bits = .ok (bits + (payloadOf t ws).length) := by
  induction ws generalizing j bits with
  | nil => rfl
  | cons b ws ih =>
    obtain ⟨hb, hws⟩ := List.forall_mem_cons.1 h
    rw [packBits, if_neg hb, ih hws, length_payloadOf, length_payloadOf, List.map_cons, List.sum_cons, Nat.add_assoc]

/-- R200: the prepass ends at the first byte without a code. -/
theorem packBits_of_uncoded {t : CodeTable} {ws : List Byte} {k : Nat} {b : Byte} (hk : ws[k]? = some b)
    (hb : (symGet t b).len = 0#8) (hbefore : ∀ i c, i < k → ws[i]? = some c → (symGet t c).len ≠ 0#8) (j bits : Nat) :
    packBits t ws j bits = .error (j + k) := by
  induction ws generalizing k j bits with
  | nil => exact nomatch hk
  | cons c ws ih =>
    rw [packBits]
    cases k with
    | zero =>
      obtain rfl : c = b := Option.some.inj hk
      rw [if_pos hb, Nat.add_zero]
    | succ k =>
      rw [if_neg (hbefore 0 c (Nat.succ_pos k) rfl),
        ih hk fun i d hi hd => hbefore (i + 1) d (Nat.succ_lt_succ hi) hd, Nat.add_right_comm, Nat.add_assoc]

theorem coded_of_packBits_eq_ok {t : CodeTable} {ws : List Byte} {j bits n : Nat} (h : packBits t ws j bits = .ok n) :
    ∀ b ∈ ws, (symGet t b).len ≠ 0#8 := by
  induction ws generalizing j bits with
  | nil => exact List.forall_mem_nil _
  | cons b ws ih =>
    rw [packBits] at h
    split at h
    · cases h
    · next hb => exact List.forall_mem_cons.2 ⟨hb, ih h⟩

/-! ## What PACK does -/

theorem exec_pack_of_fits {s : State} (h : s.windowFits) :
    exec .pack s = (s.setOutLen 0).packWindow.complete := by
  have hfits : (s.setOutLen 0).windowFits := h
  rw [exec_of_command rfl, commandRun, State.checkWindow_andThen_of_fits hfits]

theorem State.packWindow_of_noCodes {s : State} (h : s.codesValid = false) : s.packWindow = .raise .noCodes 0 s := by
  rw [State.packWindow, h, if_neg Bool.false_ne_true]

theorem State.packWindow_of_uncoded {s : State} {j : Nat} {b : Byte} (hv : s.codesValid = true)
    (hj : s.window[j]? = some b) (hb : (symGet s.codes b).len = 0#8)
    (hbefore : ∀ i c, i < j → s.window[i]? = some c → (symGet s.codes c).len ≠ 0#8) :
    s.packWindow = .raise .uncodedSymbol (s.inOff.toNat + j) s := by
  rw [State.packWindow, if_pos hv, packBits_of_uncoded hj hb hbefore, Nat.zero_add]

theorem State.packWindow_of_coded {s : State} (hv : s.codesValid = true)
    (h : ∀ b ∈ s.window, (symGet s.codes b).len ≠ 0#8) :
    s.packWindow = s.emitPayload (payloadOf s.codes s.window).length := by
  rw [State.packWindow, if_pos hv, packBits_of_coded h, Nat.zero_add]

theorem State.emitPayload_of_overflow {s : State} {bits : Nat} (h : s.params.outBufSize < ceil8 bits) :
    s.emitPayload bits = .raise .outOverflow 0 s := by
  rw [State.emitPayload, if_pos h]

/-- The state in which PACK has written the payload of its window (R200, R201). -/
def State.withPayload (s : State) : State :=
  { s with
    outBuf := (((Writer.start s.outBuf 0).putBits (payloadOf s.codes s.window)).flush).buf
    outLen := BitVec.ofNat 25 (ceil8 (payloadOf s.codes s.window).length)
    payloadBits := BitVec.ofNat 64 (payloadOf s.codes s.window).length
    inPos := s.inLen }

theorem State.emitPayload_of_fits {s : State} (h : ceil8 (payloadOf s.codes s.window).length ≤ s.params.outBufSize) :
    s.emitPayload (payloadOf s.codes s.window).length = .ok s.withPayload := by
  rcases s.emitPayload_cases (payloadOf s.codes s.window).length with ⟨hover, -⟩ | ⟨w, -, hw, he⟩
  · exact absurd h (Nat.not_le.2 hover)
  · rw [Writer.putCodes_eq] at hw
    rw [he, hw, Writer.op_flush_putBits, Nat.zero_add]
    rfl

/-- R201: OUT_BUF then holds the packed payload from offset 0. -/
theorem State.outBytesWritten_withPayload (s : State) :
    s.outBytesWritten s.withPayload (packBytes (payloadOf s.codes s.window)) := by
  obtain ⟨hin, hout⟩ := (Writer.took_putBits s.outBuf 0 (payloadOf s.codes s.window)).buf_flush
  simp only [Nat.zero_add] at hin hout
  refine State.outBytesWritten_of_read rfl (fun j hj => ?_) fun j hj => hout j (.inr ?_)
  · rw [getElem_packBytes]
    exact hin j (by rwa [length_packBytes] at hj)
  · rwa [length_packBytes] at hj

/-- R200: a PACK that raised nothing found codes for its whole window and room for its payload. -/
theorem State.coded_of_exec_pack {s t : State} (hfits : s.windowFits) (ht : exec .pack s = .next t)
    (herr : t.err = false) :
    (∀ b ∈ s.window, (symGet s.codes b).len ≠ 0#8) ∧
      ceil8 (payloadOf s.codes s.window).length ≤ s.params.outBufSize := by
  rw [exec_pack_of_fits hfits] at ht
  rcases (s.setOutLen 0).packWindow_cases with ⟨c, p, he⟩ | ⟨bits, w, hbits, hroom, -, -⟩
  · rw [he, Run.complete_raise, Host.Outcome.next.injEq] at ht
    exact nomatch ht ▸ herr
  · have hlen : bits = (payloadOf s.codes s.window).length := (packBits_eq_ok hbits).trans (Nat.zero_add _)
    exact ⟨coded_of_packBits_eq_ok hbits, hlen ▸ hroom⟩

/-! ## The obligations -/

/-- Settles O36: every check passes, and the writer packs the payload. -/
theorem packWritesThePayload : Obligations.PackWritesThePayload := by
  intro s hfits hv hcoded hroom
  have hrun : (s.setOutLen 0).packWindow = .ok (s.setOutLen 0).withPayload :=
    (State.packWindow_of_coded (s := s.setOutLen 0) hv hcoded).trans (State.emitPayload_of_fits hroom)
  rw [exec_pack_of_fits hfits, hrun]
  exact ⟨_, rfl, State.finished_complete _ _ _, (s.setOutLen 0).outBytesWritten_withPayload⟩

/-- Settles O37: the checks come in this order, and each raises before OUT_BUF is written. -/
theorem packErrors : Obligations.PackErrors := by
  intro s hfits
  have hraise {c : Cause} {p : Nat} (h : (s.setOutLen 0).packWindow = .raise c p (s.setOutLen 0)) :
      ∃ t, exec .pack s = .next t ∧ State.finished { s with outLen := 0#25 } (some c) p t := by
    rw [exec_pack_of_fits hfits, h]
    exact ⟨_, rfl, State.finished_complete _ _ _⟩
  refine ⟨fun hv => hraise ?noCodes, fun hv j b hj hb hbefore => hraise ?uncoded,
    fun hv hcoded hover => hraise ?overflow⟩
  case noCodes => exact State.packWindow_of_noCodes hv
  case uncoded => exact State.packWindow_of_uncoded (s := s.setOutLen 0) hv hj hb hbefore
  case overflow =>
    exact (State.packWindow_of_coded (s := s.setOutLen 0) hv hcoded).trans (State.emitPayload_of_overflow hover)

end Sys2Proof.Machine
end

section
/-! SUPPORT. What UNPACK leaves (44_bit_packer.md rules R203 to R207): the leaves of a tree and the bits that lead to
them, the walk of one symbol and of many, the run of the command in each of its cases, and the obligations. -/

namespace Sys2Proof.Machine

/-! ## The leaves of a tree -/

theorem CodeTree.mem_paths_leaf {sym : Symbol} {ph : Bool} {x : Symbol × List Bool} :
    x ∈ (CodeTree.leaf sym ph).paths ↔ x = (sym, []) := List.mem_singleton

theorem CodeTree.paths_node (l r : CodeTree) :
    (CodeTree.node l r).paths =
      l.paths.map (fun x => (x.1, false :: x.2)) ++ r.paths.map (fun x => (x.1, true :: x.2)) := by
  simp only [CodeTree.paths, CodeTree.leafPaths, List.map_append, List.map_map]
  rfl

theorem CodeTree.mem_paths_node {l r : CodeTree} {x : Symbol × List Bool} :
    x ∈ (CodeTree.node l r).paths ↔
      (∃ y ∈ l.paths, x = (y.1, false :: y.2)) ∨ ∃ y ∈ r.paths, x = (y.1, true :: y.2) := by
  simp only [CodeTree.paths_node, List.mem_append, List.mem_map, eq_comm]

/-- R181, R205: a code leads to its symbol's leaf. -/
theorem CodeTree.mem_paths_of_mem_codes {t : CodeTree} {x : Symbol × List Bool} (h : x ∈ t.codes) : x ∈ t.paths :=
  List.map_subset _ (List.filter_subset_self _) h

/-! ## Bits of the window -/

theorem State.bitsAt_cons {s : State} {p : Nat} {b : Bool} {bs : List Bool} (h : s.bitsAt p (b :: bs)) :
    p < 8 * s.inLen.toNat ∧ s.inBit p = b ∧ s.bitsAt (p + 1) bs := by
  obtain ⟨hlen, hbits⟩ := h
  rw [List.length_cons] at hlen
  refine ⟨by omega, hbits 0 (Nat.succ_pos _), by omega, fun q hq => ?_⟩
  rw [Nat.add_assoc, Nat.add_comm 1 q]
  exact hbits (q + 1) (Nat.succ_lt_succ hq)

theorem State.bitsAt_append {s : State} {p : Nat} {bs cs : List Bool} (h : s.bitsAt p (bs ++ cs)) :
    s.bitsAt p bs ∧ s.bitsAt (p + bs.length) cs := by
  obtain ⟨hlen, hbits⟩ := h
  rw [List.length_append] at hlen
  refine ⟨⟨by omega, fun q hq => ?_⟩, by omega, fun q hq => ?_⟩
  · rw [hbits q (by rw [List.length_append]; omega), List.getElem_append_left hq]
  · rw [Nat.add_assoc, hbits (bs.length + q) (by rw [List.length_append]; omega),
      List.getElem_append_right (Nat.le_add_right _ _)]
    simp only [Nat.add_sub_cancel_left]

/-! ## Phase WALK -/

theorem walkSymbol_of_leaf {s : State} {i : NodeIx} {n : Node} (hn : nodeAt s.nodes i = some n) (hleaf : n.leaf = true)
    (fuel p : Nat) : walkSymbol s fuel i p = .leaf n.sym p := by
  unfold walkSymbol
  simp only [hn, hleaf, if_true]

theorem walkSymbol_of_noBits {s : State} {i : NodeIx} {n : Node} (hn : nodeAt s.nodes i = some n)
    (hleaf : n.leaf = false) (p : Nat) : walkSymbol s 0 i p = .exhausted := by
  unfold walkSymbol
  simp only [hn, hleaf, Bool.false_eq_true, if_false]

theorem walkSymbol_of_node {s : State} {i : NodeIx} {n : Node} (hn : nodeAt s.nodes i = some n) (hleaf : n.leaf = false)
    {p : Nat} (hp : p < 8 * s.inLen.toNat) :
    walkSymbol s (8 * s.inLen.toNat - p) i p =
      walkSymbol s (8 * s.inLen.toNat - (p + 1)) (if s.inBit p then n.right else n.left) (p + 1) := by
  obtain ⟨fuel, hfuel⟩ : ∃ fuel, 8 * s.inLen.toNat - p = fuel + 1 := ⟨8 * s.inLen.toNat - (p + 1), by omega⟩
  rw [show 8 * s.inLen.toNat - (p + 1) = fuel by omega, hfuel]
  conv_lhs => unfold walkSymbol
  simp only [hn, hleaf, Bool.false_eq_true, if_false]

/-- R203: bits that are a leaf's edge bits walk to it. -/
theorem walkSymbol_of_path {s : State} {t : CodeTree} {i : NodeIx} (ht : t.heldAt s.nodes i) {x : Symbol × List Bool}
    (hx : x ∈ t.paths) {p : Nat} (hbits : s.bitsAt p x.2) :
    walkSymbol s (8 * s.inLen.toNat - p) i p = .leaf x.1 (p + x.2.length) := by
  induction t generalizing i x p with
  | leaf sym ph =>
    obtain ⟨n, hn, hleaf, rfl, -⟩ := ht
    obtain rfl := CodeTree.mem_paths_leaf.1 hx
    exact walkSymbol_of_leaf hn hleaf _ p
  | node l r ihl ihr =>
    obtain ⟨n, hn, hleaf, hl, hr⟩ := ht
    rcases CodeTree.mem_paths_node.1 hx with ⟨y, hy, rfl⟩ | ⟨y, hy, rfl⟩ <;>
      obtain ⟨hp, hbit, hrest⟩ := State.bitsAt_cons hbits <;>
      rw [walkSymbol_of_node hn hleaf hp, hbit, List.length_cons, Nat.add_comm y.2.length 1, ← Nat.add_assoc]
    · exact ihl hl hy hrest
    · exact ihr hr hy hrest

/-- R204: bits that end inside a leaf's edge bits do not reach a leaf. -/
theorem walkSymbol_of_cut_path {s : State} {t : CodeTree} {i : NodeIx} (ht : t.heldAt s.nodes i)
    {x : Symbol × List Bool} (hx : x ∈ t.paths) {bs : List Bool} (hprefix : bs <+: x.2) (hne : bs ≠ x.2) {p : Nat}
    (hbits : s.bitsAt p bs) (hend : p + bs.length = 8 * s.inLen.toNat) :
    walkSymbol s (8 * s.inLen.toNat - p) i p = .exhausted := by
  induction t generalizing i x bs p with
  | leaf sym ph =>
    obtain rfl := CodeTree.mem_paths_leaf.1 hx
    exact absurd (List.prefix_nil.1 hprefix) hne
  | node l r ihl ihr =>
    obtain ⟨n, hn, hleaf, hl, hr⟩ := ht
    cases bs with
    | nil =>
      rw [show 8 * s.inLen.toNat - p = 0 from Nat.sub_eq_zero_of_le hend.ge]
      exact walkSymbol_of_noBits hn hleaf p
    | cons b bs =>
      obtain ⟨hp, hbit, hrest⟩ := State.bitsAt_cons hbits
      rw [List.length_cons, Nat.add_comm bs.length 1, ← Nat.add_assoc] at hend
      rw [walkSymbol_of_node hn hleaf hp, hbit]
      rcases CodeTree.mem_paths_node.1 hx with ⟨y, hy, rfl⟩ | ⟨y, hy, rfl⟩ <;>
        obtain ⟨rfl, htail⟩ := List.cons_prefix_cons.1 hprefix
      · exact ihl hl hy htail (fun h => hne (h ▸ rfl)) hrest hend
      · exact ihr hr hy htail (fun h => hne (h ▸ rfl)) hrest hend

/-! ## Many symbols -/

/-- R203: each leaf's symbol goes to the next offset of OUT_BUF, and the walk goes on behind its bits. -/
theorem unpackSymbols_of_paths {s : State} {t : CodeTree} (ht : t.heldAt s.nodes s.root)
    {xs : List (Symbol × List Bool)} (hxs : ∀ x ∈ xs, x ∈ t.paths) {p : Nat}
    (hbits : s.bitsAt p (xs.flatMap Prod.snd)) (count j : Nat) (buf : Memory) :
    unpackSymbols s (count + xs.length) j p buf =
      unpackSymbols s count (j + xs.length) (p + (xs.flatMap Prod.snd).length)
        (Memory.writeAll buf j (xs.map Prod.fst)) := by
  induction xs generalizing p j buf with
  | nil => rfl
  | cons x xs ih =>
    obtain ⟨hx, hxs⟩ := List.forall_mem_cons.1 hxs
    rw [List.flatMap_cons] at hbits
    obtain ⟨hfirst, hrest⟩ := State.bitsAt_append hbits
    rw [List.length_cons, ← Nat.add_assoc, unpackSymbols, walkSymbol_of_path ht hx hfirst]
    simp only
    rw [ih hxs hrest, List.flatMap_cons, List.length_append, List.map_cons, Memory.writeAll, Nat.add_assoc p,
      Nat.add_assoc j, Nat.add_comm 1]

theorem unpackSymbols_of_exhausted {s : State} {p : Nat}
    (h : walkSymbol s (8 * s.inLen.toNat - p) s.root p = .exhausted) (count j : Nat) (buf : Memory) :
    unpackSymbols s (count + 1) j p buf = .exhausted buf := by
  rw [unpackSymbols, h]

/-! ## What UNPACK does -/

theorem exec_unpack_of_fits {s : State} (h : s.windowFits) :
    exec .unpack s = (s.setOutLen 0).unpackWindow.complete := by
  have hfits : (s.setOutLen 0).windowFits := h
  rw [exec_of_command rfl, commandRun, State.checkWindow_andThen_of_fits hfits]

theorem State.unpackWindow_of_empty {s : State} (h : s.origLen = 0#32) :
    s.unpackWindow = .ok (s.setInPos s.inOff.toNat) := by
  rw [State.unpackWindow, if_pos h]

theorem State.unpackWindow_of_overflow {s : State} (hn : s.origLen ≠ 0#32) (hv : s.treeValid = true)
    (h : s.params.outBufSize < s.origLen.toNat) : s.unpackWindow = .raise .outOverflow 0 s := by
  rw [State.unpackWindow, if_neg hn, if_pos hv, if_pos h]

theorem State.unpackWindow_of_fits {s : State} (hn : s.origLen ≠ 0#32) (hv : s.treeValid = true)
    (h : s.origLen.toNat ≤ s.params.outBufSize) :
    s.unpackWindow = s.unpackFrom s.origLen.toNat (8 * s.inOff.toNat) := by
  rw [State.unpackWindow, if_neg hn, if_pos hv, if_neg (Nat.not_lt.2 h)]

/-- OUT_BUF with these symbols written from offset 0. -/
def State.withSymbols (s : State) (syms : List Symbol) : State := { s with outBuf := Memory.writeAll s.outBuf 0 syms }

theorem State.outBytesWritten_withSymbols (s : State) (syms : List Symbol) :
    s.outBytesWritten (s.withSymbols syms) syms := by
  refine State.outBytesWritten_of_read rfl (fun j hj => ?_) fun j hj => ?_
  · rw [State.withSymbols, Memory.read_writeAll, dif_pos ⟨Nat.zero_le j, hj⟩]
    rfl
  · rw [State.withSymbols, Memory.read_writeAll, dif_neg fun h => Nat.not_lt.2 hj h.2]

/-- R203, R206: `unpack_symbols` over the bits of as many leaves as it asks for. -/
theorem State.unpackFrom_of_paths {s : State} {t : CodeTree} (ht : t.heldAt s.nodes s.root)
    {xs : List (Symbol × List Bool)} (hxs : ∀ x ∈ xs, x ∈ t.paths) {p : Nat}
    (hbits : s.bitsAt p (xs.flatMap Prod.snd)) :
    s.unpackFrom xs.length p = .ok (((s.withSymbols (xs.map Prod.fst)).setOutLen xs.length).setInPos
      (ceil8 (p + (xs.flatMap Prod.snd).length))) := by
  have hsyms := unpackSymbols_of_paths ht hxs hbits 0 0 s.outBuf
  rw [Nat.zero_add] at hsyms
  rw [State.unpackFrom, hsyms]
  rfl

/-- R203, R204: `unpack_symbols` over the bits of fewer leaves, which end inside a further one's. -/
theorem State.unpackFrom_of_cut_paths {s : State} {t : CodeTree} (ht : t.heldAt s.nodes s.root)
    {xs : List (Symbol × List Bool)} (hxs : ∀ x ∈ xs, x ∈ t.paths) {last : Symbol × List Bool} (hlast : last ∈ t.paths)
    {rest : List Bool} (hprefix : rest <+: last.2) (hne : rest ≠ last.2) {p count : Nat} (hcount : xs.length < count)
    (hbits : s.bitsAt p (xs.flatMap Prod.snd ++ rest))
    (hend : p + (xs.flatMap Prod.snd ++ rest).length = 8 * s.inLen.toNat) :
    s.unpackFrom count p = .raise .payloadExhausted s.inLen.toNat (s.withSymbols (xs.map Prod.fst)) := by
  obtain ⟨hfirst, hrest⟩ := State.bitsAt_append hbits
  rw [List.length_append, ← Nat.add_assoc] at hend
  obtain ⟨k, rfl⟩ : ∃ k, count = k + 1 + xs.length := ⟨count - 1 - xs.length, by omega⟩
  rw [State.unpackFrom, unpackSymbols_of_paths ht hxs hfirst,
    unpackSymbols_of_exhausted (walkSymbol_of_cut_path ht hlast hprefix hne hrest hend)]
  rfl

/-! ## The bytes PACK wrote, read back -/

/-- R14, R15: the bits of IN_BUF where the packing of a bit string stands are that string's. -/
theorem State.bitsAt_of_packByte {s : State} {o : Nat} {bs : List Bool} (hlen : 8 * o + bs.length ≤ 8 * s.inLen.toNat)
    (h : ∀ j, j < ceil8 bs.length → s.inByte (o + j) = packByte bs j) : s.bitsAt (8 * o) bs := by
  refine ⟨hlen, fun q hq => ?_⟩
  rw [State.inBit, Nat.mul_add_mod, Nat.mul_add_div (by decide), h (q / 8) (by rw [ceil8]; omega),
    getLsbD_packByte_div bs hq]

/-- Each byte with the bits of its code: what PACK writes for it, and the leaf UNPACK walks to. -/
def codedBytes (c : CodeTable) (ws : List Byte) : List (Symbol × List Bool) := ws.map fun b => (b, (symGet c b).bits)

theorem length_codedBytes (c : CodeTable) (ws : List Byte) : (codedBytes c ws).length = ws.length := List.length_map _

theorem map_fst_codedBytes (c : CodeTable) (ws : List Byte) : (codedBytes c ws).map Prod.fst = ws := by
  rw [codedBytes, List.map_map]
  exact List.map_id _

theorem flatMap_snd_codedBytes (c : CodeTable) (ws : List Byte) :
    (codedBytes c ws).flatMap Prod.snd = payloadOf c ws := List.flatMap_map ..

/-- R180, R205: in a table that holds a tree's codes, a coded byte and its code are a leaf of that tree. -/
theorem CodeTree.codeTable.codedBytes_mem_paths {t : CodeTree} {c : CodeTable} (h : t.codeTable c) {ws : List Byte}
    (hws : ∀ b ∈ ws, (symGet c b).len ≠ 0#8) : ∀ x ∈ codedBytes c ws, x ∈ t.paths := by
  intro x hx
  obtain ⟨b, hb, rfl⟩ := List.mem_map.1 hx
  exact CodeTree.mem_paths_of_mem_codes (h.mem_codes (hws b hb))

/-! ## The obligations -/

/-- Settles O38: one walk per symbol, each along the edge bits of its leaf. -/
theorem unpackWritesTheSymbols : Obligations.UnpackWritesTheSymbols := by
  intro s T xs hfits hv hT hxs hne horig hroom hbits
  have hn : s.origLen ≠ 0#32 := fun h => hne (List.length_eq_zero_iff.1 (horig ▸ h ▸ rfl))
  have hrun := State.unpackWindow_of_fits (s := s.setOutLen 0) hn hv (horig.trans_le hroom)
  rw [exec_unpack_of_fits hfits, hrun, State.setOutLen_origLen, horig, State.setOutLen_inOff,
    State.unpackFrom_of_paths (s := s.setOutLen 0) hT hxs hbits]
  have hpos : ceil8 (8 * s.inOff.toNat + (xs.flatMap Prod.snd).length) =
      s.inOff.toNat + ceil8 (xs.flatMap Prod.snd).length := by
    rw [ceil8, ceil8]
    omega
  rw [hpos]
  exact ⟨_, rfl, State.finished_complete _ _ _, (s.setOutLen 0).outBytesWritten_withSymbols _⟩

/-- Settles O40: the walk behind the last complete symbol meets the end of the window at an internal node. -/
theorem unpackRunsOutOfBits : Obligations.UnpackRunsOutOfBits := by
  intro s T xs last rest hfits hv hT hxs hlast hprefix hne hcount hroom hbits hend
  have hn : s.origLen ≠ 0#32 := fun h => Nat.not_lt_zero _ (h ▸ hcount : xs.length < (0#32).toNat)
  have hrun := (State.unpackWindow_of_fits (s := s.setOutLen 0) hn hv hroom).trans
    (State.unpackFrom_of_cut_paths (s := s.setOutLen 0) hT hxs hlast hprefix hne hcount hbits hend)
  rw [exec_unpack_of_fits hfits, hrun]
  exact ⟨_, rfl, State.finished_complete _ _ _, (s.setOutLen 0).outBytesWritten_withSymbols _⟩

/-- Settles O39: both checks come before any bit is read. -/
theorem unpackEmptyAndOverflow : Obligations.UnpackEmptyAndOverflow := by
  refine fun s hfits => ⟨fun hzero => ?empty, fun hn hv hover => ?overflow⟩
  case empty =>
    rw [exec_unpack_of_fits hfits, State.unpackWindow_of_empty (s := s.setOutLen 0) hzero, State.setInPos,
      BitVec.ofNat_toNat, BitVec.setWidth_eq]
    exact ⟨_, rfl, State.finished_complete _ _ _⟩
  case overflow =>
    rw [exec_unpack_of_fits hfits, State.unpackWindow_of_overflow (s := s.setOutLen 0) hn hv hover]
    exact ⟨_, rfl, State.finished_complete _ _ _⟩

/-- Settles O41: the payload's bits are the edge bits of the window's symbols, each coded by the path to its leaf. -/
theorem unpackInvertsPack : Obligations.UnpackInvertsPack := by
  intro s t u T o hfits hv hT hcodes ht herr hne hnodes hroot huv hufits hoff hlen horig hroom hbytes
  obtain ⟨hcoded, hout⟩ := State.coded_of_exec_pack hfits ht herr
  obtain ⟨t', ht', -, hwritten, -⟩ := packWritesThePayload s hfits hv hcoded hout
  obtain rfl : t' = t := Host.Outcome.next.inj (ht'.symm.trans ht)
  have hpacked : ∀ j, j < ceil8 (payloadOf s.codes s.window).length →
      u.inByte (o + j) = packByte (payloadOf s.codes s.window) j := fun j hj => by
    rw [hbytes j hj, hwritten j (by rwa [length_packBytes]), getElem_packBytes]
  have hbits : u.bitsAt (8 * o) (payloadOf s.codes s.window) :=
    State.bitsAt_of_packByte (by rw [hlen, ceil8]; omega) hpacked
  have hheld : T.heldAt u.nodes u.root := hnodes ▸ hroot ▸ hT.1
  have hunpack := unpackWritesTheSymbols u T (codedBytes s.codes s.window) hufits huv hheld
    (hcodes.codedBytes_mem_paths hcoded) (List.map_eq_nil_iff.not.2 hne) (horig.trans (length_codedBytes ..).symm)
    ((length_codedBytes ..).trans_le hroom) (by rwa [flatMap_snd_codedBytes, hoff])
  rwa [flatMap_snd_codedBytes, map_fst_codedBytes, length_codedBytes, hoff, ← hlen, BitVec.ofNat_toNat,
    BitVec.setWidth_eq] at hunpack

end Sys2Proof.Machine
end

section
/-! SUPPORT. What SERTREE leaves (45_container.md rules R221 and R224): memories with consecutive bytes written one run
after the other, the run of the command, and the obligation. -/

namespace Sys2Proof.Machine

/-! ## Consecutive bytes of a memory -/

/-- `m'` is `m` with these bytes written from offset `o` on. -/
structure Memory.Wrote (m : Memory) (o : Nat) (bs : List Byte) (m' : Memory) : Prop where
  written : ∀ j, (h : j < bs.length) → Memory.read m' (o + j) = some bs[j]
  kept : ∀ a, a < o ∨ o + bs.length ≤ a → Memory.read m' a = Memory.read m a

theorem Memory.wrote_writeAll (m : Memory) (o : Nat) (bs : List Byte) :
    Memory.Wrote m o bs (Memory.writeAll m o bs) where
  written j h := by
    rw [Memory.read_writeAll, dif_pos ⟨Nat.le_add_right o j, by rwa [Nat.add_sub_cancel_left]⟩]
    simp only [Nat.add_sub_cancel_left]
  kept a h := by rw [Memory.read_writeAll, dif_neg (by omega)]

/-- R199: a bit string through a fresh accumulator. -/
theorem Memory.wrote_flush_putBits (m : Memory) (o : Nat) (bs : List Bool) :
    Memory.Wrote m o (packBytes bs) (((Writer.start m o).putBits bs).flush).buf := by
  obtain ⟨hin, hout⟩ := (Writer.took_putBits m o bs).buf_flush
  refine ⟨fun j h => ?_, fun a h => hout a (by rwa [length_packBytes] at h)⟩
  rw [getElem_packBytes]
  exact hin j (by rwa [length_packBytes] at h)

theorem Memory.Wrote.append {m m₁ m₂ : Memory} {o : Nat} {xs ys : List Byte} (hx : Memory.Wrote m o xs m₁)
    (hy : Memory.Wrote m₁ (o + xs.length) ys m₂) : Memory.Wrote m o (xs ++ ys) m₂ where
  written j h := by
    rw [List.length_append] at h
    rcases Nat.lt_or_ge j xs.length with hj | hj
    · rw [hy.kept _ (.inl (Nat.add_lt_add_left hj o)), hx.written j hj, List.getElem_append_left hj]
    · have hread := hy.written (j - xs.length) (by omega)
      rw [Nat.add_assoc, Nat.add_sub_of_le hj] at hread
      rw [hread, List.getElem_append_right hj]
  kept a h := by
    rw [List.length_append] at h
    rw [hy.kept a (by omega), hx.kept a (by omega)]

theorem Memory.Wrote.outBytesWritten {s t : State} {bs : List Byte} (h : Memory.Wrote s.outBuf 0 bs t.outBuf)
    (hseed : t.bufSeed = s.bufSeed) : s.outBytesWritten t bs :=
  State.outBytesWritten_of_read hseed (fun j hj => by rw [← h.written j hj, Nat.zero_add])
    fun j hj => h.kept j (.inr (by rwa [Nat.zero_add]))

/-! ## What SERTREE does -/

theorem commandRun_sertree_of_noTree {s : State} (h : s.treeValid = false) :
    commandRun .sertree s = .raise .noTree 0 (s.setOutLen 0) := by
  rw [commandRun, h, if_neg Bool.false_ne_true]

/-- R224: over a held tree SERTREE packs its descriptor at the start of OUT_BUF. -/
theorem commandRun_sertree_of_holdsTree {s : State} {t : CodeTree} (hv : s.treeValid = true) (h : s.holdsTree t) :
    commandRun .sertree s = .ok (State.setOutLen
      { s with outBuf := (((Writer.start s.outBuf 0).putBits t.desc).flush).buf } (ceil8 s.descBits.toNat)) := by
  have hheld : (s.setOutLen 0).holdsTree t := h
  rw [commandRun, if_pos hv, State.serializeTree, State.descWriter_of_holdsTree hheld]
  simp only [Writer.op_flush_putBits, Nat.zero_add, State.desc_length_of_holdsTree h]
  rfl

/-! ## The obligation -/

/-- Settles O42: the walk over the held tree puts its descriptor through the bit writer. -/
theorem sertreeWritesTheDescriptor : Obligations.SertreeWritesTheDescriptor := by
  refine ⟨rfl, fun s => ⟨fun T hv hT => ?tree, fun hv => ?noTree⟩⟩
  case tree =>
    rw [exec_of_command rfl, commandRun_sertree_of_holdsTree hv hT]
    exact ⟨_, rfl, State.finished_complete _ _ _, State.desc_length_of_holdsTree hT,
      (Memory.wrote_flush_putBits s.outBuf 0 T.desc).outBytesWritten rfl⟩
  case noTree =>
    rw [exec_of_command rfl, commandRun_sertree_of_noTree hv]
    exact ⟨_, rfl, State.finished_complete _ _ _⟩

end Sys2Proof.Machine
end

section
/-! SUPPORT. What DECOMPRESS does before the tree (45_container.md rules R235 to R237): the container's header in the
window, the run of the command in each of its cases, and the obligation. -/

namespace Sys2Proof.Machine

/-! ## The header -/

theorem State.inBytesAt_append {s : State} {o : Nat} {xs ys : List Byte} (h : s.inBytesAt o (xs ++ ys)) :
    s.inBytesAt o xs ∧ s.inBytesAt (o + xs.length) ys := by
  refine ⟨fun j hj => ?_, fun j hj => ?_⟩
  · rw [h j (by rw [List.length_append]; omega), List.getElem_append_left hj]
  · rw [Nat.add_assoc, h (xs.length + j) (by rw [List.length_append]; omega),
      List.getElem_append_right (Nat.le_add_right _ _)]
    simp only [Nat.add_sub_cancel_left]

/-- R235: the comparison with the marker, byte by byte. -/
theorem State.magicAt_iff {s : State} {o : Nat} : s.magicAt o = true ↔ s.inBytesAt o magic := by
  rw [State.magicAt, beq_iff_eq]
  constructor
  · intro h j hj
    obtain ⟨h0, h1, h2, h3⟩ : s.inByte o = 0x48#8 ∧ s.inByte (o + 1) = 0x55#8 ∧ s.inByte (o + 2) = 0x46#8 ∧
        s.inByte (o + 3) = 0x46#8 := by simpa [magic] using h
    match j, hj with
    | 0, _ => exact h0
    | 1, _ => exact h1
    | 2, _ => exact h2
    | 3, _ => exact h3
  · intro h
    have h0 : s.inByte o = 0x48#8 := h 0 (by decide)
    have h1 : s.inByte (o + 1) = 0x55#8 := h 1 (by decide)
    have h2 : s.inByte (o + 2) = 0x46#8 := h 2 (by decide)
    have h3 : s.inByte (o + 3) = 0x46#8 := h 3 (by decide)
    rw [h0, h1, h2, h3]
    rfl

theorem length_header (n : Word) : (magic ++ be32 n).length = 8 := rfl

/-- R236: the length field of a window that begins with a header. -/
theorem State.lengthField_of_header {s : State} {o : Nat} {n : Word} (h : s.inBytesAt o (magic ++ be32 n)) :
    s.lengthField o = n := by
  have h4 : s.inByte (o + 4) = laneOf n 3 := h 4 (by rw [length_header]; decide)
  have h5 : s.inByte (o + 5) = laneOf n 2 := h 5 (by rw [length_header]; decide)
  have h6 : s.inByte (o + 6) = laneOf n 1 := h 6 (by rw [length_header]; decide)
  have h7 : s.inByte (o + 7) = laneOf n 0 := h 7 (by rw [length_header]; decide)
  rw [State.lengthField, h4, h5, h6, h7]
  exact wordOfBytes_laneOf n

/-! ## What DECOMPRESS does before the tree -/

theorem exec_decompress_of_fits {s : State} (h : s.windowFits) :
    exec .decompress s = (s.setOutLen 0).decompressWindow.complete := by
  have hfits : (s.setOutLen 0).windowFits := h
  rw [exec_of_command rfl, commandRun, State.checkWindow_andThen_of_fits hfits]

theorem State.decompressWindow_of_magicShort {s : State} (h : s.windowLen < 4) :
    s.decompressWindow = .raise .magicShort s.inOff.toNat s := by
  simp only [State.decompressWindow]
  rw [if_pos h]

theorem State.decompressWindow_of_magicMismatch {s : State} (h4 : 4 ≤ s.windowLen)
    (h : ¬ s.inBytesAt s.inOff.toNat magic) : s.decompressWindow = .raise .magicMismatch s.inOff.toNat s := by
  simp only [State.decompressWindow]
  rw [if_neg (Nat.not_lt.2 h4), if_neg (State.magicAt_iff.not.2 h)]

theorem State.decompressWindow_of_headerShort {s : State} (h4 : 4 ≤ s.windowLen) (h8 : s.windowLen < 8)
    (h : s.inBytesAt s.inOff.toNat magic) : s.decompressWindow = .raise .headerShort s.inLen.toNat s := by
  simp only [State.decompressWindow]
  rw [if_neg (Nat.not_lt.2 h4), if_pos (State.magicAt_iff.2 h), if_pos h8]

theorem State.decompressWindow_of_header {s : State} {n : Word} (h8 : 8 ≤ s.windowLen)
    (h : s.inBytesAt s.inOff.toNat (magic ++ be32 n)) :
    s.decompressWindow = State.decodeContainer { s with origLen := n } := by
  have hmagic := State.magicAt_iff.2 (State.inBytesAt_append h).1
  simp only [State.decompressWindow]
  rw [if_neg (by omega), if_pos hmagic, if_neg (Nat.not_lt.2 h8), State.lengthField_of_header h]

theorem State.decodeContainer_of_zero {s : State} (h : s.origLen = 0#32) :
    s.decodeContainer = .ok (s.setInPos (s.inOff.toNat + 8)) := by
  simp only [State.decodeContainer]
  rw [if_pos h]

theorem State.decodeContainer_of_overflow {s : State} (hn : s.origLen ≠ 0#32)
    (h : s.params.outBufSize < s.origLen.toNat) : s.decodeContainer = .raise .outOverflow 0 s := by
  simp only [State.decodeContainer]
  rw [if_neg hn, if_pos h]

theorem State.decodeContainer_of_fits {s : State} (hn : s.origLen ≠ 0#32) (h : s.origLen.toNat ≤ s.params.outBufSize) :
    s.decodeContainer =
      s.parseTree (8 * (s.inOff.toNat + 8)) fun s p => s.unpackFrom s.origLen.toNat (8 * ceil8 p) := by
  simp only [State.decodeContainer]
  rw [if_neg hn, if_neg (Nat.not_lt.2 h)]

/-- The state in which DECOMPRESS reads the container's tree: OUT_LEN zeroed and ORIG_LEN written (R237). -/
def State.withLength (s : State) (n : Word) : State := { s with origLen := n, outLen := 0#25 }

/-- R237: DECOMPRESS of a window that begins with a header. -/
theorem exec_decompress_of_header {s : State} {n : Word} (hfits : s.windowFits) (h8 : 8 ≤ s.windowLen)
    (h : s.inBytesAt s.inOff.toNat (magic ++ be32 n)) :
    exec .decompress s = (s.withLength n).decodeContainer.complete := by
  rw [exec_decompress_of_fits hfits, State.decompressWindow_of_header (s := s.setOutLen 0) h8 h]
  rfl

/-! ## The obligation -/

/-- Settles O48: the checks come in this order, and each ends the command before the tree is touched. -/
theorem decompressHeader : Obligations.DecompressHeader := by
  intro s hfits
  have hraise {c : Cause} {p : Nat} (h : (s.setOutLen 0).decompressWindow = .raise c p (s.setOutLen 0)) :
      ∃ t, exec .decompress s = .next t ∧ State.finished { s with outLen := 0#25 } (some c) p t := by
    rw [exec_decompress_of_fits hfits, h]
    exact ⟨_, rfl, State.finished_complete _ _ _⟩
  refine ⟨fun h4 => hraise ?short, fun h4 h => hraise ?mismatch, fun h4 h8 h => hraise ?header, fun n h8 h =>
    ⟨fun hn => ?zero, fun hover hn => ?overflow⟩⟩
  case short => exact State.decompressWindow_of_magicShort (s := s.setOutLen 0) h4
  case mismatch => exact State.decompressWindow_of_magicMismatch (s := s.setOutLen 0) h4 h
  case header => exact State.decompressWindow_of_headerShort (s := s.setOutLen 0) h4 h8 h
  case zero =>
    subst hn
    rw [exec_decompress_of_header hfits h8 h, State.decodeContainer_of_zero (s := s.withLength 0#32) rfl]
    exact ⟨_, rfl, State.finished_complete _ _ _⟩
  case overflow =>
    rw [exec_decompress_of_header hfits h8 h, State.decodeContainer_of_overflow (s := s.withLength n) hn hover]
    exact ⟨_, rfl, State.finished_complete _ _ _⟩

end Sys2Proof.Machine
end

section
/-! SUPPORT. The descriptor parser over given bits (45_container.md rules R225 and R226): the bits of a symbol, one turn
of the loop for each node it can meet, and the loop over the nodes of a whole tree or over any nodes it accepts. -/

namespace Sys2Proof.Machine

/-! ## The bits of a symbol -/

/-- R10: the value of the low `n` bits. -/
theorem bitsVal_bitsMsb {w : Nat} (v : BitVec w) (n : Nat) : bitsVal (bitsMsb v n) = v.toNat % 2 ^ n := by
  induction n with
  | zero => rw [Nat.pow_zero, Nat.mod_one, bitsMsb, bitsVal, List.foldl_nil]
  | succ n ih =>
    rw [bitsMsb, bitsVal_cons, length_bitsMsb, ih, Nat.mod_pow_succ, ← Nat.toNat_testBit, Nat.add_comm]
    rfl

theorem State.bitAvailable_iff {s : State} {p : Nat} : s.bitAvailable p = true ↔ p < 8 * s.inLen.toNat := by
  rw [State.bitAvailable, decide_eq_true_iff]
  omega

theorem readBits_of_bitsAt {s : State} {bs : List Bool} {p : Nat} (h : s.bitsAt p bs) (before : List Bool) :
    readBits s bs.length p (bitsVal before) = some (bitsVal (before ++ bs)) := by
  induction bs generalizing p before with
  | nil => rw [List.append_nil, List.length_nil, readBits]
  | cons b bs ih =>
    obtain ⟨hp, hbit, hrest⟩ := State.bitsAt_cons h
    rw [List.length_cons, readBits, if_pos (State.bitAvailable_iff.2 hp), hbit, ← bitsVal_concat, ih hrest,
      List.append_assoc, List.singleton_append]

/-- R225: the eight bits of a symbol read back to it. -/
theorem readBits_symbol {s : State} {x : Symbol} {p : Nat} (h : s.bitsAt p (bitsMsb x 8)) :
    readBits s 8 p 0 = some x.toNat := by
  have hread := readBits_of_bitsAt h []
  rwa [length_bitsMsb, List.nil_append, bitsVal_bitsMsb, Nat.mod_eq_of_lt x.isLt] at hread

theorem readBits_of_cut {s : State} {count p : Nat} (hp : p ≤ 8 * s.inLen.toNat) (hend : 8 * s.inLen.toNat < p + count)
    (acc : Nat) : readBits s count p acc = none := by
  induction count generalizing p acc with
  | zero => exact absurd hend (Nat.not_lt.2 hp)
  | succ count ih =>
    rw [readBits]
    split
    · next hbit => exact ih (State.bitAvailable_iff.1 hbit) (by omega) _
    · rfl

/-! ## One turn of the loop -/

section Turn
variable {s : State} {room : Nat} {par : NodeIx} {side : Bool} {rest : List (NodeIx × Bool)} {r : Parser} {x : Symbol}

theorem parseLoop_of_internal (h : s.bitsAt r.p [false]) :
    parseLoop s (room + 1) ((par, side) :: rest) r =
      parseLoop s room ((BitVec.ofNat 9 r.m, false) :: (BitVec.ofNat 9 r.m, true) :: rest)
        (r.putInternal par side) := by
  obtain ⟨hp, hbit, -⟩ := State.bitsAt_cons h
  simp only [parseLoop, State.bitAvailable_iff.2 hp, hbit, if_true, Bool.false_eq_true, if_false]
  rfl

theorem parseLoop_of_leaf (h : s.bitsAt r.p (itemBits (some x))) (hm : r.m ≠ 0) (hx : x ∉ r.seen) :
    parseLoop s (room + 1) ((par, side) :: rest) r = parseLoop s room rest (r.putLeaf par side x) := by
  obtain ⟨hp, hbit, hsym⟩ := State.bitsAt_cons h
  simp only [parseLoop, State.bitAvailable_iff.2 hp, hbit, if_true, if_neg hm, readBits_symbol hsym,
    BitVec.ofNat_toNat, BitVec.setWidth_eq, List.contains_iff_mem, if_neg hx]
  rfl

/-- R226: a leaf that repeats a symbol. -/
theorem parseLoop_of_repeated (h : s.bitsAt r.p (itemBits (some x))) (hm : r.m ≠ 0) (hx : x ∈ r.seen) :
    ∃ a, parseLoop s (room + 1) ((par, side) :: rest) r = .fail .descDupSymbol ((r.p + 8) / 8) a := by
  obtain ⟨hp, hbit, hsym⟩ := State.bitsAt_cons h
  simp only [parseLoop, State.bitAvailable_iff.2 hp, hbit, if_true, if_neg hm, readBits_symbol hsym,
    BitVec.ofNat_toNat, BitVec.setWidth_eq, List.contains_iff_mem, if_pos hx]
  exact ⟨_, rfl⟩

/-- R226: a descriptor whose root is a leaf. -/
theorem parseLoop_of_rootLeaf (h : s.bitsAt r.p [true]) (hm : r.m = 0) :
    ∃ a, parseLoop s (room + 1) ((par, side) :: rest) r = .fail .descRootLeaf (r.p / 8) a := by
  obtain ⟨hp, hbit, -⟩ := State.bitsAt_cons h
  simp only [parseLoop, State.bitAvailable_iff.2 hp, hbit, if_true, if_pos hm]
  exact ⟨_, rfl⟩

/-- R226: the window ends before a tag. -/
theorem parseLoop_of_noTag (h : 8 * s.inLen.toNat ≤ r.p) :
    ∃ a, parseLoop s (room + 1) ((par, side) :: rest) r = .fail .descExhausted s.inLen.toNat a := by
  rw [parseLoop, if_neg (State.bitAvailable_iff.not.2 (Nat.not_lt.2 h))]
  exact ⟨_, rfl⟩

/-- R226: the window ends inside a leaf's symbol. -/
theorem parseLoop_of_cutSymbol (h : s.bitsAt r.p [true]) (hm : r.m ≠ 0) (hend : 8 * s.inLen.toNat < r.p + 9) :
    ∃ a, parseLoop s (room + 1) ((par, side) :: rest) r = .fail .descExhausted s.inLen.toNat a := by
  obtain ⟨hp, hbit, -⟩ := State.bitsAt_cons h
  have hcut : readBits s 8 (r.p + 1) 0 = none := readBits_of_cut hp (by omega) 0
  simp only [parseLoop, State.bitAvailable_iff.2 hp, hbit, if_true, if_neg hm, hcut]
  exact ⟨_, rfl⟩

end Turn

/-! ## A tree without marks -/

theorem CodeTree.symbols_eraseMarks (t : CodeTree) : t.eraseMarks.symbols = t.symbols := by
  induction t with
  | leaf => rfl
  | node l r ihl ihr => rw [CodeTree.eraseMarks, CodeTree.symbols, ihl, ihr, CodeTree.symbols]

theorem CodeTree.size_eraseMarks (t : CodeTree) : t.eraseMarks.size = t.size := by
  rw [CodeTree.size_eq, CodeTree.size_eq, CodeTree.symbols_eraseMarks]

theorem CodeTree.desc_eraseMarks (t : CodeTree) : t.eraseMarks.desc = t.desc := by
  induction t with
  | leaf => rfl
  | node l r ihl ihr => rw [CodeTree.eraseMarks, CodeTree.desc, ihl, ihr, CodeTree.desc]

theorem CodeTree.isNode_eraseMarks (t : CodeTree) : t.eraseMarks.isNode = t.isNode := by cases t <;> rfl

/-- R205: the marks do not matter to a decoding walk. -/
theorem CodeTree.paths_eraseMarks (t : CodeTree) : t.eraseMarks.paths = t.paths := by
  induction t with
  | leaf => rfl
  | node l r ihl ihr => rw [CodeTree.eraseMarks, CodeTree.paths_node, ihl, ihr, CodeTree.paths_node]

/-! ## A whole tree -/

/-- Where the parser stands behind a subtree, which it holds without marks. -/
theorem Parser.Subtree.position {r q : Parser} {par : NodeIx} {side : Bool} {t : CodeTree}
    (h : r.Subtree par side t.eraseMarks q) :
    q.m = r.m + t.size ∧ q.seen = t.symbols.reverse ++ r.seen ∧ q.p = r.p + t.desc.length := by
  rw [h.m, h.seen, h.p, t.size_eraseMarks, t.symbols_eraseMarks, t.desc_eraseMarks]
  exact ⟨rfl, rfl, rfl⟩

/-- R225, R223: over the descriptor of a tree the loop reads that tree into the first open slot. -/
theorem parseLoop_of_desc {s : State} {t : CodeTree} {r : Parser} (hnd : (t.symbols.reverse ++ r.seen).Nodup)
    (hroot : r.m = 0 → t.isNode = true) (hm : r.m + t.size ≤ 511) (hbits : s.bitsAt r.p t.desc) (par : NodeIx)
    (side : Bool) (room : Nat) (rest : List (NodeIx × Bool)) :
    ∃ q, r.Subtree par side t.eraseMarks q ∧
      parseLoop s (room + t.size) ((par, side) :: rest) r = parseLoop s room rest q := by
  induction t generalizing par side r room rest with
  | leaf x ph =>
    have hm0 : r.m ≠ 0 := fun h => nomatch hroot h
    obtain ⟨hx, hseen⟩ := List.nodup_cons.1 (show (x :: r.seen).Nodup from hnd)
    exact ⟨_, Parser.subtree_putLeaf par side hm hx hseen, parseLoop_of_leaf hbits hm0 hx⟩
  | node tl tr ihl ihr =>
    have hsize : (CodeTree.node tl tr).size = tl.size + tr.size + 1 := rfl
    have hmput : (r.putInternal par side).m = r.m + 1 := rfl
    rw [CodeTree.symbols, List.reverse_append, List.append_assoc] at hnd
    obtain ⟨htag, hbitsl, hbitsr⟩ : s.bitsAt r.p [false] ∧ s.bitsAt (r.p + 1) tl.desc ∧
        s.bitsAt (r.p + 1 + tl.desc.length) tr.desc := by
      obtain ⟨htag, hbits⟩ := State.bitsAt_append (bs := [false]) hbits
      exact ⟨htag, State.bitsAt_append hbits⟩
    obtain ⟨q, hl, hloopl⟩ := ihl (r := r.putInternal par side) (List.Nodup.of_append_right hnd) (fun h => nomatch h)
      (by omega) hbitsl (BitVec.ofNat 9 r.m) false (room + tr.size) ((BitVec.ofNat 9 r.m, true) :: rest)
    obtain ⟨hqm, hqseen, hqp⟩ := hl.position
    obtain ⟨q', hr, hloopr⟩ := ihr (r := q) (hqseen ▸ hnd) (fun h => by omega) (by omega) (hqp ▸ hbitsr)
      (BitVec.ofNat 9 r.m) true room rest
    obtain ⟨hqm', -, -⟩ := hr.position
    refine ⟨q', hl.node hr (by omega), ?_⟩
    rw [hsize, show room + (tl.size + tr.size + 1) = room + tr.size + tl.size + 1 by omega,
      parseLoop_of_internal htag, hloopl, hloopr]

/-! ## Nodes that a parser accepts -/

theorem openSlots_zero (items : List (Option Symbol)) : openSlots 0 items = 0 := by cases items <;> rfl

theorem reverse_leafSymbols_cons (x : Symbol) (items : List (Option Symbol)) (seen : List Symbol) :
    ((some x :: items).filterMap id).reverse ++ seen = (items.filterMap id).reverse ++ x :: seen := by
  simp

/-- R225: over the bits of nodes that leave a slot open, the loop fills a slot with each node in turn. -/
theorem parseLoop_of_items {s : State} {items : List (Option Symbol)} {stk : List (NodeIx × Bool)} {r : Parser}
    (hopen : 0 < openSlots stk.length items) (hnd : ((items.filterMap id).reverse ++ r.seen).Nodup)
    (hroot : r.m = 0 → stk.length = 1) (hbits : s.bitsAt r.p (items.flatMap itemBits)) :
    ∃ slot stk' q, q.m = r.m + items.length ∧ q.seen = (items.filterMap id).reverse ++ r.seen ∧
      q.p = r.p + (items.flatMap itemBits).length ∧
      ∀ room, parseLoop s (room + items.length) stk r = parseLoop s room (slot :: stk') q := by
  induction items generalizing stk r with
  | nil =>
    cases stk with
    | nil => exact absurd hopen (lt_irrefl 0)
    | cons slot stk => exact ⟨slot, stk, r, rfl, rfl, rfl, fun _ => rfl⟩
  | cons item items ih =>
    cases stk with
    | nil => exact absurd hopen (lt_irrefl 0)
    | cons slot stk =>
      obtain ⟨par, side⟩ := slot
      rw [List.flatMap_cons] at hbits
      obtain ⟨hitem, hrest⟩ := State.bitsAt_append hbits
      cases item with
      | none =>
        obtain ⟨slot', stk', q, hm, hseen, hp, hloop⟩ :=
          ih (stk := (BitVec.ofNat 9 r.m, false) :: (BitVec.ofNat 9 r.m, true) :: stk) (r := r.putInternal par side)
            hopen hnd (fun h => nomatch h) hrest
        have hmput : (r.putInternal par side).m = r.m + 1 := rfl
        have hpput : (r.putInternal par side).p = r.p + (itemBits none).length := rfl
        refine ⟨slot', stk', q, ?_, hseen, ?_, fun room => ?_⟩
        · rw [hm, hmput, List.length_cons, Nat.add_assoc, Nat.add_comm 1]
        · rw [hp, hpput, List.flatMap_cons, List.length_append, Nat.add_assoc]
        · rw [List.length_cons, ← Nat.add_assoc, parseLoop_of_internal hitem, hloop]
      | some x =>
        rw [reverse_leafSymbols_cons] at hnd
        have hx : x ∉ r.seen := (List.nodup_cons.1 (List.Nodup.of_append_right hnd)).1
        have hm0 : r.m ≠ 0 := fun h => by
          have hone : stk = [] := List.length_eq_zero_iff.1 (Nat.succ.inj (hroot h))
          rw [hone] at hopen
          exact absurd hopen (Nat.not_lt.2 (openSlots_zero items).le)
        obtain ⟨slot', stk', q, hm, hseen, hp, hloop⟩ :=
          ih (stk := stk) (r := r.putLeaf par side x) hopen hnd (fun h => nomatch h) hrest
        have hmput : (r.putLeaf par side x).m = r.m + 1 := rfl
        have hpput : (r.putLeaf par side x).p = r.p + (itemBits (some x)).length := rfl
        refine ⟨slot', stk', q, ?_, ?_, ?_, fun room => ?_⟩
        · rw [hm, hmput, List.length_cons, Nat.add_assoc, Nat.add_comm 1]
        · rw [hseen, reverse_leafSymbols_cons]
          rfl
        · rw [hp, hpput, List.flatMap_cons, List.length_append, Nat.add_assoc]
        · rw [List.length_cons, ← Nat.add_assoc, parseLoop_of_leaf hitem hm0 hx, hloop]

end Sys2Proof.Machine
end

section
/-! SUPPORT. The arena of an accepted descriptor (45_container.md rules R225 and R229): zero weights and marks, the
pre-order of the indices, and the tree the entries form. -/

namespace Sys2Proof.Machine

/-! ## Zero weights and marks -/

/-- R229: the entries below an index have WEIGHT = 0 and PH = 0. -/
def Arena.ZeroedBelow (k : Nat) (a : Arena) : Prop :=
  ∀ (i : NodeIx) (n : Node), i.toNat < k → nodeAt a i = some n → n.weight = 0#40 ∧ n.ph = false

theorem Arena.ZeroedBelow.congr {k : Nat} {a b : Arena} (h : a.ZeroedBelow k)
    (hab : ∀ i : NodeIx, i.toNat < k → nodeAt b i = nodeAt a i) : b.ZeroedBelow k :=
  fun i n hi hn => h i n hi ((hab i hi).symm.trans hn)

/-- A link writes LEFT or RIGHT alone. -/
theorem Arena.ZeroedBelow.linkChild {k : Nat} {a : Arena} (h : a.ZeroedBelow k) (par : NodeIx) (side : Bool)
    (c : NodeIx) : (linkChild a par side c).ZeroedBelow k := by
  intro i n hi hn
  by_cases hlink : i = par ∧ par ≠ NodeIx.nil
  · obtain ⟨rfl, hpar⟩ := hlink
    obtain ⟨n', hn'⟩ : ∃ n', nodeAt a i = some n' := Option.ne_none_iff_exists'.1 ((nodeAt_eq_none a i).not.2 hpar)
    cases side with
    | false => exact Option.some.inj ((nodeAt_linkChild_left hpar hn').symm.trans hn) ▸ h i n' hi hn'
    | true => exact Option.some.inj ((nodeAt_linkChild_right hpar hn').symm.trans hn) ▸ h i n' hi hn'
  · refine h i n hi (.trans ?_ hn)
    by_cases hpar : par = NodeIx.nil
    · rw [Machine.linkChild, if_pos hpar]
    · exact (nodeAt_linkChild_of_ne a side c fun he => hlink ⟨he, hpar⟩).symm

theorem Arena.ZeroedBelow.setNode {k : Nat} {a : Arena} (h : a.ZeroedBelow k) (hk : k < 511) {n : Node}
    (hweight : n.weight = 0#40) (hph : n.ph = false) : (setNode a k n).ZeroedBelow (k + 1) := by
  intro i n' hi hn
  rw [nodeAt_setNode _ _ _ _ hk] at hn
  split at hn
  · exact Option.some.inj hn ▸ ⟨hweight, hph⟩
  · exact h i n' (by omega) hn

/-- R229: every entry the loop writes is zeroed. -/
theorem Arena.ZeroedBelow.parseLoop {s : State} {room : Nat} {stk : List (NodeIx × Bool)} {r q : Parser}
    (h : parseLoop s room stk r = .done q) (hroom : room + r.m ≤ 511) (hr : r.nodes.ZeroedBelow r.m) :
    q.nodes.ZeroedBelow q.m := by
  induction room generalizing stk r with
  | zero =>
    cases stk with
    | nil => exact Parsed.done.inj h ▸ hr
    | cons slot rest => exact nomatch h
  | succ room ih =>
    cases stk with
    | nil => exact Parsed.done.inj h ▸ hr
    | cons slot rest =>
      obtain ⟨par, side⟩ := slot
      obtain ⟨room', hroom', ⟨-, x, -, hleaf⟩ | hinternal⟩ := parseLoop_cons_done h <;>
        obtain rfl := Nat.succ.inj hroom'
      · have hm : (r.putLeaf par side x).m = r.m + 1 := rfl
        exact ih hleaf (by omega) ((hr.linkChild par side _).setNode (by omega) rfl rfl)
      · have hm : (r.putInternal par side).m = r.m + 1 := rfl
        exact ih hinternal (by omega) ((hr.linkChild par side _).setNode (by omega) rfl rfl)

/-! ## Pre-order -/

theorem CodeTree.head?_indices (a : Arena) (t : CodeTree) (i : NodeIx) : (t.indices a i).head? = some i := by
  cases t with
  | leaf => rfl
  | node l r =>
    rw [CodeTree.indices]
    split <;> rfl

theorem CodeTree.eq_of_preorder {a : Arena} {t : CodeTree} {i : NodeIx} {m : Nat}
    (h : t.indices a i = (List.range' m t.size).map (BitVec.ofNat 9)) : i = BitVec.ofNat 9 m := by
  obtain ⟨k, hk⟩ : ∃ k, t.size = k + 1 := by cases t <;> exact ⟨_, rfl⟩
  have hhead := congrArg List.head? h
  rw [CodeTree.head?_indices, hk, List.range'_succ] at hhead
  exact Option.some.inj hhead

/-- R229: in a tree numbered in pre-order the LEFT child is the next index, and the RIGHT child a higher one. -/
theorem CodeTree.links_of_preorder {a : Arena} {t : CodeTree} {i : NodeIx} {m : Nat} (ht : t.heldAt a i)
    (hpre : t.indices a i = (List.range' m t.size).map (BitVec.ofNat 9)) (hm : m + t.size ≤ 512) {j : NodeIx}
    (hj : j ∈ t.indices a i) {n : Node} (hn : nodeAt a j = some n) (hleaf : n.leaf = false) :
    n.left.toNat = j.toNat + 1 ∧ j.toNat < n.right.toNat := by
  induction t generalizing i m with
  | leaf x ph =>
    obtain ⟨n', hn', hleaf', -⟩ := ht
    obtain rfl := List.mem_singleton.1 hj
    rw [hn, Option.some.injEq] at hn'
    exact absurd (hn' ▸ hleaf') (hleaf ▸ Bool.false_ne_true)
  | node l r ihl ihr =>
    obtain ⟨n', hn', -, hl, hr⟩ := ht
    have hsize : (CodeTree.node l r).size = l.size + r.size + 1 := rfl
    rw [hsize, List.range'_succ, ← List.range'_append_1, List.map_cons, List.map_append] at hpre
    simp only [CodeTree.indices, hn'] at hpre hj
    obtain ⟨hi, htail⟩ := List.cons.inj hpre
    obtain ⟨hprel, hprer⟩ := List.append_inj htail (by
      rw [CodeTree.indices_length hl, List.length_map, List.length_range'])
    rcases List.mem_cons.1 hj with rfl | hj
    · rw [hn, Option.some.injEq] at hn'
      subst hn'
      have hrpos : 0 < r.size := by cases r <;> exact Nat.succ_pos _
      rw [CodeTree.eq_of_preorder hprel, CodeTree.eq_of_preorder hprer, hi, toNat_nodeIx (by omega),
        toNat_nodeIx (by omega), toNat_nodeIx (by omega)]
      omega
    · rcases List.mem_append.1 hj with hj | hj
      · exact ihl hl hprel (by omega) hj
      · exact ihr hr hprer (by omega) hj

/-! ## The arena of an accepted descriptor -/

/-- The arena holds this tree, internal at its root and without a repeated symbol, as `parse_tree` numbers it: in
pre-order from index 0 on (R225), every entry zeroed (R229). -/
structure CodeTree.ParsedIn (a : Arena) (t : CodeTree) : Prop where
  isNode : t.isNode = true
  nodup : t.symbols.Nodup
  held : t.heldAt a 0#9
  indices : t.indices a 0#9 = (List.range t.size).map (BitVec.ofNat 9)
  zeroed : a.ZeroedBelow t.size

theorem CodeTree.size_le_of_nodup {t : CodeTree} (h : t.symbols.Nodup) : t.size ≤ 511 := by
  have := length_le_of_nodup_symbols h
  rw [t.size_eq]
  omega

theorem CodeTree.ParsedIn.mem_indices {a : Arena} {t : CodeTree} (h : t.ParsedIn a) {i : NodeIx} :
    i ∈ t.indices a 0#9 ↔ i.toNat < t.size := by
  have hsize := CodeTree.size_le_of_nodup h.nodup
  rw [h.indices, List.mem_map]
  constructor
  · rintro ⟨j, hj, rfl⟩
    rw [List.mem_range] at hj
    rwa [toNat_nodeIx (by omega)]
  · exact fun hi => ⟨i.toNat, List.mem_range.2 hi, by rw [BitVec.ofNat_toNat, BitVec.setWidth_eq]⟩

theorem CodeTree.ParsedIn.congr {a b : Arena} {t : CodeTree} (h : t.ParsedIn a)
    (hab : ∀ i : NodeIx, i.toNat < t.size → nodeAt b i = nodeAt a i) : t.ParsedIn b := by
  obtain ⟨hheld, hindices⟩ := t.heldAt_congr a b 0#9 h.held fun i hi => hab i (h.mem_indices.1 hi)
  exact ⟨h.isNode, h.nodup, hheld, hindices.trans h.indices, h.zeroed.congr hab⟩

/-- R229: the children of an internal node have higher indices. -/
theorem CodeTree.ParsedIn.links {a : Arena} {t : CodeTree} (h : t.ParsedIn a) {j : NodeIx} (hj : j.toNat < t.size)
    {n : Node} (hn : nodeAt a j = some n) (hleaf : n.leaf = false) :
    n.left.toNat = j.toNat + 1 ∧ j.toNat < n.right.toNat := by
  have hsize := CodeTree.size_le_of_nodup h.nodup
  have hpre := h.indices
  rw [List.range_eq_range'] at hpre
  exact CodeTree.links_of_preorder h.held hpre (by omega) (h.mem_indices.2 hj) hn hleaf

/-- The parser at the start of a descriptor (R225). -/
def State.parserAt (s : State) (p0 : Nat) : Parser := { nodes := s.nodes, m := 0, l := 0, seen := [], p := p0 }

/-- The loop's arena, once it has read one subtree into the root's slot and no slot is open. -/
theorem Parser.Subtree.parsedIn {s s' : State} {p0 : Nat} {side : Bool} {t : CodeTree} {q : Parser}
    (h : (s.parserAt p0).Subtree NodeIx.nil side t q) (hnode : t.isNode = true)
    (hloop : Machine.parseLoop s' 511 [(NodeIx.nil, false)] (s.parserAt p0) = .done q) : t.ParsedIn q.nodes := by
  have hm : q.m = t.size := h.m.trans (Nat.zero_add _)
  have hnd := h.nodup
  rw [h.seen, show (s.parserAt p0).seen = [] from rfl, List.append_nil, List.nodup_reverse] at hnd
  refine ⟨hnode, hnd, h.held, ?_, hm ▸ Arena.ZeroedBelow.parseLoop hloop (le_refl 511) fun i n hi => nomatch hi⟩
  rw [List.range_eq_range']
  exact h.indices

end Sys2Proof.Machine
end

section
/-! SUPPORT. What `parse_tree` leaves (45_container.md rules R225 to R229): the state that a descriptor is accepted or
refused in, the two commands that parse, and the obligations. -/

namespace Sys2Proof.Machine

/-! ## The state `parse_tree` ends in -/

/-- `s` with the tree and the registers of an accepted descriptor (R225). -/
def State.withParsed (s : State) (a : Arena) (t : CodeTree) : State :=
  { s.invalidate with
    nodes := a, nodeCount := BitVec.ofNat 10 t.size, root := 0#9, leafCount := BitVec.ofNat 9 t.symbols.length,
    descBits := BitVec.ofNat 12 t.desc.length, treeValid := true }

theorem State.withParsed_eraseMarks (s : State) (a : Arena) (t : CodeTree) :
    s.withParsed a t.eraseMarks = s.withParsed a t := by
  rw [State.withParsed, t.size_eraseMarks, t.symbols_eraseMarks, t.desc_eraseMarks, State.withParsed]

theorem State.parseTree_of_subtree {s : State} {p0 : Nat} {t : CodeTree} {q : Parser}
    (hloop : parseLoop s 511 [(NodeIx.nil, false)] (s.parserAt p0) = .done q)
    (h : (s.parserAt p0).Subtree NodeIx.nil false t q) (k : State → Nat → Run) :
    s.parseTree p0 k = k (s.withParsed q.nodes t) (p0 + t.desc.length) := by
  have hm : q.m = t.size := h.m.trans (Nat.zero_add _)
  have hl : q.l = t.symbols.length := h.l.trans (Nat.zero_add _)
  have hp : q.p = p0 + t.desc.length := h.p
  rw [State.parserAt] at hloop
  simp only [State.parseTree, hloop, hm, hl, hp, Nat.add_sub_cancel_left]
  rfl

theorem State.parseTree_of_fail {s : State} {p0 : Nat} {c : Cause} {pos : Nat} {a : Arena}
    (hloop : parseLoop s 511 [(NodeIx.nil, false)] (s.parserAt p0) = .fail c pos a) (k : State → Nat → Run) :
    s.parseTree p0 k = .raise c pos (s.withTreeCleared a) := by
  rw [State.parserAt] at hloop
  rw [State.parseTree, hloop]
  rfl

/-- R225, R223: `parse_tree` accepts the descriptor of a tree. -/
theorem State.parseTree_of_desc {s : State} {t : CodeTree} {p0 : Nat} (hnode : t.isNode = true) (hnd : t.symbols.Nodup)
    (hbits : s.bitsAt p0 t.desc) :
    ∃ a, t.eraseMarks.ParsedIn a ∧ ∀ k, s.parseTree p0 k = k (s.withParsed a t) (p0 + t.desc.length) := by
  have hsize := CodeTree.size_le_of_nodup hnd
  obtain ⟨q, hsub, hloop⟩ := parseLoop_of_desc (r := s.parserAt p0) (by simpa [State.parserAt] using hnd)
    (fun _ => hnode) ((Nat.zero_add _).trans_le hsize) hbits NodeIx.nil false (511 - t.size) []
  rw [Nat.sub_add_cancel hsize, parseLoop_nil] at hloop
  refine ⟨q.nodes, hsub.parsedIn (t.isNode_eraseMarks.trans hnode) hloop, fun k => ?_⟩
  rw [State.parseTree_of_subtree hloop hsub, State.withParsed_eraseMarks, t.desc_eraseMarks]

/-- R228: whatever `parse_tree` accepts is the descriptor of a tree. -/
theorem State.parseTree_accepts (s : State) (p0 : Nat) (k : State → Nat → Run) :
    (∃ c pos u, s.parseTree p0 k = .raise c pos u) ∨
    ∃ t a, t.ParsedIn a ∧ s.parseTree p0 k = k (s.withParsed a t) (p0 + t.desc.length) := by
  rcases s.parseTree_cases p0 k with ⟨c, pos, a, -, he⟩ | ⟨r, hloop, -⟩
  · exact .inl ⟨c, pos, _, he⟩
  · obtain ⟨t, q, room, hsub, hnode, -, hrest⟩ := parseLoop_subtree hloop (le_refl 511) List.nodup_nil
    obtain rfl := Parsed.done.inj ((parseLoop_nil s room q).symm.trans hrest)
    exact .inr ⟨t, q.nodes, Parser.Subtree.parsedIn (s := s) (p0 := p0) hsub (hnode rfl) hloop,
      State.parseTree_of_subtree (p0 := p0) hloop hsub k⟩

/-- A valid tree as `parse_tree` leaves it, with its registers and no codes. -/
structure State.Parsed (s : State) (t : CodeTree) : Prop where
  tree : t.ParsedIn s.nodes
  treeValid : s.treeValid = true
  codesValid : s.codesValid = false
  root : s.root = 0#9
  nodeCount : s.nodeCount = BitVec.ofNat 10 t.size
  leafCount : s.leafCount = BitVec.ofNat 9 t.symbols.length
  descBits : s.descBits = BitVec.ofNat 12 t.desc.length

theorem State.parsed_withParsed {a : Arena} {t : CodeTree} (h : t.ParsedIn a) (s : State) :
    (s.withParsed a t).Parsed t := ⟨h, rfl, rfl, rfl, rfl, rfl, rfl⟩

theorem State.Parsed.of_sameTree {s u : State} {t : CodeTree} (h : s.Parsed t) (hu : s.SameTree u) : u.Parsed t where
  tree := hu.nodes ▸ h.tree
  treeValid := hu.treeValid.trans h.treeValid
  codesValid := hu.codesValid.trans h.codesValid
  root := hu.root.trans h.root
  nodeCount := hu.nodeCount.trans h.nodeCount
  leafCount := hu.leafCount.trans h.leafCount
  descBits := hu.descBits.trans h.descBits

theorem State.Parsed.toNat_nodeCount {s : State} {t : CodeTree} (h : s.Parsed t) : s.nodeCount.toNat = t.size := by
  have hsize := CodeTree.size_le_of_nodup h.tree.nodup
  rw [h.nodeCount]
  exact Nat.mod_eq_of_lt (by omega)

theorem State.Parsed.complete {s : State} {t : CodeTree} (h : s.Parsed t) (c : Option Cause) (p : Nat) :
    (s.complete c p).Parsed t :=
  ⟨h.tree.congr fun _ hi => nodeAt_freeFrom_of_lt _ _ (hi.trans_eq h.toNat_nodeCount.symm), h.treeValid, h.codesValid,
    h.root, h.nodeCount, h.leafCount, h.descBits⟩

/-- R228: the parsed tree has every property of R53. -/
theorem State.Parsed.holdsTree {s : State} {t : CodeTree} (h : s.Parsed t) : s.holdsTree t := by
  refine State.holdsTree_of_registers (n := t.size) (h.root ▸ h.tree.held) (h.root ▸ List.Perm.of_eq h.tree.indices)
    h.tree.isNode h.tree.nodup h.nodeCount h.leafCount ?_
  rw [h.descBits, t.desc_length]

/-- Lines behind the parser that leave the tree alone end with a parsed tree. -/
theorem State.parsed_of_parseTree {s v : State} {p0 : Nat} {k : State → Nat → Run}
    (hk : ∀ u p, (k u p).endsIn u.SameTree) (h : s.parseTree p0 k = .ok v) : ∃ t, v.Parsed t := by
  rcases s.parseTree_accepts p0 k with ⟨c, pos, u, he⟩ | ⟨t, a, ht, he⟩
  · exact nomatch he ▸ h
  · have hsame := hk (s.withParsed a t) (p0 + t.desc.length)
    rw [← he, h] at hsame
    exact ⟨t, (State.parsed_withParsed ht s).of_sameTree hsame⟩

/-! ## The commands that parse -/

theorem State.sameTree_setInPos (s : State) (n : Nat) : s.SameTree (s.setInPos n) :=
  ⟨rfl, rfl, rfl, rfl, rfl, rfl, rfl, rfl⟩

theorem State.checkWindow_andThen_eq_ok {s v : State} {k : State → Run} (h : s.checkWindow.andThen k = .ok v) :
    k s = .ok v := by
  by_cases hfits : s.windowFits
  · rwa [State.checkWindow_andThen_of_fits hfits] at h
  · rw [State.checkWindow_of_not_fits s hfits] at h
    exact nomatch h

theorem Run.eq_ok_of_complete {r : Run} {t : State} (h : r.complete = .next t) (herr : t.err = false) :
    ∃ u, r = .ok u ∧ t = u.complete none 0 := by
  rcases Run.complete_eq_next h with hok | ⟨c, p, u, -, rfl⟩
  · exact hok
  · exact nomatch herr

theorem State.parsed_of_decodeContainer {s v : State} (h : s.decodeContainer = .ok v) (hn : v.origLen ≠ 0#32) :
    ∃ t, v.Parsed t := by
  by_cases hzero : s.origLen = 0#32
  · rw [State.decodeContainer_of_zero hzero] at h
    obtain rfl := Run.ok.inj h
    exact absurd hzero hn
  · by_cases hover : s.params.outBufSize < s.origLen.toNat
    · rw [State.decodeContainer_of_overflow hzero hover] at h
      exact nomatch h
    · rw [State.decodeContainer_of_fits hzero (Nat.not_lt.1 hover)] at h
      exact State.parsed_of_parseTree (fun u p => u.sameTree_unpackFrom _ _) h

/-- R228: what PARSETREE, or a DECOMPRESS of at least one symbol, leaves without an error. -/
theorem State.parsed_of_exec {s t : State} {i : Instr} (hi : i = .parsetree ∨ i = .decompress ∧ t.origLen ≠ 0#32)
    (h : exec i s = .next t) (herr : t.err = false) : ∃ T, t.Parsed T := by
  rcases hi with rfl | ⟨rfl, hn⟩ <;> rw [exec_of_command rfl] at h <;>
    obtain ⟨v, hv, rfl⟩ := Run.eq_ok_of_complete h herr <;>
    have hrun := State.checkWindow_andThen_eq_ok hv
  · obtain ⟨T, hT⟩ := State.parsed_of_parseTree (k := fun u p => .ok (u.setInPos (ceil8 p)))
      (fun u p => u.sameTree_setInPos (ceil8 p)) hrun
    exact ⟨T, hT.complete _ _⟩
  · rcases (s.setOutLen 0).decompressWindow_cases with ⟨c, p, he⟩ | he
    · exact nomatch he ▸ hrun
    · obtain ⟨T, hT⟩ := State.parsed_of_decodeContainer (v := v) (he.symm.trans hrun) hn
      exact ⟨T, hT.complete _ _⟩

/-- R225, R227, R237: a command that parses goes through `parse_tree`, over the bits of the window. -/
theorem State.parsesAt.exec {s base : State} {i : Instr} {p0 : Nat} (h : s.parsesAt i base p0) (hfits : s.windowFits) :
    (∃ k, exec i s = (base.parseTree p0 k).complete) ∧ base.inLen = s.inLen ∧
      ∀ p bs, s.bitsAt p bs → base.bitsAt p bs := by
  rcases h with ⟨rfl, rfl, rfl⟩ | ⟨rfl, rfl, h8, n, hn, hroom, hheader, rfl⟩
  · refine ⟨⟨fun u p => .ok (u.setInPos (ceil8 p)), ?_⟩, rfl, fun _ _ h => h⟩
    rw [exec_of_command rfl, commandRun, State.checkWindow_andThen_of_fits hfits]
  · refine ⟨⟨fun u p => u.unpackFrom u.origLen.toNat (8 * ceil8 p), ?_⟩, rfl, fun _ _ h => h⟩
    rw [exec_decompress_of_header hfits h8 hheader, State.decodeContainer_of_fits (s := s.withLength n) hn hroom]
    rfl

theorem CodeTree.path_length_lt {t : CodeTree} {x : Symbol × List Bool} (h : x ∈ t.paths) :
    x.2.length < t.symbols.length := by
  induction t generalizing x with
  | leaf sym ph =>
    obtain rfl := CodeTree.mem_paths_leaf.1 h
    exact Nat.one_pos
  | node l r ihl ihr =>
    have hl := l.symbols_length_pos
    have hr := r.symbols_length_pos
    rw [CodeTree.symbols, List.length_append]
    rcases CodeTree.mem_paths_node.1 h with ⟨y, hy, rfl⟩ | ⟨y, hy, rfl⟩ <;> rw [List.length_cons]
    · have := ihl hy
      omega
    · have := ihr hy
      omega

theorem ceil8_mul_add (o n : Nat) : ceil8 (8 * o + n) = o + ceil8 n := by
  rw [ceil8, ceil8]
  omega

/-! ## The obligations -/

/-- Settles O43: the loop reads the tree node by node, and the completion step keeps its entries. -/
theorem parsetreeReadsTheDescriptor : Obligations.ParsetreeReadsTheDescriptor := by
  intro s T hfits hnode hnd hbits
  obtain ⟨a, ha, hparse⟩ := State.parseTree_of_desc hnode hnd hbits
  have hrun : commandRun .parsetree s =
      .ok ((s.withParsed a T).setInPos (s.inOff.toNat + ceil8 T.desc.length)) := by
    rw [commandRun, State.checkWindow_andThen_of_fits hfits, hparse, ceil8_mul_add]
  have hparsed : (s.withParsed a T).Parsed T.eraseMarks := s.withParsed_eraseMarks a T ▸ State.parsed_withParsed ha s
  have hfinal : (((s.withParsed a T).setInPos (s.inOff.toNat + ceil8 T.desc.length)).complete none 0).Parsed
      T.eraseMarks := (hparsed.of_sameTree (State.sameTree_setInPos _ _)).complete none 0
  have hindices := hfinal.tree.indices
  have hzeroed := hfinal.tree.zeroed
  rw [T.size_eraseMarks] at hindices hzeroed
  rw [exec_of_command rfl, hrun]
  exact ⟨_, rfl, ⟨fun _ _ => rfl, rfl⟩, hfinal.holdsTree, hindices, hzeroed⟩

/-- Settles O44: the accepted tree is numbered in pre-order, its entries are zeroed, and it has at most 256 leaves. -/
theorem acceptedDescriptorIsATree : Obligations.AcceptedDescriptorIsATree := by
  intro s t i hi ht herr
  obtain ⟨T, hT⟩ := State.parsed_of_exec hi ht herr
  obtain ⟨-, -, -, -, -, -, hdesc⟩ := hT.holdsTree
  refine ⟨hT.root, hT.treeValid, hT.codesValid, hdesc, ⟨T, hT.holdsTree, fun x hx => ?depth⟩, fun j n hj hn => ?entry⟩
  case depth =>
    exact Nat.le_of_lt_succ ((CodeTree.path_length_lt hx).trans_le (length_le_of_nodup_symbols hT.tree.nodup))
  case entry =>
    rw [hT.toNat_nodeCount] at hj
    obtain ⟨hweight, hph⟩ := hT.tree.zeroed j n hj hn
    exact ⟨hweight, hph, hT.tree.links hj hn⟩

/-- Settles O45: the loop accepts the nodes before the malformation and meets it in its next turn. -/
theorem descriptorChecks : Obligations.DescriptorChecks := by
  intro s base i p0 items hfits hparses hprefix hbits p fails
  obtain ⟨hopen, hnd, hle⟩ := hprefix
  obtain ⟨⟨k, hexec⟩, hinLen, hbase⟩ := hparses.exec hfits
  obtain ⟨⟨par, side⟩, stk, q, hm, hseen, hp, hloop⟩ := parseLoop_of_items (stk := [(NodeIx.nil, false)])
    (r := base.parserAt p0) hopen (by simpa [State.parserAt] using hnd) (fun _ => rfl) (hbase _ _ hbits)
  have hqm : q.m = items.length := hm.trans (Nat.zero_add _)
  have hqp : q.p = p := hp
  have hfail {room : Nat} {c : Cause} {pos : Nat} (hroom : room + items.length = 511)
      (h : ∃ a, parseLoop base room ((par, side) :: stk) q = .fail c pos a) : fails c pos := by
    obtain ⟨a, ha⟩ := h
    rw [← hloop, hroom] at ha
    exact ⟨_, by rw [hexec, State.parseTree_of_fail ha]; rfl, ⟨fun _ hi => absurd hi (Nat.not_lt_zero _), rfl⟩⟩
  have hturn {c : Cause} {pos : Nat} (hlt : items.length < 511)
      (h : ∃ a, parseLoop base (510 - items.length + 1) ((par, side) :: stk) q = .fail c pos a) : fails c pos :=
    hfail (by omega) h
  have hmem {x : Symbol} (hx : some x ∈ items) : x ∈ q.seen := by
    rw [hseen]
    exact List.mem_append_left _ (List.mem_reverse.2 (List.mem_filterMap.2 ⟨some x, hx, rfl⟩))
  refine ⟨fun hlt rest hrest hrestBits hend => hturn hlt ?exhausted, fun hnil htag => hturn ?_ ?rootLeaf,
    fun hlt x hx hxbits => hturn hlt ?repeated, fun hfull => hfail (room := 0) (by omega) ⟨_, by rw [parseLoop, hqp]⟩⟩
  case exhausted =>
    rw [← hinLen] at hend ⊢
    rcases hrest with rfl | ⟨hne, hhead, hlen⟩
    · exact parseLoop_of_noTag (by rw [hqp, ← hend]; exact Nat.le_refl _)
    · obtain ⟨tail, rfl⟩ := List.head?_eq_some_iff.1 hhead
      obtain ⟨htag, -⟩ := State.bitsAt_append (bs := [true]) (hqp ▸ hbase _ _ hrestBits)
      exact parseLoop_of_cutSymbol htag (hqm ▸ List.length_pos_iff.2 hne |>.ne') (by rw [hqp]; omega)
  case rootLeaf => exact hqp ▸ parseLoop_of_rootLeaf (hqp ▸ hbase _ _ htag) (by rw [hqm, hnil]; rfl)
  case repeated =>
    have hne : q.m ≠ 0 := hqm ▸ (List.length_pos_of_mem hx).ne'
    exact hqp ▸ parseLoop_of_repeated (hqp ▸ hbase _ _ hxbits) hne (hmem hx)
  · rw [hnil]
    decide

end Sys2Proof.Machine
end

section
/-! SUPPORT. What DECOMPRESS makes of a whole container (45_container.md rule R237): the run behind the header and the
descriptor, and the obligation. -/

namespace Sys2Proof.Machine

/-! ## Behind the descriptor -/

/-- R83, R237: DECOMPRESS of a header and a tree's descriptor unpacks with that tree from the next byte on. -/
theorem exec_decompress_of_desc {s : State} {t : CodeTree} {n : Word} (hfits : s.windowFits) (hnode : t.isNode = true)
    (hnd : t.symbols.Nodup) (hn : n ≠ 0#32) (hroom : n.toNat ≤ s.params.outBufSize)
    (hheader : s.inBytesAt s.inOff.toNat (magic ++ be32 n)) (hbits : s.bitsAt (8 * (s.inOff.toNat + 8)) t.desc) :
    ∃ a, ((s.withLength n).withParsed a t).Parsed t.eraseMarks ∧
      exec .decompress s = (((s.withLength n).withParsed a t).unpackFrom n.toNat
        (8 * (s.inOff.toNat + 8 + ceil8 t.desc.length))).complete := by
  obtain ⟨a, ha, hparse⟩ := State.parseTree_of_desc (s := s.withLength n) hnode hnd hbits
  have h8 : 8 ≤ s.windowLen := by
    obtain ⟨hlen, -⟩ := hbits
    rw [State.windowLen]
    omega
  refine ⟨a, State.withParsed_eraseMarks _ a t ▸ State.parsed_withParsed ha _, ?_⟩
  rw [exec_decompress_of_header hfits h8 hheader, State.decodeContainer_of_fits (s := s.withLength n) hn hroom,
    show (s.withLength n).inOff = s.inOff from rfl, hparse, ceil8_mul_add]
  rfl

theorem State.sameTree_withSymbols (s : State) (syms : List Symbol) : s.SameTree (s.withSymbols syms) :=
  ⟨rfl, rfl, rfl, rfl, rfl, rfl, rfl, rfl⟩

/-! ## The obligation -/

/-- Settles O49: behind the descriptor DECOMPRESS walks the rebuilt tree as UNPACK does. -/
theorem decompressReadsTheContainer : Obligations.DecompressReadsTheContainer := by
  intro s T n xs hfits hnode hnd hxs hn hroom hheader hdesc o parsed
  obtain ⟨a, hparsed, hexec⟩ := exec_decompress_of_desc hfits hnode hnd hn hroom hheader hdesc
  have hheld : T.eraseMarks.heldAt ((s.withLength n).withParsed a T).nodes ((s.withLength n).withParsed a T).root :=
    hparsed.holdsTree.1
  have hsymbols := hparsed.of_sameTree (State.sameTree_withSymbols _ (xs.map Prod.fst))
  rw [← T.paths_eraseMarks] at hxs ⊢
  refine ⟨fun hcount hbits => ?whole, fun last rest hcount hlast hprefix hne hbits hend => ?cut⟩
  case whole =>
    rw [hexec, ← hcount, State.unpackFrom_of_paths hheld hxs hbits, ceil8_mul_add]
    exact ⟨_, rfl, ⟨fun _ _ => rfl, rfl⟩,
      (hsymbols.complete none 0).holdsTree, State.outBytesWritten_withSymbols _ _⟩
  case cut =>
    rw [hexec, State.unpackFrom_of_cut_paths hheld hxs hlast hprefix hne hcount hbits hend]
    exact ⟨_, rfl, ⟨fun _ _ => rfl, rfl⟩,
      (hsymbols.complete (some .payloadExhausted) s.inLen.toNat).holdsTree, State.outBytesWritten_withSymbols _ _⟩

end Sys2Proof.Machine
end

section
/-! SUPPORT. What COMPRESS leaves (45_container.md rules R220, R232 and R233): the bytes of a container, the empty
window, the tree and the codes of any other, and the obligations. -/

namespace Sys2Proof.Machine

/-! ## The container's bytes -/

/-- R83: header, descriptor and payload. -/
theorem containerOf_eq (t : CodeTree) (c : CodeTable) (ws : List Byte) :
    containerOf t c ws =
      magic ++ be32 (BitVec.ofNat 32 ws.length) ++ packBytes t.desc ++ packBytes (payloadOf c ws) := rfl

theorem length_containerOf (t : CodeTree) (c : CodeTable) (ws : List Byte) :
    (containerOf t c ws).length = 8 + ceil8 t.desc.length + ceil8 (payloadOf c ws).length := by
  rw [containerOf_eq, List.length_append, List.length_append, length_header, length_packBytes, length_packBytes]

/-- OUT_BUF after the writes of a container (R232): the header, the descriptor and the payload, each flushed. -/
def containerBuf (m : Memory) (t : CodeTree) (c : CodeTable) (ws : List Byte) : Memory :=
  let header := writeHeader m (BitVec.ofNat 32 ws.length)
  let desc := (((Writer.start header 8).putBits t.desc).flush).buf
  (((Writer.start desc (8 + ceil8 t.desc.length)).putBits (payloadOf c ws)).flush).buf

theorem Memory.wrote_containerBuf (m : Memory) (t : CodeTree) (c : CodeTable) (ws : List Byte) :
    Memory.Wrote m 0 (containerOf t c ws) (containerBuf m t c ws) := by
  have hheader : Memory.Wrote m 0 (magic ++ be32 (BitVec.ofNat 32 ws.length))
      (writeHeader m (BitVec.ofNat 32 ws.length)) := Memory.wrote_writeAll _ _ _
  have hdesc := hheader.append (Memory.wrote_flush_putBits _ _ t.desc)
  have hlen : 0 + (magic ++ be32 (BitVec.ofNat 32 ws.length) ++ packBytes t.desc).length = 8 + ceil8 t.desc.length := by
    rw [Nat.zero_add, List.length_append, length_header, length_packBytes]
  rw [containerOf_eq]
  exact hdesc.append (hlen ▸ Memory.wrote_flush_putBits _ _ (payloadOf c ws))

/-! ## The counted window -/

theorem exec_compress_of_fits {s : State} (h : s.windowFits) :
    exec .compress s = (s.setOutLen 0).compressWindow.complete := by
  have hfits : (s.setOutLen 0).windowFits := h
  rw [exec_of_command rfl, commandRun, State.checkWindow_andThen_of_fits hfits]

theorem State.length_window_lt (s : State) : s.window.length < 2 ^ 32 := by
  rw [s.length_window]
  exact (Nat.sub_le _ _).trans_lt s.inLen.isLt

/-- R150, R232: the counts of the window. -/
theorem State.symGet_counted (s : State) (x : Symbol) : (symGet s.counted.freq x).toNat = s.window.count x := by
  change (symGet (countBytes (Vector.replicate 256 0#32) s.window) x).toNat = _
  rw [symGet_countBytes, symGet_replicate, BitVec.zero_add]
  exact Nat.mod_eq_of_lt (List.count_le_length.trans_lt s.length_window_lt)

theorem State.symGet_counted_ne_zero {s : State} {x : Symbol} : symGet s.counted.freq x ≠ 0#32 ↔ x ∈ s.window := by
  rw [← List.count_pos_iff, ← s.symGet_counted, Nat.pos_iff_ne_zero, Ne, Ne, ← BitVec.toNat_inj]
  rfl

theorem State.presentSymbols_counted_ne_nil {s : State} (h : s.window ≠ []) : presentSymbols s.counted.freq ≠ [] := by
  obtain ⟨x, hx⟩ := List.exists_mem_of_ne_nil _ h
  exact List.ne_nil_of_mem (mem_presentSymbols.2 (State.symGet_counted_ne_zero.2 hx))

theorem State.window_withOrigLen (s : State) (n : Word) : State.window { s with origLen := n } = s.window := rfl

/-- R232: what COMPRESS writes before it looks at the length of its window. -/
theorem State.counted_setOutLen (s : State) :
    (s.setOutLen 0).counted = { s with
      outLen := 0#25, treeValid := false, codesValid := false, origLen := BitVec.ofNat 32 s.windowLen,
      freq := countBytes (Vector.replicate 256 0#32) s.window } := by
  rw [State.counted, State.analyze, State.window_withOrigLen, State.invalidate_window, State.setOutLen_window]
  rfl

/-- R232: what COMPRESS's branch for n = 0 writes. -/
theorem State.compressEmpty_counted (s : State) :
    (s.setOutLen 0).counted.compressEmpty = { s with
      freq := countBytes (Vector.replicate 256 0#32) s.window, treeValid := false, codesValid := false,
      origLen := BitVec.ofNat 32 s.windowLen, nodeCount := 0#10, root := 0#9, leafCount := 0#9, descBits := 0#12,
      payloadBits := 0#64, maxCodeLen := 0#8, outBuf := writeHeader s.outBuf 0#32, outLen := 8#25,
      inPos := s.inLen } := by
  rw [s.counted_setOutLen, State.compressEmpty, State.setInPos, BitVec.ofNat_toNat, BitVec.setWidth_eq]
  rfl

/-! ## The tree and the codes -/

/-- `t` has the counts of `s`'s window, the tree that BUILD makes of them, and the codes and bit lengths that DERIVE
makes of the tree `T` (R232). -/
structure State.Coded (s t : State) (T : CodeTree) : Prop where
  tree : t.holdsTree T
  codes : T.codeTable t.codes
  counts : ∀ x, (symGet t.freq x).toNat = s.window.count x
  built : ∃ b, exec .build { s with freq := t.freq } = .next b ∧ b.err = false ∧
    (∀ i : NodeIx, i.toNat < t.nodeCount.toNat → nodeAt t.nodes i = nodeAt b.nodes i) ∧
    t.nodeCount = b.nodeCount ∧ t.root = b.root ∧ t.leafCount = b.leafCount ∧ t.descBits = b.descBits
  longest : ∀ x, (symGet t.codes x).len.toNat ≤ t.maxCodeLen.toNat
  attained : ∃ x, (symGet t.codes x).len = t.maxCodeLen
  payload : t.payloadBits.toNat = (payloadOf t.codes s.window).length

/-- Writes to OUT_BUF, OUT_LEN and IN_POS and the completion step leave all of that. -/
theorem State.Coded.complete {s u : State} {T : CodeTree} (h : s.Coded u T) (m : Memory) (outLen : BitVec 25)
    (inPos : Word) (c : Option Cause) (p : Nat) :
    s.Coded (State.complete { u with outBuf := m, outLen := outLen, inPos := inPos } c p) T := by
  obtain ⟨b, hb, herr, hnodes, hregs⟩ := h.built
  exact ⟨State.holdsTree_complete (s := { u with outBuf := m, outLen := outLen, inPos := inPos }) h.tree c p, h.codes,
    h.counts, ⟨b, hb, herr, fun i hi => (nodeAt_freeFrom_of_lt _ _ hi).trans (hnodes i hi), hregs⟩, h.longest,
    h.attained, h.payload⟩

/-- R182: the bit lengths `derive_codes` leaves over a held tree. -/
theorem State.bitLengths_withCodes (s : State) (c : CodeTable) :
    (s.withCodes c).maxCodeLen.toNat = longestCode c ∧ (s.withCodes c).payloadBits.toNat = payloadLength s.freq c :=
  ⟨Nat.mod_eq_of_lt (longestCode_lt c), Nat.mod_eq_of_lt ((payloadLength_lt s.freq c).trans (by decide))⟩

theorem exec_build_of_buildTree {s b : State} (h : s.invalidate.buildTree = .ok b) :
    exec .build s = .next (b.complete none 0) := by
  rw [exec_build, h, Run.complete_ok]

/-- The state of COMPRESS before its capacity check: the window counted, a tree built, its codes derived (R232). -/
def State.withTreeAndCodes (s : State) (g : Arena) (n leaves : Nat) (t : CodeTree) : State :=
  { s with
    outLen := 0#25, origLen := BitVec.ofNat 32 s.windowLen, freq := countBytes (Vector.replicate 256 0#32) s.window,
    nodes := g, nodeCount := BitVec.ofNat 10 n, root := BitVec.ofNat 9 (n - 1), leafCount := BitVec.ofNat 9 leaves,
    descBits := BitVec.ofNat 12 (10 * leaves - 1), treeValid := true, codes := t.table,
    maxCodeLen := BitVec.ofNat 8 (longestCode t.table),
    payloadBits := BitVec.ofNat 64 (payloadLength (countBytes (Vector.replicate 256 0#32) s.window) t.table),
    codesValid := true }

theorem State.withCodes_withTree_counted (s : State) (g : Arena) (n leaves : Nat) (t : CodeTree) :
    ((s.setOutLen 0).counted.withTree g n leaves).withCodes t.table = s.withTreeAndCodes g n leaves t := by
  rw [s.counted_setOutLen]
  rfl

/-- R232: COMPRESS of a window that is not empty has BUILD's tree and its codes when it comes to its capacity check. -/
theorem exec_compress_of_nonempty {s : State} (hfits : s.windowFits) (hne : s.window ≠ []) :
    ∃ g n leaves T, s.Coded (s.withTreeAndCodes g n leaves T) T ∧
      exec .compress s = (s.withTreeAndCodes g n leaves T).emitContainer.complete := by
  have hpos : (presentSymbols s.counted.freq).length ≠ 0 :=
    List.length_eq_zero_iff.not.2 (State.presentSymbols_counted_ne_nil hne)
  obtain ⟨g, n, hgrow⟩ : ∃ g n, growTree s.hidden.heap (scanLeaves s.counted.freq allSymbols s.nodes 0).1
    (presentSymbols s.counted.freq).length = (g, n) := ⟨_, _, rfl⟩
  obtain ⟨leaves, hleaves⟩ : ∃ leaves, (if (presentSymbols s.counted.freq).length = 1 then 2
    else (presentSymbols s.counted.freq).length) = leaves := ⟨_, rfl⟩
  have hbuild := State.buildTree_of_present (s := (s.setOutLen 0).counted) rfl hpos hleaves hgrow
  have hbuild' := State.buildTree_of_present (s := State.invalidate { s with freq := s.counted.freq }) rfl hpos hleaves
    hgrow
  obtain ⟨T, hT⟩ := State.buildTree_holdsTree hbuild
  refine ⟨g, n, leaves, T, ?coded, ?run⟩
  case run =>
    rw [exec_compress_of_fits hfits, State.compressWindow_eq,
      if_neg (s.length_window ▸ List.length_eq_zero_iff.not.2 hne), hbuild, Run.andThen_ok,
      State.deriveCodes_of_holdsTree hT, Run.andThen_ok, State.withCodes_withTree_counted]
  case coded =>
    obtain ⟨hmax, hbits⟩ := ((s.setOutLen 0).counted.withTree g n leaves).bitLengths_withCodes T.table
    obtain ⟨x, hx⟩ := exists_len_eq_longestCode T.table
    exact ⟨hT, CodeTree.codeTable_table (State.nodup_of_holdsTree hT), s.symGet_counted,
      ⟨_, exec_build_of_buildTree hbuild', rfl, fun i hi => (nodeAt_freeFrom_of_lt _ _ hi).symm, rfl, rfl, rfl, rfl⟩,
      fun y => (len_le_longestCode T.table y).trans_eq hmax.symm, ⟨x, BitVec.eq_of_toNat_eq (hx.trans hmax.symm)⟩,
      hbits.trans (payloadLength_countBytes T.table s.length_window_lt)⟩

/-! ## The capacity check -/

theorem State.emitContainer_of_overflow {s : State}
    (h : s.params.outBufSize < 8 + ceil8 s.descBits.toNat + ceil8 s.payloadBits.toNat) :
    s.emitContainer = .raise .outOverflow 0 s := by
  rw [State.emitContainer, if_pos h]

/-- The state in which COMPRESS has written its window's container for this tree (R232). -/
def State.withContainer (s : State) (t : CodeTree) : State :=
  { s with
    outBuf := containerBuf s.outBuf t s.codes s.window
    outLen := BitVec.ofNat 25 (containerOf t s.codes s.window).length
    inPos := s.inLen }

theorem State.outBytesWritten_withContainer (s : State) (t : CodeTree) :
    s.outBytesWritten (s.withContainer t) (containerOf t s.codes s.window) :=
  (Memory.wrote_containerBuf s.outBuf t s.codes s.window).outBytesWritten rfl

theorem State.emitContainer_of_fits {s : State} {t : CodeTree} (ht : s.holdsTree t)
    (h : 8 + ceil8 s.descBits.toNat + ceil8 s.payloadBits.toNat ≤ s.params.outBufSize) :
    s.emitContainer = .ok (s.withContainer t) := by
  rw [State.emitContainer, if_neg (Nat.not_lt.2 h), State.descWriter_of_holdsTree ht]
  simp only [Writer.putCodes_eq, Writer.op_flush_putBits, State.setOutLen, State.setInPos, BitVec.ofNat_toNat,
    BitVec.setWidth_eq, State.withContainer, length_containerOf, containerBuf, State.length_window]

/-- R232: what the capacity check counts. -/
theorem State.Coded.length_containerOf {s u : State} {T : CodeTree} (h : s.Coded u T) :
    (containerOf T u.codes s.window).length = 8 + ceil8 u.descBits.toNat + ceil8 u.payloadBits.toNat := by
  rw [Machine.length_containerOf, State.desc_length_of_holdsTree h.tree, h.payload]

theorem State.Coded.complete_withContainer {s u : State} {T : CodeTree} (h : s.Coded u T) (c : Option Cause) (p : Nat) :
    s.Coded ((u.withContainer T).complete c p) T := h.complete _ _ _ c p

theorem State.Coded.complete_of_overflow {s u : State} {T : CodeTree} (h : s.Coded u T) (c : Option Cause) (p : Nat) :
    s.Coded (u.complete c p) T := h.complete u.outBuf u.outLen u.inPos c p

/-! ## The obligations -/

/-- Settles O46: the counts of no bytes are zero, and the header of length 0 is the whole container. -/
theorem compressOfEmptyWindow : Obligations.CompressOfEmptyWindow := by
  intro s hfits hempty
  have hlen : s.windowLen = 0 := by rw [State.windowLen, hempty, Nat.sub_self]
  rw [exec_compress_of_fits hfits, State.compressWindow_eq, State.setOutLen_windowLen, if_pos hlen,
    s.compressEmpty_counted, s.window_of_empty hempty, hlen]
  exact ⟨_, rfl, State.finished_complete _ _ _, (Memory.wrote_writeAll s.outBuf 0 _).outBytesWritten rfl⟩

/-- Settles O47: the tree and the codes are complete before the capacity check, which counts the container's bytes. -/
theorem compressWritesTheContainer : Obligations.CompressWritesTheContainer := by
  intro s hfits hne
  obtain ⟨g, n, leaves, T, hcoded, hrun⟩ := exec_compress_of_nonempty hfits hne
  have hlen := hcoded.length_containerOf
  by_cases hroom : (containerOf T T.table s.window).length ≤ s.params.outBufSize
  case pos =>
    rw [State.emitContainer_of_fits hcoded.tree (hlen ▸ hroom)] at hrun
    have hfinal := hcoded.complete_withContainer none 0
    refine ⟨_, T, hrun, hfinal.tree, hfinal.codes, hfinal.counts, hfinal.built, hfinal.longest, hfinal.attained,
      hfinal.payload, ?_⟩
    rw [s.length_window]
    intro built
    split
    · refine ⟨⟨fun _ _ => rfl, ?_⟩, ?_⟩
      · rfl
      · exact (s.withTreeAndCodes g n leaves T).outBytesWritten_withContainer T
    · next h => exact absurd hroom h
  case neg =>
    rw [State.emitContainer_of_overflow (hlen ▸ Nat.not_le.1 hroom)] at hrun
    have hfinal := hcoded.complete_of_overflow (some .outOverflow) 0
    refine ⟨_, T, hrun, hfinal.tree, hfinal.codes, hfinal.counts, hfinal.built, hfinal.longest, hfinal.attained,
      hfinal.payload, ?_⟩
    rw [s.length_window]
    intro built
    split
    · next h => exact absurd h hroom
    · exact ⟨fun _ _ => rfl, rfl⟩

end Sys2Proof.Machine
end

section
/-! SUPPORT. The container that COMPRESS wrote (45_container.md rules R233, R239 to R241): every window byte has a code,
OUT_BUF begins with the container, and what the first bytes of one in a window say. -/

namespace Sys2Proof.Machine

/-! ## Every window byte has a code -/

/-- R154, R158: BUILD leaves a real leaf for every present symbol. -/
theorem exec_build_leaf {s b : State} (hb : exec .build s = .next b) {x : Symbol} (hx : symGet s.freq x ≠ 0#32) :
    ∃ i n, i.toNat < b.nodeCount.toNat ∧ nodeAt b.nodes i = some n ∧ n.leaf = true ∧ n.ph = false ∧ n.sym = x := by
  have hmem := mem_presentSymbols.2 hx
  have hle := length_presentSymbols_le s.freq
  rcases Nat.lt_or_ge (presentSymbols s.freq).length 2 with hlt | hge
  · have hone : presentSymbols s.freq = [x] := by
      obtain ⟨y, hy⟩ := List.length_eq_one_iff.1
        (Nat.le_antisymm (Nat.le_of_lt_succ hlt) (List.length_pos_of_mem hmem))
      rw [hy, List.mem_singleton] at hmem
      rw [hy, hmem]
    have hother : ∀ y, y ≠ x → symGet s.freq y = 0#32 := fun y hy => by
      by_contra h
      exact hy (List.mem_singleton.1 (hone ▸ mem_presentSymbols.2 h))
    obtain ⟨t, ht, hfinished, hleaf, -⟩ := buildOfOneSymbol s x hx hother
    obtain rfl : t = b := Host.Outcome.next.inj (ht.symm.trans hb)
    have hcount : t.nodeCount = 3#10 := congrArg State.nodeCount hfinished.2
    exact ⟨_, _, by rw [hcount]; decide, hleaf, rfl, rfl, rfl⟩
  · obtain ⟨t, ht, hfinished, hleaves, -⟩ := buildMakesATree s hge
    obtain rfl : t = b := Host.Outcome.next.inj (ht.symm.trans hb)
    have hcount : t.nodeCount = BitVec.ofNat 10 (2 * (presentSymbols s.freq).length - 1) :=
      congrArg State.nodeCount hfinished.2
    obtain ⟨j, hj, rfl⟩ := List.getElem_of_mem hmem
    refine ⟨_, _, ?_, hleaves j hj, rfl, rfl, rfl⟩
    rw [hcount, toNat_nodeIx (by omega), BitVec.toNat_ofNat, Nat.mod_eq_of_lt (by omega)]
    omega

/-- R180: a real leaf among a tree's entries has a code. -/
theorem CodeTree.mem_codes_of_leaf {a : Arena} {t : CodeTree} {i j : NodeIx} {n : Node} (ht : t.heldAt a i)
    (hj : j ∈ t.indices a i) (hn : nodeAt a j = some n) (hleaf : n.leaf = true) (hph : n.ph = false) :
    ∃ path, (n.sym, path) ∈ t.codes := by
  induction t generalizing i with
  | leaf sym ph =>
    obtain ⟨n', hn', -, rfl, rfl⟩ := ht
    obtain rfl := List.mem_singleton.1 hj
    obtain rfl : n = n' := Option.some.inj (hn.symm.trans hn')
    exact ⟨[], CodeTree.mem_codes_leaf.2 ⟨hph, rfl⟩⟩
  | node l r ihl ihr =>
    obtain ⟨n', hn', hleaf', hl, hr⟩ := ht
    simp only [CodeTree.indices, hn', List.mem_cons, List.mem_append] at hj
    rcases hj with rfl | hj | hj
    · obtain rfl : n = n' := Option.some.inj (hn.symm.trans hn')
      exact nomatch hleaf.symm.trans hleaf'
    · obtain ⟨path, hpath⟩ := ihl hl hj
      exact ⟨false :: path, CodeTree.mem_codes_node.2 (.inl ⟨_, hpath, rfl⟩)⟩
    · obtain ⟨path, hpath⟩ := ihr hr hj
      exact ⟨true :: path, CodeTree.mem_codes_node.2 (.inr ⟨_, hpath, rfl⟩)⟩

/-- R187: below an internal root no code is empty. -/
theorem CodeTree.code_ne_nil {t : CodeTree} (hnode : t.isNode = true) {x : Symbol × List Bool} (hx : x ∈ t.codes) :
    x.2 ≠ [] := by
  cases t with
  | leaf => exact nomatch hnode
  | node l r =>
    rcases CodeTree.mem_codes_node.1 hx with ⟨y, -, rfl⟩ | ⟨y, -, rfl⟩ <;> exact List.cons_ne_nil _ _

/-- R233: every byte of the window COMPRESS counted has a code. -/
theorem State.Coded.len_ne_zero {s t : State} {T : CodeTree} (h : s.Coded t T) {x : Byte} (hx : x ∈ s.window) :
    (symGet t.codes x).len ≠ 0#8 := by
  obtain ⟨b, hb, -, hnodes, hcount, -⟩ := h.built
  have hfreq : symGet t.freq x ≠ 0#32 := fun h0 => by
    have hpos := List.count_pos_iff.2 hx
    rw [← h.counts, h0] at hpos
    exact Nat.lt_irrefl 0 hpos
  obtain ⟨i, n, hi, hn, hleaf, hph, rfl⟩ := exec_build_leaf hb hfreq
  obtain ⟨hheld, hindices, hnode, -⟩ := h.tree
  rw [← hcount] at hi
  have hmem : i ∈ T.indices t.nodes t.root := by
    refine hindices.mem_iff.2 (List.mem_map.2 ⟨i.toNat, List.mem_range.2 hi, ?_⟩)
    rw [BitVec.ofNat_toNat, BitVec.setWidth_eq]
  obtain ⟨path, hpath⟩ := CodeTree.mem_codes_of_leaf hheld hmem ((hnodes i hi).trans hn) hleaf hph
  obtain ⟨hlen, -⟩ := h.codes.1 _ hpath
  intro h0
  rw [h0] at hlen
  exact CodeTree.code_ne_nil hnode hpath (List.length_eq_zero_iff.1 hlen.symm)

/-! ## What COMPRESS wrote -/

theorem Params.outBufSize_le_of_wf {p : Params} (h : p.wf = true) : p.outBufSize ≤ 2 ^ 24 := by
  simp only [Params.wf, Params.sizeOk, Bool.and_eq_true, decide_eq_true_eq] at h
  exact h.2.2

/-- R232: without an error, OUT_LEN counts the container's bytes, and OUT_BUF begins with them. -/
theorem State.container_of_exec_compress {s t : State} (hfits : s.windowFits) (hne : s.window ≠ [])
    (ht : exec .compress s = .next t) (herr : t.err = false) (hwf : s.params.wf = true) :
    ∃ T, s.Coded t T ∧ t.outLen.toNat = (containerOf T t.codes s.window).length ∧
      ∀ j, (h : j < (containerOf T t.codes s.window).length) → t.outByte j = (containerOf T t.codes s.window)[j] := by
  obtain ⟨t', T, ht', htree, hcodes, hcounts, hbuilt, hlongest, hattained, hpayload, hrest⟩ :=
    compressWritesTheContainer s hfits hne
  obtain rfl : t' = t := Host.Outcome.next.inj (ht'.symm.trans ht)
  refine ⟨T, ⟨htree, hcodes, hcounts, hbuilt, hlongest, hattained, hpayload⟩, ?_⟩
  split at hrest
  · next hroom =>
    obtain ⟨⟨-, hfinished⟩, hwritten, -⟩ := hrest
    have houtLen : t'.outLen = BitVec.ofNat 25 (containerOf T t'.codes s.window).length :=
      congrArg State.outLen hfinished
    have := Params.outBufSize_le_of_wf hwf
    refine ⟨?_, hwritten⟩
    rw [houtLen]
    exact Nat.mod_eq_of_lt (by omega)
  · obtain ⟨-, hfinished⟩ := hrest
    exact nomatch (congrArg State.err hfinished).symm.trans herr

/-! ## A container in the window, perhaps cut -/

theorem State.inBytesAt_take_append {s : State} {o k : Nat} {xs ys : List Byte}
    (h : s.inBytesAt o ((xs ++ ys).take k)) :
    s.inBytesAt o (xs.take k) ∧ (xs.length ≤ k → s.inBytesAt (o + xs.length) (ys.take (k - xs.length))) := by
  rw [List.take_append] at h
  obtain ⟨hx, hy⟩ := State.inBytesAt_append h
  exact ⟨hx, fun hk => by rwa [List.take_of_length_le hk] at hy⟩

/-- R14, R15: the bits that `k` bytes of a packing hold. -/
theorem State.bitsAt_of_take_packBytes {s : State} {o k : Nat} {bs : List Bool} (hlen : o + k ≤ s.inLen.toNat)
    (h : s.inBytesAt o ((packBytes bs).take k)) : s.bitsAt (8 * o) (bs.take (8 * k)) := by
  refine ⟨by rw [List.length_take]; omega, fun q hq => ?_⟩
  rw [List.length_take] at hq
  have hbyte : q / 8 < ((packBytes bs).take k).length := by
    rw [List.length_take, length_packBytes, ceil8]
    omega
  rw [State.inBit, Nat.mul_add_mod, Nat.mul_add_div (by decide), h (q / 8) hbyte, List.getElem_take, getElem_packBytes,
    getLsbD_packByte_div bs (by omega), List.getElem_take]

section Cut
variable {u : State} {T : CodeTree} {c : CodeTable} {ws : List Byte} {k : Nat}
  (hk : u.inOff.toNat + k = u.inLen.toNat) (h : u.inBytesAt u.inOff.toNat ((containerOf T c ws).take k))
include h

theorem State.header_of_container (h8 : 8 ≤ k) :
    u.inBytesAt u.inOff.toNat (magic ++ be32 (BitVec.ofNat 32 ws.length)) := by
  rw [containerOf_eq] at h
  have hheader := (State.inBytesAt_take_append (State.inBytesAt_take_append h).1).1
  rwa [List.take_of_length_le ((length_header _).trans_le h8)] at hheader

theorem State.magic_of_container (h4 : 4 ≤ k) : u.inBytesAt u.inOff.toNat magic := by
  rw [containerOf_eq] at h
  have hheader := (State.inBytesAt_take_append (State.inBytesAt_take_append h).1).1
  have hmagic := (State.inBytesAt_take_append hheader).1
  rwa [List.take_of_length_le (show magic.length ≤ k from h4)] at hmagic

include hk

theorem State.desc_of_container (h8 : 8 ≤ k) :
    u.bitsAt (8 * (u.inOff.toNat + 8)) (T.desc.take (8 * (k - 8))) := by
  rw [containerOf_eq] at h
  have hdesc := (State.inBytesAt_take_append (State.inBytesAt_take_append h).1).2 ((length_header _).trans_le h8)
  rw [length_header] at hdesc
  exact State.bitsAt_of_take_packBytes (by omega) hdesc

theorem State.payload_of_container (hd : 8 + ceil8 T.desc.length ≤ k) :
    u.bitsAt (8 * (u.inOff.toNat + 8 + ceil8 T.desc.length))
      ((payloadOf c ws).take (8 * (k - (8 + ceil8 T.desc.length)))) := by
  have hlen : (magic ++ be32 (BitVec.ofNat 32 ws.length) ++ packBytes T.desc).length = 8 + ceil8 T.desc.length := by
    rw [List.length_append, length_header, length_packBytes]
  rw [containerOf_eq] at h
  have hpayload := (State.inBytesAt_take_append h).2 (hlen.trans_le hd)
  rw [hlen, ← Nat.add_assoc] at hpayload
  exact State.bitsAt_of_take_packBytes (by omega) hpayload

end Cut

end Sys2Proof.Machine
end

section
/-! SUPPORT. Bit strings that the end of the window cuts (45_container.md rules R226 and R241): the part that the cut
falls in, and the descriptor parser over a cut descriptor. -/

namespace Sys2Proof.Machine

/-! ## Bit strings that end inside one of their parts -/

theorem prefix_append_cases {bs xs ys : List Bool} (h : bs <+: xs ++ ys) :
    (bs <+: xs ∧ bs ≠ xs) ∨ ∃ cs, bs = xs ++ cs ∧ cs <+: ys := by
  rcases Nat.lt_or_ge bs.length xs.length with hlt | hge
  · exact .inl ⟨List.prefix_of_prefix_length_le h (List.prefix_append xs ys) hlt.le, fun he => hlt.ne (congrArg _ he)⟩
  · obtain ⟨cs, rfl⟩ := List.prefix_of_prefix_length_le (List.prefix_append xs ys) h hge
    exact .inr ⟨cs, rfl, (List.prefix_append_right_inj xs).1 h⟩

theorem take_ne_self {bs : List Bool} {n : Nat} (h : n < bs.length) : bs.take n ≠ bs := fun he => by
  have := congrArg List.length he
  rw [List.length_take] at this
  omega

/-- The edge bits of many leaves, cut: those of the first ones, and a part of the next one's. -/
theorem cut_flatMap {xs : List (Symbol × List Bool)} {bs : List Bool} (h : bs <+: xs.flatMap Prod.snd)
    (hne : bs ≠ xs.flatMap Prod.snd) :
    ∃ ys last zs rest, xs = ys ++ last :: zs ∧ bs = ys.flatMap Prod.snd ++ rest ∧ rest <+: last.2 ∧ rest ≠ last.2 := by
  induction xs generalizing bs with
  | nil => exact absurd (List.prefix_nil.1 h) hne
  | cons x xs ih =>
    rw [List.flatMap_cons] at h hne
    rcases prefix_append_cases h with ⟨hx, hxne⟩ | ⟨cs, rfl, hcs⟩
    · exact ⟨[], x, xs, bs, rfl, rfl, hx, hxne⟩
    · obtain ⟨ys, last, zs, rest, rfl, rfl, hrest, hrestne⟩ := ih hcs fun he => hne (he ▸ rfl)
      exact ⟨x :: ys, last, zs, rest, rfl, by rw [List.flatMap_cons, List.append_assoc], hrest, hrestne⟩

/-! ## The parser over a cut descriptor -/

/-- R226, R241: over a descriptor cut by the end of the window, the loop runs out of bits. -/
theorem parseLoop_of_cut_desc {s : State} {t : CodeTree} {r : Parser} {bs : List Bool}
    (hnd : (t.symbols.reverse ++ r.seen).Nodup) (hroot : r.m = 0 → t.isNode = true) (hm : r.m + t.size ≤ 511)
    (hprefix : bs <+: t.desc) (hne : bs ≠ t.desc) (hbits : s.bitsAt r.p bs)
    (hend : r.p + bs.length = 8 * s.inLen.toNat) (par : NodeIx) (side : Bool) (room : Nat)
    (rest : List (NodeIx × Bool)) :
    ∃ a, parseLoop s (room + t.size) ((par, side) :: rest) r = .fail .descExhausted s.inLen.toNat a := by
  induction t generalizing par side r bs room rest with
  | leaf x ph =>
    cases bs with
    | nil => exact parseLoop_of_noTag hend.ge
    | cons b bs =>
      have hlen := hprefix.length_le.lt_of_ne fun he => hne (hprefix.eq_of_length he)
      have hdesc : (CodeTree.leaf x ph).desc.length = 9 := rfl
      obtain ⟨rfl, -⟩ := List.cons_prefix_cons.1 hprefix
      obtain ⟨htag, -⟩ := State.bitsAt_append (bs := [true]) hbits
      exact parseLoop_of_cutSymbol htag (fun h => nomatch hroot h) (by omega)
  | node tl tr ihl ihr =>
    have hsize : (CodeTree.node tl tr).size = tl.size + tr.size + 1 := rfl
    have hmput : (r.putInternal par side).m = r.m + 1 := rfl
    have hpput : (r.putInternal par side).p = r.p + 1 := rfl
    rw [CodeTree.symbols, List.reverse_append, List.append_assoc] at hnd
    rw [hsize, show room + (tl.size + tr.size + 1) = room + tr.size + tl.size + 1 by omega]
    cases bs with
    | nil => exact parseLoop_of_noTag hend.ge
    | cons b bs =>
      obtain ⟨rfl, htail⟩ := List.cons_prefix_cons.1 hprefix
      obtain ⟨htag, hbits⟩ := State.bitsAt_append (bs := [false]) hbits
      rw [List.length_singleton] at hbits
      rw [List.length_cons] at hend
      rw [parseLoop_of_internal htag]
      rcases prefix_append_cases htail with ⟨hl, hlne⟩ | ⟨cs, rfl, hcs⟩
      · exact ihl (r := r.putInternal par side) (List.Nodup.of_append_right hnd) (fun h => nomatch h) (by omega) hl hlne
          hbits (by omega) _ _ _ _
      · obtain ⟨hbitsl, hbitsr⟩ := State.bitsAt_append hbits
        obtain ⟨q, hq, hloop⟩ := parseLoop_of_desc (r := r.putInternal par side) (List.Nodup.of_append_right hnd)
          (fun h => nomatch h) (by omega) hbitsl (BitVec.ofNat 9 r.m) false (room + tr.size)
          ((BitVec.ofNat 9 r.m, true) :: rest)
        obtain ⟨hqm, hqseen, hqp⟩ := hq.position
        rw [List.length_append] at hend
        rw [hloop]
        exact ihr (r := q) (hqseen ▸ hnd) (fun h => by omega) (by omega) hcs (fun he => hne (he ▸ rfl))
          (hqp ▸ hbitsr) (by omega) _ _ _ _

theorem State.parseTree_of_cut_desc {s : State} {t : CodeTree} {p0 : Nat} {bs : List Bool} (hnode : t.isNode = true)
    (hnd : t.symbols.Nodup) (hprefix : bs <+: t.desc) (hne : bs ≠ t.desc) (hbits : s.bitsAt p0 bs)
    (hend : p0 + bs.length = 8 * s.inLen.toNat) (k : State → Nat → Run) :
    ∃ a, s.parseTree p0 k = .raise .descExhausted s.inLen.toNat (s.withTreeCleared a) := by
  have hsize := CodeTree.size_le_of_nodup hnd
  obtain ⟨a, hloop⟩ := parseLoop_of_cut_desc (r := s.parserAt p0) (by simpa [State.parserAt] using hnd)
    (fun _ => hnode) ((Nat.zero_add _).trans_le hsize) hprefix hne hbits hend NodeIx.nil false (511 - t.size) []
  rw [Nat.sub_add_cancel hsize] at hloop
  exact ⟨a, State.parseTree_of_fail hloop k⟩

end Sys2Proof.Machine
end

section
/-! SUPPORT. DECOMPRESS of a container that COMPRESS wrote (45_container.md rules R239 to R241), whole or cut, and the
obligations. -/

namespace Sys2Proof.Machine

/-! ## The window's length as ORIG_LEN -/

theorem State.toNat_length_window (s : State) : (BitVec.ofNat 32 s.window.length).toNat = s.window.length :=
  Nat.mod_eq_of_lt s.length_window_lt

theorem State.length_window_ne_zero {s : State} (h : s.window ≠ []) : BitVec.ofNat 32 s.window.length ≠ 0#32 := by
  intro h0
  have hlen := s.toNat_length_window
  rw [h0] at hlen
  exact h (List.length_eq_zero_iff.1 hlen.symm)

/-! ## The bytes of one machine in the window of another -/

/-- The bytes that OUT_BUF holds from offset 0 stand in a window, which holds `k` of them. -/
theorem State.inBytesAt_of_outByte {t u : State} {bs : List Byte} {o k : Nat}
    (hwritten : ∀ j, (h : j < bs.length) → t.outByte j = bs[j])
    (hbytes : ∀ j, j < k → u.inByte (o + j) = t.outByte j) : u.inBytesAt o (bs.take k) := by
  intro j hj
  rw [List.length_take] at hj
  rw [hbytes j (by omega), hwritten j (by omega), List.getElem_take]

/-- R233: the window's symbols with their codes are leaves of the tree, and their codes are the payload. -/
theorem State.Coded.codedBytes_mem_paths {s t : State} {T : CodeTree} (h : s.Coded t T) :
    ∀ x ∈ codedBytes t.codes s.window, x ∈ T.paths :=
  h.codes.codedBytes_mem_paths fun _ => h.len_ne_zero

theorem le_ceil8 (n : Nat) : n ≤ 8 * ceil8 n := by
  rw [ceil8]
  omega

theorem mul_lt_of_lt_ceil8 {m n : Nat} (h : m < ceil8 n) : 8 * m < n := by
  rw [ceil8] at h
  omega

/-! ## The whole container -/

/-- R91, R236: the empty container in a window of its length decompresses to nothing. -/
theorem decompress_emptyContainer {u : State} (hfits : u.windowFits) (hlen : u.inLen.toNat = u.inOff.toNat + 8)
    (hheader : u.inBytesAt u.inOff.toNat (magic ++ be32 0#32)) :
    ∃ v, exec .decompress u = .next v ∧ v.err = false ∧ v.outLen.toNat = 0 ∧ v.inPos = u.inLen ∧
      u.outBytesWritten v [] := by
  have h8 : 8 ≤ u.windowLen := by
    rw [State.windowLen]
    omega
  rw [exec_decompress_of_header hfits h8 hheader, State.decodeContainer_of_zero (s := u.withLength 0#32) rfl]
  refine ⟨_, rfl, rfl, rfl, ?_, fun _ hj => absurd hj (Nat.not_lt_zero _), fun _ _ => rfl⟩
  change BitVec.ofNat 32 (u.inOff.toNat + 8) = u.inLen
  rw [← hlen, BitVec.ofNat_toNat, BitVec.setWidth_eq]

/-- R239: a container in a window of its length decompresses to the bytes it was made of. -/
theorem decompress_container {s t u : State} {T : CodeTree} (hcoded : s.Coded t T) (hne : s.window ≠ [])
    (hsize : s.window.length < 2 ^ 25) (hfits : u.windowFits) (hroom : s.window.length ≤ u.params.outBufSize)
    (hlen : u.inLen.toNat = u.inOff.toNat + (containerOf T t.codes s.window).length)
    (hbytes : u.inBytesAt u.inOff.toNat
      ((containerOf T t.codes s.window).take (containerOf T t.codes s.window).length)) :
    ∃ v, exec .decompress u = .next v ∧ v.err = false ∧ v.outLen.toNat = s.window.length ∧ v.inPos = u.inLen ∧
      u.outBytesWritten v s.window := by
  obtain ⟨-, -, hnode, hnd, -⟩ := hcoded.tree
  have hpaths := hcoded.codedBytes_mem_paths
  have htotal := length_containerOf T t.codes s.window
  have hdescFits := le_ceil8 T.desc.length
  have hpayloadFits := le_ceil8 (payloadOf t.codes s.window).length
  have hn := s.toNat_length_window
  have hheader := State.header_of_container hbytes (by omega)
  have hdesc := State.desc_of_container hlen.symm hbytes (by omega)
  have hpayload := State.payload_of_container hlen.symm hbytes (by omega)
  rw [List.take_of_length_le (by omega)] at hdesc hpayload
  obtain ⟨hwhole, -⟩ := decompressReadsTheContainer u T _ (codedBytes t.codes s.window) hfits hnode hnd hpaths
    (State.length_window_ne_zero hne) (hn.trans_le hroom) hheader hdesc
  rw [flatMap_snd_codedBytes, length_codedBytes, map_fst_codedBytes, hn] at hwhole
  obtain ⟨v, hv, ⟨-, hfinished⟩, -, hwritten⟩ := hwhole rfl hpayload
  have houtLen : v.outLen = BitVec.ofNat 25 s.window.length := congrArg State.outLen hfinished
  have hinPos : v.inPos = BitVec.ofNat 32 (u.inOff.toNat + 8 + ceil8 T.desc.length +
    ceil8 (payloadOf t.codes s.window).length) := congrArg State.inPos hfinished
  have hend : u.inOff.toNat + 8 + ceil8 T.desc.length + ceil8 (payloadOf t.codes s.window).length = u.inLen.toNat := by
    omega
  refine ⟨v, hv, congrArg State.err hfinished, ?outLen, ?inPos, hwritten⟩
  case outLen =>
    rw [houtLen]
    exact Nat.mod_eq_of_lt hsize
  case inPos => rw [hinPos, hend, BitVec.ofNat_toNat, BitVec.setWidth_eq]

/-! ## A cut container -/

/-- R256: what a raised error shows. -/
theorem State.finished.raised {s t : State} {c : Cause} {p : Nat} (h : s.finished (some c) p t) :
    t.err = true ∧ t.outLen = s.outLen ∧ t.error = 0#16 ++ c.errDetail ++ 0#4 ++ c.errClass := by
  obtain ⟨-, hfinished⟩ := h
  rw [hfinished]
  exact ⟨rfl, rfl, rfl⟩

/-- R241: a cut payload ends inside the code of some window byte. -/
theorem State.Coded.cut_payload {s t : State} {T : CodeTree} (h : s.Coded t T) {m : Nat}
    (hm : m < (payloadOf t.codes s.window).length) :
    ∃ (ys : List (Symbol × List Bool)) (last : Symbol × List Bool) (rest : List Bool),
      (payloadOf t.codes s.window).take m = ys.flatMap Prod.snd ++ rest ∧ ys.length < s.window.length ∧
      (∀ x ∈ ys, x ∈ T.paths) ∧ last ∈ T.paths ∧ rest <+: last.2 ∧ rest ≠ last.2 := by
  have hpaths := h.codedBytes_mem_paths
  have hcount := length_codedBytes t.codes s.window
  have hbits := flatMap_snd_codedBytes t.codes s.window
  rw [← hbits] at hm ⊢
  obtain ⟨ys, last, zs, rest, hsplit, hcut, hprefix, hne⟩ := cut_flatMap (List.take_prefix m _) (take_ne_self hm)
  rw [hsplit] at hpaths hcount
  rw [List.length_append, List.length_cons] at hcount
  obtain ⟨hlast, -⟩ := List.forall_mem_cons.1 fun x hx => hpaths x (List.mem_append_right _ hx)
  exact ⟨ys, last, rest, hcut, by omega, fun x hx => hpaths x (List.mem_append_left _ hx), hlast, hprefix, hne⟩

/-- R226, R241: DECOMPRESS of a header and a cut descriptor. -/
theorem exec_decompress_of_cut_desc {s : State} {t : CodeTree} {n : Word} {bs : List Bool} (hfits : s.windowFits)
    (hnode : t.isNode = true) (hnd : t.symbols.Nodup) (hn : n ≠ 0#32) (hroom : n.toNat ≤ s.params.outBufSize)
    (h8 : 8 ≤ s.windowLen) (hheader : s.inBytesAt s.inOff.toNat (magic ++ be32 n)) (hprefix : bs <+: t.desc)
    (hne : bs ≠ t.desc) (hbits : s.bitsAt (8 * (s.inOff.toNat + 8)) bs)
    (hend : 8 * (s.inOff.toNat + 8) + bs.length = 8 * s.inLen.toNat) :
    ∃ a v, exec .decompress s = .next v ∧
      ((s.withLength n).withTreeCleared a).finished (some .descExhausted) s.inLen.toNat v := by
  obtain ⟨a, hparse⟩ := State.parseTree_of_cut_desc (s := s.withLength n) hnode hnd hprefix hne hbits hend
    fun u p => u.unpackFrom u.origLen.toNat (8 * ceil8 p)
  rw [exec_decompress_of_header hfits h8 hheader, State.decodeContainer_of_fits (s := s.withLength n) hn hroom]
  exact ⟨a, _, congrArg Run.complete hparse, State.finished_complete _ _ _⟩

/-- R240, R241: which part of the container the cut falls in decides the error. -/
theorem decompress_cut_container {s t u : State} {T : CodeTree} {k : Nat} (hcoded : s.Coded t T) (hne : s.window ≠ [])
    (hfits : u.windowFits) (hroom : s.window.length ≤ u.params.outBufSize)
    (hk : u.inOff.toNat + k = u.inLen.toNat) (hcut : k < (containerOf T t.codes s.window).length)
    (hbytes : u.inBytesAt u.inOff.toNat ((containerOf T t.codes s.window).take k)) :
    ∃ v, exec .decompress u = .next v ∧ v.err = true ∧ v.outLen = 0#25 ∧
      v.error =
        if k < 4 then 0x00000101#32
        else if k < 8 then 0x00000102#32
        else if k < 8 + ceil8 t.descBits.toNat then 0x00000202#32
        else 0x00000602#32 := by
  obtain ⟨-, -, hnode, hnd, -⟩ := hcoded.tree
  have hwindow : u.windowLen = k := by
    rw [State.windowLen]
    omega
  have hn := s.toNat_length_window
  have hn0 := State.length_window_ne_zero hne
  rw [length_containerOf] at hcut
  rw [← State.desc_length_of_holdsTree hcoded.tree]
  obtain ⟨hshort, -, hheaderShort, -⟩ := decompressHeader u hfits
  split_ifs with h4 h8 hd
  · obtain ⟨v, hv, hfinished⟩ := hshort (hwindow.trans_lt h4)
    exact ⟨v, hv, hfinished.raised⟩
  · have hmagic := State.magic_of_container hbytes (Nat.not_lt.1 h4)
    obtain ⟨v, hv, hfinished⟩ := hheaderShort (by omega) (by omega) hmagic
    exact ⟨v, hv, hfinished.raised⟩
  · have hlt : 8 * (k - 8) < T.desc.length := mul_lt_of_lt_ceil8 (by omega)
    have hbits := State.desc_of_container hk hbytes (Nat.not_lt.1 h8)
    have hlen : (T.desc.take (8 * (k - 8))).length = 8 * (k - 8) := List.length_take_of_le hlt.le
    obtain ⟨a, v, hv, hfinished⟩ := exec_decompress_of_cut_desc hfits hnode hnd hn0 (hn.trans_le hroom) (by omega)
      (State.header_of_container hbytes (Nat.not_lt.1 h8)) (List.take_prefix _ _) (take_ne_self hlt) hbits (by omega)
    exact ⟨v, hv, hfinished.raised⟩
  · have hdescFits := le_ceil8 T.desc.length
    have hlt : 8 * (k - (8 + ceil8 T.desc.length)) < (payloadOf t.codes s.window).length :=
      mul_lt_of_lt_ceil8 (by omega)
    have hdesc := State.desc_of_container hk hbytes (Nat.not_lt.1 h8)
    rw [List.take_of_length_le (by omega)] at hdesc
    have hbits := State.payload_of_container hk hbytes (Nat.not_lt.1 hd)
    have hlen := List.length_take_of_le hlt.le
    obtain ⟨ys, last, rest, hpayload, hcount, hys, hlast, hprefix, hrest⟩ := hcoded.cut_payload hlt
    rw [hpayload] at hbits hlen
    obtain ⟨-, hexhausted⟩ := decompressReadsTheContainer u T _ ys hfits hnode hnd hys hn0 (hn.trans_le hroom)
      (State.header_of_container hbytes (Nat.not_lt.1 h8)) hdesc
    obtain ⟨v, hv, hfinished, -⟩ := hexhausted last rest (by omega) hlast hprefix hrest hbits (by omega)
    exact ⟨v, hv, hfinished.raised⟩

/-! ## The obligations -/

/-- Settles O50: the payload's bits are the edge bits of the window's symbols in the tree the descriptor rebuilds. -/
theorem decompressInvertsCompress : Obligations.DecompressInvertsCompress := by
  intro s t u hfits ht herr hwf hufits hroom hlen hbytes
  by_cases hne : s.window = []
  case pos =>
    have hoff : s.inOff = s.inLen := by
      have hzero := s.length_window
      rw [hne, List.length_nil, State.windowLen] at hzero
      have := hfits.2
      exact BitVec.eq_of_toNat_eq (by omega)
    obtain ⟨t', ht', ⟨-, hfinished⟩, hwritten, -⟩ := compressOfEmptyWindow s hfits hoff
    obtain rfl : t' = t := Host.Outcome.next.inj (ht'.symm.trans ht)
    have houtLen : t'.outLen = 8#25 := congrArg State.outLen hfinished
    rw [houtLen] at hlen hbytes
    rw [hne]
    exact decompress_emptyContainer hufits hlen (State.inBytesAt_of_outByte hwritten hbytes)
  case neg =>
    obtain ⟨T, hcoded, houtLen, hwritten⟩ := State.container_of_exec_compress hfits hne ht herr hwf
    rw [houtLen] at hlen hbytes
    have hsize : s.window.length < 2 ^ 25 := by
      have := State.windowLen_le hwf hfits
      rw [s.length_window]
      omega
    exact decompress_container hcoded hne hsize hufits hroom hlen (State.inBytesAt_of_outByte hwritten hbytes)

/-- Settles O51: the bytes left are the container's first ones, and the cut falls in exactly one of its parts. -/
theorem truncationIsDetected : Obligations.TruncationIsDetected := by
  intro s t u hfits ht herr hwf hne hufits hroom hlen hbytes
  obtain ⟨T, hcoded, houtLen, hwritten⟩ := State.container_of_exec_compress hfits hne ht herr hwf
  have hk : u.inOff.toNat + (u.inLen.toNat - u.inOff.toNat) = u.inLen.toNat := Nat.add_sub_of_le hufits.2
  exact decompress_cut_container hcoded hne hufits hroom hk (by omega)
    (State.inBytesAt_of_outByte hwritten fun j hj => hbytes j (by omega))

end Sys2Proof.Machine
end

section
/-! SUPPORT. Errors as the Host sees them (60_exceptions.md rules R251, R258 and R260): the ERROR word of a cause, the
interrupt line, and what a failed command leaves in OUT_LEN and IN_POS. -/

namespace Sys2Proof.Machine

/-! ## The ERROR word and the interrupt line -/

/-- R133: the completion step writes CLASS and DETAIL of the cause, whatever stood there. -/
theorem State.error_complete_some (s : State) (c : Cause) (p : Nat) :
    (s.complete (some c) p).error = 0#16 ++ c.errDetail ++ 0#4 ++ c.errClass := rfl

theorem State.irq_of_not_done {s : State} (h : s.done = false) : s.irq = false := by
  rw [State.irq, h, Bool.false_and]

theorem State.irq_of_done {s : State} (h : s.done = true) : s.irq = s.doneIe := by
  rw [State.irq, h, Bool.true_and]

/-- R260: the line is a function of two register bits that the Host can read. -/
theorem State.irq_eq_readReg (s : State) :
    s.irq = ((s.readReg .status).getLsbD 1 && (s.readReg .irqEn).getLsbD 0) := by
  obtain ⟨-, hdone, -⟩ := s.status_flags
  have hdoneIe : (s.readReg .irqEn).getLsbD 0 = s.doneIe := getLsbD_append_ofBool _ _
  rw [hdoneIe, State.readReg, hdone, State.irq]

/-! ## What a raised error leaves of a command's results (R258) -/

/-- OUT_LEN and IN_POS: how far a command came in either buffer (R33, R34). -/
def State.results (s : State) : BitVec 25 × Word := (s.outLen, s.inPos)

/-- Where a command's lines raise, they have not written the results of `s`. -/
def Run.raiseKeepsResults (r : Run) (s : State) : Prop :=
  match r with
  | .ok _ => True
  | .raise _ _ u => u.results = s.results
  | .notATree => True

/-- Lines that start in `u`, seen from a state before it. -/
theorem Run.raiseKeepsResults_from {r : Run} {s u : State} (hr : r.raiseKeepsResults u) (h : u.results = s.results) :
    r.raiseKeepsResults s := by
  cases r with
  | raise c p v => exact Eq.trans hr h
  | ok v => trivial
  | notATree => trivial

theorem State.raiseKeepsResults_checkWindow {s : State} {k : State → Run} (hk : (k s).raiseKeepsResults s) :
    (s.checkWindow.andThen k).raiseKeepsResults s := by
  by_cases hw : s.windowFits
  · rw [State.checkWindow_of_fits s hw]
    exact hk
  · rw [State.checkWindow_of_not_fits s hw]
    exact rfl

theorem State.raiseKeepsResults_buildTree (s : State) : s.buildTree.raiseKeepsResults s := by
  rcases s.buildTree_cases with ⟨-, he⟩ | ⟨a, k, -, -, he⟩ <;> rw [he]
  · exact rfl
  · trivial

theorem State.raiseKeepsResults_deriveCodes (s : State) : s.deriveCodes.raiseKeepsResults s := by
  rcases s.deriveCodes_cases with he | ⟨c, -, he⟩ <;> rw [he] <;> trivial

theorem State.raiseKeepsResults_packWindow (s : State) : s.packWindow.raiseKeepsResults s := by
  rcases s.packWindow_cases with ⟨c, p, he⟩ | ⟨bits, w, -, -, -, he⟩ <;> rw [he]
  · exact rfl
  · trivial

/-- The symbols written before the bits ran out are in OUT_BUF; OUT_LEN does not count them (R203). -/
theorem State.raiseKeepsResults_unpackFrom (s : State) (count p : Nat) :
    (s.unpackFrom count p).raiseKeepsResults s := by
  rcases s.unpackFrom_cases count p with ⟨buf, p', -, he⟩ | ⟨buf, -, he⟩ | he <;> rw [he]
  · trivial
  · exact rfl
  · trivial

theorem State.raiseKeepsResults_unpackWindow (s : State) : s.unpackWindow.raiseKeepsResults s := by
  rcases s.unpackWindow_cases with ⟨c, p, he⟩ | he | ⟨-, -, he⟩ <;> rw [he]
  · exact rfl
  · trivial
  · exact s.raiseKeepsResults_unpackFrom _ _

theorem State.raiseKeepsResults_serializeTree (s : State) : s.serializeTree.raiseKeepsResults s := by
  rcases s.serializeTree_cases with he | ⟨w, -, he⟩ <;> rw [he] <;> trivial

theorem State.raiseKeepsResults_parseTree (s : State) (p0 : Nat) {k : State → Nat → Run}
    (hk : ∀ u p, (k u p).raiseKeepsResults u) : (s.parseTree p0 k).raiseKeepsResults s := by
  rcases s.parseTree_cases p0 k with ⟨c, pos, a, -, he⟩ | ⟨r, -, he⟩ <;> rw [he]
  · exact rfl
  · exact Run.raiseKeepsResults_from (hk _ _) rfl

theorem State.raiseKeepsResults_emitContainer (s : State) : s.emitContainer.raiseKeepsResults s := by
  rcases s.emitContainer_cases with ⟨c, p, he⟩ | he | ⟨d, w, -, -, -, he⟩ <;> rw [he]
  · exact rfl
  · trivial
  · trivial

/-- COMPRESS builds its tree before the capacity check, and building writes no results. -/
theorem State.raiseKeepsResults_compressWindow (s : State) : s.compressWindow.raiseKeepsResults s := by
  rcases s.compressWindow_cases with he | he | ⟨b, t, hb, -, he⟩ <;> rw [he]
  · trivial
  · exact rfl
  · have hbuilt : b.results = s.results :=
      (congrArg State.results (State.buildTree_frame hb)).trans rfl
    exact Run.raiseKeepsResults_from (State.raiseKeepsResults_emitContainer _) hbuilt

theorem State.raiseKeepsResults_decodeContainer (s : State) : s.decodeContainer.raiseKeepsResults s := by
  rcases s.decodeContainer_cases with ⟨c, p, he⟩ | he | ⟨-, he⟩ <;> rw [he]
  · exact rfl
  · trivial
  · exact s.raiseKeepsResults_parseTree _ fun u p => u.raiseKeepsResults_unpackFrom _ _

theorem State.raiseKeepsResults_decompressWindow (s : State) : s.decompressWindow.raiseKeepsResults s := by
  rcases s.decompressWindow_cases with ⟨c, p, he⟩ | he <;> rw [he]
  · exact rfl
  · exact Run.raiseKeepsResults_from (State.raiseKeepsResults_decodeContainer _) rfl

/-- R33: the commands that write OUT_BUF, each of which first writes OUT_LEN ← 0. -/
def writesOutput (i : Instr) : Prop :=
  i = .pack ∨ i = .unpack ∨ i = .sertree ∨ i = .compress ∨ i = .decompress

theorem commandRun_raise_of_writesOutput {i : Instr} (h : writesOutput i) (s : State) :
    (commandRun i s).raiseKeepsResults (s.setOutLen 0) := by
  rcases h with rfl | rfl | rfl | rfl | rfl
  · exact State.raiseKeepsResults_checkWindow (State.raiseKeepsResults_packWindow _)
  · exact State.raiseKeepsResults_checkWindow (State.raiseKeepsResults_unpackWindow _)
  · rw [commandRun]
    split
    · exact State.raiseKeepsResults_serializeTree _
    · exact rfl
  · exact State.raiseKeepsResults_checkWindow (State.raiseKeepsResults_compressWindow _)
  · exact State.raiseKeepsResults_checkWindow (State.raiseKeepsResults_decompressWindow _)

theorem commandRun_raise_of_not_writesOutput {i : Instr} (h : ¬ writesOutput i) (s : State) :
    (commandRun i s).raiseKeepsResults s := by
  cases i with
  | pack | unpack | sertree | compress | decompress => exact absurd (by simp [writesOutput]) h
  | analyze => exact State.raiseKeepsResults_checkWindow trivial
  | build => exact Run.raiseKeepsResults_from s.invalidate.raiseKeepsResults_buildTree rfl
  | derive =>
    rw [commandRun]
    split
    · exact s.raiseKeepsResults_deriveCodes
    · exact rfl
  | parsetree =>
    exact State.raiseKeepsResults_checkWindow (s.raiseKeepsResults_parseTree _ fun _ _ => trivial)
  | illegal => exact rfl
  | nop | clear | hread | hwrite => trivial

/-- R256: a command that ends with ERR set raised, and its state is the raising line's. -/
theorem exec_eq_next_of_err {i : Instr} {s t : State} (hi : i.format = .command) (ht : exec i s = .next t)
    (herr : t.err = true) : ∃ c p u, commandRun i s = .raise c p u ∧ t = u.complete (some c) p := by
  rw [exec_of_command hi] at ht
  rcases Run.complete_eq_next ht with ⟨u, -, rfl⟩ | hraised
  · exact nomatch herr
  · exact hraised

/-! ## The obligations -/

/-- Settles O22: what a raising line leaves in OUT_LEN and IN_POS is what the command found there, after OUT_LEN ← 0 in an
output-writing command. -/
theorem failedCommandHasNoOutput : Obligations.FailedCommandHasNoOutput := by
  intro s t i hi ht herr
  obtain ⟨c, p, u, hrun, rfl⟩ := exec_eq_next_of_err hi ht herr
  by_cases hout : writesOutput i
  case pos =>
    have hraise := commandRun_raise_of_writesOutput hout s
    rw [hrun] at hraise
    obtain ⟨houtLen, hinPos⟩ := Prod.mk.inj hraise
    exact ⟨hinPos, fun _ => houtLen⟩
  case neg =>
    have hraise := commandRun_raise_of_not_writesOutput hout s
    rw [hrun] at hraise
    obtain ⟨-, hinPos⟩ := Prod.mk.inj hraise
    exact ⟨hinPos, fun h => absurd h hout⟩

/-- Settles O19: a start and a STATUS write with bit 1 clear DONE, and a completion sets it. -/
theorem interruptLine : Obligations.InterruptLine := by
  refine fun s addr wdata => ⟨s.irq_eq_readReg, fun haddr hidle => ?start, fun haddr hbit => ?clear, ?completion⟩
  case start => exact ⟨_, exec_hwrite_reg haddr (.inl hidle), State.irq_of_not_done rfl⟩
  case clear =>
    refine ⟨_, exec_hwrite_reg haddr (.inr rfl), State.irq_of_not_done ?_⟩
    rw [State.answerWrite_done, State.writeReg_status, hbit, Bool.not_true, Bool.and_false]
  case completion => exact ⟨_, exec_nop s, State.irq_of_done rfl⟩

/-- Settles O21, cause by cause. -/
theorem errorWordOfEachCause : Obligations.ErrorWordOfEachCause := by
  intro s pos c
  rw [s.error_complete_some c pos]
  cases c <;> rfl

end Sys2Proof.Machine
end

section
/-! SUPPORT. Progress (60_exceptions.md rule R257, 70_reset_and_hazards.md rule R293): over a tree of 10_state.md rule R53 no
walk leaves the arena, so no command's lines end in the model's `notATree`. -/

namespace Sys2Proof.Machine

/-! ## Walks over a held tree -/

/-- R203: a decoding walk stays in the tree it starts in, whatever the bits are. -/
theorem walkSymbol_ne_notATree {s : State} {t : CodeTree} {i : NodeIx} (ht : t.heldAt s.nodes i) (p : Nat) :
    walkSymbol s (8 * s.inLen.toNat - p) i p ≠ .notATree := by
  induction t generalizing i p with
  | leaf sym ph =>
    obtain ⟨n, hn, hleaf, -⟩ := ht
    rw [walkSymbol_of_leaf hn hleaf]
    exact nofun
  | node l r ihl ihr =>
    obtain ⟨n, hn, hleaf, hl, hr⟩ := ht
    by_cases hp : p < 8 * s.inLen.toNat
    · rw [walkSymbol_of_node hn hleaf hp]
      split
      · exact ihr hr (p + 1)
      · exact ihl hl (p + 1)
    · rw [Nat.sub_eq_zero_of_le (Nat.not_lt.1 hp), walkSymbol_of_noBits hn hleaf]
      exact nofun

theorem unpackSymbols_ne_notATree {s : State} {t : CodeTree} (ht : t.heldAt s.nodes s.root) (count j p : Nat)
    (buf : Memory) : unpackSymbols s count j p buf ≠ .notATree := by
  induction count generalizing j p buf with
  | zero => exact nofun
  | succ count ih =>
    rw [unpackSymbols]
    cases hwalk : walkSymbol s (8 * s.inLen.toNat - p) s.root p with
    | leaf sym p' => exact ih _ _ _
    | exhausted => exact nofun
    | notATree => exact absurd hwalk (walkSymbol_ne_notATree ht p)

theorem State.unpackFrom_ne_notATree {s : State} {t : CodeTree} (ht : s.holdsTree t) (count p : Nat) :
    s.unpackFrom count p ≠ .notATree := by
  rw [State.unpackFrom]
  cases hunpack : unpackSymbols s count 0 p s.outBuf with
  | done buf p' => exact nofun
  | exhausted buf => exact nofun
  | notATree => exact absurd hunpack (unpackSymbols_ne_notATree ht.1 count 0 p s.outBuf)

/-! ## The phases of the commands -/

theorem State.checkWindow_ne_notATree {s : State} {k : State → Run} (hk : k s ≠ .notATree) :
    s.checkWindow.andThen k ≠ .notATree := by
  by_cases hw : s.windowFits
  · rwa [State.checkWindow_andThen_of_fits hw]
  · rw [State.checkWindow_of_not_fits s hw]
    exact nofun

theorem State.buildTree_ne_notATree (s : State) : s.buildTree ≠ .notATree := by
  rcases s.buildTree_cases with ⟨-, he⟩ | ⟨a, k, -, -, he⟩ <;> rw [he] <;> exact nofun

theorem State.packWindow_ne_notATree (s : State) : s.packWindow ≠ .notATree := by
  rcases s.packWindow_cases with ⟨c, p, he⟩ | ⟨bits, w, -, -, -, he⟩ <;> rw [he] <;> exact nofun

theorem State.unpackWindow_ne_notATree {s : State} (hs : s.flagsTrue) : s.unpackWindow ≠ .notATree := by
  rcases s.unpackWindow_cases with ⟨c, p, he⟩ | he | ⟨hv, -, he⟩ <;> rw [he]
  · exact nofun
  · exact nofun
  · obtain ⟨t, ht⟩ := hs.1 hv
    exact State.unpackFrom_ne_notATree ht _ _

theorem State.serializeTree_ne_notATree {s : State} {t : CodeTree} (ht : s.holdsTree t) :
    s.serializeTree ≠ .notATree := by
  rw [State.serializeTree, State.descWriter_of_holdsTree ht]
  exact nofun

/-- R53, R225: a parsed descriptor is a tree, so only what goes on after it could fault. -/
theorem State.parseTree_ne_notATree (s : State) (p0 : Nat) {k : State → Nat → Run}
    (hk : ∀ u t p, u.holdsTree t → k u p ≠ .notATree) : s.parseTree p0 k ≠ .notATree := by
  rcases s.parseTree_cases p0 k with ⟨c, pos, a, -, he⟩ | ⟨r, hr, he⟩ <;> rw [he]
  · exact nofun
  · obtain ⟨t, ht⟩ := State.holdsTree_of_parseLoop hr
    exact hk _ t _ ht

theorem State.emitContainer_ne_notATree {s : State} {t : CodeTree} (ht : s.holdsTree t) :
    s.emitContainer ≠ .notATree := by
  rw [State.emitContainer, State.descWriter_of_holdsTree ht]
  split <;> exact nofun

/-- COMPRESS walks only the tree it has just built (R232), so it needs nothing of the flags. -/
theorem State.compressWindow_ne_notATree (s : State) : s.compressWindow ≠ .notATree := by
  rcases s.compressWindow_cases with he | he | ⟨b, t, -, ht, he⟩ <;> rw [he]
  · exact nofun
  · exact nofun
  · exact State.emitContainer_ne_notATree (s := b.withCodes t.table) ht

/-- DECOMPRESS walks only the tree it has just parsed (R237). -/
theorem State.decodeContainer_ne_notATree (s : State) : s.decodeContainer ≠ .notATree := by
  rcases s.decodeContainer_cases with ⟨c, p, he⟩ | he | ⟨-, he⟩ <;> rw [he]
  · exact nofun
  · exact nofun
  · exact s.parseTree_ne_notATree _ fun _ _ _ ht => State.unpackFrom_ne_notATree ht _ _

theorem State.decompressWindow_ne_notATree (s : State) : s.decompressWindow ≠ .notATree := by
  rcases s.decompressWindow_cases with ⟨c, p, he⟩ | he <;> rw [he]
  · exact nofun
  · exact State.decodeContainer_ne_notATree _

/-! ## Every command and every step -/

/-- R257: where the validity flags are true, a command's lines end, finished or raised. -/
theorem commandRun_ne_notATree (i : Instr) {s : State} (hs : s.flagsTrue) : commandRun i s ≠ .notATree := by
  cases i with
  | analyze => exact State.checkWindow_ne_notATree nofun
  | build => exact s.invalidate.buildTree_ne_notATree
  | derive =>
    rw [commandRun]
    split
    · next hv =>
      obtain ⟨t, ht⟩ := hs.1 hv
      rw [State.deriveCodes_of_holdsTree ht]
      exact nofun
    · exact nofun
  | pack => exact State.checkWindow_ne_notATree (State.packWindow_ne_notATree _)
  | unpack => exact State.checkWindow_ne_notATree (State.unpackWindow_ne_notATree (s := s.setOutLen 0) hs)
  | sertree =>
    rw [commandRun]
    split
    · next hv =>
      obtain ⟨t, ht⟩ := hs.1 hv
      exact State.serializeTree_ne_notATree (s := s.setOutLen 0) ht
    · exact nofun
  | parsetree => exact State.checkWindow_ne_notATree (s.parseTree_ne_notATree _ fun _ _ _ _ => nofun)
  | compress => exact State.checkWindow_ne_notATree (State.compressWindow_ne_notATree _)
  | decompress => exact State.checkWindow_ne_notATree (State.decompressWindow_ne_notATree _)
  | nop | clear | illegal | hread | hwrite => exact nofun

theorem Run.exists_complete_eq_next {r : Run} (h : r ≠ .notATree) : ∃ t, r.complete = .next t :=
  r.complete_stops.resolve_right fun ⟨hfault, _⟩ => h hfault

/-! ## The obligation -/

/-- Settles O58, move by move: a rest and a reset always go on, a transaction is always answered, and a command's lines
end because every walk they take is over a held tree. -/
theorem noStepFaults : Obligations.NoStepFaults := by
  intro s hs
  rcases s.nextMove_cases with ⟨hmove, -⟩ | ⟨w, hmove, -⟩ | ⟨desc, wdata, -, hmove, -⟩ | ⟨-, hmove, -⟩
  · exact ⟨_, step_of_rest hmove⟩
  · obtain ⟨t, ht⟩ := Run.exists_complete_eq_next (commandRun_ne_notATree (decodeCommand w) (s := s.takeInput) hs)
    exact ⟨t, by rw [step_of_command hmove, exec_of_command (decodeCommand_format w), ht]⟩
  · rw [safeStep, step_of_request hmove]
    rcases decodeRequest_cases desc wdata with ⟨addr, hi⟩ | ⟨addr, strb, hi⟩ <;> rw [hi]
    · exact ⟨_, exec_hread addr _⟩
    · exact ⟨_, exec_hwrite addr wdata strb _⟩
  · exact ⟨_, step_of_reset hmove⟩

end Sys2Proof.Machine
end

section
/-! SUPPORT. Reset and the race of two commands (70_reset_and_hazards.md rules R280, R282 and R290): what the registers read
as after reset, that reset meets every invariant, and what a write to CMD does on an idle and on a busy Core. -/

namespace Sys2Proof.Machine

/-! ## The state after reset -/

/-- R41: with no node in the arena the node window reads 0. -/
theorem State.readReg_nodeWindow_of_empty {s : State} (h : s.nodeCount = 0#10) :
    s.readReg .nodeInfo = 0#32 ∧ s.readReg .nodeLink = 0#32 ∧ s.readReg .nodeWlo = 0#32 ∧ s.readReg .nodeWhi = 0#32 := by
  have hnone : s.windowNode = none := State.windowNode_of_ge (by simp [h])
  simp [State.readReg, hnone]

/-- R42: with no codes the code window reads 0. -/
theorem State.readReg_codeWindow_of_invalid {s : State} (h : s.codesValid = false) :
    s.readReg .codeLen = 0#32 ∧ ∀ j, s.readReg (.codeW j) = 0#32 := by
  simp [State.readReg, State.windowCode_of_invalid h]

/-- R27: STATUS of an idle Core without a tree, an error or a nonzero opcode: DONE and HAZ alone. -/
theorem State.status_of_quiet {s : State} {haz done : Bool} (hhaz : s.haz = haz) (hdone : s.done = done)
    (hbusy : s.busy = false) (herr : s.err = false) (htree : s.treeValid = false) (hcodes : s.codesValid = false)
    (hlastOp : s.lastOp = 0#8) : s.status = 0#28 ++ BitVec.ofBool haz ++ 0#1 ++ BitVec.ofBool done ++ 0#1 := by
  rw [State.status, State.statusWith, hhaz, hdone, hbusy, herr, htree, hcodes, hlastOp]
  cases haz <;> cases done <;> decide

/-- R280: the reset value column of R22. What is pending outside the Core and the model's own counters play no part. -/
theorem State.readReg_resetStep (s : State) {r : Reg} (hid : r ≠ .id) (hversion : r ≠ .version) (hcapIn : r ≠ .capIn)
    (hcapOut : r ≠ .capOut) : s.resetStep.readReg r = 0#32 := by
  obtain ⟨hinfo, hlink, hwlo, hwhi⟩ := State.readReg_nodeWindow_of_empty (s := s.resetStep) rfl
  obtain ⟨hlen, hval⟩ := State.readReg_codeWindow_of_invalid (s := s.resetStep) rfl
  cases r with
  | id | version | capIn | capOut => contradiction
  | status => exact State.status_of_quiet (haz := false) (done := false) rfl rfl rfl rfl rfl rfl rfl
  | error => exact State.error_eq_zero rfl rfl
  | irqEn => exact (by decide : 0#31 ++ BitVec.ofBool false = 0#32)
  | payloadBitsHi => exact (by decide : (0#64).extractLsb' 32 32 = 0#32)
  | nodeInfo => exact hinfo
  | nodeLink => exact hlink
  | nodeWlo => exact hwlo
  | nodeWhi => exact hwhi
  | codeLen => exact hlen
  | codeW j => exact hval j
  | _ => rfl

theorem State.hasResetValues_resetStep (s : State) : s.resetStep.hasResetValues :=
  ⟨rfl, rfl, fun sym => symGet_replicate 0#32 sym, rfl, rfl, rfl, rfl,
    fun _ hid hversion hcapIn hcapOut => s.readReg_resetStep hid hversion hcapIn hcapOut⟩

theorem State.flagsTrue_of_invalid {s : State} (htree : s.treeValid = false) (hcodes : s.codesValid = false) :
    s.flagsTrue :=
  ⟨fun hv => by simp [htree] at hv, fun hv => by simp [hcodes] at hv⟩

/-! ## Writes to CMD -/

/-- The Host's full-word write to CMD (R131). -/
def cmdWrite (w : Word) : Input := .request (descriptor 1#1 0b1111#4 0x00000010#32) w

theorem decodeAddr_cmd (p : Params) : decodeAddr p 0x00000010#32 = .reg .cmd := decodeAddr_of_offset (r := .cmd) rfl

/-- R131: on an idle Core a CMD write starts the command. -/
theorem step_cmdWrite_of_idle {s : State} {w : Word} {rest : List Input} (hidle : s.busy = false)
    (hin : s.inputs = cmdWrite w :: rest) :
    step s = .next ((State.startCommand { s with inputs := rest } w).answerWrite true) := by
  rw [step_of_request (State.nextMove_of_request hin), decodeRequest_descriptor_write, State.takeInput_of_cons hin]
  exact exec_hwrite_reg (s := { s with inputs := rest }) (decodeAddr_cmd s.params) (.inl hidle)

/-- R285: on a busy Core a CMD write is dropped and sets HAZ. -/
theorem step_cmdWrite_of_busy {s : State} {w : Word} {rest : List Input} (hbusy : s.busy = true)
    (hin : s.inputs = cmdWrite w :: rest) :
    step s = .next { s with inputs := rest, haz := true, resp := .write true } := by
  rw [step_of_request (State.nextMove_of_request hin), decodeRequest_descriptor_write, State.takeInput_of_cons hin,
    exec_hwrite]
  exact congrArg Host.Outcome.next
    (State.busWrite_of_dropped (s := { s with inputs := rest }) hbusy (decodeAddr_cmd s.params) rfl rfl)

/-- R136: a Core that runs NOP and whose turn it is completes it. -/
theorem step_nop {s : State} (hseq : s.seq = .exec 0x00000000#32)
    (hturn : s.inputs = [] ∨ ∃ rest, s.inputs = .coreTurn :: rest) : step s = .next (s.takeInput.complete none 0) :=
  (step_of_command ((State.nextMove_of_coreTurn hturn).trans (State.coreMove_of_exec hseq))).trans (exec_nop _)

/-- A run whose first step goes on is the run from there. -/
theorem exists_run_of_step {k : Nat} {s t : State} {P : State → Prop} (hstep : step s = .next t)
    (hrun : ∃ u, core.run k t = .next u ∧ P u) : ∃ u, core.run (k + 1) s = .next u ∧ P u := by
  obtain ⟨u, hu, hP⟩ := hrun
  have hstep' : core.step s = .next t := hstep
  exact ⟨u, by simp only [Host.Core.run, hstep', hu], hP⟩

/-! ## The obligations -/

/-- Settles O5: the reset step is the next move, and `State.reset` reads the same registers as the state it leaves. -/
theorem resetStepGivesResetValues : Obligations.ResetStepGivesResetValues := by
  refine ⟨fun s rest hin => ?_, rfl, State.reset.hasResetValues_resetStep⟩
  refine ⟨_, step_of_reset (State.nextMove_of_resetPulse hin), rfl, ?_, s.takeInput.hasResetValues_resetStep⟩
  rw [State.takeInput_of_cons hin, State.resetStep_inputs]

/-- Settles O57: nothing is written to either buffer, nothing runs, and both flags are clear. -/
theorem resetMeetsTheInvariants : Obligations.ResetMeetsTheInvariants :=
  ⟨rfl, rfl, fun p _ =>
    ⟨wf_resetFor p, (State.resetFor p).lifecycleOk_resetStep, ⟨nofun, fun _ => ⟨rfl, rfl, rfl, rfl⟩⟩,
      State.flagsTrue_of_invalid rfl rfl, rfl, Nat.two_pow_pos 48, Nat.zero_le _⟩⟩

/-- Settles O6: both runs, step by step. With the Core's turn between the writes the second one finds it idle again; without
it the second write finds the first NOP running and is dropped. -/
theorem backToBackCommandsRace : Obligations.BackToBackCommandsRace := by
  constructor
  case left =>
    refine exists_run_of_step (step_cmdWrite_of_idle rfl rfl) ?_
    refine exists_run_of_step (step_nop rfl (.inr ⟨_, rfl⟩)) ?_
    refine exists_run_of_step (step_cmdWrite_of_idle rfl rfl) ?_
    refine exists_run_of_step (step_nop rfl (.inl rfl)) ?_
    exact ⟨_, rfl, (State.status_of_quiet rfl rfl rfl rfl rfl rfl rfl).trans (by decide)⟩
  case right =>
    refine exists_run_of_step (step_cmdWrite_of_idle rfl rfl) ?_
    refine exists_run_of_step (step_cmdWrite_of_busy rfl rfl) ?_
    refine exists_run_of_step (step_nop rfl (.inl rfl)) ?_
    exact ⟨_, rfl, (State.status_of_quiet rfl rfl rfl rfl rfl rfl rfl).trans (by decide)⟩

end Sys2Proof.Machine
end
